-- ==== Sys2Proof/Word.lean ====
section
/-!
DEFINITION. Sys2Proof/Word.lean: the words of the Dyquin D9 and their format tags.
Little-endian everywhere (R3); bit 0 is the least significant bit (R2).
-/
namespace Sys2Proof

/-- A 32-bit register word. -/
abbrev Word := BitVec 32

/-- A 64-bit value: a register pair (R93), an address, a program counter. -/
abbrev DWord := BitVec 64

/-- A byte of any space. -/
abbrev Byte := BitVec 8

/-- The format tag beside every V and S register word (R80, Table 4.4). The reserved codes 0xB to 0xE
have no constructor: a register never holds one. -/
inductive Tag where
  | raw | i32 | w32 | f32 | bf2 | h2 | e4q | e5q | i8q | w8q | npl | psn
deriving DecidableEq, Repr

/-- The 4-bit code of a tag (Table 4.4). -/
def Tag.code : Tag → BitVec 4
  | .raw => 0x0 | .i32 => 0x1 | .w32 => 0x2 | .f32 => 0x3 | .bf2 => 0x4 | .h2 => 0x5
  | .e4q => 0x6 | .e5q => 0x7 | .i8q => 0x8 | .w8q => 0x9 | .npl => 0xA | .psn => 0xF

/-- A 32-bit word with its tag. -/
structure TWord where
  bits : Word
  tag : Tag
deriving DecidableEq, Repr

/-- A register at launch that the launch does not load: 0, tagged RAW (R81). -/
def TWord.zero : TWord := { bits := 0, tag := .raw }

/-- Poison: the value bits are zero (Table 4.4). -/
def TWord.poison : TWord := { bits := 0, tag := .psn }

/-- The five floating-point formats (R73, Table 4.1). -/
inductive Fmt where
  | f32 | bf16 | f16 | e4m3 | e5m2
deriving DecidableEq, Repr

/-- The four rounding modes (R85). -/
inductive RM where
  | rne | rz | ru | rd
deriving DecidableEq, Repr

/-- The scopes, narrowest first (R6, Table 3.2). -/
inductive Scope where
  | core | cluster | die | pkg | system
deriving DecidableEq, Repr

end Sys2Proof
end

