-- ==== Sys2Proof/Syntax.lean ====
section
/-!
DEFINITION. Sys2Proof/Syntax.lean: the steps of the Dyquin D9, one constructor of Instr per row of
spec/opcode_table.json: the SIMT instructions (R52), the sequencer slot words (R63), and the events.
-/
namespace Sys2Proof

/-- The special registers of Table 3.5, in code order from 0x150. -/
inductive SReg where
  | lane | slot | warp | quad | core | die | chip | team | teamx | teamy | teamz
  | gridx | gridy | gridz | gid0 | gid1 | gid2 | gid3 | ctx | time | timeh | tbase | ntile
  | wsref | dfault | issued | clus
deriving DecidableEq, Repr

/-- A register operand field (Table 3.3), or the immediate that takes the place of source B (R53). -/
inductive Opd where
  | v (n : BitVec 8)
  | s (n : BitVec 6)
  | p (n : BitVec 3)
  | j (n : BitVec 3)
  | k (r : SReg)
  | z
  | t (n : BitVec 9)
  | imm (w : Word)
deriving DecidableEq, Repr

/-- Guard and hints of a SIMT word (Table 3.1): neg and pred are GRD, pri to yld are HINT. -/
structure Head where
  neg : Bool
  pred : BitVec 3
  pri : BitVec 2
  last : Bool
  rb : Bool
  ra : Bool
  yld : Bool
deriving DecidableEq, Repr

/-- Comparison codes (Table 5.2). -/
inductive Cmp where
  | eq | ne | lt | le | gt | ge | num | nan
deriving DecidableEq, Repr

/-- JSET modes (Table 13.1). -/
inductive JMode where
  | set | or | andn | pres
deriving DecidableEq, Repr

/-- ISAT destination widths (R98). -/
inductive SatW where
  | i8 | w8 | i16 | w16
deriving DecidableEq, Repr

/-- Scalar formats of CVT (R113). -/
inductive SFmt where
  | f32 | i32 | w32
deriving DecidableEq, Repr

/-- PACK4 destination elements (Table 5.7). -/
inductive Pk4 where
  | e4m3 | e5m2 | i8 | w8
deriving DecidableEq, Repr

/-- UNPK source elements (R115). -/
inductive UnFmt where
  | bf16 | f16 | e4m3 | e5m2 | i8 | w8
deriving DecidableEq, Repr

/-- SHFL, VOTE and WRED modes (Table 5.9). -/
inductive ShflMode where
  | idx | up | down | xor
deriving DecidableEq, Repr

inductive VoteMode where
  | all | any | eq | bal
deriving DecidableEq, Repr

inductive WredOp where
  | add | min | max
deriving DecidableEq, Repr

/-- Load types (Table 9.3). -/
inductive LdTy where
  | b32 | i32 | w32 | f32 | bf2 | h2 | e4q | e5q | i8q | w8q | npl | i8 | w8 | i16 | w16 | b64
deriving DecidableEq, Repr

/-- Store sizes (R200). -/
inductive StSz where
  | b8 | b16 | b32 | b64
deriving DecidableEq, Repr

/-- Atomic operations (Table 9.4), and the ordering roles of ATOM (R205). -/
inductive AtOp where
  | add | min | max | and | or | xor | exch | cas | inc | dec
deriving DecidableEq, Repr

inductive Role where
  | acq | rel | ar
deriving DecidableEq, Repr

/-- SEM operations (R207): the addend, the read, and the compare value with its new value. -/
inductive SemOp where
  | add (a : Opd)
  | rd
  | cas (a c : Opd)
deriving DecidableEq, Repr

/-- FENCE kinds (R208). -/
inductive FKind where
  | acq | rel | ar | all
deriving DecidableEq, Repr

/-- CPY end kinds (R211). -/
inductive CKind where
  | gm | sp | rs | ws
deriving DecidableEq, Repr

/-- The second source of a C slot scalar word: YB, or IV when IM = 1 (Table 7.1). -/
inductive YSrc where
  | y (n : BitVec 5)
  | imm (w : Word)
deriving DecidableEq, Repr

/-- YCMP codes (Table 7.5). -/
inductive YCmp where
  | eq | ne | lt | le | gt | ge | ltu | geu
deriving DecidableEq, Repr

/-- The actions of MBEAT (Table 7.6). A source or destination is a tile strip or an operand slot. -/
structure PushF where
  krow : BitVec 6
  slot : BitVec 7
  ofs8 : BitVec 8
deriving DecidableEq, Repr

structure FeedF where
  fromSlot : Bool
  base : BitVec 9
  row : BitVec 4
deriving DecidableEq, Repr

structure AccF where
  anew : Bool
  base : BitVec 9
  row : BitVec 4
deriving DecidableEq, Repr

/-- DRAIN formats (Table 7.6). -/
inductive DFmt where
  | d32 | bf16 | f16 | e4m3 | e5m2 | i8
deriving DecidableEq, Repr

structure DrainF where
  toSlot : Bool
  base : BitVec 9
  row : BitVec 4
  fmt : DFmt
  sat : Bool
deriving DecidableEq, Repr

/-- The array modes (Table 7.7). -/
inductive AMode where
  | w16 | w8f | int | npbf | npi8 | lut
deriving DecidableEq, Repr

/-- The exponent of XSCALE: immediate, or slot and row (Table 7.9). -/
inductive XExp where
  | imm (e : Byte)
  | row (slot : BitVec 7) (row : BitVec 5)
deriving DecidableEq, Repr

/-- The bias stage: slot and first row. The clamp stage: lower and upper Y registers. -/
structure XBiasF where
  slot : BitVec 7
  row : BitVec 5
deriving DecidableEq, Repr

structure XClampF where
  lo : BitVec 5
  hi : BitVec 5
deriving DecidableEq, Repr

/-- The other side of a KFILL or KSTORE (Table 7.10). -/
inductive KFrom where
  | sp (ya : BitVec 5)
  | ws (ya : BitVec 5)
  | tl (tb : BitVec 9)
deriving DecidableEq, Repr

inductive KTo where
  | sp (ya : BitVec 5)
  | tl (tb : BitVec 9) (tag : BitVec 4)
deriving DecidableEq, Repr

/-- Where the loader places one team (R273): its core, the offset of its scratchpad window, its
semaphore set, and the slot and first tile of each of its warps. -/
structure Place where
  core : Nat
  scr : Nat
  sem : Nat
  warps : List (Nat × Nat)
deriving DecidableEq, Repr

/-- The four decide-once actions (R249). -/
inductive CellOp where
  | init | prop | read | recyc
deriving DecidableEq, Repr

/-- What a peer chip's request asks (R184, R373). -/
inductive PeerAct where
  | read (n : Nat)
  | write (data : List Byte)
  | atom (op : AtOp) (w64 u : Bool) (v cmp : DWord)
  | cell (op : CellOp) (g : Word) (value : DWord) (ident : Word)
deriving DecidableEq, Repr

/-- The steps. SIMT instructions carry their head; D, A, B, C are the operands of R52 in the order
written (R32). An immediate-only operand is a Word. ord is none where the word carries no role. -/
inductive Instr where
  -- control (13, R285)
  | nop (h : Head)
  | bra (h : Head) (disp : BitVec 36)
  | brx (h : Head) (a : Opd)
  | call (h : Head) (disp : BitVec 36)
  | callx (h : Head) (a : Opd)
  | ret (h : Head) (a : Opd)
  | exit (h : Head)
  | arj (h : Head) (d : Opd)
  | jset (h : Head) (md : JMode) (d : Opd) (b : Option Opd)
  | waitj (h : Head) (a : Opd)
  | waitjComplete (core warp : Nat)
  | spawn (h : Head) (a b : Opd)
  | spawnPlace (core warp lane : Nat)
  | spawnBinLaunch (core bin : Nat)
  | spawnBinTimer (core bin : Nat)
  | yield (h : Head) (n : Word)
  | yieldExpiry (core warp : Nat)
  | trap (h : Head) (code : Word)
  | chk (h : Head) (a : Opd)
  | bkpt (h : Head) (n : Word)
  -- integer (05, R98)
  | iadd (h : Head) (u sat : Bool) (d a b : Opd)
  | isub (h : Head) (u sat : Bool) (d a b : Opd)
  | imul (h : Head) (u sat : Bool) (d a b : Opd)
  | imulh (h : Head) (u : Bool) (d a b : Opd)
  | imad (h : Head) (u sat : Bool) (d a b c : Opd)
  | imin (h : Head) (u : Bool) (d a b : Opd)
  | imax (h : Head) (u : Bool) (d a b : Opd)
  | iabs (h : Head) (sat : Bool) (d a : Opd)
  | ineg (h : Head) (sat : Bool) (d a : Opd)
  | isetp (h : Head) (cc : Cmp) (u bop : Bool) (d a b c : Opd)
  | sel (h : Head) (u : Bool) (d a b c : Opd)
  | lea (h : Head) (u : Bool) (sh : BitVec 3) (d a b : Opd)
  | addw (h : Head) (u x32 : Bool) (d a b : Opd)
  | mulw (h : Head) (u : Bool) (d a b : Opd)
  | isat (h : Head) (wd : SatW) (u : Bool) (d a : Opd)
  -- logic, shift, bit field, move (R102)
  | and (h : Head) (d a b : Opd)
  | or (h : Head) (d a b : Opd)
  | xor (h : Head) (d a b : Opd)
  | not (h : Head) (d a : Opd)
  | shl (h : Head) (d a b : Opd)
  | shr (h : Head) (d a b : Opd)
  | sar (h : Head) (d a b : Opd)
  | rotl (h : Head) (d a b : Opd)
  | popc (h : Head) (d a : Opd)
  | clz (h : Head) (d a : Opd)
  | brev (h : Head) (d a : Opd)
  | bfx (h : Head) (sx : Bool) (d a b : Opd)
  | bfi (h : Head) (d a b c : Opd)
  | prmt (h : Head) (d a b c : Opd)
  | mov (h : Head) (d a : Opd)
  | movi (h : Head) (tg : Tag) (d : Opd) (imm : Word)
  -- FP32 (R105)
  | fadd (h : Head) (rm : RM) (d a b : Opd)
  | fsub (h : Head) (rm : RM) (d a b : Opd)
  | fmul (h : Head) (rm : RM) (d a b : Opd)
  | ffma (h : Head) (rm : RM) (d a b c : Opd)
  | fmin (h : Head) (d a b : Opd)
  | fmax (h : Head) (d a b : Opd)
  | fsetp (h : Head) (cc : Cmp) (bop : Bool) (d a b c : Opd)
  | frnd (h : Head) (rm : RM) (d a : Opd)
  | fclass (h : Head) (d a : Opd) (mask : Word)
  | fscalb (h : Head) (rm : RM) (d a b : Opd)
  -- packed and dot products (R109); ty false is BF2, true is H2
  | hadd2 (h : Head) (ty : Bool) (rm : RM) (sat : Bool) (d a b : Opd)
  | hmul2 (h : Head) (ty : Bool) (rm : RM) (sat : Bool) (d a b : Opd)
  | hfma2 (h : Head) (ty : Bool) (rm : RM) (sat : Bool) (d a b c : Opd)
  | hmin2 (h : Head) (ty : Bool) (d a b : Opd)
  | hmax2 (h : Head) (ty : Bool) (d a b : Opd)
  | hsetp2 (h : Head) (ty : Bool) (cc : Cmp) (any : Bool) (d a b : Opd)
  | dot2 (h : Head) (rm : RM) (sat : Bool) (d a b c : Opd)
  | dot4 (h : Head) (au bu sat : Bool) (d a b c : Opd)
  -- conversion and tags (R112)
  | cvt (h : Head) (df sf : SFmt) (rm : RM) (sat : Bool) (d a : Opd)
  | pack2 (h : Head) (f16 : Bool) (rm : RM) (sat : Bool) (d a b : Opd)
  | pack4 (h : Head) (fm : Pk4) (si hi : Bool) (rm : RM) (sat : Bool) (d a b c : Opd)
  | unpk (h : Head) (fm : UnFmt) (n : BitVec 2) (d a : Opd)
  | plnget (h : Head) (d a b c : Opd)
  | plnput (h : Head) (d a b c : Opd)
  | tagset (h : Head) (tg : Tag) (d a : Opd)
  | tagget (h : Head) (d a : Opd)
  -- special functions (R118)
  | rcp (h : Head) (d a : Opd)
  | rsq (h : Head) (d a : Opd)
  | sqrt (h : Head) (rm : RM) (d a : Opd)
  | exp2 (h : Head) (d a : Opd)
  | log2 (h : Head) (d a : Opd)
  | sinpi (h : Head) (d a : Opd)
  | cospi (h : Head) (d a : Opd)
  | tanh (h : Head) (d a : Opd)
  | erf (h : Head) (d a : Opd)
  -- cross-lane (R119)
  | shfl (h : Head) (md : ShflMode) (d a b : Opd)
  | vote (h : Head) (md : VoteMode) (d a : Opd)
  | matchLanes (h : Head) (d a : Opd)
  | wred (h : Head) (op : WredOp) (ty : SFmt) (rm : RM) (sat : Bool) (d a : Opd)
  -- loads and stores (09, R200)
  | ldg (h : Head) (ord : Option Scope) (spec : Bool) (ty : LdTy) (d a : Opd) (ofs : BitVec 24)
  | stg (h : Head) (ord : Option Scope) (sz : StSz) (a b : Opd) (ofs : BitVec 24)
  | lds (h : Head) (ty : LdTy) (d a : Opd) (ofs : BitVec 24)
  | sts (h : Head) (sz : StSz) (a b : Opd) (ofs : BitVec 24)
  | ldp (h : Head) (ty : LdTy) (d a : Opd) (ofs : BitVec 24)
  | stp (h : Head) (sz : StSz) (a b : Opd) (ofs : BitVec 24)
  | ldw (h : Head) (ty : LdTy) (d a : Opd) (ofs : BitVec 24)
  | ldsr (h : Head) (ty : LdTy) (d a : Opd) (ofs : BitVec 24)
  | stsr (h : Head) (sz : StSz) (a b : Opd) (ofs : BitVec 24)
  | loadDataReturn (id : Nat)
  -- atomics, semaphores, fences, copies, barriers (09)
  | atom (h : Head) (op : AtOp) (w64 u : Bool) (ord : Option (Role × Scope)) (d a b : Opd) (ofs : BitVec 24)
  | atoms (h : Head) (op : AtOp) (w64 u : Bool) (d a b : Opd) (ofs : BitVec 24)
  | sem (h : Head) (op : SemOp) (d : Opd) (n : Word)
  | fence (h : Head) (kind : FKind) (sc : Scope)
  | wbr (h : Head) (sc : Scope) (a b : Opd) (ofs : BitVec 24)
  | invr (h : Head) (sc : Scope) (a b : Opd) (ofs : BitVec 24)
  | pref (h : Head) (l2 : Bool) (a : Opd) (ofs : BitVec 24)
  | cpy (h : Head) (dk sk : CKind) (post : Bool) (d a b c : Opd)
  | cpyt (h : Head) (post : Bool) (d a b c : Opd)
  | copyComplete (id : Nat)
  | binit (h : Head) (sc : Scope) (a b : Opd) (ofs : BitVec 24)
  | expect (h : Head) (rem : Bool) (a b : Opd) (ofs : BitVec 24)
  | arrive (h : Head) (rlx warp rem : Bool) (d a : Opd) (ofs : BitVec 24)
  | bwait (h : Head) (d a b : Opd) (ofs : BitVec 24)
  | bwaitComplete (core warp lane : Nat)
  | bwaitTimeout (core warp lane : Nat)
  | btest (h : Head) (d a b : Opd) (ofs : BitVec 24)
  | gbar (h : Head) (k : BitVec 2) (d : Opd)
  | gbarComplete (launch group : Nat)
  -- decide-once cells (11)
  | dinit (h : Head) (ord : Option Scope) (d a b : Opd) (ofs : BitVec 24)
  | dprop (h : Head) (ord : Option Scope) (d a b : Opd) (ofs : BitVec 24)
  | dread (h : Head) (ord : Option Scope) (d a b : Opd) (ofs : BitVec 24)
  | drecyc (h : Head) (ord : Option Scope) (d a b : Opd) (ofs : BitVec 24)
  | decideOnceHomeAction (id : Nat)
  | genHoldExpiry (id : Nat)
  | decideOnceResult (id : Nat) (install : Bool)
  | decidedCopyExpiry (idx : Nat)
  -- tile ownership (07, R171); cnt is CNT, one less than the number of tiles
  | give (h : Head) (cnt : BitVec 5) (a : Opd) (owner : Word)
  | take (h : Head) (cnt : BitVec 5) (a : Opd)
  | takeComplete (core warp : Nat)
  | town (h : Head) (d a : Opd)
  -- system (16, R346)
  | csrr (h : Head) (d : Opd) (csr : Word)
  | csrw (h : Head) (csr : Word) (a : Opd)
  | rte (h : Head)
  | hread (h : Head) (d sel : Opd)
  | hwrite (h : Head) (sel a : Opd)
  | mboxRd (h : Head) (d ofs : Opd)
  | mboxWr (h : Head) (ofs a : Opd)
  | mboxSig (h : Head)
  | handlerDispatch (core : Nat)
  | handlerBudgetExpiry (core : Nat)
  | warpUrgent (core warp : Nat)
  -- C slot (07, R147)
  | cnop
  | sbr (seg : BitVec 53) (idx : BitVec 8)
  | sbrc (neg : Bool) (bp : BitVec 2) (seg : BitVec 53) (idx : BitVec 8)
  | yadd (yd ya : BitVec 5) (b : YSrc)
  | ysub (yd ya : BitVec 5) (b : YSrc)
  | ymov (yd : BitVec 5) (b : YSrc)
  | ycmp (cc : YCmp) (bd : BitVec 2) (ya : BitVec 5) (b : YSrc)
  | yshl (yd ya : BitVec 5) (b : YSrc)
  | stake (tn : BitVec 5) (tb : BitVec 9)
  | sgive (tn : BitVec 5) (tb : BitVec 9) (rc : Byte)
  | sarrive (ya : BitVec 5)
  | swait (yd ya yb : BitVec 5) (iv : Word)
  | swaitTimeout (core : Nat)
  | retirept
  | shalt
  | sfence
  -- M slot (R158)
  | mnop
  | mbeat (push : Option PushF) (feed : Option FeedF) (acc : Option AccF) (drain : Option DrainF) (swap : Bool)
  | mswap
  | mcfg (md : AMode) (af wf : Bool) (nk : BitVec 4)
  | mzero
  -- X slot (R166)
  | xnop
  | xscale (e : XExp) (bias : Option XBiasF) (clamp : Option XClampF)
  | xbias (bias : XBiasF) (clamp : Option XClampF)
  | xsat (clamp : XClampF)
  -- K slot (R168)
  | knop
  | kclaim (q : BitVec 7)
  | krel (q : BitVec 7)
  | kfill (q : BitVec 7) (row nr : BitVec 5) (src : KFrom)
  | kstore (q : BitVec 7) (row nr : BitVec 5) (dst : KTo)
  | kTransferLanded (core kid : Nat)
  | seqInterlockRelease (core : Nat)
  | segmentExpansion (core : Nat)
  | wsRefreshWindow
  | seqStop (core : Nat)
  -- memory system events
  | leaseGrant (id len : Nat)
  | leaseExpiry (core idx : Nat)
  | leaseWritePerform (id : Nat)
  | atomicPerform (id : Nat)
  | fillArrival (id : Nat)
  | evictionWriteback (core idx : Nat)
  | translationWalk (die tag : Nat) (va : DWord)
  | pageRequestResponse (id : Nat) (success : Bool)
  | portTimeout (id : Nat)
  -- queues, launches, teams (12)
  | queuePacketConsume (q : Nat)
  | launchPacket (q : Nat)
  | copyPacket (q : Nat)
  | copyPacketComplete (id : Nat)
  | reclaimFence (q : Nat)
  | weightStoreWrite (q : Nat)
  | weightStoreWriteDone (q : Nat)
  | queueSwitch (die : Nat)
  | teamStart (launch : Nat) (places : List Place)
  | teamSliceExpiry (core team : Nat)
  | launchComplete (launch : Nat)
  | commit (core team : Nat)
  -- contexts, partitions, host registers (14, 15, 18); fn 0 is the physical function, p + 1 partition p's
  | create (fn ctx : Nat) (inc : Byte)
  | kill (fn ctx : Nat)
  | killSequenceEnd (ctx : Nat)
  | resume (fn ctx : Nat)
  | destroy (fn ctx : Nat)
  | reclaimComplete (ctx inc : Nat)
  | translationInvalidation (fn : Nat)
  | invalidationComplete (fn : Nat)
  | enable (p : Nat)
  | disable (p : Nat)
  | pswap (p : Nat)
  | pswapComplete (p : Nat)
  | register (fn q : Nat)
  | unregister (fn q : Nat)
  | powerStateChange (target : BitVec 3)
  | powerTransitionDone
  | tripclr
  | thermalTrip
  | clkcap (v : Word)
  | gate (mask : Word)
  | peerTableWrite (n : Nat) (v : Word)
  | registerWrite (fn ofs : Nat) (v : DWord)
  | keySlotLoad (fn slot : Nat) (ct wrap : List Byte)
  | attestationReport (fn : Nat) (nonce : List Byte)
  | firmwareBoot (image : List Byte)
  | hostMemoryRequest (fn addr : Nat) (write : Bool) (data : List Byte)
  | hostAtomicop (fn addr : Nat) (op : AtOp) (w64 : Bool) (v cmp : DWord)
  | fabricRequest (src : Nat) (epoch : Byte) (addr : Nat) (act : PeerAct)
  -- Quince monitor (17, R362)
  | quinceRequest (core : Nat)
  | quinceHalt (core warp : Nat)
  | quinceResume (core target : Nat) (act : BitVec 2)
  | rdreg (core target lane : Nat) (sel : Word)
  | wrreg (core target lane : Nat) (sel : Word) (v : TWord)
  | rdmem (core target : Nat) (va : DWord) (n : Nat)
  | wrmem (core target : Nat) (va : DWord) (data : List Byte)
  | debug (core : Nat) (mask : DWord) (step frz catch_ : Bool)
  | seqstop (core : Nat) (n : DWord)
  | seqdump (core first : Nat)
  | cycles (core : Nat)
  | prof (core : Nat) (ring : DWord) (period entries : Nat)
  | profSample (core : Nat)
  | unassignedOpcode (h : Head) (opc : Byte)
  | unassignedSlotOpcode (slot : BitVec 2) (opc : Byte)
  | atsInvalidation (fn addr len : Nat)
  | remoteBarrierAction (id : Nat)
  | targetAcknowledgement (id : Nat)
deriving DecidableEq, Repr

end Sys2Proof
end

