-- ==== Sys2Proof/Machine/Float.lean ====
section
/-!
DEFINITION. Sys2Proof/Machine/Float.lean: the five floating-point formats (R73-R75), the one rounding of R85 and R86 from
an exact value, exact sums and products, comparisons (Table 5.2, R107), and the conversions of Table 4.7.

A finite value is kept exactly as (-1)^neg * m * 2^e, so every operation rounds once, at its end.
-/
namespace Sys2Proof

/-- An exact value. A zero has m = 0 and keeps its sign. -/
inductive FV where
  | nan
  | inf (neg : Bool)
  | fin (neg : Bool) (m : Nat) (e : Int)

/-- Fraction bits, bias, total bits, largest finite code and canonical NaN (Table 4.1). -/
def Fmt.mbits : Fmt → Nat
  | .f32 => 23 | .bf16 => 7 | .f16 => 10 | .e4m3 => 3 | .e5m2 => 2
def Fmt.bias : Fmt → Nat
  | .f32 => 127 | .bf16 => 127 | .f16 => 15 | .e4m3 => 7 | .e5m2 => 15
def Fmt.bits : Fmt → Nat
  | .f32 => 32 | .bf16 => 16 | .f16 => 16 | .e4m3 => 8 | .e5m2 => 8
def Fmt.maxCode : Fmt → Nat
  | .f32 => 0x7F7FFFFF | .bf16 => 0x7F7F | .f16 => 0x7BFF | .e4m3 => 0x7E | .e5m2 => 0x7B
def Fmt.nanCode : Fmt → Nat
  | .f32 => 0x7FC00000 | .bf16 => 0x7FC0 | .f16 => 0x7E00 | .e4m3 => 0x7F | .e5m2 => 0x7E

/-- The exponent of the smallest subnormal. -/
def Fmt.minExp (f : Fmt) : Int := 1 - (f.bias : Int) - (f.mbits : Int)

def Fmt.signBit (f : Fmt) (neg : Bool) : Nat := if neg then 2 ^ (f.bits - 1) else 0

/-- The code without its sign, and the sign. -/
def Fmt.mag (f : Fmt) (c : Nat) : Nat := c % 2 ^ (f.bits - 1)
def Fmt.neg (f : Fmt) (c : Nat) : Bool := decide (c % 2 ^ f.bits ≥ 2 ^ (f.bits - 1))

def Fmt.isNaN (f : Fmt) (c : Nat) : Bool :=
  match f with
  | .e4m3 => f.mag c == 0x7F
  | _ => decide (f.mag c > f.maxCode + 1)

def Fmt.isInf (f : Fmt) (c : Nat) : Bool :=
  match f with
  | .e4m3 => false
  | _ => f.mag c == f.maxCode + 1

/-- The value of a code (R73, R74). -/
def Fmt.decode (f : Fmt) (c : Nat) : FV :=
  if f.isNaN c then .nan
  else if f.isInf c then .inf (f.neg c)
  else
    let ex := f.mag c / 2 ^ f.mbits
    let fr := f.mag c % 2 ^ f.mbits
    if ex = 0 then .fin (f.neg c) fr f.minExp
    else .fin (f.neg c) (2 ^ f.mbits + fr) (f.minExp + (ex : Int) - 1)

/-- An infinite result (R86): under SAT the largest finite value; in E4M3 the canonical NaN. -/
def Fmt.infCode (f : Fmt) (sat neg : Bool) : Nat :=
  if sat then f.signBit neg + f.maxCode
  else match f with
    | .e4m3 => f.nanCode
    | _ => f.signBit neg + f.maxCode + 1

/-- Table 4.6. -/
def Fmt.overflow (f : Fmt) (rm : RM) (sat neg : Bool) : Nat :=
  let big := f.signBit neg + f.maxCode
  match rm, neg with
  | .rne, _ => f.infCode sat neg
  | .rz, _ => big
  | .ru, false => f.infCode sat neg
  | .ru, true => big
  | .rd, false => big
  | .rd, true => f.infCode sat neg

/-- Whether a magnitude with quotient k, remainder r and divisor d is rounded up (R85). -/
def roundsUp (rm : RM) (neg : Bool) (k r d : Nat) : Bool :=
  match rm with
  | .rne => decide (2 * r > d) || (decide (2 * r = d) && k % 2 == 1)
  | .rz => false
  | .ru => !neg && decide (r ≠ 0)
  | .rd => neg && decide (r ≠ 0)

/-- m * 2^e to a multiple of 2^q, as the multiple. A shift beyond the length of m only leaves a sticky remainder. -/
def roundAt (rm : RM) (neg : Bool) (m : Nat) (e q : Int) : Nat :=
  if q ≤ e then m * 2 ^ (e - q).toNat
  else
    let sh := min (q - e).toNat (Nat.log2 m + 3)
    let d := 2 ^ sh
    let k := m / d
    if roundsUp rm neg k (m % d) d then k + 1 else k

/-- The rounding of R85 with the overflow of R86: the code of a finite exact value. -/
def Fmt.round (f : Fmt) (rm : RM) (sat neg : Bool) (m : Nat) (e : Int) : Nat :=
  if m = 0 then f.signBit neg
  else
    let top : Int := (Nat.log2 m : Int) + e
    if top > (f.bias : Int) + 2 then f.overflow rm sat neg
    else
      let q := max (top - (f.mbits : Int)) f.minExp
      let code := (q - f.minExp).toNat * 2 ^ f.mbits + roundAt rm neg m e q
      if code > f.maxCode then f.overflow rm sat neg else f.signBit neg + code

/-- The code of an exact value. -/
def Fmt.ofFV (f : Fmt) (rm : RM) (sat : Bool) : FV → Nat
  | .nan => f.nanCode
  | .inf neg => f.infCode sat neg
  | .fin neg m e => f.round rm sat neg m e

-- Exact arithmetic ---------------------------------------------------------------------------------------------

def FV.neg : FV → FV
  | .nan => .nan
  | .inf s => .inf (!s)
  | .fin s m e => .fin (!s) m e

def FV.isNaN : FV → Bool
  | .nan => true
  | _ => false

def FV.isInf : FV → Bool
  | .inf _ => true
  | _ => false

def FV.isZero : FV → Bool
  | .fin _ 0 _ => true
  | _ => false

/-- A product: its sign is the exclusive or of the operands' (R106). -/
def FV.mul : FV → FV → FV
  | .nan, _ | _, .nan => .nan
  | .inf s, .inf t => .inf (s ^^ t)
  | .inf s, .fin t m _ => if m = 0 then .nan else .inf (s ^^ t)
  | .fin s m _, .inf t => if m = 0 then .nan else .inf (s ^^ t)
  | .fin s m e, .fin t n g => .fin (s ^^ t) (m * n) (e + g)

/-- m * 2^e as a multiple of 2^q for q ≤ e, signed. -/
def scaled (neg : Bool) (m : Nat) (e q : Int) : Int :=
  let k : Int := (m * 2 ^ (e - q).toNat : Nat)
  if neg then -k else k

/-- A sum of two exact values. An exact zero of operands of opposite signs is +0, or -0 under RD (R85). -/
def FV.add (rm : RM) : FV → FV → FV
  | .nan, _ | _, .nan => .nan
  | .inf s, .inf t => if s = t then .inf s else .nan
  | .inf s, .fin .. => .inf s
  | .fin .., .inf t => .inf t
  | .fin s m e, .fin t n g =>
    let q := min e g
    let x := scaled s m e q + scaled t n g q
    if x = 0 then .fin (if s = t then s else rm == .rd) 0 0
    else .fin (decide (x < 0)) x.natAbs q

/-- 2^n times a value. -/
def FV.scale (n : Int) : FV → FV
  | .fin s m e => .fin s m (e + n)
  | v => v

-- Comparison -----------------------------------------------------------------------------------------------------

/-- The order of codes that are no NaN: -0 below +0 (R107) where split, else equal (Table 5.2). -/
def Fmt.key (f : Fmt) (split : Bool) (c : Nat) : Int :=
  let k : Int := (f.mag c : Nat)
  if f.neg c then (if split then -k - 1 else -k) else k

/-- Table 5.2 on an ordered key. -/
def Cmp.onInt (cc : Cmp) (a b : Int) : Bool :=
  match cc with
  | .eq => decide (a = b)
  | .ne => decide (a ≠ b)
  | .lt => decide (a < b)
  | .le => decide (a ≤ b)
  | .gt => decide (a > b)
  | .ge => decide (a ≥ b)
  | .num => true
  | .nan => false

def Cmp.onFloat (cc : Cmp) (f : Fmt) (a b : Nat) : Bool :=
  if f.isNaN a || f.isNaN b then
    match cc with
    | .ne | .nan => true
    | _ => false
  else cc.onInt (f.key false a) (f.key false b)

/-- FMIN and FMAX (R107). -/
def Fmt.minmax (f : Fmt) (wantMax : Bool) (a b : Nat) : Nat :=
  if f.isNaN a && f.isNaN b then f.nanCode
  else if f.isNaN a then b
  else if f.isNaN b then a
  else if (f.key true a ≤ f.key true b) = (wantMax = false) then a else b

-- Operations on codes --------------------------------------------------------------------------------------------

def Fmt.addC (f : Fmt) (rm : RM) (sat : Bool) (a b : Nat) : Nat :=
  f.ofFV rm sat (FV.add rm (f.decode a) (f.decode b))
def Fmt.subC (f : Fmt) (rm : RM) (sat : Bool) (a b : Nat) : Nat :=
  f.ofFV rm sat (FV.add rm (f.decode a) (f.decode b).neg)
def Fmt.mulC (f : Fmt) (rm : RM) (sat : Bool) (a b : Nat) : Nat :=
  f.ofFV rm sat (FV.mul (f.decode a) (f.decode b))
def Fmt.fmaC (f : Fmt) (rm : RM) (sat : Bool) (a b c : Nat) : Nat :=
  f.ofFV rm sat (FV.add rm (FV.mul (f.decode a) (f.decode b)) (f.decode c))

/-- FRND: to an integral value in the direction RM, keeping the sign of a zero (R106). -/
def Fmt.integral (f : Fmt) (rm : RM) (a : Nat) : Nat :=
  match f.decode a with
  | .nan => f.nanCode
  | .inf _ => a
  | .fin neg m e => f.round rm false neg (roundAt rm neg m (min e 0) 0 * 2 ^ e.toNat) 0

-- Conversions (Table 4.7) -----------------------------------------------------------------------------------------

/-- A float code to another float format. -/
def Fmt.convert (src dst : Fmt) (rm : RM) (sat : Bool) (c : Nat) : Nat := dst.ofFV rm sat (src.decode c)

/-- Clamp to a range. -/
def clamp (lo hi x : Int) : Int := min (max x lo) hi

/-- A float to an integer: rounded, then always clamped; NaN gives 0. -/
def Fmt.toInt (f : Fmt) (rm : RM) (lo hi : Int) (c : Nat) : Int :=
  match f.decode c with
  | .nan => 0
  | .inf neg => if neg then lo else hi
  | .fin neg m e =>
    if (Nat.log2 m : Int) + e > 64 ∧ m ≠ 0 then (if neg then lo else hi)
    else
      let k : Int := (roundAt rm neg m e 0 : Nat)
      clamp lo hi (if neg then -k else k)

/-- An integer to a float. -/
def Fmt.ofInt (f : Fmt) (rm : RM) (sat : Bool) (x : Int) : Nat := f.round rm sat (decide (x < 0)) x.natAbs 0

-- On register words ----------------------------------------------------------------------------------------------

/-- An F32 code as a word. -/
def f32 (c : Nat) : Word := BitVec.ofNat 32 c

/-- The 16-bit halves of a packed word (R77). -/
def half (w : Word) (i : Nat) : Nat := (w.extractLsb' (16 * i) 16).toNat
def pack2w (lo hi : Nat) : Word := BitVec.ofNat 16 hi ++ BitVec.ofNat 16 lo

/-- The bytes of a packed word (R77). -/
def byteOf (w : Word) (i : Nat) : Byte := w.extractLsb' (8 * i) 8

/-- An addition of F32 words by RNE, as the array, ACC and the scale port make it (R85, R88, R90). -/
def f32Add (a b : Word) : Word := f32 (Fmt.f32.addC .rne false a.toNat b.toNat)

end Sys2Proof
end

