-- ==== Sys2Proof/Machine/Flags.lean ====
section
/-!
DEFINITION. Sys2Proof/Machine/Flags.lean: integer readings, ranges and comparisons (R76, R97-R101, R148), and how a comparison joins a
predicate (R100). The machine has no flags register: conditions go to predicates, and the one sticky flag is ISAT (R75).
-/
namespace Sys2Proof

/-- rd(x): a word read as I32, or as W32 under U (R99). -/
def rdInt (u : Bool) (w : Word) : Int := if u then (w.toNat : Int) else w.toInt

/-- The ends of the range of I32 or W32 (R99). -/
def intLo (u : Bool) : Int := if u then 0 else -2147483648
def intHi (u : Bool) : Int := if u then 4294967295 else 2147483647

/-- Narrowing of an exact value: wrapped, or clamped under SAT (R76, R99). -/
def narrow (u sat : Bool) (e : Int) : Word := BitVec.ofInt 32 (if sat then clamp (intLo u) (intHi u) e else e)

/-- The tag of an integer result (Table 5.3). -/
def intTag (u : Bool) : Tag := if u then .w32 else .i32

/-- ext(x): a word extended to 64 bits (R101). -/
def ext64 (u : Bool) (w : Word) : DWord := if u then w.setWidth 64 else w.signExtend 64

/-- ISETP and FSETP: a comparison joined with Pc (R100, R107). -/
def joinPred (bop c pc : Bool) : Bool := if bop then c || pc else c && pc

/-- ISAT's ranges by WD (R100). -/
def SatW.lo : SatW → Int
  | .i8 => -128 | .w8 => 0 | .i16 => -32768 | .w16 => 0
def SatW.hi : SatW → Int
  | .i8 => 127 | .w8 => 255 | .i16 => 32767 | .w16 => 65535
def SatW.tag : SatW → Tag
  | .i8 | .i16 => .i32
  | .w8 | .w16 => .w32

/-- YCMP's conditions (Table 7.5). -/
def YCmp.holds (cc : YCmp) (a b : Word) : Bool :=
  match cc with
  | .eq => a == b
  | .ne => a != b
  | .lt => decide (a.toInt < b.toInt)
  | .le => decide (a.toInt ≤ b.toInt)
  | .gt => decide (a.toInt > b.toInt)
  | .ge => decide (a.toInt ≥ b.toInt)
  | .ltu => decide (a.toNat < b.toNat)
  | .geu => decide (a.toNat ≥ b.toNat)

/-- An integer clamped to I32, and whether the clamp changed it: the sticky ISAT (R88). -/
def clampI32 (x : Int) : Word × Bool :=
  let y := clamp (-2147483648) 2147483647 x
  (BitVec.ofInt 32 y, y != x)

end Sys2Proof
end

