-- ==== Sys2Proof/WellFormed.lean ====
section
/-!
DEFINITION. Sys2Proof/WellFormed.lean: what a legal SIMT word or slot word may hold beyond its layout: the
operand classes of each entry (R56, R92), the modifier combinations that raise ILLEGAL (R61) and the field
values that raise SEQ_SLOT whatever the state (R147, R163, R165-R169).
-/
namespace Sys2Proof

/-- Operand classes by the letters of Table 5.1: vsz is a destination, vskz a source, vskzi a source or
the immediate, w a 64-bit pair (R93). -/
def Opd.vsz : Opd → Bool
  | .v _ | .s _ | .z => true
  | _ => false

def Opd.vskz : Opd → Bool
  | .v _ | .s _ | .k _ | .z => true
  | _ => false

def Opd.vskzi : Opd → Bool
  | .v _ | .s _ | .k _ | .z | .imm _ => true
  | _ => false

def Opd.isP : Opd → Bool
  | .p _ => true
  | _ => false

def Opd.isJ : Opd → Bool
  | .j _ => true
  | _ => false

def Opd.isV : Opd → Bool
  | .v _ => true
  | _ => false

def Opd.vz : Opd → Bool
  | .v _ | .z => true
  | _ => false

def Opd.pair : Opd → Bool
  | .v n => n.toNat % 2 == 0
  | .s n => n.toNat % 2 == 0
  | .z => true
  | _ => false

/-- Four registers from a multiple of 4 (R205, R250). That VZ, which has no number, is accepted and reads as zeros is the model's choice
(DESIGN CHOICE, assumption 58). -/
def Opd.quad : Opd → Bool
  | .v n => n.toNat % 4 == 0
  | .s n => n.toNat % 4 == 0
  | .z => true
  | _ => false

/-- A tile range of cnt + 1 tiles that stays below T504 (R172). -/
def Opd.tileRange (cnt : Nat) : Opd → Bool
  | .t n => decide (n.toNat + cnt ≤ 503)
  | _ => false

/-- A negated P7 guard is illegal (R61). -/
def Head.wf (h : Head) : Bool := !(h.neg && h.pred == 7)

/-- Integer comparisons reserve NUM and NAN (Table 5.2). -/
def Cmp.int : Cmp → Bool
  | .num | .nan => false
  | _ => true

/-- The destination class of a load (Table 9.2) and the datum class of a store (R200). -/
def LdTy.dst (ty : LdTy) (d : Opd) : Bool := if ty = .b64 then d.pair else d.vsz

def StSz.src (sz : StSz) (b : Opd) : Bool := if sz = .b64 then b.pair else b.vskz

/-- The B operand of an atomic (R205). -/
def AtOp.src (op : AtOp) (w64 : Bool) (b : Opd) : Bool :=
  match op, w64 with
  | .cas, true => b.quad
  | .cas, false => b.pair
  | _, true => b.pair
  | _, false => b.vskz

/-- The address class of a CPY end (R211). -/
def CKind.addr (k : CKind) (a : Opd) : Bool := if k = .gm then a.pair else a.vskz

/-- WBR and INVR scopes (R209), BINIT scopes (R220), decide-once scopes (Table 11.3). -/
def Scope.wide : Scope → Bool
  | .die | .pkg | .system => true
  | _ => false

def Scope.barrier : Scope → Bool
  | .core | .cluster => true
  | _ => false

def doOrd : Option Scope → Bool
  | none | some .pkg | some .system => true
  | _ => false

/-- The SIMT opcodes that Table 3.4 assigns (R60). -/
def assignedOpcode (n : Nat) : Bool :=
  decide (n ≤ 0x0E) || decide (0x10 ≤ n ∧ n ≤ 0x1E) || decide (0x20 ≤ n ∧ n ≤ 0x39)
    || decide (0x40 ≤ n ∧ n ≤ 0x47) || decide (0x50 ≤ n ∧ n ≤ 0x57) || decide (0x60 ≤ n ∧ n ≤ 0x68)
    || decide (0x70 ≤ n ∧ n ≤ 0x73) || decide (0x80 ≤ n ∧ n ≤ 0x95) || decide (0x98 ≤ n ∧ n ≤ 0x9D)
    || decide (0xA0 ≤ n ∧ n ≤ 0xA2) || decide (0xC0 ≤ n ∧ n ≤ 0xC5)

/-- The slot opcodes that Table 3.8 assigns (R64); slots are numbered C 0, M 1, X 2, K 3 (R65). -/
def assignedSlotOpcode (slot n : Nat) : Bool :=
  match slot with
  | 0 => decide (n ≤ 0x0E)
  | 2 => decide (n ≤ 0x03)
  | _ => decide (n ≤ 0x04)

/-- Slot fields of the M word (R163). A slot is named by the low bits of a 9-bit base. -/
def FeedF.wf (f : FeedF) : Bool := !f.fromSlot || decide (f.base.toNat < 96)
def DrainF.wf (f : DrainF) : Bool := !f.toSlot || decide (f.base.toNat < 96)

/-- MCFG's fields for each mode (Table 7.8). -/
def mcfgWf (md : AMode) (af wf : Bool) (nk : BitVec 4) : Bool :=
  (match md with
    | .npbf | .npi8 | .lut => decide (1 ≤ nk.toNat ∧ nk.toNat ≤ 8)
    | _ => nk == 0)
  && (wf == false || md == .w8f)
  && (match md with
    | .int | .npbf | .npi8 => af == false
    | _ => true)

/-- A bias names four slot rows (R167). -/
def XBiasF.wf (b : XBiasF) : Bool := decide (b.slot.toNat < 96) && decide (b.row.toNat ≤ 28)

def XExp.wf : XExp → Bool
  | .imm _ => true
  | .row q _ => decide (q.toNat < 96)

/-- The transfer stays in its slot (R169). -/
def kRows (q : BitVec 7) (row nr : BitVec 5) : Bool :=
  decide (q.toNat < 96) && decide (row.toNat + nr.toNat ≤ 31)

/-- SEM's operands (R207). -/
def SemOp.wf : SemOp → Bool
  | .add a => a.vskz
  | .rd => true
  | .cas a c => a.vskz && c.vskz

/-- Legal words. An event has no encoding and is always well formed. -/
def Instr.wf : Instr → Bool
  | .nop h | .exit h | .rte h | .mboxSig h => h.wf
  | .bra h _ | .call h _ => h.wf
  | .brx h a | .callx h a => h.wf && a.pair
  | .ret h a => h.wf && (match a with | .v _ | .s _ => true | _ => false)
  | .arj h d => h.wf && d.isJ
  | .jset h md d b => h.wf && d.isJ && (match md, b with
      | .pres, none => true
      | .pres, some _ => false
      | _, some b => b.vskzi
      | _, none => false)
  | .waitj h a => h.wf && a.isJ
  | .spawn h a b => h.wf && a.pair && b.pair
  | .yield h n => h.wf && decide (n.toNat ≤ 4095)
  | .trap h c => h.wf && (c == 0x0C || decide (0x30 ≤ c.toNat ∧ c.toNat ≤ 0x3F))
  | .chk h a => h.wf && a.vskz
  | .bkpt h n => h.wf && decide (n.toNat ≤ 0xFFFF)
  | .iadd h _ _ d a b | .isub h _ _ d a b | .imul h _ _ d a b => h.wf && d.vsz && a.vskz && b.vskzi
  | .imulh h _ d a b | .imin h _ d a b | .imax h _ d a b => h.wf && d.vsz && a.vskz && b.vskzi
  | .imad h _ _ d a b c => h.wf && d.vsz && a.vskz && b.vskzi && c.vskz
  | .iabs h _ d a | .ineg h _ d a => h.wf && d.vsz && a.vskz
  | .isetp h cc _ _ d a b c => h.wf && cc.int && d.isP && a.vskz && b.vskzi && c.isP
  | .sel h _ d a b c => h.wf && d.vsz && a.vskz && b.vskzi && c.isP
  | .lea h _ _ d a b => h.wf && d.pair && a.pair && b.vskzi
  | .addw h _ x d a b => h.wf && d.pair && a.pair
      && (if x then b.vskz else match b with | .imm _ => true | _ => b.pair)
  | .mulw h _ d a b => h.wf && d.pair && a.vskz && b.vskzi
  | .isat h _ _ d a => h.wf && d.vsz && a.vskz
  | .and h d a b | .or h d a b | .xor h d a b | .shl h d a b | .shr h d a b | .sar h d a b
  | .rotl h d a b => h.wf && d.vsz && a.vskz && b.vskzi
  | .not h d a | .popc h d a | .clz h d a | .brev h d a | .mov h d a => h.wf && d.vsz && a.vskz
  | .bfx h _ d a b => h.wf && d.vsz && a.vskz && b.vskzi
  | .bfi h d a b c | .prmt h d a b c => h.wf && d.vsz && a.vskz && b.vskzi && c.vskz
  | .movi h tg d _ => h.wf && d.vsz && !(tg == .psn)
  | .fadd h _ d a b | .fsub h _ d a b | .fmul h _ d a b | .fscalb h _ d a b =>
      h.wf && d.vsz && a.vskz && b.vskzi
  | .ffma h _ d a b c => h.wf && d.vsz && a.vskz && b.vskzi && c.vskz
  | .fmin h d a b | .fmax h d a b => h.wf && d.vsz && a.vskz && b.vskzi
  | .fsetp h _ _ d a b c => h.wf && d.isP && a.vskz && b.vskzi && c.isP
  | .frnd h _ d a => h.wf && d.vsz && a.vskz
  | .fclass h d a m => h.wf && d.isP && a.vskz && decide (m.toNat ≤ 0x1FF)
  | .hadd2 h _ _ _ d a b | .hmul2 h _ _ _ d a b => h.wf && d.vsz && a.vskz && b.vskzi
  | .hfma2 h _ _ _ d a b c => h.wf && d.vsz && a.vskz && b.vskzi && c.vskz
  | .hmin2 h _ d a b | .hmax2 h _ d a b => h.wf && d.vsz && a.vskz && b.vskzi
  | .hsetp2 h _ _ _ d a b => h.wf && d.isP && a.vskz && b.vskzi
  | .dot2 h _ _ d a b c | .dot4 h _ _ _ d a b c => h.wf && d.vsz && a.vskz && b.vskzi && c.vskz
  | .cvt h df sf _ _ d a => h.wf && !(df == sf) && d.vsz && a.vskz
  | .pack2 h _ _ _ d a b => h.wf && d.vsz && a.vskz && b.vskzi
  | .pack4 h fm si _ _ _ d a b c => h.wf && (!si || fm == .i8 || fm == .w8)
      && d.vsz && a.vskz && b.vskzi && c.vskz
  | .unpk h fm n d a => h.wf && (!(fm == .bf16 || fm == .f16) || decide (n.toNat < 2)) && d.vsz && a.vskz
  | .plnget h d a b c | .plnput h d a b c => h.wf && d.vsz && a.vskz && b.vskzi && c.vskz
  | .tagset h _ d a | .tagget h d a => h.wf && d.vsz && a.vskz
  | .rcp h d a | .rsq h d a | .sqrt h _ d a | .exp2 h d a | .log2 h d a | .sinpi h d a
  | .cospi h d a | .tanh h d a | .erf h d a => h.wf && d.vsz && a.vskz
  | .shfl h _ d a b => h.wf && d.vz && a.vskz && b.vskzi
  | .vote h md d a => h.wf && (a.isP || a.vskz) && (if md = .bal then d.vsz else d.isP)
  | .matchLanes h d a => h.wf && d.vz && a.vskz
  | .wred h op ty rm sat d a => h.wf && d.vsz && a.vskz
      && (rm == .rne || (op == .add && ty == .f32)) && (!sat || (op == .add && !(ty == .f32)))
  | .ldg h ord spec ty d a _ => h.wf && !(spec && ord.isSome) && ty.dst d && a.pair
  | .stg h _ sz a b _ => h.wf && a.pair && sz.src b
  | .lds h ty d a _ | .ldp h ty d a _ | .ldw h ty d a _ | .ldsr h ty d a _ => h.wf && ty.dst d && a.vskz
  | .sts h sz a b _ | .stp h sz a b _ | .stsr h sz a b _ => h.wf && a.vskz && sz.src b
  | .atom h op w64 _ _ d a b _ => h.wf && (if w64 then d.pair else d.vsz) && a.pair && op.src w64 b
  | .atoms h op w64 _ d a b _ => h.wf && (if w64 then d.pair else d.vsz) && a.vskz && op.src w64 b
  | .sem h op d n => h.wf && op.wf && d.vsz && decide (n.toNat ≤ 63)
  | .fence h _ _ => h.wf
  | .wbr h sc a b _ | .invr h sc a b _ => h.wf && sc.wide && a.pair && b.vskz
  | .pref h _ a _ => h.wf && a.pair
  | .cpy h dk sk _ d a b c => h.wf && !(dk == .ws) && d.isV && dk.addr a && sk.addr b && c.pair && !(c == .z)
  | .cpyt h _ d a b c => h.wf && d.isV && a.pair && b.vskz && c.vskz
  | .binit h sc a b _ => h.wf && sc.barrier && a.vskz && b.vskz
  | .expect h _ a b _ => h.wf && a.vskz && b.vskz
  | .arrive h _ _ _ d a _ => h.wf && d.vsz && a.vskz
  | .bwait h d a b _ => h.wf && d.vsz && a.vskz && b.pair
  | .btest h d a b _ => h.wf && d.vsz && a.vskz && b.vskz
  | .gbar h _ d => h.wf && d.vsz
  | .dinit h ord d a b _ | .dread h ord d a b _ | .drecyc h ord d a b _ =>
      h.wf && doOrd ord && d.vz && d.quad && a.pair && b.vskz
  | .dprop h ord d a b _ => h.wf && doOrd ord && d.vz && d.quad && a.pair && b.isV && b.quad
  | .give h cnt a o => h.wf && a.tileRange cnt.toNat && decide (o.toNat ≤ 0x41)
  | .take h cnt a => h.wf && a.tileRange cnt.toNat
  | .town h d a => h.wf && d.vsz && a.tileRange 0
  | .csrr h d csr => h.wf && (d.vsz || d.isJ) && decide (csr.toNat ≤ 0xFFF)
  | .csrw h csr a => h.wf && (a.vskz || a.isJ) && decide (csr.toNat ≤ 0xFFF)
  | .hread h d x => h.wf && d.vsz && x.vskzi
  | .hwrite h x a => h.wf && x.vskzi && a.vskz
  | .mboxRd h d o => h.wf && d.vsz && o.vskzi
  | .mboxWr h o a => h.wf && o.vskzi && a.vskz
  | .sgive _ _ rc => decide (rc.toNat ≤ 0x3F) || rc == 0x41
  | .mbeat push feed acc drain _ => !(acc.isSome && drain.isSome)
      && (match push with | some p => decide (p.slot.toNat < 96) | none => true)
      && (match feed with | some f => f.wf | none => true)
      && (match drain with | some d => d.wf | none => true)
  | .mcfg md af wf nk => mcfgWf md af wf nk
  | .xscale e bias _ => e.wf && (match bias with | some b => b.wf | none => true)
  | .xbias bias _ => bias.wf
  | .kclaim q | .krel q => decide (q.toNat < 96)
  | .kfill q row nr _ => kRows q row nr
  | .kstore q row nr dst => kRows q row nr
      && (match dst with | .tl _ tg => decide (tg.toNat ≤ 0xA) | .sp _ => true)
  | .unassignedOpcode _ opc => !assignedOpcode opc.toNat
  | .unassignedSlotOpcode slot opc => !assignedSlotOpcode slot.toNat opc.toNat
  | _ => true

end Sys2Proof
end

