-- ==== Sys2Proof/Decode.lean ====
section
/-!
DEFINITION. Sys2Proof/Decode.lean: the decoder of SIMT words (R52-R62), slot words and bundles (R63-R65), total
on any bytes and rejecting by name, and after it the encoder from the same tables.

A word decodes to an instruction only when that instruction is well formed and its encoding is the word itself,
so that every reserved bit and unused field is zero (R57, R61, R64).
-/
namespace Sys2Proof

/-- Why bytes are no instruction: too few of them; a code that selects none; an operand or modifier its entry
does not accept; a reserved bit or unused field that is not zero. Each is ILLEGAL in a SIMT word (R61) and
SEQ_SLOT in a slot word (R64). -/
inductive Reject where
  | truncated | noForm | operand | reserved
deriving DecidableEq, Repr

/-- The little-endian value of bytes (R3), and the n bytes of a value. -/
def leNat : List Byte → Nat
  | [] => 0
  | b :: bs => b.toNat + 256 * leNat bs

def leBytes : Nat → Nat → List Byte
  | 0, _ => []
  | n + 1, w => BitVec.ofNat 8 w :: leBytes n (w / 256)

-- Codes of the enumerations -------------------------------------------------------------------------------------

def RM.code : RM → BitVec 2
  | .rne => 0 | .rz => 1 | .ru => 2 | .rd => 3
def RM.ofCode (c : BitVec 2) : RM := if c = 0 then .rne else if c = 1 then .rz else if c = 2 then .ru else .rd

def Scope.code : Scope → BitVec 3
  | .core => 0 | .cluster => 1 | .die => 2 | .pkg => 3 | .system => 4
def Scope.ofCode (c : BitVec 3) : Option Scope :=
  match c.toNat with
  | 0 => some .core | 1 => some .cluster | 2 => some .die | 3 => some .pkg | 4 => some .system | _ => none

def Tag.ofCode (c : BitVec 4) : Option Tag :=
  match c.toNat with
  | 0 => some .raw | 1 => some .i32 | 2 => some .w32 | 3 => some .f32 | 4 => some .bf2 | 5 => some .h2
  | 6 => some .e4q | 7 => some .e5q | 8 => some .i8q | 9 => some .w8q | 10 => some .npl | 15 => some .psn
  | _ => none

def Cmp.code : Cmp → BitVec 3
  | .eq => 0 | .ne => 1 | .lt => 2 | .le => 3 | .gt => 4 | .ge => 5 | .num => 6 | .nan => 7
def Cmp.ofCode (c : BitVec 3) : Cmp :=
  match c.toNat with
  | 0 => .eq | 1 => .ne | 2 => .lt | 3 => .le | 4 => .gt | 5 => .ge | 6 => .num | _ => .nan

def JMode.code : JMode → BitVec 2
  | .set => 0 | .or => 1 | .andn => 2 | .pres => 3
def JMode.ofCode (c : BitVec 2) : JMode :=
  match c.toNat with | 0 => .set | 1 => .or | 2 => .andn | _ => .pres

def SatW.code : SatW → BitVec 2
  | .i8 => 0 | .w8 => 1 | .i16 => 2 | .w16 => 3
def SatW.ofCode (c : BitVec 2) : SatW :=
  match c.toNat with | 0 => .i8 | 1 => .w8 | 2 => .i16 | _ => .w16

def SFmt.code : SFmt → BitVec 2
  | .f32 => 0 | .i32 => 1 | .w32 => 2
def SFmt.ofCode (c : BitVec 2) : Option SFmt :=
  match c.toNat with | 0 => some .f32 | 1 => some .i32 | 2 => some .w32 | _ => none

def Pk4.code : Pk4 → BitVec 2
  | .e4m3 => 0 | .e5m2 => 1 | .i8 => 2 | .w8 => 3
def Pk4.ofCode (c : BitVec 2) : Pk4 :=
  match c.toNat with | 0 => .e4m3 | 1 => .e5m2 | 2 => .i8 | _ => .w8

def UnFmt.code : UnFmt → BitVec 3
  | .bf16 => 0 | .f16 => 1 | .e4m3 => 2 | .e5m2 => 3 | .i8 => 4 | .w8 => 5
def UnFmt.ofCode (c : BitVec 3) : Option UnFmt :=
  match c.toNat with
  | 0 => some .bf16 | 1 => some .f16 | 2 => some .e4m3 | 3 => some .e5m2 | 4 => some .i8 | 5 => some .w8
  | _ => none

def ShflMode.code : ShflMode → BitVec 2
  | .idx => 0 | .up => 1 | .down => 2 | .xor => 3
def ShflMode.ofCode (c : BitVec 2) : ShflMode :=
  match c.toNat with | 0 => .idx | 1 => .up | 2 => .down | _ => .xor

def VoteMode.code : VoteMode → BitVec 2
  | .all => 0 | .any => 1 | .eq => 2 | .bal => 3
def VoteMode.ofCode (c : BitVec 2) : VoteMode :=
  match c.toNat with | 0 => .all | 1 => .any | 2 => .eq | _ => .bal

def WredOp.code : WredOp → BitVec 2
  | .add => 0 | .min => 1 | .max => 2
def WredOp.ofCode (c : BitVec 2) : Option WredOp :=
  match c.toNat with | 0 => some .add | 1 => some .min | 2 => some .max | _ => none

def LdTy.code : LdTy → BitVec 4
  | .b32 => 0 | .i32 => 1 | .w32 => 2 | .f32 => 3 | .bf2 => 4 | .h2 => 5 | .e4q => 6 | .e5q => 7 | .i8q => 8
  | .w8q => 9 | .npl => 10 | .i8 => 11 | .w8 => 12 | .i16 => 13 | .w16 => 14 | .b64 => 15
def LdTy.ofCode (c : BitVec 4) : LdTy :=
  match c.toNat with
  | 0 => .b32 | 1 => .i32 | 2 => .w32 | 3 => .f32 | 4 => .bf2 | 5 => .h2 | 6 => .e4q | 7 => .e5q | 8 => .i8q
  | 9 => .w8q | 10 => .npl | 11 => .i8 | 12 => .w8 | 13 => .i16 | 14 => .w16 | _ => .b64

def StSz.code : StSz → BitVec 2
  | .b8 => 0 | .b16 => 1 | .b32 => 2 | .b64 => 3
def StSz.ofCode (c : BitVec 2) : StSz :=
  match c.toNat with | 0 => .b8 | 1 => .b16 | 2 => .b32 | _ => .b64

def AtOp.code : AtOp → BitVec 4
  | .add => 0 | .min => 1 | .max => 2 | .and => 3 | .or => 4 | .xor => 5 | .exch => 6 | .cas => 7 | .inc => 8
  | .dec => 9
def AtOp.ofCode (c : BitVec 4) : Option AtOp :=
  match c.toNat with
  | 0 => some .add | 1 => some .min | 2 => some .max | 3 => some .and | 4 => some .or | 5 => some .xor
  | 6 => some .exch | 7 => some .cas | 8 => some .inc | 9 => some .dec | _ => none

def Role.code : Role → BitVec 2
  | .acq => 1 | .rel => 2 | .ar => 3

def FKind.code : FKind → BitVec 2
  | .acq => 0 | .rel => 1 | .ar => 2 | .all => 3
def FKind.ofCode (c : BitVec 2) : FKind :=
  match c.toNat with | 0 => .acq | 1 => .rel | 2 => .ar | _ => .all

def CKind.code : CKind → BitVec 2
  | .gm => 0 | .sp => 1 | .rs => 2 | .ws => 3
def CKind.ofCode (c : BitVec 2) : CKind :=
  match c.toNat with | 0 => .gm | 1 => .sp | 2 => .rs | _ => .ws

def YCmp.code : YCmp → BitVec 3
  | .eq => 0 | .ne => 1 | .lt => 2 | .le => 3 | .gt => 4 | .ge => 5 | .ltu => 6 | .geu => 7
def YCmp.ofCode (c : BitVec 3) : YCmp :=
  match c.toNat with
  | 0 => .eq | 1 => .ne | 2 => .lt | 3 => .le | 4 => .gt | 5 => .ge | 6 => .ltu | _ => .geu

def DFmt.code : DFmt → BitVec 3
  | .d32 => 0 | .bf16 => 1 | .f16 => 2 | .e4m3 => 3 | .e5m2 => 4 | .i8 => 5
def DFmt.ofCode (c : BitVec 3) : Option DFmt :=
  match c.toNat with
  | 0 => some .d32 | 1 => some .bf16 | 2 => some .f16 | 3 => some .e4m3 | 4 => some .e5m2 | 5 => some .i8
  | _ => none

def AMode.code : AMode → BitVec 3
  | .w16 => 0 | .w8f => 1 | .int => 2 | .npbf => 3 | .npi8 => 4 | .lut => 5
def AMode.ofCode (c : BitVec 3) : Option AMode :=
  match c.toNat with
  | 0 => some .w16 | 1 => some .w8f | 2 => some .int | 3 => some .npbf | 4 => some .npi8 | 5 => some .lut
  | _ => none

/-- Special registers in code order from 0x150 (Table 3.5). -/
def SReg.code : SReg → BitVec 10
  | .lane => 0x150 | .slot => 0x151 | .warp => 0x152 | .quad => 0x153 | .core => 0x154 | .die => 0x155
  | .chip => 0x156 | .team => 0x157 | .teamx => 0x158 | .teamy => 0x159 | .teamz => 0x15A | .gridx => 0x15B
  | .gridy => 0x15C | .gridz => 0x15D | .gid0 => 0x15E | .gid1 => 0x15F | .gid2 => 0x160 | .gid3 => 0x161
  | .ctx => 0x162 | .time => 0x163 | .timeh => 0x164 | .tbase => 0x165 | .ntile => 0x166 | .wsref => 0x167
  | .dfault => 0x168 | .issued => 0x169 | .clus => 0x16A
def SReg.ofCode (n : Nat) : Option SReg :=
  match n with
  | 0x150 => some .lane | 0x151 => some .slot | 0x152 => some .warp | 0x153 => some .quad | 0x154 => some .core
  | 0x155 => some .die | 0x156 => some .chip | 0x157 => some .team | 0x158 => some .teamx | 0x159 => some .teamy
  | 0x15A => some .teamz | 0x15B => some .gridx | 0x15C => some .gridy | 0x15D => some .gridz
  | 0x15E => some .gid0 | 0x15F => some .gid1 | 0x160 => some .gid2 | 0x161 => some .gid3 | 0x162 => some .ctx
  | 0x163 => some .time | 0x164 => some .timeh | 0x165 => some .tbase | 0x166 => some .ntile | 0x167 => some .wsref
  | 0x168 => some .dfault | 0x169 => some .issued | 0x16A => some .clus | _ => none

/-- Register operand fields (Table 3.3); an immediate has no register field and encodes as 0. -/
def Opd.code : Opd → BitVec 10
  | .v n => n.setWidth 10
  | .s n => 0x100 + n.setWidth 10
  | .p n => 0x140 + n.setWidth 10
  | .j n => 0x148 + n.setWidth 10
  | .k r => r.code
  | .z => 0x1FF
  | .t n => 0x200 + n.setWidth 10
  | .imm _ => 0

def decOpd (c : BitVec 10) : Option Opd :=
  let n := c.toNat
  if n < 0x100 then some (.v (BitVec.ofNat 8 n))
  else if n < 0x140 then some (.s (BitVec.ofNat 6 (n - 0x100)))
  else if n < 0x148 then some (.p (BitVec.ofNat 3 (n - 0x140)))
  else if n < 0x150 then some (.j (BitVec.ofNat 3 (n - 0x148)))
  else if n < 0x16B then (SReg.ofCode n).map .k
  else if n < 0x1FF then none
  else if n = 0x1FF then some .z
  else some (.t (BitVec.ofNat 9 (n - 0x200)))

-- The SIMT word ---------------------------------------------------------------------------------------------

/-- The fields of Table 3.1. c holds all 36 bits of C, in whichever of its three forms (R53). -/
structure Fields where
  opc : Byte
  head : Head
  mod : BitVec 11
  imm : Bool
  d : BitVec 10
  a : BitVec 10
  b : BitVec 10
  c : BitVec 36
deriving DecidableEq, Repr

/-- MOD bits are named by their position in the word (R55): bit 18 is MOD's lowest. -/
def bitAt (pos : Nat) (b : Bool) : BitVec 11 := (BitVec.ofBool b).setWidth 11 <<< (pos - 18)
def fldAt {n : Nat} (pos : Nat) (v : BitVec n) : BitVec 11 := v.setWidth 11 <<< (pos - 18)

def Fields.bit (f : Fields) (pos : Nat) : Bool := f.mod.getLsbD (pos - 18)
def Fields.fld (f : Fields) (pos n : Nat) : BitVec n := f.mod.extractLsb' (pos - 18) n

def fieldsOf (opc : Byte) (h : Head) (mod : BitVec 11) (d a : BitVec 10) : Fields :=
  { opc, head := h, mod, imm := false, d, a, b := 0, c := 0 }

/-- Source B in the register form with the third register in C, or in the immediate form with the third
register in B (R53). -/
def Fields.withImm (f : Fields) (w : Word) (third : BitVec 10) : Fields :=
  { f with imm := true, b := third, c := w.setWidth 36 }
def Fields.withB (f : Fields) (b : Opd) (third : BitVec 10) : Fields :=
  match b with
  | .imm w => f.withImm w third
  | b => { f with b := b.code, c := third.setWidth 36 }

def Fields.immWord (f : Fields) : Word := f.c.setWidth 32
def Fields.srcB (f : Fields) : Option Opd := if f.imm then some (.imm f.immWord) else decOpd f.b
def Fields.srcC (f : Fields) : Option Opd := if f.imm then decOpd f.b else decOpd (f.c.setWidth 10)

/-- The immediate of a memory operand (Table 9.1). -/
def memImm (u : Bool) (cb : BitVec 2) (ofs : BitVec 24) : Word := (0 : BitVec 5) ++ BitVec.ofBool u ++ cb ++ ofs
def Fields.ofs (f : Fields) : BitVec 24 := f.c.setWidth 24

/-- ORD at bit 28 with SCOPE (R200); RLX at bit 28, or SCOPE (Table 11.3); ATOM's ORD and SCOPE (R205). -/
def ordBits : Option Scope → BitVec 11
  | none => 0
  | some sc => bitAt 28 true ||| fldAt 25 sc.code
def rlxBits : Option Scope → BitVec 11
  | none => bitAt 28 true
  | some sc => fldAt 25 sc.code
def Fields.ordOf (f : Fields) (on : Bool) : Option (Option Scope) :=
  if on then (Scope.ofCode (f.fld 25 3)).map some else some none
def roleScope : Option (Role × Scope) → BitVec 11
  | none => 0
  | some (_, sc) => fldAt 25 sc.code
def roleBits : Option (Role × Scope) → BitVec 2
  | none => 0
  | some (r, _) => r.code
def Fields.roleOf (f : Fields) : Option (Option (Role × Scope)) :=
  let sc := Scope.ofCode (f.fld 25 3)
  match (f.immWord.extractLsb' 24 2).toNat with
  | 0 => some none
  | 1 => sc.map fun s => some (.acq, s)
  | 2 => sc.map fun s => some (.rel, s)
  | _ => sc.map fun s => some (.ar, s)

/-- The word of the fields, most significant first (Table 3.1), and the fields of a word. -/
def Fields.pack (f : Fields) : BitVec 96 :=
  f.c ++ f.b ++ f.a ++ f.d ++ BitVec.ofBool f.imm ++ f.mod ++ f.head.pri ++ BitVec.ofBool f.head.last
    ++ BitVec.ofBool f.head.rb ++ BitVec.ofBool f.head.ra ++ BitVec.ofBool f.head.yld
    ++ BitVec.ofBool f.head.neg ++ f.head.pred ++ f.opc
def Fields.unpack (w : BitVec 96) : Fields :=
  { opc := w.extractLsb' 0 8
    head :=
      { neg := w.getLsbD 11, pred := w.extractLsb' 8 3, pri := w.extractLsb' 16 2, last := w.getLsbD 15,
        rb := w.getLsbD 14, ra := w.getLsbD 13, yld := w.getLsbD 12 }
    mod := w.extractLsb' 18 11
    imm := w.getLsbD 29
    d := w.extractLsb' 30 10
    a := w.extractLsb' 40 10
    b := w.extractLsb' 50 10
    c := w.extractLsb' 60 36 }

/-- The instruction the fields select, before its legality is checked (Table 3.4 and the entries). -/
def parseFields (f : Fields) : Option Instr :=
  match f.opc.toNat with
  | 0x00 => some (.nop f.head)
  | 0x01 => some (.bra f.head f.c)
  | 0x02 => do some (.brx f.head (← decOpd f.a))
  | 0x03 => some (.call f.head f.c)
  | 0x04 => do some (.callx f.head (← decOpd f.a))
  | 0x05 => do some (.ret f.head (← decOpd f.a))
  | 0x06 => some (.exit f.head)
  | 0x07 => do some (.arj f.head (← decOpd f.d))
  | 0x08 => do
      let d ← decOpd f.d
      (match JMode.ofCode (f.fld 21 2) with
        | .pres => some (.jset f.head .pres d none)
        | md => do some (.jset f.head md d (some (← f.srcB))))
  | 0x09 => do some (.waitj f.head (← decOpd f.a))
  | 0x0A => do some (.spawn f.head (← decOpd f.a) (← f.srcB))
  | 0x0B => some (.yield f.head f.immWord)
  | 0x0C => some (.trap f.head f.immWord)
  | 0x0D => do some (.chk f.head (← decOpd f.a))
  | 0x0E => some (.bkpt f.head f.immWord)
  | 0x10 => do some (.iadd f.head (f.bit 21) (f.bit 20) (← decOpd f.d) (← decOpd f.a) (← f.srcB))
  | 0x11 => do some (.isub f.head (f.bit 21) (f.bit 20) (← decOpd f.d) (← decOpd f.a) (← f.srcB))
  | 0x12 => do some (.imul f.head (f.bit 21) (f.bit 20) (← decOpd f.d) (← decOpd f.a) (← f.srcB))
  | 0x13 => do some (.imulh f.head (f.bit 21) (← decOpd f.d) (← decOpd f.a) (← f.srcB))
  | 0x14 => do some (.imad f.head (f.bit 21) (f.bit 20) (← decOpd f.d) (← decOpd f.a) (← f.srcB) (← f.srcC))
  | 0x15 => do some (.imin f.head (f.bit 21) (← decOpd f.d) (← decOpd f.a) (← f.srcB))
  | 0x16 => do some (.imax f.head (f.bit 21) (← decOpd f.d) (← decOpd f.a) (← f.srcB))
  | 0x17 => do some (.iabs f.head (f.bit 20) (← decOpd f.d) (← decOpd f.a))
  | 0x18 => do some (.ineg f.head (f.bit 20) (← decOpd f.d) (← decOpd f.a))
  | 0x19 => do some (.isetp f.head (Cmp.ofCode (f.fld 22 3)) (f.bit 21) (f.bit 28) (← decOpd f.d) (← decOpd f.a) (← f.srcB) (← f.srcC))
  | 0x1A => do some (.sel f.head (f.bit 21) (← decOpd f.d) (← decOpd f.a) (← f.srcB) (← f.srcC))
  | 0x1B => do some (.lea f.head (f.bit 21) (f.fld 22 3) (← decOpd f.d) (← decOpd f.a) (← f.srcB))
  | 0x1C => do some (.addw f.head (f.bit 21) (f.bit 22) (← decOpd f.d) (← decOpd f.a) (← f.srcB))
  | 0x1D => do some (.mulw f.head (f.bit 21) (← decOpd f.d) (← decOpd f.a) (← f.srcB))
  | 0x1E => do some (.isat f.head (SatW.ofCode (f.fld 22 2)) (f.bit 21) (← decOpd f.d) (← decOpd f.a))
  | 0x20 => do some (.and f.head (← decOpd f.d) (← decOpd f.a) (← f.srcB))
  | 0x21 => do some (.or f.head (← decOpd f.d) (← decOpd f.a) (← f.srcB))
  | 0x22 => do some (.xor f.head (← decOpd f.d) (← decOpd f.a) (← f.srcB))
  | 0x24 => do some (.shl f.head (← decOpd f.d) (← decOpd f.a) (← f.srcB))
  | 0x25 => do some (.shr f.head (← decOpd f.d) (← decOpd f.a) (← f.srcB))
  | 0x26 => do some (.sar f.head (← decOpd f.d) (← decOpd f.a) (← f.srcB))
  | 0x27 => do some (.rotl f.head (← decOpd f.d) (← decOpd f.a) (← f.srcB))
  | 0x23 => do some (.not f.head (← decOpd f.d) (← decOpd f.a))
  | 0x28 => do some (.popc f.head (← decOpd f.d) (← decOpd f.a))
  | 0x29 => do some (.clz f.head (← decOpd f.d) (← decOpd f.a))
  | 0x2A => do some (.brev f.head (← decOpd f.d) (← decOpd f.a))
  | 0x2E => do some (.mov f.head (← decOpd f.d) (← decOpd f.a))
  | 0x2B => do some (.bfx f.head (f.bit 21) (← decOpd f.d) (← decOpd f.a) (← f.srcB))
  | 0x2C => do some (.bfi f.head (← decOpd f.d) (← decOpd f.a) (← f.srcB) (← f.srcC))
  | 0x2D => do some (.prmt f.head (← decOpd f.d) (← decOpd f.a) (← f.srcB) (← f.srcC))
  | 0x2F => do some (.movi f.head (← Tag.ofCode (f.fld 21 4)) (← decOpd f.d) f.immWord)
  | 0x30 => do some (.fadd f.head (RM.ofCode (f.fld 18 2)) (← decOpd f.d) (← decOpd f.a) (← f.srcB))
  | 0x31 => do some (.fsub f.head (RM.ofCode (f.fld 18 2)) (← decOpd f.d) (← decOpd f.a) (← f.srcB))
  | 0x32 => do some (.fmul f.head (RM.ofCode (f.fld 18 2)) (← decOpd f.d) (← decOpd f.a) (← f.srcB))
  | 0x39 => do some (.fscalb f.head (RM.ofCode (f.fld 18 2)) (← decOpd f.d) (← decOpd f.a) (← f.srcB))
  | 0x33 => do some (.ffma f.head (RM.ofCode (f.fld 18 2)) (← decOpd f.d) (← decOpd f.a) (← f.srcB) (← f.srcC))
  | 0x34 => do some (.fmin f.head (← decOpd f.d) (← decOpd f.a) (← f.srcB))
  | 0x35 => do some (.fmax f.head (← decOpd f.d) (← decOpd f.a) (← f.srcB))
  | 0x36 => do some (.fsetp f.head (Cmp.ofCode (f.fld 22 3)) (f.bit 28) (← decOpd f.d) (← decOpd f.a) (← f.srcB) (← f.srcC))
  | 0x37 => do some (.frnd f.head (RM.ofCode (f.fld 18 2)) (← decOpd f.d) (← decOpd f.a))
  | 0x38 => do some (.fclass f.head (← decOpd f.d) (← decOpd f.a) f.immWord)
  | 0x40 => do some (.hadd2 f.head (f.bit 21) (RM.ofCode (f.fld 18 2)) (f.bit 20) (← decOpd f.d) (← decOpd f.a) (← f.srcB))
  | 0x41 => do some (.hmul2 f.head (f.bit 21) (RM.ofCode (f.fld 18 2)) (f.bit 20) (← decOpd f.d) (← decOpd f.a) (← f.srcB))
  | 0x42 => do some (.hfma2 f.head (f.bit 21) (RM.ofCode (f.fld 18 2)) (f.bit 20) (← decOpd f.d) (← decOpd f.a) (← f.srcB) (← f.srcC))
  | 0x43 => do some (.hmin2 f.head (f.bit 21) (← decOpd f.d) (← decOpd f.a) (← f.srcB))
  | 0x44 => do some (.hmax2 f.head (f.bit 21) (← decOpd f.d) (← decOpd f.a) (← f.srcB))
  | 0x45 => do some (.hsetp2 f.head (f.bit 21) (Cmp.ofCode (f.fld 22 3)) (f.bit 28) (← decOpd f.d) (← decOpd f.a) (← f.srcB))
  | 0x46 => do some (.dot2 f.head (RM.ofCode (f.fld 18 2)) (f.bit 20) (← decOpd f.d) (← decOpd f.a) (← f.srcB) (← f.srcC))
  | 0x47 => do some (.dot4 f.head (f.bit 21) (f.bit 22) (f.bit 20) (← decOpd f.d) (← decOpd f.a) (← f.srcB) (← f.srcC))
  | 0x50 => do some (.cvt f.head (← SFmt.ofCode (f.fld 23 2)) (← SFmt.ofCode (f.fld 21 2)) (RM.ofCode (f.fld 18 2)) (f.bit 20) (← decOpd f.d) (← decOpd f.a))
  | 0x51 => do some (.pack2 f.head (f.bit 21) (RM.ofCode (f.fld 18 2)) (f.bit 20) (← decOpd f.d) (← decOpd f.a) (← f.srcB))
  | 0x52 => do some (.pack4 f.head (Pk4.ofCode (f.fld 21 2)) (f.bit 24) (f.bit 23) (RM.ofCode (f.fld 18 2)) (f.bit 20) (← decOpd f.d) (← decOpd f.a) (← f.srcB) (← f.srcC))
  | 0x53 => do some (.unpk f.head (← UnFmt.ofCode (f.fld 21 3)) (BitVec.ofBool (f.bit 28) ++ BitVec.ofBool (f.bit 24)) (← decOpd f.d) (← decOpd f.a))
  | 0x54 => do some (.plnget f.head (← decOpd f.d) (← decOpd f.a) (← f.srcB) (← f.srcC))
  | 0x55 => do some (.plnput f.head (← decOpd f.d) (← decOpd f.a) (← f.srcB) (← f.srcC))
  | 0x56 => do some (.tagset f.head (← Tag.ofCode (f.fld 21 4)) (← decOpd f.d) (← decOpd f.a))
  | 0x57 => do some (.tagget f.head (← decOpd f.d) (← decOpd f.a))
  | 0x60 => do some (.rcp f.head (← decOpd f.d) (← decOpd f.a))
  | 0x61 => do some (.rsq f.head (← decOpd f.d) (← decOpd f.a))
  | 0x63 => do some (.exp2 f.head (← decOpd f.d) (← decOpd f.a))
  | 0x64 => do some (.log2 f.head (← decOpd f.d) (← decOpd f.a))
  | 0x65 => do some (.sinpi f.head (← decOpd f.d) (← decOpd f.a))
  | 0x66 => do some (.cospi f.head (← decOpd f.d) (← decOpd f.a))
  | 0x67 => do some (.tanh f.head (← decOpd f.d) (← decOpd f.a))
  | 0x68 => do some (.erf f.head (← decOpd f.d) (← decOpd f.a))
  | 0x62 => do some (.sqrt f.head (RM.ofCode (f.fld 18 2)) (← decOpd f.d) (← decOpd f.a))
  | 0x70 => do some (.shfl f.head (ShflMode.ofCode (f.fld 21 2)) (← decOpd f.d) (← decOpd f.a) (← f.srcB))
  | 0x71 => do some (.vote f.head (VoteMode.ofCode (f.fld 21 2)) (← decOpd f.d) (← decOpd f.a))
  | 0x72 => do some (.matchLanes f.head (← decOpd f.d) (← decOpd f.a))
  | 0x73 => do some (.wred f.head (← WredOp.ofCode (f.fld 21 2)) (← SFmt.ofCode (f.fld 23 2)) (RM.ofCode (f.fld 18 2)) (f.bit 20) (← decOpd f.d) (← decOpd f.a))
  | 0x80 => do some (.ldg f.head (← f.ordOf (f.bit 28)) (f.immWord.getLsbD 24) (LdTy.ofCode (f.fld 21 4)) (← decOpd f.d) (← decOpd f.a) f.ofs)
  | 0x81 => do some (.stg f.head (← f.ordOf (f.bit 28)) (StSz.ofCode (f.fld 21 2)) (← decOpd f.a) (← decOpd f.b) f.ofs)
  | 0x82 => do some (.lds f.head (LdTy.ofCode (f.fld 21 4)) (← decOpd f.d) (← decOpd f.a) f.ofs)
  | 0x84 => do some (.ldp f.head (LdTy.ofCode (f.fld 21 4)) (← decOpd f.d) (← decOpd f.a) f.ofs)
  | 0x86 => do some (.ldw f.head (LdTy.ofCode (f.fld 21 4)) (← decOpd f.d) (← decOpd f.a) f.ofs)
  | 0x87 => do some (.ldsr f.head (LdTy.ofCode (f.fld 21 4)) (← decOpd f.d) (← decOpd f.a) f.ofs)
  | 0x83 => do some (.sts f.head (StSz.ofCode (f.fld 21 2)) (← decOpd f.a) (← decOpd f.b) f.ofs)
  | 0x85 => do some (.stp f.head (StSz.ofCode (f.fld 21 2)) (← decOpd f.a) (← decOpd f.b) f.ofs)
  | 0x88 => do some (.stsr f.head (StSz.ofCode (f.fld 21 2)) (← decOpd f.a) (← decOpd f.b) f.ofs)
  | 0x89 => do some (.atom f.head (← AtOp.ofCode (f.fld 21 4)) (f.bit 28) (f.immWord.getLsbD 26) (← f.roleOf) (← decOpd f.d) (← decOpd f.a) (← decOpd f.b) f.ofs)
  | 0x8A => do some (.atoms f.head (← AtOp.ofCode (f.fld 21 4)) (f.bit 28) (f.immWord.getLsbD 26) (← decOpd f.d) (← decOpd f.a) (← decOpd f.b) f.ofs)
  | 0x8B => do
      let d ← decOpd f.d
      (match (f.fld 21 2).toNat with
        | 0 => do some (.sem f.head (.add (← decOpd f.a)) d f.immWord)
        | 1 => some (.sem f.head .rd d f.immWord)
        | 2 => do some (.sem f.head (.cas (← decOpd f.a) (← decOpd f.b)) d f.immWord)
        | _ => none)
  | 0x8C => do some (.fence f.head (FKind.ofCode (f.fld 21 2)) (← Scope.ofCode (f.fld 25 3)))
  | 0x8D => do some (.wbr f.head (← Scope.ofCode (f.fld 25 3)) (← decOpd f.a) (← decOpd f.b) f.ofs)
  | 0x8E => do some (.invr f.head (← Scope.ofCode (f.fld 25 3)) (← decOpd f.a) (← decOpd f.b) f.ofs)
  | 0x8F => do some (.pref f.head (f.bit 21) (← decOpd f.a) f.ofs)
  | 0x90 => do some (.dinit f.head (← f.ordOf (!f.bit 28)) (← decOpd f.d) (← decOpd f.a) (← decOpd f.b) f.ofs)
  | 0x91 => do some (.dprop f.head (← f.ordOf (!f.bit 28)) (← decOpd f.d) (← decOpd f.a) (← decOpd f.b) f.ofs)
  | 0x92 => do some (.dread f.head (← f.ordOf (!f.bit 28)) (← decOpd f.d) (← decOpd f.a) (← decOpd f.b) f.ofs)
  | 0x93 => do some (.drecyc f.head (← f.ordOf (!f.bit 28)) (← decOpd f.d) (← decOpd f.a) (← decOpd f.b) f.ofs)
  | 0x94 => do some (.cpy f.head (CKind.ofCode (f.fld 23 2)) (CKind.ofCode (f.fld 21 2)) (f.bit 28) (← decOpd f.d) (← decOpd f.a) (← f.srcB) (← f.srcC))
  | 0x95 => do some (.cpyt f.head (f.bit 28) (← decOpd f.d) (← decOpd f.a) (← f.srcB) (← f.srcC))
  | 0x98 => do some (.binit f.head (← Scope.ofCode (f.fld 25 3)) (← decOpd f.a) (← decOpd f.b) f.ofs)
  | 0x99 => do some (.expect f.head (f.bit 28) (← decOpd f.a) (← decOpd f.b) f.ofs)
  | 0x9A => do some (.arrive f.head (f.bit 21) (f.bit 22) (f.bit 28) (← decOpd f.d) (← decOpd f.a) f.ofs)
  | 0x9B => do some (.bwait f.head (← decOpd f.d) (← decOpd f.a) (← decOpd f.b) f.ofs)
  | 0x9C => do some (.btest f.head (← decOpd f.d) (← decOpd f.a) (← decOpd f.b) f.ofs)
  | 0x9D => do some (.gbar f.head (f.fld 21 2) (← decOpd f.d))
  | 0xA0 => do some (.give f.head (f.fld 21 5) (← decOpd f.a) f.immWord)
  | 0xA1 => do some (.take f.head (f.fld 21 5) (← decOpd f.a))
  | 0xA2 => do some (.town f.head (← decOpd f.d) (← decOpd f.a))
  | 0xC0 => do some (.csrr f.head (← decOpd f.d) f.immWord)
  | 0xC1 => do some (.csrw f.head f.immWord (← decOpd f.a))
  | 0xC2 => some (.rte f.head)
  | 0xC3 => do some (.hread f.head (← decOpd f.d) (← f.srcB))
  | 0xC4 => do some (.hwrite f.head (← f.srcB) (← decOpd f.a))
  | 0xC5 =>
      (match (f.fld 21 2).toNat with
        | 0 => do some (.mboxRd f.head (← decOpd f.d) (← f.srcB))
        | 1 => do some (.mboxWr f.head (← f.srcB) (← decOpd f.a))
        | 2 => some (.mboxSig f.head)
        | _ => none)  | _ => none

/-- The fields of a SIMT instruction; none for a slot word or an event. -/
def encodeFields : Instr → Option Fields
  | .nop h => some (fieldsOf 0x00 h 0 0 0)
  | .bra h disp => some ({ fieldsOf 0x01 h 0 0 0 with c := disp })
  | .brx h a => some (fieldsOf 0x02 h 0 0 a.code)
  | .call h disp => some ({ fieldsOf 0x03 h 0 0 0 with c := disp })
  | .callx h a => some (fieldsOf 0x04 h 0 0 a.code)
  | .ret h a => some (fieldsOf 0x05 h 0 0 a.code)
  | .exit h => some (fieldsOf 0x06 h 0 0 0)
  | .arj h d => some (fieldsOf 0x07 h 0 d.code 0)
  | .jset h md d b => some (match b with | some b => (fieldsOf 0x08 h (fldAt 21 md.code) d.code 0).withB b 0 | none => fieldsOf 0x08 h (fldAt 21 md.code) d.code 0)
  | .waitj h a => some (fieldsOf 0x09 h 0 0 a.code)
  | .spawn h a b => some ((fieldsOf 0x0A h 0 0 a.code).withB b 0)
  | .yield h n => some ((fieldsOf 0x0B h 0 0 0).withImm n 0)
  | .trap h n => some ((fieldsOf 0x0C h 0 0 0).withImm n 0)
  | .chk h a => some (fieldsOf 0x0D h 0 0 a.code)
  | .bkpt h n => some ((fieldsOf 0x0E h 0 0 0).withImm n 0)
  | .iadd h u sat d a b => some ((fieldsOf 0x10 h (bitAt 21 u ||| bitAt 20 sat) d.code a.code).withB b 0)
  | .isub h u sat d a b => some ((fieldsOf 0x11 h (bitAt 21 u ||| bitAt 20 sat) d.code a.code).withB b 0)
  | .imul h u sat d a b => some ((fieldsOf 0x12 h (bitAt 21 u ||| bitAt 20 sat) d.code a.code).withB b 0)
  | .imulh h u d a b => some ((fieldsOf 0x13 h (bitAt 21 u) d.code a.code).withB b 0)
  | .imad h u sat d a b c => some ((fieldsOf 0x14 h (bitAt 21 u ||| bitAt 20 sat) d.code a.code).withB b c.code)
  | .imin h u d a b => some ((fieldsOf 0x15 h (bitAt 21 u) d.code a.code).withB b 0)
  | .imax h u d a b => some ((fieldsOf 0x16 h (bitAt 21 u) d.code a.code).withB b 0)
  | .iabs h sat d a => some (fieldsOf 0x17 h (bitAt 20 sat) d.code a.code)
  | .ineg h sat d a => some (fieldsOf 0x18 h (bitAt 20 sat) d.code a.code)
  | .isetp h cc u bop d a b c => some ((fieldsOf 0x19 h (fldAt 22 cc.code ||| bitAt 21 u ||| bitAt 28 bop) d.code a.code).withB b c.code)
  | .sel h u d a b c => some ((fieldsOf 0x1A h (bitAt 21 u) d.code a.code).withB b c.code)
  | .lea h u sh d a b => some ((fieldsOf 0x1B h (bitAt 21 u ||| fldAt 22 sh) d.code a.code).withB b 0)
  | .addw h u x32 d a b => some ((fieldsOf 0x1C h (bitAt 21 u ||| bitAt 22 x32) d.code a.code).withB b 0)
  | .mulw h u d a b => some ((fieldsOf 0x1D h (bitAt 21 u) d.code a.code).withB b 0)
  | .isat h wd u d a => some (fieldsOf 0x1E h (fldAt 22 wd.code ||| bitAt 21 u) d.code a.code)
  | .and h d a b => some ((fieldsOf 0x20 h 0 d.code a.code).withB b 0)
  | .or h d a b => some ((fieldsOf 0x21 h 0 d.code a.code).withB b 0)
  | .xor h d a b => some ((fieldsOf 0x22 h 0 d.code a.code).withB b 0)
  | .shl h d a b => some ((fieldsOf 0x24 h 0 d.code a.code).withB b 0)
  | .shr h d a b => some ((fieldsOf 0x25 h 0 d.code a.code).withB b 0)
  | .sar h d a b => some ((fieldsOf 0x26 h 0 d.code a.code).withB b 0)
  | .rotl h d a b => some ((fieldsOf 0x27 h 0 d.code a.code).withB b 0)
  | .not h d a => some (fieldsOf 0x23 h 0 d.code a.code)
  | .popc h d a => some (fieldsOf 0x28 h 0 d.code a.code)
  | .clz h d a => some (fieldsOf 0x29 h 0 d.code a.code)
  | .brev h d a => some (fieldsOf 0x2A h 0 d.code a.code)
  | .mov h d a => some (fieldsOf 0x2E h 0 d.code a.code)
  | .bfx h sx d a b => some ((fieldsOf 0x2B h (bitAt 21 sx) d.code a.code).withB b 0)
  | .bfi h d a b c => some ((fieldsOf 0x2C h 0 d.code a.code).withB b c.code)
  | .prmt h d a b c => some ((fieldsOf 0x2D h 0 d.code a.code).withB b c.code)
  | .movi h tg d n => some ((fieldsOf 0x2F h (fldAt 21 tg.code) d.code 0).withImm n 0)
  | .fadd h rm d a b => some ((fieldsOf 0x30 h (fldAt 18 rm.code) d.code a.code).withB b 0)
  | .fsub h rm d a b => some ((fieldsOf 0x31 h (fldAt 18 rm.code) d.code a.code).withB b 0)
  | .fmul h rm d a b => some ((fieldsOf 0x32 h (fldAt 18 rm.code) d.code a.code).withB b 0)
  | .fscalb h rm d a b => some ((fieldsOf 0x39 h (fldAt 18 rm.code) d.code a.code).withB b 0)
  | .ffma h rm d a b c => some ((fieldsOf 0x33 h (fldAt 18 rm.code) d.code a.code).withB b c.code)
  | .fmin h d a b => some ((fieldsOf 0x34 h 0 d.code a.code).withB b 0)
  | .fmax h d a b => some ((fieldsOf 0x35 h 0 d.code a.code).withB b 0)
  | .fsetp h cc bop d a b c => some ((fieldsOf 0x36 h (fldAt 22 cc.code ||| bitAt 28 bop) d.code a.code).withB b c.code)
  | .frnd h rm d a => some (fieldsOf 0x37 h (fldAt 18 rm.code) d.code a.code)
  | .fclass h d a n => some ((fieldsOf 0x38 h 0 d.code a.code).withImm n 0)
  | .hadd2 h ty rm sat d a b => some ((fieldsOf 0x40 h (bitAt 21 ty ||| fldAt 18 rm.code ||| bitAt 20 sat) d.code a.code).withB b 0)
  | .hmul2 h ty rm sat d a b => some ((fieldsOf 0x41 h (bitAt 21 ty ||| fldAt 18 rm.code ||| bitAt 20 sat) d.code a.code).withB b 0)
  | .hfma2 h ty rm sat d a b c => some ((fieldsOf 0x42 h (bitAt 21 ty ||| fldAt 18 rm.code ||| bitAt 20 sat) d.code a.code).withB b c.code)
  | .hmin2 h ty d a b => some ((fieldsOf 0x43 h (bitAt 21 ty) d.code a.code).withB b 0)
  | .hmax2 h ty d a b => some ((fieldsOf 0x44 h (bitAt 21 ty) d.code a.code).withB b 0)
  | .hsetp2 h ty cc any d a b => some ((fieldsOf 0x45 h (bitAt 21 ty ||| fldAt 22 cc.code ||| bitAt 28 any) d.code a.code).withB b 0)
  | .dot2 h rm sat d a b c => some ((fieldsOf 0x46 h (fldAt 18 rm.code ||| bitAt 20 sat) d.code a.code).withB b c.code)
  | .dot4 h au bu sat d a b c => some ((fieldsOf 0x47 h (bitAt 21 au ||| bitAt 22 bu ||| bitAt 20 sat) d.code a.code).withB b c.code)
  | .cvt h df sf rm sat d a => some (fieldsOf 0x50 h (fldAt 23 df.code ||| fldAt 21 sf.code ||| fldAt 18 rm.code ||| bitAt 20 sat) d.code a.code)
  | .pack2 h f16 rm sat d a b => some ((fieldsOf 0x51 h (bitAt 21 f16 ||| fldAt 18 rm.code ||| bitAt 20 sat) d.code a.code).withB b 0)
  | .pack4 h fm si hi rm sat d a b c => some ((fieldsOf 0x52 h (fldAt 21 fm.code ||| bitAt 24 si ||| bitAt 23 hi ||| fldAt 18 rm.code ||| bitAt 20 sat) d.code a.code).withB b c.code)
  | .unpk h fm n d a => some (fieldsOf 0x53 h (fldAt 21 fm.code ||| bitAt 28 (n.getLsbD 1) ||| bitAt 24 (n.getLsbD 0)) d.code a.code)
  | .plnget h d a b c => some ((fieldsOf 0x54 h 0 d.code a.code).withB b c.code)
  | .plnput h d a b c => some ((fieldsOf 0x55 h 0 d.code a.code).withB b c.code)
  | .tagset h tg d a => some (fieldsOf 0x56 h (fldAt 21 tg.code) d.code a.code)
  | .tagget h d a => some (fieldsOf 0x57 h 0 d.code a.code)
  | .rcp h d a => some (fieldsOf 0x60 h 0 d.code a.code)
  | .rsq h d a => some (fieldsOf 0x61 h 0 d.code a.code)
  | .exp2 h d a => some (fieldsOf 0x63 h 0 d.code a.code)
  | .log2 h d a => some (fieldsOf 0x64 h 0 d.code a.code)
  | .sinpi h d a => some (fieldsOf 0x65 h 0 d.code a.code)
  | .cospi h d a => some (fieldsOf 0x66 h 0 d.code a.code)
  | .tanh h d a => some (fieldsOf 0x67 h 0 d.code a.code)
  | .erf h d a => some (fieldsOf 0x68 h 0 d.code a.code)
  | .sqrt h rm d a => some (fieldsOf 0x62 h (fldAt 18 rm.code) d.code a.code)
  | .shfl h md d a b => some ((fieldsOf 0x70 h (fldAt 21 md.code) d.code a.code).withB b 0)
  | .vote h md d a => some (fieldsOf 0x71 h (fldAt 21 md.code) d.code a.code)
  | .matchLanes h d a => some (fieldsOf 0x72 h 0 d.code a.code)
  | .wred h op ty rm sat d a => some (fieldsOf 0x73 h (fldAt 21 op.code ||| fldAt 23 ty.code ||| fldAt 18 rm.code ||| bitAt 20 sat) d.code a.code)
  | .ldg h ord spec ty d a ofs => some ((fieldsOf 0x80 h (ordBits ord ||| fldAt 21 ty.code) d.code a.code).withImm (memImm false (if spec then 1 else 0) ofs) 0)
  | .stg h ord sz a b ofs => some ((fieldsOf 0x81 h (ordBits ord ||| fldAt 21 sz.code) 0 a.code).withImm (memImm false 0 ofs) b.code)
  | .lds h ty d a ofs => some ((fieldsOf 0x82 h (fldAt 21 ty.code) d.code a.code).withImm (memImm false 0 ofs) 0)
  | .ldp h ty d a ofs => some ((fieldsOf 0x84 h (fldAt 21 ty.code) d.code a.code).withImm (memImm false 0 ofs) 0)
  | .ldw h ty d a ofs => some ((fieldsOf 0x86 h (fldAt 21 ty.code) d.code a.code).withImm (memImm false 0 ofs) 0)
  | .ldsr h ty d a ofs => some ((fieldsOf 0x87 h (fldAt 21 ty.code) d.code a.code).withImm (memImm false 0 ofs) 0)
  | .sts h sz a b ofs => some ((fieldsOf 0x83 h (fldAt 21 sz.code) 0 a.code).withImm (memImm false 0 ofs) b.code)
  | .stp h sz a b ofs => some ((fieldsOf 0x85 h (fldAt 21 sz.code) 0 a.code).withImm (memImm false 0 ofs) b.code)
  | .stsr h sz a b ofs => some ((fieldsOf 0x88 h (fldAt 21 sz.code) 0 a.code).withImm (memImm false 0 ofs) b.code)
  | .atom h op w64 u ordr d a b ofs => some ((fieldsOf 0x89 h (fldAt 21 op.code ||| bitAt 28 w64 ||| roleScope ordr) d.code a.code).withImm (memImm u (roleBits ordr) ofs) b.code)
  | .atoms h op w64 u d a b ofs => some ((fieldsOf 0x8A h (fldAt 21 op.code ||| bitAt 28 w64) d.code a.code).withImm (memImm u 0 ofs) b.code)
  | .sem h (.add a) d n => some ((fieldsOf 0x8B h 0 d.code a.code).withImm n 0)
  | .sem h .rd d n => some ((fieldsOf 0x8B h (fldAt 21 (1 : BitVec 2)) d.code 0).withImm n 0)
  | .sem h (.cas a c) d n => some ((fieldsOf 0x8B h (fldAt 21 (2 : BitVec 2)) d.code a.code).withImm n c.code)
  | .fence h kind sc => some (fieldsOf 0x8C h (fldAt 21 kind.code ||| fldAt 25 sc.code) 0 0)
  | .wbr h sc a b ofs => some ((fieldsOf 0x8D h (fldAt 25 sc.code) 0 a.code).withImm (memImm false 0 ofs) b.code)
  | .invr h sc a b ofs => some ((fieldsOf 0x8E h (fldAt 25 sc.code) 0 a.code).withImm (memImm false 0 ofs) b.code)
  | .pref h l2 a ofs => some ((fieldsOf 0x8F h (bitAt 21 l2) 0 a.code).withImm (memImm false 0 ofs) 0)
  | .dinit h ord d a b ofs => some ((fieldsOf 0x90 h (rlxBits ord) d.code a.code).withImm (memImm false 0 ofs) b.code)
  | .dprop h ord d a b ofs => some ((fieldsOf 0x91 h (rlxBits ord) d.code a.code).withImm (memImm false 0 ofs) b.code)
  | .dread h ord d a b ofs => some ((fieldsOf 0x92 h (rlxBits ord) d.code a.code).withImm (memImm false 0 ofs) b.code)
  | .drecyc h ord d a b ofs => some ((fieldsOf 0x93 h (rlxBits ord) d.code a.code).withImm (memImm false 0 ofs) b.code)
  | .cpy h dk sk post d a b c => some ((fieldsOf 0x94 h (fldAt 23 dk.code ||| fldAt 21 sk.code ||| bitAt 28 post) d.code a.code).withB b c.code)
  | .cpyt h post d a b c => some ((fieldsOf 0x95 h (bitAt 28 post) d.code a.code).withB b c.code)
  | .binit h sc a b ofs => some ((fieldsOf 0x98 h (fldAt 25 sc.code) 0 a.code).withImm (memImm false 0 ofs) b.code)
  | .expect h rem a b ofs => some ((fieldsOf 0x99 h (bitAt 28 rem) 0 a.code).withImm (memImm false 0 ofs) b.code)
  | .arrive h rlx warp rem d a ofs => some ((fieldsOf 0x9A h (bitAt 21 rlx ||| bitAt 22 warp ||| bitAt 28 rem) d.code a.code).withImm (memImm false 0 ofs) 0)
  | .bwait h d a b ofs => some ((fieldsOf 0x9B h 0 d.code a.code).withImm (memImm false 0 ofs) b.code)
  | .btest h d a b ofs => some ((fieldsOf 0x9C h 0 d.code a.code).withImm (memImm false 0 ofs) b.code)
  | .gbar h k d => some (fieldsOf 0x9D h (fldAt 21 k) d.code 0)
  | .give h cnt a n => some ((fieldsOf 0xA0 h (fldAt 21 cnt) 0 a.code).withImm n 0)
  | .take h cnt a => some (fieldsOf 0xA1 h (fldAt 21 cnt) 0 a.code)
  | .town h d a => some (fieldsOf 0xA2 h 0 d.code a.code)
  | .csrr h d n => some ((fieldsOf 0xC0 h 0 d.code 0).withImm n 0)
  | .csrw h n a => some ((fieldsOf 0xC1 h 0 0 a.code).withImm n 0)
  | .rte h => some (fieldsOf 0xC2 h 0 0 0)
  | .hread h d b => some ((fieldsOf 0xC3 h 0 d.code 0).withB b 0)
  | .hwrite h b a => some ((fieldsOf 0xC4 h 0 0 a.code).withB b 0)
  | .mboxRd h d o => some ((fieldsOf 0xC5 h 0 d.code 0).withB o 0)
  | .mboxWr h o a => some ((fieldsOf 0xC5 h (fldAt 21 (1 : BitVec 2)) 0 a.code).withB o 0)
  | .mboxSig h => some (fieldsOf 0xC5 h (fldAt 21 (2 : BitVec 2)) 0 0)
  | .unassignedOpcode h opc => some (fieldsOf opc h 0 0 0)
  | _ => none

/-- The 96-bit word of a SIMT instruction. -/
def encodeWord (i : Instr) : Option (BitVec 96) := (encodeFields i).map Fields.pack

/-- Decodes one SIMT word (R61). A word whose opcode is unassigned is the step UNASSIGNED_OPCODE, whatever its
other bits. -/
def decodeWord (w : BitVec 96) : Except Reject Instr :=
  let f := Fields.unpack w
  if !assignedOpcode f.opc.toNat then .ok (.unassignedOpcode f.head f.opc)
  else match parseFields f with
    | none => .error .noForm
    | some i => if !i.wf then .error .operand else if encodeWord i = some w then .ok i else .error .reserved

/-- The first 12 bytes as a SIMT instruction, with the bytes after it. -/
def decodeSimt (bs : List Byte) : Except Reject (Instr × List Byte) :=
  if bs.length < 12 then .error .truncated
  else (decodeWord (BitVec.ofNat 96 (leNat (bs.take 12)))).map fun i => (i, bs.drop 12)

-- Slot words (R63, R64) ------------------------------------------------------------------------------------------

/-- C slot layouts (Tables 7.1, 7.2, 7.3). -/
def cScalar (opc : Byte) (im : Bool) (yd ya yb : BitVec 5) (iv : Word) (bd : BitVec 2) (cc : BitVec 3) : BitVec 96 :=
  (0 : BitVec 34) ++ cc ++ (0 : BitVec 1) ++ bd ++ iv ++ yb ++ ya ++ yd ++ BitVec.ofBool im ++ opc
def cBranch (opc : Byte) (seg : BitVec 53) (idx : BitVec 8) (bp : BitVec 2) (bn : Bool) : BitVec 96 :=
  (0 : BitVec 24) ++ BitVec.ofBool bn ++ bp ++ idx ++ seg ++ opc
def cTile (opc : Byte) (tb : BitVec 9) (tn : BitVec 5) (rc : Byte) : BitVec 96 :=
  (0 : BitVec 66) ++ rc ++ tn ++ tb ++ opc

/-- A scalar word whose second source is a Y register or the immediate. -/
def cSrc (opc : Byte) (yd ya : BitVec 5) (b : YSrc) (bd : BitVec 2) (cc : BitVec 3) : BitVec 96 :=
  match b with
  | .y n => cScalar opc false yd ya n 0 bd cc
  | .imm w => cScalar opc true yd ya 0 w bd cc

/-- MBEAT (Table 7.6), MCFG (Table 7.8), X words (Table 7.9), K words (Table 7.10). -/
def mWord (push : Option PushF) (feed : Option FeedF) (acc : Option AccF) (drain : Option DrainF) (sw : Bool) :
    BitVec 96 :=
  let p := push.getD { krow := 0, slot := 0, ofs8 := 0 }
  let f := feed.getD { fromSlot := false, base := 0, row := 0 }
  let a := acc.getD { anew := false, base := 0, row := 0 }
  let d := drain.getD { toSlot := false, base := 0, row := 0, fmt := .d32, sat := false }
  (0 : BitVec 16) ++ BitVec.ofBool sw ++ BitVec.ofBool d.sat ++ d.fmt.code ++ d.row ++ d.base
    ++ BitVec.ofBool d.toSlot ++ BitVec.ofBool drain.isSome ++ a.row ++ a.base ++ BitVec.ofBool a.anew
    ++ BitVec.ofBool acc.isSome ++ f.row ++ f.base ++ BitVec.ofBool f.fromSlot ++ BitVec.ofBool feed.isSome
    ++ p.ofs8 ++ p.slot ++ p.krow ++ BitVec.ofBool push.isSome ++ (0x01 : Byte)
def mcfgWord (md : BitVec 3) (af wf : Bool) (nk : BitVec 4) : BitVec 96 :=
  (0 : BitVec 79) ++ nk ++ BitVec.ofBool wf ++ BitVec.ofBool af ++ md ++ (0x03 : Byte)
def xWord (opc : Byte) (e : XExp) (bias : Option XBiasF) (inScale : Bool) (clamp : Option XClampF)
    (clampBit : Bool) : BitVec 96 :=
  let b := bias.getD { slot := 0, row := 0 }
  let c := clamp.getD { lo := 0, hi := 0 }
  let (si, se, sq, sr) : Bool × Byte × BitVec 7 × BitVec 5 :=
    match e with
    | .imm v => (inScale, v, 0, 0)
    | .row q r => (false, 0, q, r)
  (0 : BitVec 43) ++ c.hi ++ c.lo ++ b.row ++ b.slot ++ BitVec.ofBool (clampBit && clamp.isSome)
    ++ BitVec.ofBool (inScale && bias.isSome) ++ sr ++ sq ++ se ++ BitVec.ofBool si ++ opc
def kWord (opc : Byte) (q : BitVec 7) (sk : BitVec 2) (ya row nr : BitVec 5) (tb : BitVec 9) (tg : BitVec 4) :
    BitVec 96 :=
  (0 : BitVec 50) ++ tg ++ tb ++ nr ++ (0 : BitVec 1) ++ row ++ ya ++ sk ++ q ++ opc

/-- The slot and word of a slot instruction; none for a SIMT instruction or an event. Slots: C 0, M 1, X 2, K 3. -/
def encodeSlot : Instr → Option (BitVec 2 × BitVec 96)
  | .cnop => some (0, 0)
  | .sbr seg idx => some (0, cBranch 0x01 seg idx 0 false)
  | .sbrc n bp seg idx => some (0, cBranch 0x02 seg idx bp n)
  | .yadd yd ya b => some (0, cSrc 0x03 yd ya b 0 0)
  | .ysub yd ya b => some (0, cSrc 0x04 yd ya b 0 0)
  | .ymov yd b => some (0, cSrc 0x05 yd 0 b 0 0)
  | .ycmp cc bd ya b => some (0, cSrc 0x06 0 ya b bd cc.code)
  | .yshl yd ya b => some (0, cSrc 0x07 yd ya b 0 0)
  | .stake tn tb => some (0, cTile 0x08 tb tn 0)
  | .sgive tn tb rc => some (0, cTile 0x09 tb tn rc)
  | .sarrive ya => some (0, cScalar 0x0A false 0 ya 0 0 0 0)
  | .swait yd ya yb iv => some (0, cScalar 0x0B false yd ya yb iv 0 0)
  | .retirept => some (0, cScalar 0x0C false 0 0 0 0 0 0)
  | .shalt => some (0, cScalar 0x0D false 0 0 0 0 0 0)
  | .sfence => some (0, cScalar 0x0E false 0 0 0 0 0 0)
  | .mnop => some (1, 0)
  | .mbeat push feed acc drain sw => some (1, mWord push feed acc drain sw)
  | .mswap => some (1, cScalar 0x02 false 0 0 0 0 0 0)
  | .mcfg md af wf nk => some (1, mcfgWord md.code af wf nk)
  | .mzero => some (1, cScalar 0x04 false 0 0 0 0 0 0)
  | .xnop => some (2, 0)
  | .xscale e bias clamp => some (2, xWord 0x01 e bias true clamp true)
  | .xbias bias clamp => some (2, xWord 0x02 (.imm 0) (some bias) false clamp true)
  | .xsat clamp => some (2, xWord 0x03 (.imm 0) none false (some clamp) false)
  | .knop => some (3, 0)
  | .kclaim q => some (3, kWord 0x01 q 0 0 0 0 0 0)
  | .krel q => some (3, kWord 0x02 q 0 0 0 0 0 0)
  | .kfill q row nr (.sp ya) => some (3, kWord 0x03 q 0 ya row nr 0 0)
  | .kfill q row nr (.ws ya) => some (3, kWord 0x03 q 1 ya row nr 0 0)
  | .kfill q row nr (.tl tb) => some (3, kWord 0x03 q 2 0 row nr tb 0)
  | .kstore q row nr (.sp ya) => some (3, kWord 0x04 q 0 ya row nr 0 0)
  | .kstore q row nr (.tl tb tg) => some (3, kWord 0x04 q 2 0 row nr tb tg)
  | .unassignedSlotOpcode slot opc => some (slot, opc.setWidth 96)
  | _ => none

/-- The YB register, or IV where IM is set (Table 7.1). -/
def ySrcOf (w : BitVec 96) : YSrc :=
  if w.getLsbD 8 then .imm (w.extractLsb' 24 32) else .y (w.extractLsb' 19 5)

def clampOf (w : BitVec 96) : XClampF := { lo := w.extractLsb' 43 5, hi := w.extractLsb' 48 5 }
def biasOf (w : BitVec 96) : XBiasF := { slot := w.extractLsb' 31 7, row := w.extractLsb' 38 5 }

/-- The slot instruction a word selects, before its legality is checked (Table 3.8). -/
def parseSlot (slot : Nat) (w : BitVec 96) : Option Instr :=
  let yd := w.extractLsb' 9 5
  let ya := w.extractLsb' 14 5
  match slot, (w.extractLsb' 0 8).toNat with
  | 0, 0x00 => some .cnop
  | 0, 0x01 => some (.sbr (w.extractLsb' 8 53) (w.extractLsb' 61 8))
  | 0, 0x02 => some (.sbrc (w.getLsbD 71) (w.extractLsb' 69 2) (w.extractLsb' 8 53) (w.extractLsb' 61 8))
  | 0, 0x03 => some (.yadd yd ya (ySrcOf w))
  | 0, 0x04 => some (.ysub yd ya (ySrcOf w))
  | 0, 0x05 => some (.ymov yd (ySrcOf w))
  | 0, 0x06 => some (.ycmp (YCmp.ofCode (w.extractLsb' 59 3)) (w.extractLsb' 56 2) ya (ySrcOf w))
  | 0, 0x07 => some (.yshl yd ya (ySrcOf w))
  | 0, 0x08 => some (.stake (w.extractLsb' 17 5) (w.extractLsb' 8 9))
  | 0, 0x09 => some (.sgive (w.extractLsb' 17 5) (w.extractLsb' 8 9) (w.extractLsb' 22 8))
  | 0, 0x0A => some (.sarrive ya)
  | 0, 0x0B => some (.swait yd ya (w.extractLsb' 19 5) (w.extractLsb' 24 32))
  | 0, 0x0C => some .retirept
  | 0, 0x0D => some .shalt
  | 0, 0x0E => some .sfence
  | 1, 0x00 => some .mnop
  | 1, 0x01 => do
      let fmt ← DFmt.ofCode (w.extractLsb' 75 3)
      some (.mbeat
        (if w.getLsbD 8 then
          some { krow := w.extractLsb' 9 6, slot := w.extractLsb' 15 7, ofs8 := w.extractLsb' 22 8 } else none)
        (if w.getLsbD 30 then
          some { fromSlot := w.getLsbD 31, base := w.extractLsb' 32 9, row := w.extractLsb' 41 4 } else none)
        (if w.getLsbD 45 then
          some { anew := w.getLsbD 46, base := w.extractLsb' 47 9, row := w.extractLsb' 56 4 } else none)
        (if w.getLsbD 60 then
          some { toSlot := w.getLsbD 61, base := w.extractLsb' 62 9, row := w.extractLsb' 71 4, fmt,
                 sat := w.getLsbD 78 } else none)
        (w.getLsbD 79))
  | 1, 0x02 => some .mswap
  | 1, 0x03 => do
      some (.mcfg (← AMode.ofCode (w.extractLsb' 8 3)) (w.getLsbD 11) (w.getLsbD 12) (w.extractLsb' 13 4))
  | 1, 0x04 => some .mzero
  | 2, 0x00 => some .xnop
  | 2, 0x01 => some (.xscale
      (if w.getLsbD 8 then .imm (w.extractLsb' 9 8) else .row (w.extractLsb' 17 7) (w.extractLsb' 24 5))
      (if w.getLsbD 29 then some (biasOf w) else none) (if w.getLsbD 30 then some (clampOf w) else none))
  | 2, 0x02 => some (.xbias (biasOf w) (if w.getLsbD 30 then some (clampOf w) else none))
  | 2, 0x03 => some (.xsat (clampOf w))
  | 3, 0x00 => some .knop
  | 3, 0x01 => some (.kclaim (w.extractLsb' 8 7))
  | 3, 0x02 => some (.krel (w.extractLsb' 8 7))
  | 3, 0x03 =>
      let mk := Instr.kfill (w.extractLsb' 8 7) (w.extractLsb' 22 5) (w.extractLsb' 28 5)
      match (w.extractLsb' 15 2).toNat with
      | 0 => some (mk (.sp (w.extractLsb' 17 5)))
      | 1 => some (mk (.ws (w.extractLsb' 17 5)))
      | 2 => some (mk (.tl (w.extractLsb' 33 9)))
      | _ => none
  | 3, 0x04 =>
      let mk := Instr.kstore (w.extractLsb' 8 7) (w.extractLsb' 22 5) (w.extractLsb' 28 5)
      match (w.extractLsb' 15 2).toNat with
      | 0 => some (mk (.sp (w.extractLsb' 17 5)))
      | 2 => some (mk (.tl (w.extractLsb' 33 9) (w.extractLsb' 42 4)))
      | _ => none
  | _, _ => none

/-- Decodes one slot word. An unassigned opcode is the step UNASSIGNED_SLOT_OPCODE, whatever its other bits. -/
def decodeSlotWord (slot : BitVec 2) (w : BitVec 96) : Except Reject Instr :=
  if !assignedSlotOpcode slot.toNat (w.extractLsb' 0 8).toNat then
    .ok (.unassignedSlotOpcode slot (w.extractLsb' 0 8))
  else match parseSlot slot.toNat w with
    | none => .error .noForm
    | some i => if !i.wf then .error .operand else if encodeSlot i = some (slot, w) then .ok i else .error .reserved

-- Bundles (R65) ---------------------------------------------------------------------------------------------------

/-- A bundle: its presence byte and its present words by slot, each decoded or rejected. -/
structure Bundle where
  presence : Byte
  words : List (BitVec 2 × Except Reject Instr)

/-- The present words of slots s to 3 in order. -/
def decodeWords (presence : Byte) : Nat → Nat → List Byte → List (BitVec 2 × Except Reject Instr)
  | 0, _, _ => []
  | n + 1, s, bs =>
    if presence.getLsbD s then
      (BitVec.ofNat 2 s, decodeSlotWord (BitVec.ofNat 2 s) (BitVec.ofNat 96 (leNat (bs.take 12))))
        :: decodeWords presence n (s + 1) (bs.drop 12)
    else decodeWords presence n (s + 1) bs

/-- The number of slot words that a presence byte announces; only its low four bits count (R65). -/
def presentCount (presence : Byte) : Nat :=
  ((List.range 4).filter fun s => presence.getLsbD s).length

/-- A bundle and the bytes after it. -/
def decodeBundle : List Byte → Except Reject (Bundle × List Byte)
  | [] => .error .truncated
  | p :: bs =>
    let n := 12 * presentCount p
    if bs.length < n then .error .truncated
    else .ok ({ presence := p, words := decodeWords p 4 0 bs }, bs.drop n)

/-- The bytes of an instruction alone: a SIMT word, or a bundle that holds the one slot word. An event has none. -/
def encode (i : Instr) : Option (List Byte) :=
  match encodeWord i with
  | some w => some (leBytes 12 w.toNat)
  | none =>
    match encodeSlot i with
    | some (slot, w) => some (BitVec.ofNat 8 (2 ^ slot.toNat) :: leBytes 12 w.toNat)
    | none => none

/-- The instruction that bytes hold: a SIMT word where there are 12 of them, else a bundle of one word. -/
def decodeBytes (bs : List Byte) : Option Instr :=
  if bs.length = 12 then
    match decodeSimt bs with
    | .ok (i, _) => some i
    | .error _ => none
  else
    match decodeBundle bs with
    | .ok ({ words := [(_, .ok i)], .. }, _) => some i
    | _ => none

/-- The bytes of a table word: 12 where at most 96 bits are given (a SIMT word), else 13 (a presence byte and one
slot word); the bits above nbits are zero. -/
def tableBytes (nbits w : Nat) : List Byte :=
  leBytes (if nbits ≤ 96 then 12 else 13) (w % 2 ^ nbits)

/-- The instruction the decoder reads from an instruction whose bits are w, numbered as the opcode table numbers
them. -/
def decodeTableWord (nbits w : Nat) : Option Instr := decodeBytes (tableBytes nbits w)

end Sys2Proof
end

