-- ==== Sys2Proof/Config.lean ====
section
/-!
DEFINITION. Sys2Proof/Config.lean: what the manual fixes once for a device, and the free values.

A free value is a constant with no body: nothing in Lean can evaluate it, so a claim holds whatever it is.
-/
namespace Sys2Proof.Config

/-- The candidate result of special function op (its opcode) on an F32 operand (R118): which result
within the stated bound is returned is not architectural, but the device returns the same result for
the same input. The meaning keeps the bound (Machine/Special.lean). Assumption 7. -/
opaque sfu : Nat → Word → Word

/-- A byte that the manual does not promise, fresh for each value of the counter State.freeCtr: an
overlapping byte of a copy (R212). Assumption 8. -/
opaque freeByte : Nat → Byte

/-- A byte of a CMP block that is encrypted as well, read under a key other than the one it was written under (R193, R319): the
stored form of a compressed block is not architectural, so neither is what another key makes of it. Key it was written under, key
of the reader, physical address, stored byte. Assumption 17. -/
opaque misdecrypt : Nat → Nat → Nat → Byte → Byte

/-- The secret of 32 bytes that an ML-KEM-768 ciphertext holds for the device (R380): it rests on the device's own key.
Assumption 17. -/
opaque decapsulate : List Byte → List Byte

/-- What a firmware image holds (R378): whether its Ed25519 and its ML-DSA-65 signature verify, the two public keys that it names, and its
security version. Assumption 17. -/
opaque edVerifies : List Byte → Bool
opaque mlVerifies : List Byte → Bool
opaque edKey : List Byte → List Byte
opaque mlKey : List Byte → List Byte
opaque securityVersion : List Byte → Nat

/-- What is fused: the SHA-384 hashes of the two keys, and the least security version (R378). Assumption 17. -/
opaque fusedEdHash : List Byte
opaque fusedMlHash : List Byte
opaque fusedVersion : Nat

/-- The cause that the firmware block shows for an image that is refused (R378): its codes are not stated. Assumption 17. -/
opaque refusalCause : List Byte → Nat

/-- The device's ML-KEM-768 public key, and the Ed25519 and ML-DSA-65 signatures of a report under the two device identity keys
(R379). Assumption 17. -/
opaque kemKey : List Byte
opaque signatures : List Byte → List Byte

/-- The fabric port, 0 to 15, by which requests to a peer chip leave (R11): the routing is not stated. Assumption 53. -/
opaque portOf : Nat → Nat

/-- The fused temperature threshold of the thermal trip in degrees, from 0 to the most that TEMP holds (R377). Assumption 20. -/
opaque tripDegrees : BitVec 7
def tripThreshold : Int := tripDegrees.toNat

/-- DEVID (Table 18.3). -/
def devid : Word := 0x5D90A000

/-- The stepping code and latency-table identity that a stepping A0 device holds (Table 3.11, R133). -/
def steppingCode : Byte := 0xA0
def latencyTable : Word := 0x000A0001

/-- Bundles from the FEED to the scale port and to the bottom, and from an ACC or DRAIN to its landing
(Table 6.3). -/
def scalePortDelay : Nat := 66
def bottomDelay : Nat := 68
def landDelay : Nat := 2

/-- Cycles of the handler's budget (R335), of an SPAWN bin's timer at reset (R276), of a GEN hold
(R249), and of a decided copy's life (R254). -/
def handlerBudget : Nat := 1048576
def spawnTimer : Nat := 2048
def genHold : Nat := 16
def decidedLife : Nat := 8589934592

end Sys2Proof.Config
end

