-- ==== Sys2Proof/Machine/State.lean ====
section
/-!
DEFINITION. Sys2Proof/Machine/State.lean: the state of the package as plain data, the state after reset, and the reasons a
step can stop.

Sparse storage is a list of (key, value) pairs with strictly rising keys, in which no entry holds the value that an
unlisted key reads as. The keys of the per-core stores are formed by the accessors of Machine/Ops.lean.
-/
namespace Sys2Proof.Machine

/-- Sparse storage of values of type α. -/
abbrev Store (α : Type) := List (Nat × α)

/-- Byte memory: an unlisted byte reads as 0 (assumption 2). -/
abbrev Memory := List Host.Cell

/-- Marks per sector or row: an unlisted one is clear. -/
abbrev Marks := Store Bool

-- Pages ------------------------------------------------------------------------------------------------------------

/-- The target of a page (Table 15.1): local HBM, host memory of the function, or a peer chip. -/
inductive Target where
  | hbm | host | peer (chip : Nat)
deriving DecidableEq, Repr

/-- The ordering kinds (R185). -/
inductive OrdKind where
  | strong | rc | unord
deriving DecidableEq, Repr

/-- What a leaf entry gives a page (Table 15.1), with the page's first physical byte and its size. -/
structure Attr where
  tgt : Target
  ord : OrdKind
  soft : Bool
  cmp : Bool
  doc : Bool
  enc : Bool
  r : Bool
  w : Bool
  x : Bool
  base : Nat
  size : Nat
deriving DecidableEq, Repr

/-- A translation-cache entry of one die (R325): keyed by context and virtual page. oa is the entry's own output
address; attr.base is that address after the host's translation agent (R324), whose answer was for function fn (R329). -/
structure TlbEntry where
  die : Nat
  ctx : Nat
  va : Nat
  oa : Nat
  attr : Attr
  fn : Nat
deriving DecidableEq, Repr

/-- What the host's address-translation agent answers for a page of host memory (R324): the address it stands at, and
whether it may be read and written. -/
structure AtsRes where
  addr : Nat
  r : Bool
  w : Bool
deriving DecidableEq, Repr

/-- An L1 line of a core (R183): context tag, virtual and physical line address, attributes, lease expiry, bytes,
poison and presence of its four sectors, dirty bytes with the launches that wrote them (R241), and whether an invalidation has stripped
its permissions (R327). -/
structure L1Line where
  ctx : Nat
  inc : Byte
  va : Nat
  pa : Nat
  attr : Attr
  exp : Nat
  data : List Byte
  psn : List Bool
  valid : List Bool
  dirty : List Bool
  by_ : List Nat
  stripped : Bool
deriving DecidableEq, Repr

/-- A SOFT copy that a die's L2 holds for a line homed elsewhere (R183, R184, R191), with the key that its page was under (R319). -/
structure L2Line where
  die : Nat
  ctx : Nat
  inc : Byte
  va : Nat
  pa : Nat
  attr : Attr
  data : List Byte
  psn : List Bool
  valid : List Bool
  dirty : List Bool
  by_ : List Nat
  key : Nat
deriving DecidableEq, Repr

/-- A line of a core's instruction cache, held under a lease (R301). -/
structure CodeLine where
  ctx : Nat
  inc : Byte
  va : Nat
  pa : Nat
  exp : Nat
  data : List Byte
deriving DecidableEq, Repr

/-- A decided copy (R254), held by an L1 (holder is the core number) or an L2 (holder is 192 + die). -/
structure Decided where
  holder : Nat
  ctx : Nat
  inc : Byte
  va : Nat
  gen : Word
  value : DWord
  winner : Word
  born : Nat
deriving DecidableEq, Repr

-- Threads and warps ---------------------------------------------------------------------------------------------

/-- What a thread does (R277, R332, Table 16.4). -/
inductive Status where
  | absent | ready | exited | parked
  | bwait (d : Opd) (ofs : Nat) (phase t : Word) (issue : Nat)
  | gbar (d : Opd) (k : BitVec 2)
  | take (base cnt : Nat)
  | waitj (j : BitVec 3)
  | spawn (entry arg : DWord)
  | page (id : Nat)
  | acks (ids : List Nat)
  | answer (id : Nat)
deriving DecidableEq, Repr

/-- The trap record (Table 16.1). pc is BCNT in a sequencer record. -/
structure TrapRec where
  ctxt : Word
  aux : Word
  addr : DWord
  pc : DWord
  ident : Word
  info : BitVec 16
  kind : Bool
  defd : Bool
  act : BitVec 2
  cause : Byte
deriving DecidableEq, Repr

/-- A thread: its program counter, predicates, issue count, deferred-fault record (R339), the latches of %timeh
(R59) and SEQBCH (R347), the last yield-hinted load (R204), the trap record while parked, the TIME since which it
is ready (R278), and the page requests granted to its instruction, each with the cause it stood for and its page (R302, R324). -/
structure Thread where
  st : Status
  pc : DWord
  preds : BitVec 7
  issued : Word
  dfOvf : Bool
  dfV : Bool
  dfCause : Byte
  dfAddr : DWord
  timeh : Option Word
  bch : Option Word
  yld : Option (DWord × DWord)
  record : Option TrapRec
  since : Nat
  again : List (Byte × Nat)
deriving DecidableEq, Repr

/-- A warp slot (R16, R20, R277, R364, R367). inelig counts core clocks (R376). team is the slot of its team in the core; jregs holds J0 to J7; upsets
counts the soft errors that its next redundant performances meet (assumption 18); halted says that a HALT holds it (R362). -/
structure Warp where
  live : Bool
  team : Nat
  tbase : Nat
  ntile : Nat
  jregs : Store Word
  backoff : Nat
  waited : Nat
  inelig : Nat
  urgent : Bool
  step : Bool
  frz : Bool
  catches : Bool
  halted : Bool
  retired : DWord
  syncs : Nat
  upsets : Nat
deriving DecidableEq, Repr

/-- A global store held in a retryable interval (R354); requests numbered below born were made before it. -/
structure Held where
  born : Nat
  warp : Nat
  lane : Nat
  va : Nat
  pa : Nat
  attr : Attr
  data : List Byte
deriving DecidableEq, Repr

/-- The RECOV state of a team (R352-R356): whether the interval is retryable, rollbacks since the last commit, the held stores,
oldest first; while a commit runs, the range of numbers of the requests that perform its held bytes (R354); and whether the team is
stopped until its copies have ended and its checkpoint is back (R356). -/
structure Recov where
  retry : Bool
  rolls : Nat
  held : List Held
  commit : Option (Nat × Nat)
  rolling : Bool
deriving DecidableEq, Repr

/-- A team on a core (R260, R273): launch, %team, rank, its warps' numbers, its scratchpad window, semaphore set,
private share, whether it holds the sequencer, the TIME its slice began, whether its warps are stopped by FRZ, whether
it has ended (and only its window remains, R177), and its RECOV state. -/
structure Team where
  launch : Nat
  index : Nat
  rank : Nat
  warps : List Nat
  scr : Nat
  scrLen : Nat
  sem : Nat
  share : Nat
  seq : Bool
  began : Nat
  frozen : Bool
  ended : Bool
  recov : Option Recov
deriving DecidableEq, Repr

/-- A spawn bin (R275, R276): team slot, entry, arguments in order, TIME of the first, and the place in the order in
which bins became full. -/
structure Bin where
  team : Nat
  entry : DWord
  args : List DWord
  first : Nat
  full : Option Nat
deriving DecidableEq, Repr

/-- A trap event (R332): the warp and lanes, or the sequencer, with the cause, whether it is a deferred fault, its
team slot and context tag; and whether it is a STEP event that formed under FRZ (R364). -/
structure Event where
  warp : Nat
  lanes : Word
  seq : Bool
  cause : Byte
  defd : Bool
  team : Nat
  ctx : Nat
  inc : Byte
  frz : Bool
deriving DecidableEq, Repr

/-- The handler warp's duty (R333-R336): the event served, and the cycles left of its budget; before a dispatch, the page request that the
entry of the trap table waits for, and the context and page of each asked for. It is in monitor mode while it serves no event. -/
structure Handler where
  serving : Option Event
  budget : Nat
  pageWait : Option Nat
  asked : List (Nat × Nat)
deriving DecidableEq, Repr

-- The sequencer -----------------------------------------------------------------------------------------------------

/-- An operand slot (R137): claimed, pending fills and drains, and a KREL that waits for them. -/
structure Slot where
  claimed : Bool
  fills : Nat
  drains : Nat
  releasing : Bool
deriving DecidableEq, Repr

/-- A beat in flight (R132, R133): the bundle of its FEED, its plane (true B), the feed rows, the running column sums, the
PE rows met of the present group in LUT mode (R89), and the address of the FEED bundle (R366). -/
structure Beat where
  t : Int
  plane : Bool
  rows : List (List Byte)
  sums : List (List Word)
  met : List (List Byte)
  addr : DWord
deriving DecidableEq, Repr

/-- A pending ACC or DRAIN write (R136): its landing bundle, whether its sums are I32, the rows it carries, where they go, and
the rows of its destination that a write issued later has written since (R138, R170). -/
inductive PendDst where
  | acc (add : Bool) (base row : Nat)
  | tiles (base row : Nat) (fmt : DFmt)
  | slot (q row : Nat) (fmt : DFmt)
deriving DecidableEq, Repr

structure Pend where
  land : Nat
  int : Bool
  rows : List (List Word)
  dst : PendDst
  later : List Nat
deriving DecidableEq, Repr

/-- A K word in flight, or a held SARRIVE (R126, R138, R152, R155): its number, the bundle that issued it, the SFENCEs issued
before it, its slot rows, what it moves, the bytes that a KSTORE has read, and the rows of its destination that a write issued
later has written since. -/
inductive KMove where
  | fillSp (ofs : Nat)
  | fillWs (ofs : Nat)
  | fillTl (data : List Byte)
  | storeSp (ofs : Nat)
  | storeTl (tile : Nat) (tag : Tag)
  | arrive (ofs : Nat)
deriving DecidableEq, Repr

structure KXfer where
  kid : Nat
  bundle : Nat
  fences : Nat
  slot : Nat
  row : Nat
  rows : Nat
  move : KMove
  data : Option (List Byte)
  later : List Nat
deriving DecidableEq, Repr

/-- A loop-buffer half (R129): the segment expanded into it, whether it is malformed (R68) or cannot be fetched, its
NEXT, and its bundles' bytes. -/
inductive SegState where
  | good | malformed | noFetch
deriving DecidableEq, Repr

structure Half where
  seg : DWord
  st : SegState
  nxt : DWord
  bundles : List (List Byte)
deriving DecidableEq, Repr

/-- Where control stands (R67-R70): the segment and the index of the next bundle, whether it enters that segment there, and
a taken branch with the delay bundles still to come. -/
structure SeqPos where
  seg : DWord
  idx : Nat
  enter : Bool
  branch : Option (DWord × Nat)
  delays : Nat
deriving DecidableEq, Repr

/-- The bundle being performed. Its words are first all checked, then all performed (R66, R128); Y and B hold the
values at its start. -/
inductive Phase where
  | check | perform
deriving DecidableEq, Repr

structure BundleCtx where
  core : Nat
  phase : Phase
  presence : Byte
  y : Store Word
  b : BitVec 3
  taken : List Nat
  faults : List (Byte × Byte)
  stall : Bool
  wait : Option Word
  swap : Bool
  push : Option (Nat × List Byte)
  zero : Bool
  fed : Bool
  cfg : Option (AMode × Bool × Bool × BitVec 4)
  retire : Bool
  jump : Option (DWord × Nat)
  halt : Bool
  code : Word
deriving DecidableEq, Repr

/-- The sequencer of a core (R124, R125, R142, R143), its loop buffer, K pipeline and fault record; denied lists the pages asked
for as a copy does. A beat with no feed rows is an empty position that an X word has met (R134). -/
structure Seq where
  active : Bool
  team : Nat
  y : Store Word
  b : BitVec 3
  fcause : Byte
  intlk : Bool
  plane : Bool
  halt : Bool
  isat : Bool
  bcount : DWord
  md : AMode
  af : Bool
  wf : Bool
  nk : BitVec 4
  planeA : Memory
  planeB : Memory
  slots : Store Slot
  beats : List Beat
  pend : List Pend
  lastFeed : Option Nat
  kq : List KXfer
  nextK : Nat
  gave : Store Nat
  fences : Nat
  pos : SeqPos
  halves : List Half
  sinceRet : Nat
  retdist : Nat
  stalled : Option Nat
  released : Bool
  record : Option TrapRec
  stop : Option DWord
  frozen : Bool
  leaving : Bool
  atRetire : Bool
  pageWait : Option Nat
  denied : List Nat
deriving DecidableEq, Repr

/-- Class sampling of a core (R366): ring, log2 of the period and of the ring's entries, the next entry, and the TIME of the last
sample. -/
structure Prof where
  ring : DWord
  period : Nat
  entries : Nat
  next : Nat
  last : Nat
deriving DecidableEq, Repr

/-- A core's control state (R21, R22): teams, bins, L1, instruction cache, trap queue, held events, handler, sequencer, the core clock at
which each quadrant may issue again (R17), and the class counters with the class and charged address of the current cycle (R366). -/
structure Core where
  teams : Store Team
  bins : Store Bin
  binTimer : Nat
  binSeq : Nat
  l1 : List L1Line
  icache : List CodeLine
  quads : Store Nat
  trapq : List Event
  held : List Event
  handler : Handler
  seq : Seq
  cycles : Store DWord
  cls : Option (Nat × DWord)
  lastCharge : DWord
  prof : Option Prof
deriving DecidableEq, Repr

-- Requests and copies -----------------------------------------------------------------------------------------------

/-- The result of a decide-once action (R252). -/
structure CellRes where
  val : DWord
  code : Nat
  noprev : Bool
  info : Word
deriving DecidableEq, Repr

/-- A barrier action (R219). -/
inductive BarAct where
  | arrive | expect (n : Nat) | post (n : Nat) (err : Bool)
deriving DecidableEq, Repr

/-- What a request asks: an access to global memory, a write-back, a barrier action, a held LDW, an access to another team's scratchpad
window, or the write of one unit of a copy that goes outside the package. -/
inductive ReqAct where
  | load (ty : LdTy) (d : Opd) (hint : Bool)
  | store (data : List Byte)
  | writeback (data : List Byte) (mask : List Bool) (by_ : List Nat)
  | atom (op : AtOp) (w64 u : Bool) (d : Opd) (v cmp : DWord)
  | cell (op : CellOp) (d : Opd) (g : Word) (value : DWord)
  | barrier (home win ofs : Nat) (act : BarAct) (d : Option Opd)
  | weight (ty : LdTy) (d : Opd) (ofs : Nat) (hint : Bool)
  | rload (home win : Nat) (ty : LdTy) (d : Opd) (hint : Bool)
  | rstore (home win : Nat) (data : List Byte)
  | unit (copy u : Nat) (data : List Byte)
deriving DecidableEq, Repr

/-- How far a request has come: on its way; granted a lease with the line's bytes; filled; holding its result; or performed at a peer
whose response was an orphan, so that only its timeout is left (R311, R373). -/
inductive ReqStage where
  | sent
  | granted (exp now : Nat) (line : List Byte) (psn : List Bool)
  | filled (line : List Byte) (psn : List Bool)
  | result (val : DWord) (psn : Bool)
  | cell (r : CellRes)
  | lost
deriving DecidableEq, Repr

/-- A request in flight (R309): its number, the thread, launch and team that made it, its context tag, the page kind it went to,
addresses, action and stage; how many checkpoints of its path it has passed (R310); whether it acquires, whether an INVR keeps
its fill out of the L1 and of the die's L2 (R192), whether its result is discarded (R291, R311), whether an agent of its core
may know of its write before its home does, and whether a CORE release has released it (R226, R235), the window in which its
result still lands after its warp has exited (R383), the TIME at which it left, and the warp that issued it (R199, R251); for a
load of a RECOV team, the held bytes that stood before it, with their addresses (R229, R354); for a store that was held, the
number that the next request had when it was (R328, R354). -/
structure Req where
  id : Nat
  core : Nat
  warp : Nat
  lane : Nat
  launch : Nat
  team : Nat
  ctx : Nat
  inc : Byte
  attr : Attr
  va : Nat
  pa : Nat
  act : ReqAct
  stage : ReqStage
  passed : Nat
  acq : Bool
  noInstall : Bool
  noL2 : Bool
  orphan : Bool
  seen : Bool
  freed : Bool
  window : Option Nat
  sentAt : Nat
  from_ : Nat
  laid : List Host.Cell
  turn : Option Nat
deriving DecidableEq, Repr

/-- One end of a copy. -/
inductive CopyEnd where
  | gm (va : Nat)
  | sp (core win ofs : Nat)
  | ws (ofs : Nat)
deriving DecidableEq, Repr

/-- What a copy moves: a span between two ends, or the tile of a tensor descriptor (R216), whose bytes are empty until the
engine has read it. -/
inductive CopyJob where
  | span (dst src : CopyEnd) (len : Nat)
  | tensor (desc : Nat) (dst : CopyEnd) (bytes : List Byte)
deriving DecidableEq, Repr

/-- A copy under way (R212-R217, R270): the thread that reads its status in d, or the queue packet; its tag; the units
already moved and those among them that were poisoned; the barrier it posts to; the page request it waits for; the pages
asked for (twice the page number, one more where the answer was a refusal); the requests that come before its reads and writes (R212);
the pages, by number, that it has found to allow units that a later one overtook (R213); and the stores that its team held when it
started (R388). -/
structure Copy where
  id : Nat
  core : Nat
  warp : Nat
  lane : Nat
  d : Option Opd
  queue : Option Nat
  order : Nat
  cmpl : Nat
  irq : Bool
  launch : Nat
  team : Nat
  ctx : Nat
  inc : Byte
  job : CopyJob
  moved : List Nat
  bad : List Nat
  post : Option (Nat × Nat × Nat)
  page : Option Nat
  denied : List Nat
  orphan : Bool
  after : List Nat
  pages : List (Nat × Attr)
  laid : List Held
deriving DecidableEq, Repr

/-- Who waits for a page request (R302, R324, R66, R212, R72, R333): lanes with their addresses, a sequencer, a copy, a queue, or a handler warp
that looks for its vector. -/
inductive Waiter where
  | threads (core warp : Nat) (lanes : List (Nat × Nat))
  | seq (core : Nat)
  | copy (id : Nat)
  | queue (q : Nat)
  | handler (core : Nat)
deriving DecidableEq, Repr

/-- A page request at the host (R324): the trap that a refusal gives, with its address and AUX. -/
structure PageReq where
  id : Nat
  ctx : Nat
  inc : Byte
  va : Nat
  who : Waiter
  cause : Byte
  aux : Word
  launch : Nat
deriving DecidableEq, Repr

-- Contexts, launches, queues ----------------------------------------------------------------------------------------

inductive CtxState where
  | free | active | stopping | destroying
deriving DecidableEq, Repr

/-- A context block (R306-R308, Tables 14.1-14.3); lagging lists the checkpoints that have not learned LIVE (R310), due says
that a DESTROY has still to advance LIVE (R308), and keyed that the context's key slot is attached (R320). -/
structure Ctx where
  ptroot : DWord
  traptab : DWord
  wsbase : Word
  wslen : Word
  cfg : Word
  live : Byte
  unrec : List Byte
  res : BitVec 3
  qhalt : Bool
  st : CtxState
  lagging : List Nat
  due : Bool
  keyed : Bool
deriving DecidableEq, Repr

/-- A group of a launch (Table 12.1). -/
structure Group where
  first : Nat
  count : Nat
  stride : Nat
deriving DecidableEq, Repr

/-- The state of a group's barrier (R223): teams that have arrived, earlier completions, and the teams off their cores whose
threads the last completion resumes when they are back. -/
structure GBar where
  arrived : List Nat
  count : Nat
  owed : List Nat
deriving DecidableEq, Repr

/-- A failed team (Table 17.2). -/
structure Failure where
  team : Nat
  why : Nat
  time : Nat
deriving DecidableEq, Repr

/-- A launch that has been accepted and not yet recorded (R268-R274), with its slice length in cycles; fate holds the
STATUS and DETAIL of a launch that a fault has ended (R272, R335, R350). -/
structure Launch where
  ctx : Nat
  inc : Byte
  queue : Nat
  order : Nat
  irq : Bool
  pri : Nat
  gx : Nat
  gy : Nat
  gz : Nat
  warps : Nat
  tiles : Nat
  csize : Nat
  seq : Bool
  recov : Bool
  dmr : Bool
  replay : Bool
  scr : Nat
  priv : Nat
  entry : DWord
  first : DWord
  retdist : Nat
  args : DWord
  cmpl : Nat
  groups : List Group
  gbars : Store GBar
  next : Nat
  endedTeams : List Nat
  failures : List Failure
  failed : Nat
  slice : Nat
  fate : Option (Nat × Nat)
deriving DecidableEq, Repr

/-- A queue registry entry (Table 18.4), packets served since it was switched in and the TIME of its last switch (R265), packets
consumed so far, whether the weight-store write at its head has begun (R271, R312), with its slot, RIDX and packet (R264), the page request that
it waits for, and whether it is unregistered once that write ends (R372). -/
structure Queue where
  qcb : DWord
  qcfg : Word
  reg : Bool
  inn : Bool
  qerr : Bool
  res : BitVec 3
  served : Nat
  since : Nat
  order : Nat
  wsBegun : Bool
  begun : Option (Nat × Nat × List Byte)
  pageWait : Option Nat
  denied : List Nat
  leaving : Bool
deriving DecidableEq, Repr

/-- A partition block (Table 15.3), and whether its queue engines are stopped by a PSWAP. -/
structure Partition where
  clmask : Word
  hbmbase : Word
  hbmlen : Word
  wsbase : Word
  wslen : Word
  pair : Word
  en : Bool
  resident : Bool
  swapping : Bool
  res : BitVec 3
deriving DecidableEq, Repr

/-- A translation-invalidation block (Table 15.2). run holds the context, first address and page count of the invalidation under way,
and since the number that the next request had when it began: requests before it may use the old entries (R328). -/
structure TInv where
  va : DWord
  cnt : Word
  ctx : Word
  busy : Bool
  res : BitVec 2
  run : Nat × Nat × Nat
  since : Nat
deriving DecidableEq, Repr

/-- A key slot (R320, R321, R380): the pair of XTS keys and the trace key as numbers of 512 and 256 bits, and the trace sequence. -/
structure KeySlot where
  keys : Nat
  trace : Nat
  seq : DWord
deriving DecidableEq, Repr

/-- The device block (Table 18.3). The states of PWRSTAT are 0 to 4; going is the target of a transition. -/
structure Device where
  chipno : BitVec 10
  epoch : Byte
  fabctl : Word
  pstate : Nat
  trip : Bool
  busy : Bool
  res : BitVec 2
  going : Nat
  clkcap : Word
  gate : Word
  temp : Byte
deriving DecidableEq, Repr

/-- The firmware block (R378): the image that runs, and the refusal cause. -/
structure Firmware where
  image : Option (List Byte)
  cause : Nat
deriving DecidableEq, Repr

-- Saved state -------------------------------------------------------------------------------------------------------

/-- Parts of the per-core stores under their own keys. -/
structure Image where
  regs : Store TWord
  sregs : Store TWord
  owners : Store Byte
  scratch : Memory
  scrPsn : Marks
  opmem : Memory
  opPsn : Marks
  priv : Memory
  privPsn : Marks
  sems : Store Word
  threads : Store Thread
  warps : Store Warp
deriving DecidableEq, Repr

/-- A team taken off its core (R274, R344), or a RECOV checkpoint of it (R353), with the tiles that its warps and sequencer own or have been given. A
handler that served the team is saved with it. Requests numbered below since were made before. -/
structure TeamImage where
  since : Nat
  launch : Nat
  index : Nat
  core : Nat
  slot : Nat
  tiles : List Nat
  img : Image
  team : Team
  bins : Store Bin
  events : List Event
  held : List Event
  handler : Option Handler
  seq : Option Seq
deriving DecidableEq, Repr

/-- The state of a core in its shadow slot (R12, R22, R331). -/
structure CoreImage where
  img : Image
  core : Core
deriving DecidableEq, Repr

/-- The issue being performed: core, warp, program counter and convergent set (R17); and the queue-packet bytes. -/
structure Cur where
  core : Nat
  warp : Nat
  pc : DWord
  mask : Word
deriving DecidableEq, Repr

/-- A space that an uncorrectable error can strike (R203, R214, R170): private lane SRAM and the save areas of handler lanes among them
(R175, R356). -/
inductive MarkSpace where
  | hbm | scratch | opmem | weight | priv | save
deriving DecidableEq, Repr

/-- What the environment or the schedule does next (assumption 4): one step of the opcode table; an issue of a warp at a
program counter; a bundle of a core; a core's own choice; TIME moving on; and what no row of the table names: a
checkpoint learning an incarnation, a request passing one checkpoint, an instruction line filled under a lease, a copy moving one unit, a remote store
reaching its bank, the host's translation agent, a soft error, the temperature, the host's timers (R274, R276), a read of a register by a function, a
peer that boots under an epoch (R373), and a peer that answers a decide-once action with an error (R252). -/
inductive Directive where
  | event (e : Instr)
  | issue (core warp : Nat) (pc : DWord)
  | bundle (core : Nat)
  | own (core unit : Nat)
  | tick
  | learn (ctx checkpoint : Nat)
  | pass (id : Nat)
  | codeFill (core warp : Nat) (va : DWord) (len : Nat)
  | copyUnit (id unit : Nat)
  | remoteStore (id : Nat)
  | ats (fn page : Nat) (res : AtsRes)
  | upset (core warp : Nat)
  | ecc (core team : Nat)
  | eccCommit (core team : Nat)
  | mark (space : MarkSpace) (key : Nat)
  | temp (t : Byte)
  | slice (launch cycles : Nat)
  | binTimer (core cycles : Nat)
  | readReg (fn ofs : Nat)
  | peerBoot (chip : Nat) (epoch : Byte)
  | peerError (id : Nat)
deriving DecidableEq, Repr

-- The state ---------------------------------------------------------------------------------------------------------

/-- The package. clock counts the clocks of the cores, and phase the part of one that has gone by (R376); peerEpoch is what the environment
says a peer runs under (R373). The last block of fields is the model's own (assumptions 4 and 15). -/
structure State where
  time : Nat
  clock : Nat
  phase : Nat
  hbm : Memory
  hbmPsn : Marks
  unitKey : Store Nat
  hostMem : Memory
  peerMem : Memory
  mailbox : Memory
  leases : Store Nat
  genTime : Store Nat
  l2 : List L2Line
  tlb : List TlbEntry
  atsHost : Store AtsRes
  decided : List Decided
  reqs : List Req
  copies : List Copy
  pageReqs : List PageReq
  ctxs : Store Ctx
  parts : Store Partition
  tinvs : Store TInv
  queues : Store Queue
  launches : Store Launch
  images : List TeamImage
  ckpts : List TeamImage
  shadow : Store CoreImage
  keys : Store KeySlot
  device : Device
  peers : Store Word
  peerEpoch : Store Byte
  fw : Firmware
  irqs : List (Nat × Nat)
  reports : List (Nat × List Byte)
  trace : List (List Byte)
  hostReplies : List (Nat × List Byte)
  regs : Store TWord
  sregs : Store TWord
  owners : Store Byte
  scratch : Memory
  scrPsn : Marks
  opmem : Memory
  opPsn : Marks
  priv : Memory
  privPsn : Marks
  hpriv : Memory
  hprivPsn : Marks
  sems : Store Word
  wstore : Memory
  wsPsn : Marks
  threads : Store Thread
  warps : Store Warp
  cores : Store Core
  script : List Directive
  turn : Nat
  cur : Option Cur
  bun : Option BundleCtx
  nextId : Nat
  freeCtr : Nat
deriving DecidableEq, Repr

-- What an unlisted key reads as -----------------------------------------------------------------------------------

/-- A thread slot that holds no thread. -/
def Thread.absent : Thread :=
  { st := .absent, pc := 0, preds := 0, issued := 0, dfOvf := false, dfV := false, dfCause := 0, dfAddr := 0,
    timeh := none, bch := none, yld := none, record := none, since := 0, again := [] }

/-- A warp slot that holds no warp. -/
def Warp.idle : Warp :=
  { live := false, team := 0, tbase := 0, ntile := 0, jregs := [], backoff := 0, waited := 0, inelig := 0,
    urgent := false, step := false, frz := false, catches := false, halted := false, retired := 0, syncs := 0,
    upsets := 0 }

def Slot.free : Slot := { claimed := false, fills := 0, drains := 0, releasing := false }

/-- The sequencer with no program: every field of Table 6.1 at its reset value, the rest as a team's start sets it
(R124). -/
def Seq.reset : Seq :=
  { active := false, team := 0, y := [], b := 0, fcause := 0, intlk := false, plane := false, halt := true,
    isat := false, bcount := 0, md := .w16, af := false, wf := false, nk := 0, planeA := [], planeB := [],
    slots := [], beats := [], pend := [], lastFeed := none, kq := [], nextK := 0, gave := [], fences := 0,
    pos := { seg := 0, idx := 0, enter := true, branch := none, delays := 0 }, halves := [], sinceRet := 0, retdist := 0,
    stalled := none, released := false, record := none, stop := none, frozen := false, leaving := false, atRetire := false,
    pageWait := none, denied := [] }

def Handler.idle : Handler := { serving := none, budget := 0, pageWait := none, asked := [] }

def Core.reset : Core :=
  { teams := [], bins := [], binTimer := Config.spawnTimer, binSeq := 0, l1 := [], icache := [], quads := [], trapq := [], held := [],
    handler := Handler.idle, seq := Seq.reset, cycles := [], cls := none, lastCharge := 0, prof := none }

/-- A context block at reset: every field 0, STATE FREE (Tables 14.1-14.3). -/
def Ctx.free : Ctx :=
  { ptroot := 0, traptab := 0, wsbase := 0, wslen := 0, cfg := 0, live := 0, unrec := [], res := 0, qhalt := false,
    st := .free, lagging := [], due := false, keyed := false }

/-- A partition block at reset (Table 15.3). -/
def Partition.reset : Partition :=
  { clmask := 0, hbmbase := 0, hbmlen := 0, wsbase := 0, wslen := 0, pair := 0, en := false, resident := false,
    swapping := false, res := 0 }

def TInv.reset : TInv := { va := 0, cnt := 0, ctx := 0, busy := false, res := 0, run := (0, 0, 0), since := 0 }

/-- A queue registry entry at reset (Table 18.4). -/
def Queue.reset : Queue :=
  { qcb := 0, qcfg := 0, reg := false, inn := false, qerr := false, res := 0, served := 0, since := 0, order := 0,
    wsBegun := false, begun := none, pageWait := none, denied := [], leaving := false }

def GBar.start : GBar := { arrived := [], count := 0, owed := [] }

/-- The device block at reset (Table 18.3). -/
def Device.reset : Device :=
  { chipno := 0, epoch := 0, fabctl := 0, pstate := 0, trip := false, busy := false, res := 0, going := 0,
    clkcap := 0x4E2, gate := 0, temp := 0 }

/-- Reset: every block of the control window at its reset value (Tables 14.1-14.3, 15.2, 15.3, 18.3, 18.4), the
sequencers at Table 6.1, nothing running. Values the spec does not state are those of assumption 3. -/
def State.reset : State :=
  { time := 0, clock := 0, phase := 0, hbm := [], hbmPsn := [], unitKey := [], hostMem := [], peerMem := [], mailbox := [], leases := [],
    genTime := [], l2 := [], tlb := [], atsHost := [], decided := [], reqs := [], copies := [], pageReqs := [],
    ctxs := [], parts := [], tinvs := [], queues := [], launches := [], images := [], ckpts := [], shadow := [],
    keys := [], device := Device.reset, peers := [], peerEpoch := [], fw := { image := none, cause := 0 }, irqs := [], reports := [],
    trace := [], hostReplies := [], regs := [], sregs := [], owners := [], scratch := [], scrPsn := [], opmem := [],
    opPsn := [], priv := [], privPsn := [], hpriv := [], hprivPsn := [], sems := [], wstore := [], wsPsn := [], threads := [], warps := [],
    cores := [], script := [], turn := 0, cur := none, bun := none, nextId := 0, freeCtr := 0 }

/-- Reasons a step can fault. No meaning of an instruction raises one: every trap and machine check of the manual is
a next state. -/
inductive Fault where
  /-- Raised by no meaning: kept for an access that the manual places nowhere. Safe: the model would stop where the
  hardware goes on. -/
  | nowhere
deriving DecidableEq, Repr

/-- Reasons a step can refuse. -/
inductive Refusal where
  /-- Raised by exec's arm for an instruction whose meaning is not written. Safe: nothing is claimed of it. -/
  | notModelled (mnemonic : String)
deriving DecidableEq, Repr

/-- The outcomes of this machine. -/
abbrev Out := Host.Outcome State Fault Refusal

end Sys2Proof.Machine
end

