-- ==== Sys2Proof/Machine/Storage.lean ====
section
/-!
DEFINITION. Sys2Proof/Machine/Storage.lean: reading and writing sparse storage, the keys of the per-core stores, and one accessor
for each part of the state. Every read and write of a register, tile, thread or byte goes through these.
-/
namespace Sys2Proof.Machine

-- Sparse storage ---------------------------------------------------------------------------------------------------

/-- The value listed at a key. -/
def Store.find {α : Type} : Store α → Nat → Option α
  | [], _ => none
  | (a, v) :: t, k => if a = k then some v else Store.find t k

/-- The value at a key; dflt where none is listed. -/
def Store.get {α : Type} (dflt : α) (m : Store α) (k : Nat) : α := (m.find k).getD dflt

/-- Lists a value at a key, keeping the keys rising. -/
def Store.put {α : Type} : Store α → Nat → α → Store α
  | [], k, v => [(k, v)]
  | (a, w) :: t, k, v =>
    if k < a then (k, v) :: (a, w) :: t
    else if k = a then (k, v) :: t
    else (a, w) :: Store.put t k v

/-- Unlists a key wherever it is listed. -/
def Store.erase {α : Type} : Store α → Nat → Store α
  | [], _ => []
  | (a, w) :: t, k => if a = k then Store.erase t k else (a, w) :: Store.erase t k

/-- Writes a value; the value that an unlisted key reads as removes the entry. -/
def Store.set {α : Type} [DecidableEq α] (dflt : α) (m : Store α) (k : Nat) (v : α) : Store α :=
  if v = dflt then m.erase k else m.put k v

/-- The entries with lo ≤ key < hi, the others, and a store with entries of another laid over it. -/
def Store.slice {α : Type} (lo hi : Nat) (m : Store α) : Store α := m.filter fun p => decide (lo ≤ p.1 ∧ p.1 < hi)
def Store.cut {α : Type} (lo hi : Nat) (m : Store α) : Store α := m.filter fun p => !decide (lo ≤ p.1 ∧ p.1 < hi)
def Store.lay {α : Type} (m n : Store α) : Store α := n.foldl (fun acc p => acc.put p.1 p.2) m

/-- The canonical form: rising keys, and no entry that reads as an unlisted key does. -/
def Store.wf {α : Type} [DecidableEq α] (dflt : α) : Store α → Bool
  | [] => true
  | [(_, v)] => decide (v ≠ dflt)
  | (a, v) :: (b, w) :: t => decide (v ≠ dflt) && decide (a < b) && Store.wf dflt ((b, w) :: t)

/-- The canonical form of byte memory. -/
abbrev Memory.wf (m : Memory) : Bool := Store.wf (α := BitVec 8) 0 m

/-- Bytes at successive addresses. -/
def Memory.read (m : Memory) (a : Nat) : Nat → List Byte
  | 0 => []
  | n + 1 => Store.get 0 m a :: Memory.read m (a + 1) n
def Memory.write (m : Memory) (a : Nat) : List Byte → Memory
  | [] => m
  | b :: bs => Memory.write (Store.set 0 m a b) (a + 1) bs

/-- The keys from lo that are listed as marked, for n keys. -/
def Marks.any (m : Marks) (lo : Nat) : Nat → Bool
  | 0 => false
  | n + 1 => Store.get false m lo || Marks.any m (lo + 1) n
def Marks.fill (m : Marks) (lo : Nat) (v : Bool) : Nat → Marks
  | 0 => m
  | n + 1 => Marks.fill (Store.set false m lo v) (lo + 1) v n

/-- The value of little-endian bytes (R3). -/
def bytesVal (bs : List Byte) : DWord := BitVec.ofNat 64 (leNat bs)
def valBytes (n : Nat) (v : DWord) : List Byte := leBytes n v.toNat

-- Lists ------------------------------------------------------------------------------------------------------------

/-- Replaces the members that satisfy p. -/
def replaceIf {α : Type} (p : α → Bool) (f : α → α) (l : List α) : List α := l.map fun x => if p x then f x else x

/-- Lays the bytes of new over old where the mask says so. -/
def mergeBytes : List Bool → List Byte → List Byte → List Byte
  | m :: ms, n :: ns, o :: os => (if m then n else o) :: mergeBytes ms ns os
  | _, _, os => os

/-- Lays bytes over a list from an index on. -/
def patch {α : Type} (l : List α) (at_ : Nat) (new : List α) : List α :=
  l.take at_ ++ new ++ l.drop (at_ + new.length)

/-- The lanes of a mask, ascending, and the mask of lanes. -/
def lanesOf (m : Word) : List Nat := (List.range 32).filter fun l => m.getLsbD l
def maskOf (ls : List Nat) : Word := ls.foldl (fun m l => m ||| ((1 : Word) <<< l)) 0

-- Places (R14-R20) -------------------------------------------------------------------------------------------------

def dieOf (core : Nat) : Nat := core / 96
def coreInDie (core : Nat) : Nat := core % 96
def clusOf (core : Nat) : Nat := core % 96 / 4
def quadOf (warp : Nat) : Nat := if warp = 64 then 3 else warp / 16
/-- %slot (Table 3.5). That the handler warp reads 15 is the model's choice (DESIGN CHOICE, assumption 54). -/
def slotOf (warp : Nat) : Nat := if warp = 64 then 15 else warp % 16

def warpKey (core warp : Nat) : Nat := core * 65 + warp
def thrKey (core warp lane : Nat) : Nat := (core * 65 + warp) * 32 + lane
def sregKey (core warp n : Nat) : Nat := (core * 65 + warp) * 64 + n
def ownKey (core tile : Nat) : Nat := core * 512 + tile
def regKey (core tile word : Nat) : Nat := (core * 512 + tile) * 256 + word
def scrKey (core ofs : Nat) : Nat := core * 393216 + ofs
def scrSector (core ofs : Nat) : Nat := core * 12288 + ofs / 32
def opKey (core ofs : Nat) : Nat := core * 196608 + ofs
def opRow (core ofs : Nat) : Nat := core * 3072 + ofs / 64
def privKey (core warp lane ofs : Nat) : Nat := thrKey core warp lane * 32768 + ofs
def privSector (core warp lane ofs : Nat) : Nat := thrKey core warp lane * 1024 + ofs / 32
def hprivKey (core ctx lane ofs : Nat) : Nat := ((core * 4096 + ctx) * 32 + lane) * 256 + ofs
def hprivSector (core ctx lane ofs : Nat) : Nat := ((core * 4096 + ctx) * 32 + lane) * 8 + ofs / 32
def semKey (core set n : Nat) : Nat := (core * 16 + set) * 64 + n
def wsKey (core ofs : Nat) : Nat := core * 4194304 + ofs
def wsRow (core ofs : Nat) : Nat := core * 65536 + ofs / 64

/-- Where register V(8k + j) of a lane lies: tile tbase + k and word (R19). -/
def vTile (tbase n : Nat) : Nat := tbase + n / 8
def vWord (lane n : Nat) : Nat := lane / 2 * 16 + 8 * (lane % 2) + n % 8

-- Accessors --------------------------------------------------------------------------------------------------------

def State.core (s : State) (c : Nat) : Core := s.cores.get Core.reset c
def State.setCore (s : State) (c : Nat) (k : Core) : State := { s with cores := s.cores.set Core.reset c k }
def State.modCore (s : State) (c : Nat) (f : Core → Core) : State := s.setCore c (f (s.core c))

def State.warp (s : State) (c w : Nat) : Warp := s.warps.get Warp.idle (warpKey c w)
def State.setWarp (s : State) (c w : Nat) (x : Warp) : State :=
  { s with warps := s.warps.set Warp.idle (warpKey c w) x }
def State.modWarp (s : State) (c w : Nat) (f : Warp → Warp) : State := s.setWarp c w (f (s.warp c w))

def State.thread (s : State) (c w l : Nat) : Thread := s.threads.get Thread.absent (thrKey c w l)
def State.setThread (s : State) (c w l : Nat) (t : Thread) : State :=
  { s with threads := s.threads.set Thread.absent (thrKey c w l) t }
def State.modThread (s : State) (c w l : Nat) (f : Thread → Thread) : State := s.setThread c w l (f (s.thread c w l))

/-- A tile word (R18, R80). -/
def State.tileWord (s : State) (c tile word : Nat) : TWord := s.regs.get TWord.zero (regKey c tile word)
def State.setTileWord (s : State) (c tile word : Nat) (x : TWord) : State :=
  { s with regs := s.regs.set TWord.zero (regKey c tile word) x }

/-- Register Vn of a lane of a warp (R19). -/
def State.vreg (s : State) (c w l n : Nat) : TWord := s.tileWord c (vTile (s.warp c w).tbase n) (vWord l n)
def State.setVreg (s : State) (c w l n : Nat) (x : TWord) : State :=
  s.setTileWord c (vTile (s.warp c w).tbase n) (vWord l n) x

def State.sreg (s : State) (c w n : Nat) : TWord := s.sregs.get TWord.zero (sregKey c w n)
def State.setSreg (s : State) (c w n : Nat) (x : TWord) : State :=
  { s with sregs := s.sregs.set TWord.zero (sregKey c w n) x }

/-- The pending mask of Jn (R279). -/
def State.jreg (s : State) (c w n : Nat) : Word := (s.warp c w).jregs.get 0 n
def State.setJreg (s : State) (c w n : Nat) (x : Word) : State :=
  s.modWarp c w fun k => { k with jregs := k.jregs.set 0 n x }

/-- Predicates: P7 reads as true and is not written (R57). -/
def Thread.pred (t : Thread) (n : Nat) : Bool := n = 7 || t.preds.getLsbD n
def Thread.setPred (t : Thread) (n : Nat) (v : Bool) : Thread :=
  let bit : BitVec 7 := (1 : BitVec 7) <<< n
  { t with preds := if v then t.preds ||| bit else t.preds &&& ~~~bit }

/-- The owner of an unlisted tile: the handler's tiles, and every other FREE (R140). -/
def ownDflt (tile : Nat) : Byte := if 504 ≤ tile then 0x41 else 0x7F

/-- Table 6.4. -/
def State.owner (s : State) (c tile : Nat) : Byte := s.owners.get (ownDflt tile) (ownKey c tile)
def State.setOwner (s : State) (c tile : Nat) (o : Byte) : State :=
  { s with owners := s.owners.set (ownDflt tile) (ownKey c tile) o }
def State.setOwners (s : State) (c base n : Nat) (o : Byte) : State :=
  (List.range n).foldl (fun s i => s.setOwner c (base + i) o) s

/-- The owner code of a warp (Table 6.4): the handler warp's is 0x41. -/
def ownerCode (w : Nat) : Byte := if w = 64 then 0x41 else BitVec.ofNat 8 w

def State.ctx (s : State) (n : Nat) : Ctx := s.ctxs.get Ctx.free n
def State.setCtx (s : State) (n : Nat) (x : Ctx) : State := { s with ctxs := s.ctxs.set Ctx.free n x }
def State.modCtx (s : State) (n : Nat) (f : Ctx → Ctx) : State := s.setCtx n (f (s.ctx n))

def State.part (s : State) (p : Nat) : Partition := s.parts.get Partition.reset p
def State.setPart (s : State) (p : Nat) (x : Partition) : State := { s with parts := s.parts.set Partition.reset p x }
def State.queue (s : State) (q : Nat) : Queue := s.queues.get Queue.reset q
def State.setQueue (s : State) (q : Nat) (x : Queue) : State := { s with queues := s.queues.set Queue.reset q x }
def State.tinv (s : State) (f : Nat) : TInv := s.tinvs.get TInv.reset f
def State.setTinv (s : State) (f : Nat) (x : TInv) : State := { s with tinvs := s.tinvs.set TInv.reset f x }
def State.launch (s : State) (n : Nat) : Option Launch := s.launches.find n
def State.setLaunch (s : State) (n : Nat) (x : Launch) : State := { s with launches := s.launches.put n x }
def State.modLaunch (s : State) (n : Nat) (f : Launch → Launch) : State :=
  match s.launch n with
  | some l => s.setLaunch n (f l)
  | none => s

def State.team (s : State) (c slot : Nat) : Option Team := (s.core c).teams.find slot
def State.setTeam (s : State) (c slot : Nat) (t : Team) : State :=
  s.modCore c fun k => { k with teams := k.teams.put slot t }
def State.modTeam (s : State) (c slot : Nat) (f : Team → Team) : State :=
  match s.team c slot with
  | some t => s.setTeam c slot (f t)
  | none => s

def State.modSeq (s : State) (c : Nat) (f : Seq → Seq) : State := s.modCore c fun k => { k with seq := f k.seq }
def Seq.yreg (q : Seq) (n : Nat) : Word := q.y.get 0 n
def Seq.setY (q : Seq) (n : Nat) (v : Word) : Seq := { q with y := q.y.set 0 n v }
def Seq.slot (q : Seq) (n : Nat) : Slot := q.slots.get Slot.free n
def Seq.setSlot (q : Seq) (n : Nat) (x : Slot) : Seq := { q with slots := q.slots.set Slot.free n x }

/-- The counter that names requests, launches, copies and page requests. -/
def State.fresh (s : State) : Nat × State := (s.nextId, { s with nextId := s.nextId + 1 })

-- The context of a warp --------------------------------------------------------------------------------------------

/-- The event that the handler warp of a core serves. -/
def State.served (s : State) (c : Nat) : Option Event := (s.core c).handler.serving

/-- The team slot that a warp belongs to: the handler's is that of the event it serves (R334); in monitor mode it is of no team,
which the number 64 says. -/
def State.warpTeam (s : State) (c w : Nat) : Nat :=
  if w = 64 then
    match s.served c with
    | some e => e.team
    | none => 64
  else (s.warp c w).team

def State.teamOf (s : State) (c w : Nat) : Option Team := s.team c (s.warpTeam c w)
def State.launchOf (s : State) (c w : Nat) : Option Launch :=
  match s.teamOf c w with
  | some t => s.launch t.launch
  | none => none

/-- The context tag of a warp's requests (R306, R309, R334). -/
def State.tagOf (s : State) (c w : Nat) : Nat × Byte :=
  if w = 64 then
    match s.served c with
    | some e => (e.ctx, e.inc)
    | none => (0, 0)
  else
    match s.launchOf c w with
    | some l => (l.ctx, l.inc)
    | none => (0, 0)

/-- %ctx (Table 3.5). -/
def ctxWord (ctx : Nat) (inc : Byte) : Word := BitVec.ofNat 32 (ctx * 256 + inc.toNat)

/-- An identity laid out as WINNER (Table 11.2). -/
def identWord (s : State) (c w l : Nat) : Word :=
  BitVec.ofNat 32 ((if w = 64 then 2 ^ 29 else w % 64 * 2 ^ 18) + l * 2 ^ 24 + c * 2 ^ 10 + s.device.chipno.toNat)

-- The sequencer status word (Table 6.1) ----------------------------------------------------------------------------

/-- Whether a pre-empted sequencer stands at its retire point (R143). -/
def Seq.preempted (q : Seq) : Bool := q.leaving && q.atRetire
def Seq.status (q : Seq) : Word :=
  BitVec.ofNat 32
    (q.fcause.toNat * 65536 + q.intlk.toNat * 8 + q.plane.toNat * 4 + (q.halt || q.preempted).toNat * 2 + q.isat.toNat)

/-- Predicates of the sequencer: B3 reads as true and is not written (R124). -/
def bPred (b : BitVec 3) (n : Nat) : Bool := n = 3 || b.getLsbD n
def Seq.setB (q : Seq) (n : Nat) (v : Bool) : Seq :=
  let bit : BitVec 3 := (1 : BitVec 3) <<< n
  { q with b := if v then q.b ||| bit else q.b &&& ~~~bit }

end Sys2Proof.Machine
end

