-- ==== Sys2Proof/Machine/Matrix.lean ====
section
/-!
DEFINITION. Sys2Proof/Machine/Matrix.lean: the matrix array of a core (R130-R134): its modes, weight planes, and the beats that pass
through it with their column sums in the order that R88 and R89 fix. A PE row of a plane keeps the 128 bytes that PUSH wrote
into it (assumption 22).
-/
namespace Sys2Proof.Machine

-- Modes (Tables 6.2 and 7.7) ---------------------------------------------------------------------------------------

/-- m: feed rows of one beat. -/
def Seq.beatRows (q : Seq) : Nat :=
  match q.md with
  | .npi8 | .lut => min (8 / max q.nk.toNat 1) 4
  | _ => 1

/-- Whether the sums are I32. -/
def Seq.intMode (q : Seq) : Bool := q.md == .int || q.md == .npi8 || (q.md == .lut && q.af)

/-- Bytes that one PUSH takes. -/
def Seq.pushLen (q : Seq) : Nat :=
  match q.md with
  | .w16 | .w8f | .int => 128
  | .npbf | .lut => 8 * q.nk.toNat
  | .npi8 => 16 * q.nk.toNat

/-- The tag of every feed word, and of every accumulated word. -/
def Seq.actTag (q : Seq) : Tag :=
  match q.md, q.af with
  | .w16, false => .bf2
  | .w16, true => .h2
  | .w8f, false => .e4q
  | .w8f, true => .e5q
  | .int, _ | .npi8, _ | .lut, true => .i8q
  | .npbf, _ | .lut, false => .bf2
def Seq.sumTag (q : Seq) : Tag := if q.intMode then .i32 else .f32

-- Elements ---------------------------------------------------------------------------------------------------------

def byteAt (bs : List Byte) (i : Nat) : Byte := bs.getD i 0
def halfAt (bs : List Byte) (i : Nat) : Nat := (byteAt bs (2 * i)).toNat + 256 * (byteAt bs (2 * i + 1)).toNat

/-- The first k planes of element n of a nested-plane block (R78). -/
def planeByte (k : Nat) (bs : List Byte) (n : Nat) : Nat :=
  (List.range k).foldl (fun v j => v + if (byteAt bs (8 * j + n / 8)).getLsbD (n % 8) then 2 ^ (7 - j) else 0) 0

/-- v_k (R79). -/
def planeVal (k : Nat) (bs : List Byte) (n : Nat) : Int :=
  (BitVec.ofNat 8 (planeByte k bs n)).toInt + if k < 8 then (2 : Int) ^ (7 - k) else 0

/-- An integer as an exact value. -/
def intFV (x : Int) : FV := .fin (decide (x < 0)) x.natAbs 0

/-- K-element n of a feed row, as a float or an integer (R160). -/
def Seq.actF (q : Seq) (row : List Byte) (n : Nat) : FV :=
  match q.md with
  | .w16 => (if q.af then Fmt.f16 else Fmt.bf16).decode (halfAt row n)
  | .w8f => (if q.af then Fmt.e5m2 else Fmt.e4m3).decode (byteAt row n).toNat
  | _ => Fmt.bf16.decode (halfAt row n)
def actI (row : List Byte) (n : Nat) : Int := (byteAt row n).toInt

/-- A weight of a PE row: of its first or second K-row, in a column (R159). -/
def Seq.weightF (q : Seq) (w : List Byte) (second n : Nat) : FV :=
  match q.md with
  | .w16 => (if q.af then Fmt.f16 else Fmt.bf16).decode (halfAt w n)
  | .w8f => (if q.wf then Fmt.e5m2 else Fmt.e4m3).decode (byteAt w (64 * second + n)).toNat
  | _ => intFV (planeVal q.nk.toNat w n)
def Seq.weightI (q : Seq) (w : List Byte) (second n : Nat) : Int :=
  match q.md with
  | .npi8 => planeVal q.nk.toNat (w.drop (8 * q.nk.toNat * second)) n
  | _ => (byteAt w (64 * second + n)).toInt

-- Column sums (R88, R89) -------------------------------------------------------------------------------------------

/-- round(x) to F32, and round(sum + p). -/
def round32 (x : FV) : Word := f32 (Fmt.f32.ofFV .rne false x)
def sumF (s : Word) (p : FV) : Word := round32 (FV.add .rne (Fmt.f32.decode s.toNat) p)

/-- One PE of row k: the new sum, and whether a clamp changed it. -/
def Seq.pe (q : Seq) (k : Nat) (w row : List Byte) (n : Nat) (sum : Word) : Word × Bool :=
  match q.md with
  | .w16 | .npbf => (sumF sum ((q.actF row k).mul (q.weightF w 0 n)), false)
  | .w8f =>
    let pair := FV.add .rne ((q.actF row (2 * k)).mul (q.weightF w 0 n)) ((q.actF row (2 * k + 1)).mul (q.weightF w 1 n))
    (f32Add sum (round32 pair), false)
  | _ => clampI32 (sum.toInt + (actI row (2 * k) * q.weightI w 0 n + actI row (2 * k + 1) * q.weightI w 1 n))

/-- The sums T[0] to T[15] of R89 over four activations. -/
def tableF (a : List Word) : List Word :=
  (List.range 16).map fun m => (List.range 4).foldl (fun t i => if m.testBit i then f32Add t (a.getD i 0) else t) 0
def tableI (a : List Int) : List Int :=
  (List.range 16).map fun m => (List.range 4).foldl (fun t i => if m.testBit i then t + a.getD i 0 else t) 0

/-- m_p of R89: bit n of the plane-p words of four K-rows. -/
def lutIndex (ws : List (List Byte)) (j n : Nat) : Nat :=
  (List.range 4).foldl (fun v i => v + if (byteAt (ws.getD i []) (8 * j + n / 8)).getLsbD (n % 8) then 2 ^ i else 0) 0

/-- The contribution of a group to column n. -/
def lutF (k : Nat) (t : List Word) (ws : List (List Byte)) (n : Nat) : Word :=
  let at_ (m : Nat) : FV := Fmt.f32.decode (t.getD m 0).toNat
  let c := (List.range k).foldl
    (fun c j => sumF c ((intFV (if j = 0 then -128 else (2 : Int) ^ (7 - j))).mul (at_ (lutIndex ws j n)))) 0
  if k < 8 then sumF c ((intFV ((2 : Int) ^ (7 - k))).mul (at_ 15)) else c
def lutI (k : Nat) (t : List Int) (ws : List (List Byte)) (n : Nat) : Int :=
  let c := (List.range k).foldl
    (fun c j => c + (if j = 0 then -128 else (2 : Int) ^ (7 - j)) * t.getD (lutIndex ws j n) 0) 0
  if k < 8 then c + (2 : Int) ^ (7 - k) * t.getD 15 0 else c

/-- A row of sums, each replaced by a function of its column. -/
def sumRow (f : Nat → Word → Word × Bool) (sums : List Word) : List Word × Bool :=
  let rs := sums.zipIdx.map fun p => f p.2 p.1
  (rs.map (·.1), rs.any (·.2))

/-- One feed row against PE row k; in LUT mode against the group g whose rows ws it has met. -/
def Seq.meetRow (q : Seq) (k : Nat) (w : List Byte) (row : List Byte) (sums : List Word) : List Word × Bool :=
  sumRow (fun n s => q.pe k w row n s) sums
def Seq.meetGroup (q : Seq) (g : Nat) (ws : List (List Byte)) (row : List Byte) (sums : List Word) : List Word × Bool :=
  if q.af then
    let t := tableI ((List.range 4).map fun i => actI row (4 * g + i))
    sumRow (fun n s => clampI32 (s.toInt + lutI q.nk.toNat t ws n)) sums
  else
    let t := tableF ((List.range 4).map fun i => round32 (q.actF row (4 * g + i)))
    sumRow (fun n s => (f32Add s (lutF q.nk.toNat t ws n), false)) sums

-- Beats (R132-R134) ------------------------------------------------------------------------------------------------

/-- PE row k of a plane (true B). -/
def Seq.planeRow (q : Seq) (plane : Bool) (k : Nat) : List Byte :=
  Memory.read (if plane then q.planeB else q.planeA) (128 * k) 128

/-- A beat meets PE row k. -/
def Seq.meet (q : Seq) (k : Nat) (x : Beat) : Beat × Bool :=
  if k ≥ 64 then (x, false)
  else
    let w := q.planeRow x.plane k
    if q.md == .lut then
      if k % 4 = 3 then
        let rs := (x.rows.zip x.sums).map fun p => q.meetGroup (k / 4) (x.met ++ [w]) p.1 p.2
        ({ x with sums := rs.map (·.1), met := [] }, rs.any (·.2))
      else ({ x with met := x.met ++ [w] }, false)
    else
      let rs := (x.rows.zip x.sums).map fun p => q.meetRow k w p.1 p.2
      ({ x with sums := rs.map (·.1) }, rs.any (·.2))

/-- Every beat in flight meets its PE row of the bundle at hand; a row past the bottom is gone (R134). -/
def Seq.advance (q : Seq) : Seq :=
  let b := q.bcount.toNat
  let rs := (q.beats.filter fun x => decide ((b : Int) ≤ x.t + Config.bottomDelay)).map fun x => q.meet ((b : Int) - x.t).toNat x
  { q with beats := rs.map (·.1), isat := q.isat || rs.any (·.2) }

/-- The rows of an empty position: sums of +0 (R134). -/
def Seq.emptyRows (q : Seq) : List (List Word) := List.replicate q.beatRows (List.replicate 64 0)

/-- The sums of the rows fed d bundles before the one at hand. -/
def Seq.rowsAt (q : Seq) (d : Nat) : List (List Word) :=
  match q.beats.find? fun x => x.t + d == (q.bcount.toNat : Int) with
  | some x => x.sums
  | none => q.emptyRows
/-- Sets those sums: of the beat, or of an empty position. An empty position that an X word has met keeps the rows counted under the mode of that
moment, whatever m is at a later ACC or DRAIN of it (DESIGN CHOICE, assumption 73). -/
def Seq.setRowsAt (q : Seq) (d : Nat) (rows : List (List Word)) : Seq :=
  let t : Int := (q.bcount.toNat : Int) - d
  if q.beats.any fun x => x.t == t then { q with beats := replaceIf (fun x => x.t == t) (fun x => { x with sums := rows }) q.beats }
  else { q with beats := q.beats ++ [{ t, plane := false, rows := [], sums := rows, met := [], addr := 0 }] }

/-- The rows in flight, newest first. -/
def Seq.inFlight (q : Seq) : List Beat := q.beats.filter fun x => !x.rows.isEmpty

/-- A FEED: the rows meet PE row 0 in its own bundle, in the plane active at its start. -/
def Seq.feed (q : Seq) (rows : List (List Byte)) (addr : DWord) : Seq :=
  let (x, sat) := q.meet 0 { t := q.bcount.toNat, plane := q.plane, rows, sums := q.emptyRows, met := [], addr }
  { q with beats := x :: q.beats, lastFeed := some q.bcount.toNat, isat := q.isat || sat }

/-- Whether the pipeline is empty at the bundle at hand (R142): no FEED in the 69 bundles before it, and no write of the
array or of a K word pending. -/
def Seq.pipeEmpty (q : Seq) : Bool :=
  (match q.lastFeed with
    | some t => decide (t + 69 < q.bcount.toNat)
    | none => true)
  && q.pend.isEmpty
  && q.kq.all fun k => match k.move with
    | .arrive _ => true
    | _ => false

/-- Bytes into PE row i of the plane that is shadow; zeros into all of it (R131, R164). -/
def Seq.writeShadow (q : Seq) (i : Nat) (bs : List Byte) : Seq :=
  if q.plane then { q with planeA := Memory.write q.planeA (128 * i) bs }
  else { q with planeB := Memory.write q.planeB (128 * i) bs }
def Seq.zeroShadow (q : Seq) : Seq := if q.plane then { q with planeA := [] } else { q with planeB := [] }

-- Control ----------------------------------------------------------------------------------------------------------

/-- Control after a bundle that counts as issued: its place, and the delay of a branch (R66, R69, R70). -/
def Seq.nextPos (q : Seq) : Seq :=
  let p := q.pos
  let p1 : SeqPos :=
    if p.delays = 1 then
      match p.branch with
      | some (seg, i) => { seg, idx := i, enter := true, branch := none, delays := 0 }
      | none => { p with idx := p.idx + 1, delays := 0 }
    else { p with idx := p.idx + 1, delays := p.delays - 1 }
  { q with pos := p1 }

/-- A bundle of NOPs that counts as issued: the beats move on (R342, SKIP). -/
def Seq.skipBundle (q : Seq) : Seq :=
  { q.advance.nextPos with bcount := q.bcount + 1, sinceRet := q.sinceRet + 1 }

/-- A slot whose KREL waits is FREE once both counts are zero (R137). -/
def Slot.settle (x : Slot) : Slot := if x.releasing && x.fills == 0 && x.drains == 0 then Slot.free else x
def Seq.modSlot (q : Seq) (n : Nat) (f : Slot → Slot) : Seq :=
  { q with slots := q.slots.set Slot.free n (f (q.slot n)).settle }

/-- Beats in flight and writes not yet landed are discarded, and the sequencer halts (R342, EXIT). -/
def Seq.quit (q : Seq) : Seq :=
  { q with halt := true, beats := [], pend := [], kq := [], gave := [], record := none, stalled := none,
           slots := (q.slots.map fun p => (p.1, ({ p.2 with fills := 0, drains := 0 } : Slot).settle)).filter
             fun p => p.2 != Slot.free }

end Sys2Proof.Machine
end

