-- ==== Sys2Proof/Machine/Crypto.lean ====
section
/-!
DEFINITION. Sys2Proof/Machine/Crypto.lean: AES-256 and its uses. XTS of the 16-byte units of a block (R319), GCM of a record (R321), the
key wrap of RFC 3394 (R380), and SHA-384 (R378, R379). The algorithms are those of the standards that the manual names (assumption 17).
-/
namespace Sys2Proof.Machine.Crypto

-- The field of AES -------------------------------------------------------------------------------------------------

def xtime (b : Byte) : Byte := (b <<< 1) ^^^ (if b.getLsbD 7 then 0x1B else 0)

def gmul (a b : Byte) : Byte :=
  ((List.range 8).foldl (fun (p : Byte × Byte) i => (if b.getLsbD i then p.1 ^^^ p.2 else p.1, xtime p.2)) (0, a)).1

/-- The inverse, a to the power 254; that of 0 is 0. -/
def ginv (a : Byte) : Byte :=
  let sq (x : Byte) : Byte := gmul x x
  let a2 := sq a
  let a4 := sq a2
  let a8 := sq a4
  let a16 := sq a8
  let a32 := sq a16
  let a64 := sq a32
  gmul (sq a64) (gmul a64 (gmul a32 (gmul a16 (gmul a8 (gmul a4 a2)))))

def sbox (x : Byte) : Byte :=
  let b := ginv x
  b ^^^ b.rotateLeft 1 ^^^ b.rotateLeft 2 ^^^ b.rotateLeft 3 ^^^ b.rotateLeft 4 ^^^ 0x63
def invSbox (y : Byte) : Byte := ginv (y.rotateLeft 1 ^^^ y.rotateLeft 3 ^^^ y.rotateLeft 6 ^^^ 0x05)

-- The cipher -------------------------------------------------------------------------------------------------------

def xorBytes (a b : List Byte) : List Byte := a.zipWith (· ^^^ ·) b

/-- One word of the key schedule: i is its place, 8 to 59. -/
def nextWord (ws : List (List Byte)) (i : Nat) : List (List Byte) :=
  let last := ws.getD (i - 1) []
  let t :=
    if i % 8 = 0 then
      let r := (last.drop 1 ++ last.take 1).map sbox
      xorBytes r [(1 : Byte) <<< (i / 8 - 1), 0, 0, 0]
    else if i % 8 = 4 then last.map sbox
    else last
  ws ++ [xorBytes (ws.getD (i - 8) []) t]

/-- The 60 words of the schedule of a 32-byte key, as 15 round keys. -/
def schedule (key : List Byte) : List (List Byte) :=
  let first := (List.range 8).map fun i => (key.drop (4 * i)).take 4
  let ws := (List.range 52).foldl (fun ws i => nextWord ws (i + 8)) first
  (List.range 15).map fun r => ((ws.drop (4 * r)).take 4).flatten

def shiftRows (s : List Byte) : List Byte := (List.range 16).map fun i => s.getD ((i / 4 + i % 4) % 4 * 4 + i % 4) 0
def unshiftRows (s : List Byte) : List Byte := (List.range 16).map fun i => s.getD ((i / 4 + 4 - i % 4) % 4 * 4 + i % 4) 0

/-- Multiplies each column by a circulant matrix, its first row given. -/
def mixWith (m : List Byte) (s : List Byte) : List Byte :=
  (List.range 16).map fun i =>
    (List.range 4).foldl (fun acc k => acc ^^^ gmul (s.getD (i / 4 * 4 + k) 0) (m.getD ((k + 4 - i % 4) % 4) 0)) 0

def encrypt (key block : List Byte) : List Byte :=
  let ks := schedule key
  let round (s : List Byte) (r : Nat) : List Byte :=
    let t := shiftRows (s.map sbox)
    xorBytes (if r = 14 then t else mixWith [2, 3, 1, 1] t) (ks.getD r [])
  (List.range 14).foldl (fun s r => round s (r + 1)) (xorBytes block (ks.getD 0 []))

def decrypt (key block : List Byte) : List Byte :=
  let ks := schedule key
  let round (s : List Byte) (r : Nat) : List Byte :=
    let t := xorBytes ((unshiftRows s).map invSbox) (ks.getD r [])
    if r = 0 then t else mixWith [0x0E, 0x0B, 0x0D, 0x09] t
  (List.range 14).foldl (fun s r => round s (13 - r)) (xorBytes block (ks.getD 14 []))

-- XTS (R319) -------------------------------------------------------------------------------------------------------

/-- The two keys of a pair, which is a number of 512 bits: little-endian, the data key first. -/
def dataKey (k : Nat) : List Byte := leBytes 32 (k % 2 ^ 256)
def tweakKey (k : Nat) : List Byte := leBytes 32 (k / 2 ^ 256)

/-- Doubling in the field of XTS. -/
def double (t : Nat) : Nat := if t / 2 ^ 127 % 2 = 1 then (2 * t % 2 ^ 128) ^^^ 0x87 else 2 * t % 2 ^ 128

/-- The mask of unit j of a block: the tweak is the block's number, 128 bits little-endian. -/
def unitMask (k block : Nat) (j : Nat) : List Byte :=
  leBytes 16 ((List.range j).foldl (fun t _ => double t) (leNat (encrypt (tweakKey k) (leBytes 16 block))))

/-- Encrypts and decrypts a unit of 16 bytes at its place u, counted in units. Key 0 is none; another number is a pair of keys and
one more. -/
def sealUnit (key u : Nat) (bs : List Byte) : List Byte :=
  if key = 0 then bs
  else
    let m := unitMask (key - 1) (u / 16) (u % 16)
    xorBytes (encrypt (dataKey (key - 1)) (xorBytes bs m)) m
def openUnit (key u : Nat) (bs : List Byte) : List Byte :=
  if key = 0 then bs
  else
    let m := unitMask (key - 1) (u / 16) (u % 16)
    xorBytes (decrypt (dataKey (key - 1)) (xorBytes bs m)) m

-- GCM (R321) -------------------------------------------------------------------------------------------------------

def beNat (bs : List Byte) : Nat := bs.foldl (fun n b => n * 256 + b.toNat) 0
def beBytes (n v : Nat) : List Byte := (leBytes n v).reverse

/-- The product in the field of GCM, whose bit 0 is the leftmost. -/
def ghashMul (x y : Nat) : Nat :=
  ((List.range 128).foldl (fun (p : Nat × Nat) i =>
    (if x.testBit (127 - i) then p.1 ^^^ p.2 else p.1, if p.2 % 2 = 1 then p.2 / 2 ^^^ (0xE1 * 2 ^ 120) else p.2 / 2)) (0, y)).1

/-- Blocks of 16 bytes, the last filled with zeros. -/
def blocks (bs : List Byte) : List (List Byte) :=
  (List.range ((bs.length + 15) / 16)).map fun i => ((bs.drop (16 * i)).take 16 ++ List.replicate 16 0).take 16

def ghash (h : Nat) (ad text : List Byte) : Nat :=
  let ends := beBytes 8 (8 * ad.length) ++ beBytes 8 (8 * text.length)
  (blocks ad ++ blocks text ++ [ends]).foldl (fun acc b => ghashMul (acc ^^^ beNat b) h) 0

/-- AES-256-GCM with a 96-bit IV: the encrypted payload and its 16-byte tag. -/
def gcm (key iv ad text : List Byte) : List Byte :=
  let stream := (List.range ((text.length + 15) / 16)).flatMap fun i => encrypt key (iv ++ beBytes 4 (i + 2))
  let out := xorBytes text stream
  let tag := xorBytes (beBytes 16 (ghash (beNat (encrypt key (List.replicate 16 0))) ad out)) (encrypt key (iv ++ beBytes 4 1))
  out ++ tag

-- Key wrap (R380) --------------------------------------------------------------------------------------------------

/-- One step of unwrapping: step t, which acts on register (t − 1) mod 12. -/
def unwrapStep (kek : List Byte) (st : List Byte × List (List Byte)) (t : Nat) : List Byte × List (List Byte) :=
  let i := (t - 1) % 12
  let b := decrypt kek (xorBytes st.1 (beBytes 8 t) ++ st.2.getD i [])
  (b.take 8, st.2.set i (b.drop 8))

/-- The 96 bytes beneath a wrap of 104, or none where it fails its check. -/
def unwrap (kek wrap : List Byte) : Option (List Byte) :=
  let rs := (List.range 12).map fun i => (wrap.drop (8 * i + 8)).take 8
  let st := (List.range 72).foldl (fun st n => unwrapStep kek st (72 - n)) (wrap.take 8, rs)
  if st.1 = List.replicate 8 0xA6 then some st.2.flatten else none

/-- The pair of XTS keys and the trace key of a wrapped load; the key that wraps is the decapsulated secret. -/
def unwrapKeys (ct wrap : List Byte) : Option (Nat × Nat) :=
  (unwrap (Config.decapsulate ct) wrap).map fun bs => (leNat (bs.take 64), leNat (bs.drop 64))

-- SHA-384 (R378, R379) ---------------------------------------------------------------------------------------------

/-- The round constants of SHA-384 and its first state: fractions of the cube roots of the first 80 primes, and of the square roots of the ninth
to the sixteenth. -/
def shaK0 : List DWord :=
  [0x428a2f98d728ae22, 0x7137449123ef65cd, 0xb5c0fbcfec4d3b2f, 0xe9b5dba58189dbbc, 0x3956c25bf348b538,
   0x59f111f1b605d019, 0x923f82a4af194f9b, 0xab1c5ed5da6d8118, 0xd807aa98a3030242, 0x12835b0145706fbe,
   0x243185be4ee4b28c, 0x550c7dc3d5ffb4e2, 0x72be5d74f27b896f, 0x80deb1fe3b1696b1, 0x9bdc06a725c71235,
   0xc19bf174cf692694, 0xe49b69c19ef14ad2, 0xefbe4786384f25e3, 0x0fc19dc68b8cd5b5, 0x240ca1cc77ac9c65]
def shaK1 : List DWord :=
  [0x2de92c6f592b0275, 0x4a7484aa6ea6e483, 0x5cb0a9dcbd41fbd4, 0x76f988da831153b5, 0x983e5152ee66dfab,
   0xa831c66d2db43210, 0xb00327c898fb213f, 0xbf597fc7beef0ee4, 0xc6e00bf33da88fc2, 0xd5a79147930aa725,
   0x06ca6351e003826f, 0x142929670a0e6e70, 0x27b70a8546d22ffc, 0x2e1b21385c26c926, 0x4d2c6dfc5ac42aed,
   0x53380d139d95b3df, 0x650a73548baf63de, 0x766a0abb3c77b2a8, 0x81c2c92e47edaee6, 0x92722c851482353b]
def shaK2 : List DWord :=
  [0xa2bfe8a14cf10364, 0xa81a664bbc423001, 0xc24b8b70d0f89791, 0xc76c51a30654be30, 0xd192e819d6ef5218,
   0xd69906245565a910, 0xf40e35855771202a, 0x106aa07032bbd1b8, 0x19a4c116b8d2d0c8, 0x1e376c085141ab53,
   0x2748774cdf8eeb99, 0x34b0bcb5e19b48a8, 0x391c0cb3c5c95a63, 0x4ed8aa4ae3418acb, 0x5b9cca4f7763e373,
   0x682e6ff3d6b2b8a3, 0x748f82ee5defb2fc, 0x78a5636f43172f60, 0x84c87814a1f0ab72, 0x8cc702081a6439ec]
def shaK3 : List DWord :=
  [0x90befffa23631e28, 0xa4506cebde82bde9, 0xbef9a3f7b2c67915, 0xc67178f2e372532b, 0xca273eceea26619c,
   0xd186b8c721c0c207, 0xeada7dd6cde0eb1e, 0xf57d4f7fee6ed178, 0x06f067aa72176fba, 0x0a637dc5a2c898a6,
   0x113f9804bef90dae, 0x1b710b35131c471b, 0x28db77f523047d84, 0x32caab7b40c72493, 0x3c9ebe0a15c9bebc,
   0x431d67c49c100d4c, 0x4cc5d4becb3e42b6, 0x597f299cfc657e2a, 0x5fcb6fab3ad6faec, 0x6c44198c4a475817]
def shaK : List DWord := shaK0 ++ shaK1 ++ shaK2 ++ shaK3
def shaStart : List DWord :=
  [0xcbbb9d5dc1059ed8, 0x629a292a367cd507, 0x9159015a3070dd17, 0x152fecd8f70e5939, 0x67332667ffc00b31,
   0x8eb44a8768581511, 0xdb0c2e0d64f98fa7, 0x47b5481dbefa4fa4]

/-- The 64-bit words of a message, each with its first byte highest. -/
def shaWords : Nat → List Byte → List DWord
  | 0, _ => []
  | n + 1, bs => BitVec.ofNat 64 (leNat (bs.take 8).reverse) :: shaWords n (bs.drop 8)

/-- A message with its padding: a one bit, zeros, and its length in bits in the last 16 bytes of a block of 128. -/
def shaPad (m : List Byte) : List Byte :=
  m ++ [0x80] ++ List.replicate ((112 + 128 - (m.length + 1) % 128) % 128) 0 ++ (leBytes 16 (8 * m.length)).reverse

/-- The message schedule, latest word first. -/
def shaSchedule : Nat → List DWord → List DWord
  | 0, ws => ws
  | n + 1, ws =>
    let w (k : Nat) : DWord := ws.getD (k - 1) 0
    let s0 := (w 15).rotateRight 1 ^^^ (w 15).rotateRight 8 ^^^ (w 15 >>> 7)
    let s1 := (w 2).rotateRight 19 ^^^ (w 2).rotateRight 61 ^^^ (w 2 >>> 6)
    shaSchedule n ((w 16 + s0 + w 7 + s1) :: ws)

/-- One round on the eight words of the state. -/
def shaRound (h : List DWord) (k w : DWord) : List DWord :=
  match h with
  | [a, b, c, d, e, f, g, x] =>
    let t1 := x + (e.rotateRight 14 ^^^ e.rotateRight 18 ^^^ e.rotateRight 41) + ((e &&& f) ^^^ (~~~e &&& g)) + k + w
    let t2 := (a.rotateRight 28 ^^^ a.rotateRight 34 ^^^ a.rotateRight 39) + ((a &&& b) ^^^ (a &&& c) ^^^ (b &&& c))
    [t1 + t2, a, b, c, d + t1, e, f, g]
  | _ => h

def shaBlock (h : List DWord) (block : List Byte) : List DWord :=
  let ws := (shaSchedule 64 (shaWords 16 block).reverse).reverse
  h.zipWith (· + ·) ((shaK.zip ws).foldl (fun h p => shaRound h p.1 p.2) h)

/-- The SHA-384 hash of a message: 48 bytes. -/
def sha384 (m : List Byte) : List Byte :=
  let bs := shaPad m
  let h := (List.range (bs.length / 128)).foldl (fun h i => shaBlock h ((bs.drop (128 * i)).take 128)) shaStart
  (h.take 6).flatMap fun w => (leBytes 8 w.toNat).reverse

end Sys2Proof.Machine.Crypto
end

