-- ==== Sys2Proof/Machine/Memory.lean ====
section
/-!
DEFINITION. Sys2Proof/Machine/Memory.lean: global memory. Checkpoints (R310), translation (R322-R325), bytes at their home with
poison marks (R214) and encryption (R319), leases (R188, R189), the L1 and the L2 copies of SOFT lines (R183,
R191), write-back (R208, R209, R327), and the delivery of a register result to its thread wherever it is (R344).
-/
namespace Sys2Proof

/-- The register k places after an operand (R93). -/
def Opd.next (o : Opd) (k : Nat) : Opd :=
  match o with
  | .v n => .v (n + BitVec.ofNat 8 k)
  | .s n => .s (n + BitVec.ofNat 6 k)
  | o => o

/-- The words of a loaded value with their tags (Table 9.3). -/
def LdTy.bytes : LdTy → Nat
  | .b64 => 8
  | .i8 | .w8 => 1
  | .i16 | .w16 => 2
  | _ => 4
def LdTy.tag : LdTy → Tag
  | .b32 | .b64 => .raw
  | .i32 | .i8 | .i16 => .i32
  | .w32 | .w8 | .w16 => .w32
  | .f32 => .f32 | .bf2 => .bf2 | .h2 => .h2 | .e4q => .e4q | .e5q => .e5q | .i8q => .i8q | .w8q => .w8q
  | .npl => .npl
def LdTy.widen (ty : LdTy) (v : DWord) : List TWord :=
  let w (x : Word) : TWord := { bits := x, tag := ty.tag }
  match ty with
  | .b64 => [w (v.setWidth 32), w (v.extractLsb' 32 32)]
  | .i8 => [w ((v.setWidth 8).signExtend 32)]
  | .w8 => [w ((v.setWidth 8).setWidth 32)]
  | .i16 => [w ((v.setWidth 16).signExtend 32)]
  | .w16 => [w ((v.setWidth 16).setWidth 32)]
  | _ => [w (v.setWidth 32)]
def LdTy.words (ty : LdTy) : Nat := if ty = .b64 then 2 else 1
def StSz.bytes : StSz → Nat
  | .b8 => 1 | .b16 => 2 | .b32 => 4 | .b64 => 8

end Sys2Proof

namespace Sys2Proof.Machine

-- Checkpoints (R310, Table 14.4) -----------------------------------------------------------------------------------

/-- The numbers of the checkpoints: L1s, L2 slices, bridge ends, fabric ports, PCI Express, memory controllers, copy
engines, barrier targets, queue engines. -/
def cpL1 (core : Nat) : Nat := core
def cpSlice (die pa : Nat) : Nat := 192 + die * 64 + (pa / 256 % 64 ^^^ pa / 2 ^ 14 % 64)
def cpBridge (die : Nat) : Nat := 320 + die
def cpFabric (port : Nat) : Nat := 322 + port % 16
def cpPcie : Nat := 338
def cpMem (die : Nat) : Nat := 339 + die
def cpCopy (die : Nat) : Nat := 341 + die
def cpBarrier (core : Nat) : Nat := 343 + core
def cpQueue (die : Nat) : Nat := 535 + die
def cpCount : Nat := 537

/-- The INC that a checkpoint holds for a context: the last killed one until it learns the live one. -/
def State.cpInc (s : State) (cp ctx : Nat) : Byte :=
  let x := s.ctx ctx
  if x.lagging.contains cp then x.unrec.getLast?.getD x.live else x.live

/-- Whether a request with a tag passes every checkpoint of a list. -/
def State.passes (s : State) (cps : List Nat) (ctx : Nat) (inc : Byte) : Bool :=
  cps.all fun cp => s.cpInc cp ctx == inc

/-- The home die of a physical address (R182). -/
def homeDie (pa : Nat) : Nat := pa / 2 ^ 38 % 2

/-- The die where a request to a page's target is performed or leaves the package: the host link is on die 0, and a fabric port's number
says its die (R11). -/
def exitDie (a : Attr) (pa : Nat) : Nat :=
  match a.tgt with
  | .hbm => homeDie pa
  | .host => 0
  | .peer c => Config.portOf c % 16 / 8

/-- The bridge end that a request of one die enters on its way to another (R10). -/
def bridgeCps (src dst : Nat) : List Nat := if src = dst then [] else [cpBridge src]

/-- The checkpoints where a request is performed or leaves the package. -/
def endCps (a : Attr) (pa : Nat) : List Nat :=
  match a.tgt with
  | .hbm => [cpSlice (homeDie pa) pa, cpMem (homeDie pa)]
  | .host => [cpPcie]
  | .peer c => [cpFabric (Config.portOf c)]

/-- Whether a die's L2 holds copies of a SOFT line: one homed on the other die, or held for an outside target. -/
def softCopied (die : Nat) (a : Attr) (pa : Nat) : Bool :=
  match a.tgt with
  | .hbm => die != homeDie pa
  | _ => true

/-- The checkpoints from a die to the place where its request is performed or leaves the package. -/
def dieCps (die : Nat) (a : Attr) (pa : Nat) : List Nat := bridgeCps die (exitDie a pa) ++ endCps a pa

/-- The checkpoints of a core's request: its L1, the slice of its die that keeps SOFT copies, and those of its die. -/
def pathCps (core : Nat) (a : Attr) (pa : Nat) : List Nat :=
  cpL1 core :: (if a.soft && softCopied (dieOf core) a pa then [cpSlice (dieOf core) pa] else []) ++ dieCps (dieOf core) a pa

/-- The checkpoints of a request: one that writes back an evicted line, or a unit of a copy, starts at its die; a barrier action goes by the
cluster barrier network, where the target core checks it; a remote scratchpad access leaves by the L1 and crosses the bridge (R10, R177). -/
def Req.path (r : Req) : List Nat :=
  match r.act with
  | .writeback .. | .unit .. => dieCps (dieOf r.core) r.attr r.pa
  | .barrier home .. => [cpBarrier home]
  | .rload home .. | .rstore home .. => cpL1 r.core :: bridgeCps (dieOf r.core) (dieOf home)
  | _ => pathCps r.core r.attr r.pa

/-- The die where a request is performed or leaves the package. -/
def Req.exit (r : Req) : Nat :=
  match r.act with
  | .barrier .. => dieOf r.core
  | .rload home .. | .rstore home .. => dieOf home
  | _ => exitDie r.attr r.pa

/-- The checkpoints that a request has still to pass. The home's own slice and memory controller, and the target of a barrier action, check it
again when it is performed; nothing checks a request that has left the package (R310, R313). -/
def Req.ahead (r : Req) : List Nat :=
  match r.act with
  | .rload .. | .rstore .. => r.path.drop r.passed
  | _ => if r.attr.tgt = .hbm then r.path.drop (min r.passed (r.path.length - 2)) else r.path.drop r.passed

-- The bytes of HBM under keys (R319) ---------------------------------------------------------------------------------

/-- The form in which an ENC page keeps its bytes: 0 for no key, else twice the keys of its context's slot (counted from 1), one more
where the page is compressed as well (R306, R319). -/
def State.keyOf (s : State) (ctx : Nat) : Nat :=
  if (s.ctx ctx).keyed then
    match s.keys.find ((s.ctx ctx).cfg.toNat / 2 ^ 16 % 256) with
    | some k => k.keys + 1
    | none => 0
  else 0
def State.pageKey (s : State) (ctx : Nat) (a : Attr) : Nat :=
  if a.enc && s.keyOf ctx != 0 then 2 * s.keyOf ctx + a.cmp.toNat else 0

/-- The 16 bytes of a unit of HBM as a reader with a form sees them. Under the keys they were written with they are themselves; under
others, the ciphertext decrypted with those. What a compressed block holds is not architectural (assumption 17). -/
def State.unitBytes (s : State) (form u : Nat) : List Byte :=
  let k := s.unitKey.get 0 u
  let bs := Memory.read s.hbm (16 * u) 16
  if k / 2 = form / 2 then bs
  else if k % 2 = 1 ∨ form % 2 = 1 then (List.range 16).map fun i => Config.misdecrypt k form (16 * u + i) (bs.getD i 0)
  else Crypto.openUnit (form / 2) u (Crypto.sealUnit (k / 2) u bs)

/-- A byte of local HBM as a reader with a form sees it. -/
def State.hbmByte (s : State) (form pa : Nat) : Byte :=
  if s.unitKey.get 0 (pa / 16) / 2 = form / 2 then Store.get 0 s.hbm pa else (s.unitBytes form (pa / 16)).getD (pa % 16) 0

/-- Bytes that an access under no key reads. -/
def State.plainBytes (s : State) (pa n : Nat) : List Byte := (List.range n).map fun i => s.hbmByte 0 (pa + i)

/-- Puts a unit under a form before a write of part of it: its bytes become what a reader with that form sees. -/
def State.rekeyUnit (s : State) (form u : Nat) : State :=
  if s.unitKey.get 0 u = form then s
  else { s with unitKey := s.unitKey.set 0 u form, hbm := Memory.write s.hbm (16 * u) (s.unitBytes form u) }

/-- The units that a write of n bytes puts under its form: those it touches, or, where a compressed block is met, those of its whole
blocks (R194). -/
def State.unitsFor (s : State) (form pa n : Nat) : List Nat :=
  let span (lo hi : Nat) : List Nat := (List.range (hi + 1 - lo)).map (· + lo)
  let blocks := span (pa / 256 * 16) ((pa + n - 1) / 256 * 16 + 15)
  if form % 2 = 1 || blocks.any fun u => s.unitKey.get 0 u % 2 = 1 then blocks else span (pa / 16) ((pa + n - 1) / 16)
def State.rekey (s : State) (form pa n : Nat) : State := (s.unitsFor form pa n).foldl (fun s u => s.rekeyUnit form u) s

-- Translation (R322-R325) ------------------------------------------------------------------------------------------

/-- The end of a walk: a leaf with its own output address, no mapping, or a page to request from the host. -/
inductive Xlat where
  | ok (oa : Nat) (a : Attr)
  | fail
  | request
deriving DecidableEq, Repr

/-- The partition of a context and its HBM share in bytes. -/
def State.partOf (s : State) (ctx : Nat) : Nat := (s.ctx ctx).cfg.toNat % 8
def State.share (s : State) (ctx : Nat) : Nat × Nat :=
  let p := s.part (s.partOf ctx)
  (p.hbmbase.toNat * 2 ^ 30, (p.hbmbase.toNat + p.hbmlen.toNat) * 2 ^ 30)

/-- The host's translation agent for a function's page (R324): the page itself, readable and writable, where the
environment has set nothing else (assumption 21). -/
def State.ats (s : State) (fn oa : Nat) : AtsRes :=
  (s.atsHost.find (fn * 2 ^ 40 + oa / 4096)).getD { addr := oa, r := true, w := true }

/-- The attributes of a leaf, or none where its checks fail (R323, Table 8.4). -/
def leafAttr (e page size lo hi : Nat) : Option Attr :=
  let tgt := e / 2 ^ 12 % 4
  let peer := e / 2 ^ 14 % 1024
  let ord := e / 2 ^ 5 % 4
  let bit (n : Nat) : Bool := e.testBit n
  let soft := bit 7
  let bad := ord == 3 || tgt == 3 || (peer != 0 && tgt != 2) || (bit 11 && decide (size ≠ 4096))
    || (decide (page ≥ 2 ^ 39) && tgt != 1)
    || (ord == 0 && soft) || (bit 9 && soft) || (bit 9 && bit 8) || ((bit 8 || bit 10) && tgt != 0)
    || (bit 9 && tgt == 1)
    || (tgt == 0 && !decide (lo ≤ page ∧ page + size ≤ hi))
  if bad then none
  else some
    { tgt := if tgt = 0 then .hbm else if tgt = 1 then .host else .peer peer
      ord := if ord = 0 then .strong else if ord = 1 then .rc else .unord
      soft, cmp := bit 8, doc := bit 9, enc := bit 10, r := bit 2, w := bit 3, x := bit 4, base := page, size }

/-- The walk from a table of a level down (R322-R324). Its reads name no key (R325, R319). -/
def State.walkAt (s : State) (lo hi va : Nat) : Nat → Nat → Xlat
  | fuel, table =>
    if !decide (lo ≤ table ∧ table + 4096 ≤ hi) then .fail
    else
      let e := leNat (s.plainBytes (table + 8 * (va / 2 ^ (12 + 9 * fuel) % 512)) 8)
      let next := e / 2 ^ 24 * 4096
      if !e.testBit 0 then (if e.testBit 1 then .request else .fail)
      else if e.testBit 1 then
        let size := 4096 * 2 ^ (9 * fuel)
        if fuel > 2 ∨ next % size ≠ 0 then .fail
        else match leafAttr e next size lo hi with
          | some a => .ok next a
          | none => .fail
      else if e / 4 % 2 ^ 22 ≠ 0 then .fail
      else match fuel with
        | 0 => .fail
        | n + 1 => State.walkAt s lo hi va n next

/-- The table entries that a walk reads, from a table of a level down. -/
def State.walkReads (s : State) (lo hi va : Nat) : Nat → Nat → List Nat
  | fuel, table =>
    if !decide (lo ≤ table ∧ table + 4096 ≤ hi) then []
    else
      let at_ := table + 8 * (va / 2 ^ (12 + 9 * fuel) % 512)
      let e := leNat (s.plainBytes at_ 8)
      if !e.testBit 0 || e.testBit 1 || e / 4 % 2 ^ 22 != 0 then [at_]
      else match fuel with
        | 0 => [at_]
        | n + 1 => at_ :: State.walkReads s lo hi va n (e / 2 ^ 24 * 4096)

/-- A whole walk of a context's tables, with the host's translation of a host page. -/
def State.walk (s : State) (ctx va : Nat) : Xlat :=
  let root := (s.ctx ctx).ptroot.toNat
  let (lo, hi) := s.share ctx
  if va ≥ 2 ^ 57 ∨ root % 4096 ≠ 0 ∨ root ≥ 2 ^ 39 then .fail
  else match s.walkAt lo hi va 4 root with
    | .ok oa a =>
      match a.tgt with
      | .host =>
        let pg := oa + va % a.size / 4096 * 4096
        let t := s.ats (s.partOf ctx + 1) pg
        .ok pg { a with base := t.addr, size := 4096, r := a.r && t.r, w := a.w && t.w, x := a.x && t.r }
      | _ => .ok oa a
    | x => x

/-- Whether a translation-cache entry serves an address of a context: one that holds an ATS result serves only its function (R325, R329). -/
def TlbEntry.serves (e : TlbEntry) (die ctx fn va : Nat) : Bool :=
  e.die == die && e.ctx == ctx && decide (e.va ≤ va ∧ va < e.va + e.attr.size) && (e.attr.tgt != .host || e.fn == fn)

/-- A translation by a die: its cache, else a walk (R325). -/
def State.translate (s : State) (die ctx va : Nat) : Xlat :=
  if va ≥ 2 ^ 57 then .fail
  else match s.tlb.find? fun e => e.serves die ctx (s.partOf ctx + 1) va with
    | some e => .ok e.oa e.attr
    | none => s.walk ctx va

/-- The physical address of a virtual one. -/
def Attr.phys (a : Attr) (va : Nat) : Nat := a.base + va % a.size

/-- The entries of a table that can read as other than 0: those with such a byte, and those that were written under a key. -/
def State.tableEntries (s : State) (table : Nat) : List Nat :=
  let inside (pa : Nat) : Bool := decide (table ≤ pa ∧ pa < table + 4096)
  (((s.hbm.filter fun p => inside p.1).map fun p => (p.1 - table) / 8)
    ++ (s.unitKey.filter fun p => inside (16 * p.1)).flatMap fun p => [(16 * p.1 - table) / 8, (16 * p.1 - table) / 8 + 1]).eraseDups

/-- The leaves below a table of a level whose reach starts at va: the address that each maps, and its attributes. -/
def State.leavesAt (s : State) (lo hi : Nat) : Nat → Nat → Nat → List (Nat × Attr)
  | fuel, table, va =>
    if !decide (lo ≤ table ∧ table + 4096 ≤ hi) then []
    else (s.tableEntries table).flatMap fun i =>
      let e := leNat (s.plainBytes (table + 8 * i) 8)
      let next := e / 2 ^ 24 * 4096
      let at_ := va + i * 2 ^ (12 + 9 * fuel)
      if !e.testBit 0 then []
      else if e.testBit 1 then
        let size := 4096 * 2 ^ (9 * fuel)
        if fuel > 2 ∨ next % size ≠ 0 then [] else ((leafAttr e next size lo hi).map fun a => (at_, a)).toList
      else match fuel with
        | 0 => []
        | n + 1 => State.leavesAt s lo hi n next at_

/-- The leaves of a context's tables. -/
def State.leaves (s : State) (ctx : Nat) : List (Nat × Attr) :=
  let (lo, hi) := s.share ctx
  s.leavesAt lo hi 4 (s.ctx ctx).ptroot.toNat 0

/-- The addresses that leaves of a context may name for a place of a target: for host memory, every page that the host's translation puts
there (R324). -/
def State.leafNames (s : State) (ctx : Nat) (t : Target) (pa : Nat) : List Nat :=
  match t with
  | .host =>
    let fn := s.partOf ctx + 1
    (if (s.ats fn (pa / 4096 * 4096)).addr / 4096 == pa / 4096 then [pa] else [])
      ++ (s.atsHost.filter fun p => p.1 / 2 ^ 40 == fn && p.2.addr / 4096 == pa / 4096 && p.1 % 2 ^ 40 != pa / 4096).map fun p =>
        p.1 % 2 ^ 40 * 4096 + pa % 4096
  | _ => [pa]

/-- Whether a context maps a physical page at two virtual addresses, one of them SOFT: the values that its accesses return are undefined
(R191). -/
def State.twiceMapped (s : State) (ctx : Nat) (a : Attr) (pa : Nat) : Bool :=
  let names := s.leafNames ctx a.tgt pa
  let here := (s.leaves ctx).flatMap fun p =>
    if p.2.tgt == a.tgt then (names.filter fun n => decide (p.2.base ≤ n ∧ n < p.2.base + p.2.size)).map fun _ => p.2 else []
  decide (2 ≤ here.length) && here.any fun x => x.soft

/-- Whether some context maps a byte of HBM on a CMP page: the block that holds it is compressed (R194). -/
def State.compressed (s : State) (pa : Nat) : Bool :=
  s.ctxs.any fun x => (s.leaves x.1).any fun p =>
    p.2.tgt == .hbm && p.2.cmp && decide (p.2.base ≤ pa ∧ pa < p.2.base + p.2.size)

/-- Bytes that an access returns: free ones where they are undefined (R191, assumption 14). -/
def State.returned (s : State) (ctx : Nat) (a : Attr) (pa : Nat) (bs : List Byte) : List Byte × State :=
  if s.twiceMapped ctx a pa then
    ((List.range bs.length).map fun i => Config.freeByte (s.freeCtr + i), { s with freeCtr := s.freeCtr + bs.length })
  else (bs, s)

-- Bytes at their home ----------------------------------------------------------------------------------------------

/-- Peer memory is keyed by chip and physical address. -/
def peerKey (chip pa : Nat) : Nat := chip * 2 ^ 52 + pa

/-- Bytes as they stand at the home or target (R184, R228). -/
def State.readHome (s : State) (key : Nat) (a : Attr) (pa n : Nat) : List Byte :=
  match a.tgt with
  | .hbm => (List.range n).map fun i => s.hbmByte key (pa + i)
  | .host => Memory.read s.hostMem pa n
  | .peer c => Memory.read s.peerMem (peerKey c pa) n

/-- The mark of an uncorrectable error that struck a sector of HBM stands beside the sector's poison mark: in a CMP or ENC block such an
error poisons all 256 bytes (R194, R319), a mark that a copy left only its own sector (R214). -/
def struckKey (sector : Nat) : Nat := 2 ^ 40 + sector

/-- Whether bytes lie in a poisoned sector. -/
def State.homePsn (s : State) (a : Attr) (pa n : Nat) : Bool :=
  match a.tgt with
  | .hbm =>
    Marks.any s.hbmPsn (pa / 32) ((pa + n - 1) / 32 - pa / 32 + 1)
      || ((a.cmp || a.enc) && Marks.any s.hbmPsn (struckKey (pa / 256 * 8)) (((pa + n - 1) / 256 - pa / 256 + 1) * 8))
  | _ => false

/-- Clears the marks of the sectors that a write covers whole (R214): sectors from lo to hi of a store of marks. -/
def Marks.covered (m : Marks) (base a n : Nat) : Marks :=
  let lo := (a + 31) / 32
  Marks.fill m (base + lo) false ((a + n) / 32 - lo)

/-- A write to a CMP or ENC block reads and writes the whole block: an error that struck one of its sectors becomes the poison of all eight
(R194, R319). -/
def Marks.spread (m : Marks) (block : Nat) : Marks :=
  if Marks.any m (struckKey (block * 8)) 8 then Marks.fill (Marks.fill m (block * 8) true 8) (struckKey (block * 8)) false 8 else m
def Marks.spreadAll (m : Marks) (a : Attr) (pa n : Nat) : Marks :=
  if a.cmp || a.enc then (List.range ((pa + n - 1) / 256 - pa / 256 + 1)).foldl (fun m i => m.spread (pa / 256 + i)) m else m

/-- The marks after a write of n bytes of HBM: those of the sectors that it covers whole are clear (R214). -/
def Marks.written (m : Marks) (a : Attr) (pa n : Nat) : Marks :=
  Marks.covered (Marks.covered (m.spreadAll a pa n) 0 pa n) (struckKey 0) pa n

/-- Writes bytes at the home or target. -/
def State.writeHome (s : State) (key : Nat) (a : Attr) (pa : Nat) (bs : List Byte) : State :=
  if bs.isEmpty then s
  else match a.tgt with
  | .hbm =>
    let s1 := s.rekey key pa bs.length
    { s1 with hbm := Memory.write s1.hbm pa bs, hbmPsn := Marks.written s1.hbmPsn a pa bs.length }
  | .host => { s with hostMem := Memory.write s.hostMem pa bs }
  | .peer c => { s with peerMem := Memory.write s.peerMem (peerKey c pa) bs }

/-- Writes the bytes that a mask selects, one by one. -/
def State.writeBytesMasked (s : State) (key : Nat) (a : Attr) (pa : Nat) : List Bool → List Byte → State
  | m :: ms, b :: bs => State.writeBytesMasked (if m then s.writeHome key a pa [b] else s) key a (pa + 1) ms bs
  | _, _ => s

/-- The sectors of a line that a mask of its bytes covers whole. -/
def wholeSectors (mask : List Bool) : List Bool := (List.range 4).map fun i => decide ((mask.drop (32 * i)).take 32 = List.replicate 32 true)

/-- A write-back of the masked bytes of a line: a sector written whole is no longer marked (R191, R214). -/
def State.writeMasked (s : State) (key : Nat) (a : Attr) (pa : Nat) (mask : List Bool) (data : List Byte) : State :=
  let s1 := s.writeBytesMasked key a pa mask data
  let whole := (List.range 4).filter fun i => (wholeSectors mask).getD i false
  match a.tgt with
  | .hbm => { s1 with hbmPsn := whole.foldl (fun m i => m.written a (pa + 32 * i) 32) s1.hbmPsn }
  | _ => s1

/-- Virtual reads and writes made at the home by an engine of a die: none where the page does not allow them. -/
def State.readVirt (s : State) (die ctx : Nat) (ok : Attr → Bool) : Nat → Nat → Option (List Byte)
  | _, 0 => some []
  | va, n + 1 =>
    match s.translate die ctx va with
    | .ok _ a =>
      if ok a then (State.readVirt s die ctx ok (va + 1) n).map ((s.readHome (s.pageKey ctx a) a (a.phys va) 1) ++ ·)
      else none
    | _ => none
def State.canWrite (s : State) (die ctx va n : Nat) : Bool :=
  (List.range n).all fun i =>
    match s.translate die ctx (va + i) with
    | .ok _ a => a.w && !a.doc
    | _ => false
def State.writeVirt (s : State) (die ctx : Nat) : Nat → List Byte → State
  | _, [] => s
  | va, b :: bs =>
    match s.translate die ctx va with
    | .ok _ a => State.writeVirt (s.writeHome (s.pageKey ctx a) a (a.phys va) [b]) die ctx (va + 1) bs
    | _ => State.writeVirt s die ctx (va + 1) bs

/-- A page whose lines are held under leases (R184). -/
def Attr.leased (a : Attr) : Bool := a.tgt == .hbm && !a.soft

/-- Local HBM as plain LEASE memory. -/
def plainAttr : Attr :=
  { tgt := .hbm, ord := .rc, soft := false, cmp := false, doc := false, enc := false, r := true, w := true, x := false, base := 0, size := 4096 }

/-- Local HBM as a request from outside the package reaches it: a compressed block stays one (R194). -/
def State.outerAttr (s : State) (pa : Nat) : Attr := { plainAttr with cmp := s.compressed pa }

-- Leases (R188, R189) ----------------------------------------------------------------------------------------------

/-- The largest E recorded on a line, and whether a write to the line waits at the home. -/
def State.lease (s : State) (pa : Nat) : Nat := s.leases.get 0 (pa / 128)
def Req.writesLine (r : Req) (pa : Nat) : Bool :=
  r.attr.tgt == .hbm && !r.attr.soft && r.pa / 128 == pa / 128 && r.stage == .sent
    && (match r.act with
      | .store _ | .atom .. => true
      | .cell op .. => !(op == .read)
      | _ => false)
def State.writeWaits (s : State) (pa : Nat) : Bool := s.reqs.any fun r => r.writesLine pa

/-- The expiry of a lease granted now: no later than a waiting write's perform time. -/
def State.leaseExpiry (s : State) (pa len : Nat) : Nat :=
  if s.writeWaits pa then min (s.time + len) (s.lease pa) else s.time + len
def State.recordLease (s : State) (pa e : Nat) : State :=
  { s with leases := s.leases.set 0 (pa / 128) (max (s.lease pa) e) }

-- The L1 (R183) ----------------------------------------------------------------------------------------------------

def lineOf (va : Nat) : Nat := va / 128 * 128

def L1Line.matches (x : L1Line) (ctx : Nat) (inc : Byte) (va : Nat) : Bool :=
  x.ctx == ctx && x.inc == inc && x.va == lineOf va

/-- The line that serves a hit now: SOFT, or a LEASE line before its expiry; never a stripped one (R188, R327). -/
def State.l1Hit (s : State) (core ctx : Nat) (inc : Byte) (va : Nat) : Option L1Line :=
  (s.core core).l1.find? fun x =>
    x.matches ctx inc va && !x.stripped && x.valid.getD (va % 128 / 32) true && (x.attr.soft || decide (s.time < x.exp))

/-- The page of an access: an L1 hit is never translated (R183). -/
def State.pageFor (s : State) (core ctx : Nat) (inc : Byte) (va : Nat) : Xlat :=
  if va ≥ 2 ^ 57 then .fail
  else match s.l1Hit core ctx inc va with
    | some x => .ok x.attr.base x.attr
    | none => s.translate (dieOf core) ctx va

def State.dropL1 (s : State) (core : Nat) (p : L1Line → Bool) : State :=
  s.modCore core fun k => { k with l1 := k.l1.filter fun x => !p x }
def State.putL1 (s : State) (core : Nat) (x : L1Line) : State :=
  s.modCore core fun k => { k with l1 := x :: k.l1.filter fun y => !y.matches x.ctx x.inc x.va }

-- SOFT copies in an L2 (R184, R191) --------------------------------------------------------------------------------

def L2Line.at_ (x : L2Line) (die ctx : Nat) (inc : Byte) (a : Attr) (pa : Nat) : Bool :=
  x.die == die && x.ctx == ctx && x.inc == inc && x.attr.tgt == a.tgt && x.pa == pa / 128 * 128
/-- A copy of a line of any context. -/
def L2Line.of (x : L2Line) (die : Nat) (a : Attr) (pa : Nat) : Bool := x.die == die && x.attr.tgt == a.tgt && x.pa == pa / 128 * 128

/-- The poison of the four sectors of a line at its home. -/
def State.homeSectors (s : State) (a : Attr) (lpa : Nat) : List Bool :=
  (List.range 4).map fun i => s.homePsn a (lpa + 32 * i) 32

/-- The bytes of the sectors that a list does not mark. -/
def outside (sectors : List Bool) : List Bool := sectors.flatMap fun v => List.replicate 32 (!v)
def pickSectors (valid new old : List Bool) : List Bool := (valid.zip (new.zip old)).map fun p => if p.1 then p.2.2 else p.2.1
def allSectors : List Bool := [true, true, true, true]
def noSectors : List Bool := [false, false, false, false]
def lessMask (dirty mask : List Bool) : List Bool := (dirty.zip mask).map fun p => p.1 && !p.2
def orMask (a b : List Bool) : List Bool := (a.zip b).map fun p => p.1 || p.2
def addLaunches (by_ new : List Nat) : List Nat := by_ ++ new.filter fun n => !by_.contains n

/-- A SOFT line takes written bytes: a sector written whole is present, and no longer marked (R191, R214). -/
def L1Line.written (x : L1Line) (mask : List Bool) (data : List Byte) (by_ : List Nat) : L1Line :=
  let dirty := orMask x.dirty mask
  { x with data := mergeBytes mask data x.data, dirty, by_ := addLaunches x.by_ by_, valid := orMask x.valid (wholeSectors dirty),
           psn := lessMask x.psn (wholeSectors dirty) }
def L2Line.written (x : L2Line) (mask : List Bool) (data : List Byte) (by_ : List Nat) : L2Line :=
  let dirty := orMask x.dirty mask
  { x with data := mergeBytes mask data x.data, dirty, by_ := addLaunches x.by_ by_, valid := orMask x.valid (wholeSectors dirty),
           psn := lessMask x.psn (wholeSectors dirty) }

/-- A SOFT line takes the sectors that it lacks from a fill; its own dirty bytes stand (R191, R229). -/
def L1Line.filled (x : L1Line) (d : List Byte) (p : List Bool) : L1Line :=
  { x with data := mergeBytes (lessMask (outside x.valid) x.dirty) d x.data, psn := pickSectors x.valid p x.psn, valid := allSectors }
def L2Line.filled (x : L2Line) (d : List Byte) (p : List Bool) : L2Line :=
  { x with data := mergeBytes (lessMask (outside x.valid) x.dirty) d x.data, psn := pickSectors x.valid p x.psn, valid := allSectors }

/-- A line as it stands beyond a die's L2: the home's bytes, under those that the die's own evictions still carry there (R191, R229). -/
def Req.carries (r : Req) (die ctx : Nat) (inc : Byte) (a : Attr) (lpa : Nat) : Bool :=
  dieOf r.core == die && r.ctx == ctx && r.inc == inc && r.attr.tgt == a.tgt && r.pa == lpa && r.stage == .sent
def State.beyondL2 (s : State) (die ctx : Nat) (inc : Byte) (a : Attr) (lpa : Nat) : List Byte :=
  s.reqs.foldl (fun d r =>
    match r.act with
    | .writeback data mask _ => if r.carries die ctx inc a lpa then mergeBytes mask data d else d
    | _ => d) (s.readHome (s.pageKey ctx a) a lpa 128)

/-- Writes the dirty bytes of an L2 copy to its home, where each checkpoint on the way passes its tag (R309, R310), under the key that the
line was under (R319). -/
def State.homeL2 (s : State) (x : L2Line) : State :=
  if s.passes (dieCps x.die x.attr x.pa) x.ctx x.inc then s.writeMasked x.key x.attr x.pa x.dirty x.data else s

/-- An access whose page names another key, or none, takes the die's copies of the line as absent, whatever context they are of, and first
writes back their dirty bytes (R319). -/
def State.otherKey (s : State) (die ctx : Nat) (a : Attr) (pa : Nat) : State :=
  let k := s.pageKey ctx a
  let other (x : L2Line) : Bool := x.of die a pa && x.key / 2 != k / 2
  let s1 := (s.l2.filter other).foldl (fun s x => s.homeL2 x) s
  { s1 with l2 := s1.l2.filter fun z => !other z }

/-- A line as the die's L2 delivers it to a missing L1, its poison, and the state with the copy it then holds. -/
def State.softFetch (s0 : State) (die ctx : Nat) (inc : Byte) (a : Attr) (va pa : Nat) : List Byte × List Bool × State :=
  let s := s0.otherKey die ctx a pa
  let lpa := pa / 128 * 128
  let d := s.beyondL2 die ctx inc a lpa
  let p := s.homeSectors a lpa
  if softCopied die a pa then
    match s.l2.find? fun x => x.at_ die ctx inc a pa with
    | some x =>
      let y := x.filled d p
      (y.data, y.psn, { s with l2 := replaceIf (fun z => z.at_ die ctx inc a pa) (fun _ => y) s.l2 })
    | none =>
      (d, p, { s with l2 := { die, ctx, inc, va := lineOf va, pa := lpa, attr := a, data := d, psn := p, valid := allSectors,
                              dirty := List.replicate 128 false, by_ := [], key := s.pageKey ctx a } :: s.l2 })
  else (d, p, s)

/-- A SOFT line of the L1 in which no sector is present yet. -/
def bareLine (ctx : Nat) (inc : Byte) (a : Attr) (va pa : Nat) : L1Line :=
  { ctx, inc, va := lineOf va, pa := pa / 128 * 128, attr := a, exp := 0, data := List.replicate 128 0, psn := noSectors, valid := noSectors,
    dirty := List.replicate 128 false, by_ := [], stripped := false }

/-- The SOFT line that an L1 holds at an address, or a bare one. -/
def State.softIn (s : State) (core ctx : Nat) (inc : Byte) (a : Attr) (va pa : Nat) : L1Line :=
  ((s.core core).l1.find? fun x => x.matches ctx inc va && x.attr.soft).getD (bareLine ctx inc a va pa)

/-- Fills the L1 with a SOFT line: the sectors it lacks (R191). -/
def State.softLine (s : State) (core ctx : Nat) (inc : Byte) (a : Attr) (va pa : Nat) : State :=
  let (d, p, s1) := s.softFetch (dieOf core) ctx inc a va pa
  s1.putL1 core ((s1.softIn core ctx inc a va pa).filled d p)

/-- Bytes written into the SOFT line of an L1, which needs no fill for them: a later load of a sector that is not present misses (R191). -/
def State.softWrite (s : State) (core ctx : Nat) (inc : Byte) (a : Attr) (va pa : Nat) (data : List Byte) (launch : Nat) : State :=
  let mask := patch (List.replicate 128 false) (va % 128) (data.map fun _ => true)
  s.putL1 core ((s.softIn core ctx inc a va pa).written mask (patch (List.replicate 128 0) (va % 128) data) [launch])

/-- A stripped line serves again under the page's new permissions (R327). -/
def State.unstrip (s : State) (core ctx : Nat) (inc : Byte) (va : Nat) (a : Attr) : State :=
  s.modCore core fun k =>
    { k with
      l1 := replaceIf (fun x => x.matches ctx inc va && x.stripped)
        (fun x => { x with attr := { x.attr with r := a.r, w := a.w, x := a.x }, stripped := false }) k.l1 }

/-- Merges dirty bytes of a line, written by some launches, into the L2 of the die, or into the home where that is the die's own. The slice
drops those of a stale tag (R310). -/
def State.softToDie (s : State) (die ctx : Nat) (inc : Byte) (a : Attr) (va pa : Nat) (mask : List Bool)
    (data : List Byte) (by_ : List Nat) : State :=
  if softCopied die a pa then
    if s.passes [cpSlice die pa] ctx inc then
      let s1 := s.otherKey die ctx a pa
      let bare : L2Line :=
        { die, ctx, inc, va := lineOf va, pa := pa / 128 * 128, attr := a, data := List.replicate 128 0, psn := noSectors, valid := noSectors,
          dirty := List.replicate 128 false, by_ := [], key := s1.pageKey ctx a }
      match s1.l2.find? fun x => x.at_ die ctx inc a pa with
      | some _ => { s1 with l2 := replaceIf (fun x => x.at_ die ctx inc a pa) (fun x => x.written mask data by_) s1.l2 }
      | none => { s1 with l2 := bare.written mask data by_ :: s1.l2 }
    else s
  else if s.passes (dieCps die a pa) ctx inc then s.writeMasked (s.pageKey ctx a) a (pa / 128 * 128) mask data
  else s

/-- Whether the page of a line may still be written: a stripped line asks the current entry (R327). -/
def State.lineWritable (s : State) (core : Nat) (x : L1Line) : Bool :=
  if x.stripped then
    match s.translate (dieOf core) x.ctx x.va with
    | .ok _ a => a.w
    | _ => false
  else x.attr.w

def L1Line.clean (x : L1Line) : L1Line := { x with dirty := List.replicate 128 false, by_ := [] }

-- Registers as destinations ----------------------------------------------------------------------------------------

/-- Writes one word of a destination: V, S, or VZ which discards it (R57). -/
def State.setOpd (s : State) (c w l : Nat) (o : Opd) (x : TWord) : State :=
  match o with
  | .v n => s.setVreg c w l n.toNat x
  | .s n => s.setSreg c w n.toNat x
  | _ => s

/-- Where a result goes: the thread of a team of a launch that asked, its context, the number of the request or copy, and the window in which
it lands once its warp has exited (R383). -/
structure Dest where
  core : Nat
  warp : Nat
  lane : Nat
  launch : Nat
  team : Nat
  ctx : Nat
  id : Nat
  window : Option Nat
deriving DecidableEq, Repr

def Req.dest (r : Req) : Dest :=
  { core := r.core, warp := r.warp, lane := r.lane, launch := r.launch, team := r.team, ctx := r.ctx, id := r.id, window := r.window }

/-- The launch that the monitor's own requests name: none has this number. -/
def noLaunch : Nat := 2 ^ 64

/-- Whether a core's warp belongs to a team of a launch now; a monitor that is of no team is always on its core. -/
def State.isResident (s : State) (c w launch team : Nat) : Bool :=
  match s.teamOf c w with
  | some t => t.launch == launch && t.index == team && !t.ended
  | none => w == 64 && launch == noLaunch

/-- Changes the state of a destination where its team is away from its core: its image (R344), the shadow slot (R331). -/
def State.mapAway (s : State) (d : Dest) (f : Image → Image) : State :=
  { s with
    images := replaceIf (fun i => i.launch == d.launch && i.index == d.team) (fun i => { i with img := f i.img }) s.images
    shadow := s.shadow.map fun p =>
      if p.1 = d.core ∧ (p.2.core.teams.any fun q => q.2.launch == d.launch && q.2.index == d.team) then
        (p.1, { p.2 with img := f p.2.img })
      else p }

/-- A result that was outstanding when a RECOV team committed belongs to its checkpoint as well (R344, R353). -/
def State.mapCkpt (s : State) (d : Dest) (f : TeamImage → TeamImage) : State :=
  { s with
    ckpts := replaceIf (fun i => i.launch == d.launch && i.index == d.team && decide (d.id < i.since)) f s.ckpts }

/-- Whether a context's partition is not the one on its cores now (R331). -/
def State.shadowed (s : State) (ctx : Nat) : Bool :=
  (s.part (s.partOf ctx)).en && !(s.part (s.partOf ctx)).resident

/-- The state of a core that is in its shadow slot. -/
def State.shadowImage (s : State) (c : Nat) : Image := ((s.shadow.find c).map (·.img)).getD
  { regs := [], sregs := [], owners := [], scratch := [], scrPsn := [], opmem := [], opPsn := [], priv := [], privPsn := [],
    sems := [], threads := [], warps := [] }

/-- The first tile of the window in which a result lands: that of its warp, wherever the warp is. -/
def State.windowOf (s : State) (d : Dest) : Nat :=
  match d.window with
  | some tb => tb
  | none =>
    if s.isResident d.core d.warp d.launch d.team then (s.warp d.core d.warp).tbase
    else match s.images.find? fun i => i.launch == d.launch && i.index == d.team with
      | some i => (i.img.warps.get Warp.idle (warpKey d.core d.warp)).tbase
      | none => ((s.shadowImage d.core).warps.get Warp.idle (warpKey d.core d.warp)).tbase

/-- Where the tile of a result is: on its core, with a team that was saved with it, or in the shadow slot. -/
inductive TileHome where
  | core | shadow
  | image (launch index : Nat)
deriving DecidableEq, Repr

/-- A result is one of its warp's own tiles, or of a tile that the warp has given away, which may have left the core since (R140, R383). -/
def State.tileHome (s : State) (d : Dest) (tile : Nat) : TileHome :=
  if d.window.isNone && s.isResident d.core d.warp d.launch d.team && s.owner d.core tile == ownerCode d.warp then .core
  else match s.images.find? fun i => i.core == d.core && i.tiles.contains tile && decide (d.id < i.since) with
    | some i => .image i.launch i.index
    | none => if s.shadowed d.ctx then .shadow else .core

/-- Writes a word of a tile in an image. -/
def Image.setWord (i : Image) (c tile word : Nat) (x : TWord) : Image := { i with regs := i.regs.set TWord.zero (regKey c tile word) x }

def State.setTileAt (s : State) (d : Dest) (tile word : Nat) (x : TWord) : State :=
  match s.tileHome d tile with
  | .core => s.setTileWord d.core tile word x
  | .shadow =>
    { s with shadow := s.shadow.map fun p => if p.1 = d.core then (p.1, { p.2 with img := p.2.img.setWord d.core tile word x }) else p }
  | .image launch index =>
    { s with
      images := replaceIf (fun i => i.launch == launch && i.index == index) (fun i => { i with img := i.img.setWord d.core tile word x }) s.images }

/-- Writes a result that was outstanding: into the tile that holds its register, wherever that is, or into the S register of its warp, unless
that has exited; and into the checkpoint that it belongs to. -/
def State.deliver (s : State) (d : Dest) (o : Opd) (x : TWord) : State :=
  match o with
  | .v n =>
    let tile := vTile (s.windowOf d) n.toNat
    let word := vWord d.lane n.toNat
    (s.setTileAt d tile word x).mapCkpt d fun i => if i.tiles.contains tile then { i with img := i.img.setWord d.core tile word x } else i
  | .s n =>
    let f (i : Image) : Image := { i with sregs := i.sregs.set TWord.zero (sregKey d.core d.warp n.toNat) x }
    if d.window.isSome then s
    else (if s.isResident d.core d.warp d.launch d.team then s.setSreg d.core d.warp n.toNat x else s.mapAway d f).mapCkpt d fun i =>
      { i with img := f i.img }
  | _ => s

/-- Writes successive words from an operand on. -/
def State.deliverAll (s : State) (d : Dest) (o : Opd) : Nat → List TWord → State
  | _, [] => s
  | k, x :: xs => State.deliverAll (s.deliver d (o.next k) x) d o (k + 1) xs

/-- Changes the record of a thread wherever it is, unless its warp has exited. -/
def State.modThreadAt (s : State) (d : Dest) (f : Thread → Thread) : State :=
  let g (i : Image) : Image :=
    { i with
      threads := i.threads.set Thread.absent (thrKey d.core d.warp d.lane)
        (f (i.threads.get Thread.absent (thrKey d.core d.warp d.lane))) }
  if d.window.isSome then s
  else (if s.isResident d.core d.warp d.launch d.team then s.modThread d.core d.warp d.lane f else s.mapAway d g).mapCkpt d fun i =>
    { i with img := g i.img }

-- The deferred-fault record (R339) ---------------------------------------------------------------------------------

def Thread.defer (t : Thread) (cause : Byte) (addr : DWord) : Thread :=
  if t.dfV then { t with dfOvf := true } else { t with dfV := true, dfOvf := false, dfCause := cause, dfAddr := addr }
def Thread.dfault (t : Thread) : Word :=
  BitVec.ofNat 32 (t.dfOvf.toNat * 512 + t.dfV.toNat * 256 + t.dfCause.toNat)
def Thread.dfClear (t : Thread) : Thread := { t with dfOvf := false, dfV := false, dfCause := 0, dfAddr := 0 }

/-- Records a deferred fault in a thread wherever it is. -/
def State.deferAt (s : State) (d : Dest) (cause : Byte) (addr : DWord) : State := s.modThreadAt d fun t => t.defer cause addr

end Sys2Proof.Machine
end

