-- ==== Sys2Proof/Machine/Ops.lean ====
section
/-!
DEFINITION. Sys2Proof/Machine/Ops.lean: the operations that several instructions and events share. Completion records (R272),
ending threads, warps and teams (R140, R291), discarding a team (R312), saved images (R344, R353), launches that end by
a fault (R335), taking a trap (R332, R337, R338) and returning from one (R350).
-/
namespace Sys2Proof.Machine

-- Completion records (R272, Table 12.7) ----------------------------------------------------------------------------

def statusOk : Nat := 0
def statusRefused : Nat := 1
def statusBadSeq : Nat := 2
def statusFaulted : Nat := 3
def statusKilled : Nat := 4
def statusPartial : Nat := 5
def statusCopyFault : Nat := 6
def statusCopyPoison : Nat := 7
def statusCopyPartial : Nat := 8

def recordBytes (status detail time done failed : Nat) : List Byte :=
  leBytes 4 status ++ leBytes 4 detail ++ leBytes 8 time ++ leBytes 8 done ++ leBytes 8 failed

/-- The die whose engine serves a queue, its context and the partition of its registry (R372). -/
def Queue.die (q : Queue) : Nat := q.qcfg.toNat / 65536 % 2
def Queue.ctx (q : Queue) : Nat := q.qcfg.toNat % 4096

/-- Signals an MSI-X vector of a function (R369). -/
def State.irq (s : State) (fn vector : Nat) : State := { s with irqs := (fn, vector) :: s.irqs }

/-- ERRS counts a packet consumed without a record (R267). -/
def State.countErr (s : State) (q : Nat) : State :=
  let k := s.queue q
  match s.readVirt k.die k.ctx (fun _ => true) (k.qcb.toNat + 28) 4 with
  | some bs => s.writeVirt k.die k.ctx (k.qcb.toNat + 28) (leBytes 4 (leNat bs + 1))
  | none => s

/-- Whether a span may be written now at its home without a lease outstanding on it (R189). -/
def State.leasesOver (s : State) (die ctx va n : Nat) : Bool :=
  (List.range ((va + n - 1) / 128 - va / 128 + 1)).all fun i =>
    match s.translate die ctx (lineOf va + 128 * i) with
    | .ok _ a =>
      match a.tgt with
      | .hbm => decide (s.lease (a.phys (lineOf va + 128 * i)) ≤ s.time)
      | _ => true
    | _ => true

/-- Whether a record at an address would be written: it is aligned, and its pages may be written (R267). -/
def State.recordAt (s : State) (q addr : Nat) : Bool :=
  addr % 32 == 0 && s.canWrite (s.queue q).die (s.queue q).ctx addr 32

/-- Whether the bytes that writing a record changes, its own or ERRS, are free of leases now (R189). -/
def State.recordReady (s : State) (q addr : Nat) : Bool :=
  let k := s.queue q
  addr == 0 || (if s.recordAt q addr then s.leasesOver k.die k.ctx addr 32 else s.leasesOver k.die k.ctx (k.qcb.toNat + 28) 4)

/-- Writes a record: address 0 has none; one that is misaligned or cannot be written counts in ERRS (R267). -/
def State.writeRecord (s : State) (q addr : Nat) (irq : Bool) (status detail done failed : Nat) : State :=
  let k := s.queue q
  if addr = 0 then s
  else if s.recordAt q addr = false then s.countErr q
  else
    let s1 := s.writeVirt k.die k.ctx addr (recordBytes status detail s.time done failed)
    if irq then s1.irq (q / 256 + 1) 0 else s1

-- Warps and threads ------------------------------------------------------------------------------------------------

/-- Unexited threads. -/
def Status.alive : Status → Bool
  | .absent | .exited => false
  | _ => true
def State.aliveLanes (s : State) (c w : Nat) : List Nat := (List.range 32).filter fun l => (s.thread c w l).st.alive

/-- A thread at the start of its life. -/
def Thread.start (pc : DWord) (time : Nat) : Thread := { Thread.absent with st := .ready, pc, since := time }

/-- Every tile of a core that a code owns or has been given becomes FREE (R140). -/
def State.freeTiles (s : State) (c : Nat) (code : Byte) : State :=
  { s with
    owners := s.owners.filter fun p =>
      let o := Store.get (α := Byte) 0x7F s.owners p.1
      !(decide (ownKey c 0 ≤ p.1 ∧ p.1 < ownKey c 504) && (o == code || o == (code ||| 0x80))) }

/-- Every tile of T504 to T511 returns to the handler warp. -/
def State.freeHandlerTiles (s : State) (c : Nat) : State :=
  { s with owners := s.owners.cut (ownKey c 504) (ownKey c 512) }

/-- An unexited warp whose last thread has exited: its tiles become FREE and its flags clear (R140, R291, R364). Its outstanding register
writes still land, in the tiles of its window (R383). -/
def State.warpExit (s : State) (c w : Nat) : State :=
  if (s.warp c w).live && (s.aliveLanes c w).isEmpty then
    let landing (r : Req) : Bool := r.core == c && r.warp == w && !r.orphan && r.window.isNone
    let s1 : State := { s with reqs := replaceIf landing (fun r => { r with window := some (s.warp c w).tbase }) s.reqs }
    (s1.modWarp c w fun k => { k with live := false, step := false, frz := false, catches := false, halted := false, urgent := false }).freeTiles c
      (ownerCode w)
  else s

/-- The bins of a team (R275). -/
def Core.binsOf (k : Core) (slot : Nat) : List (Nat × Bin) := k.bins.filter fun p => p.2.team == slot

/-- The sequencer of a team has halted, and a fault of it has been handled; its K transfers have landed (R157). -/
def Seq.done (q : Seq) : Bool := q.halt && q.record.isNone && q.kq.isEmpty

/-- Whether a team has ended (R291): warps exited, bins empty, sequencer halted. -/
def State.teamDone (s : State) (c slot : Nat) (t : Team) : Bool :=
  !t.ended && (t.warps.all fun w => !(s.warp c w).live) && ((s.core c).binsOf slot).isEmpty
    && (!t.seq || (s.core c).seq.done)

/-- The teams of a cluster, wherever on the package: core and slot (R260). -/
def State.clusterTeams (s : State) (launch csize index : Nat) : List (Nat × Nat × Team) :=
  s.cores.flatMap fun k => k.2.teams.filterMap fun p =>
    if p.2.launch == launch && p.2.index / csize == index / csize then some (k.1, p.1, p.2) else none

def State.dropTeam (s : State) (c slot : Nat) : State :=
  s.modCore c fun k => { k with teams := k.teams.erase slot }

/-- The launch and %team of a warp's requests. -/
def State.teamIds (s : State) (c w : Nat) : Nat × Nat :=
  match s.teamOf c w with
  | some t => (t.launch, t.index)
  | none => (noLaunch, 0)

/-- The bytes that a team holds in a retryable interval, by address, those of later stores first (R354). -/
def Held.cells (h : Held) : List Host.Cell := h.data.zipIdx.map fun p => (h.pa + p.2, p.1)
def heldCells (hs : List Held) (t : Target) (pa n : Nat) : List Host.Cell :=
  ((hs.filter fun h => h.attr.tgt == t).reverse.flatMap Held.cells).filter fun x => decide (pa ≤ x.1 ∧ x.1 < pa + n)
def Recov.cells (r : Recov) (t : Target) (pa n : Nat) : List Host.Cell := heldCells r.held t pa n

/-- The same of a warp's team. -/
def State.heldNow (s : State) (c w : Nat) (t : Target) (pa n : Nat) : List Host.Cell :=
  match s.teamOf c w with
  | some { recov := some r, .. } => r.cells t pa n
  | _ => []

/-- Bytes read from an address on, with others laid over them. -/
def layCells (xs : List Host.Cell) (pa : Nat) (bs : List Byte) : List Byte :=
  bs.zipIdx.map fun p => ((xs.find? fun x => x.1 == pa + p.2).map (·.2)).getD p.1

/-- The held bytes that stand before a load (R229, R354). -/
def State.laidFor (s : State) (c w : Nat) (a : Attr) (pa : Nat) (act : ReqAct) : List Host.Cell :=
  match act with
  | .load ty _ _ => s.heldNow c w a.tgt pa ty.bytes
  | _ => []

/-- Who sends a request: a context tag, and a team of a launch. -/
structure Sender where
  ctx : Nat
  inc : Byte
  launch : Nat
  team : Nat
deriving DecidableEq, Repr

def State.sender (s : State) (c w : Nat) : Sender :=
  { ctx := (s.tagOf c w).1, inc := (s.tagOf c w).2, launch := (s.teamIds c w).1, team := (s.teamIds c w).2 }

/-- A request leaves, with its number (R309). -/
def State.sendAs (s : State) (x : Sender) (c w l : Nat) (a : Attr) (va pa : Nat) (act : ReqAct) (acq : Bool) : Nat × State :=
  let (id, s1) := s.fresh
  (id,
    { s1 with
      reqs := s1.reqs ++
        [{ id, core := c, warp := w, lane := l, launch := x.launch, team := x.team, ctx := x.ctx, inc := x.inc, attr := a, va, pa, act, stage := .sent,
           passed := 0, acq, noInstall := false, noL2 := false, orphan := false, seen := false, freed := false, window := none, sentAt := s.time,
           from_ := w, laid := s.laidFor c w a pa act, turn := none }] })
def State.send (s : State) (c w l : Nat) (a : Attr) (va pa : Nat) (act : ReqAct) (acq : Bool) : Nat × State :=
  s.sendAs (s.sender c w) c w l a va pa act acq

/-- What a store does to a line of its core's L1 under a lease: a copy of the line, at whatever address it is, takes the bytes; one whose page
is under another key leaves (R189, R226, R228, R319). -/
def State.patchLine (s : State) (k pa : Nat) (data : List Byte) (x : L1Line) : Option L1Line :=
  if x.attr.leased && x.pa == pa / 128 * 128 then
    if s.pageKey x.ctx x.attr / 2 = k / 2 then some { x with data := patch x.data (pa % 128) data } else none
  else some x

/-- A store on its way: into the L1 line of a SOFT page (R191); to the home or target of any other page, with the core's own copies updated
(R189, R228). A fill already granted installs no older copy over them. -/
def State.sendStoreAs (s : State) (y : Sender) (c w l : Nat) (a : Attr) (va pa : Nat) (data : List Byte) : State :=
  if a.soft then s.softWrite c y.ctx y.inc a va pa data y.launch
  else
    let granted (r : Req) : Bool :=
      r.core == c && r.attr.leased && r.pa / 128 == pa / 128
        && (match r.act, r.stage with
          | .load .., .granted .. => true
          | _, _ => false)
    let s1 : State :=
      if a.leased then
        let k := s.pageKey y.ctx a
        { s.modCore c fun z => { z with l1 := z.l1.filterMap (s.patchLine k pa data) } with
          reqs := replaceIf granted (fun r => { r with noInstall := true }) s.reqs }
      else s
    (s1.sendAs y c w l a va pa (.store data) false).2
def State.sendStore (s : State) (c w l : Nat) (a : Attr) (va pa : Nat) (data : List Byte) : State :=
  s.sendStoreAs (s.sender c w) c w l a va pa data

/-- Performs one held store as an ordinary one, in its thread's turn (R354). What the team's release stands for reaches other cores only after it
(R235). -/
def State.performHeld (s : State) (y : Sender) (c : Nat) (h : Held) : State :=
  let s1 := s.sendStoreAs y c h.warp h.lane h.attr h.va h.pa h.data
  { s1 with
    reqs := replaceIf (fun r => r.id == s.nextId) (fun r => { r with seen := true, freed := true, turn := some h.born }) s1.reqs }

/-- The sender of a team's requests. -/
def State.teamSender (s : State) (launch index : Nat) : Sender :=
  match s.launch launch with
  | some l => { ctx := l.ctx, inc := l.inc, launch, team := index }
  | none => { ctx := 0, inc := 0, launch, team := index }

/-- Releases the held stores of a team in order (R354, R355). -/
def State.releaseHeld (s : State) (c slot : Nat) : State :=
  match s.team c slot with
  | some { recov := some r, launch, index, .. } =>
    (r.held.foldl (fun s h => s.performHeld (s.teamSender launch index) c h) s).modTeam c slot fun t => { t with recov := some { r with held := [] } }
  | _ => s

/-- Once every team of a cluster has ended, none of them keeps its window (R177, R260). -/
def State.settleCluster (s : State) (launch index : Nat) : State :=
  let csize := match s.launch launch with
    | some l => l.csize
    | none => 1
  let mates := s.clusterTeams launch csize index
  if mates.all (fun m => m.2.2.ended) && (s.images.all fun i => !(i.launch == launch && i.index / csize == index / csize)) then
    mates.foldl (fun s m => s.dropTeam m.1 m.2.1) s
  else s

/-- The sequencer that a team leaves: its registers keep their values until a program starts again (R124, R157). An ACC or DRAIN of the bundle
that held SHALT has no bundle at which it could land: it stays pending until then (DESIGN CHOICE, assumption 71). -/
def Seq.leave (q : Seq) : Seq :=
  { q with active := false, leaving := false, atRetire := false, stalled := none, stop := none, frozen := false, pageWait := none }

/-- Ends a team whose conditions hold: stores that a RECOV team still holds are performed, its sequencer's tiles become FREE,
its sequencer is free, and its window stays until the teams of its cluster have ended (R140, R177, R260, R291). -/
def State.teamEnd (s : State) (c slot : Nat) : State :=
  match s.team c slot with
  | none => s
  | some t =>
    if !s.teamDone c slot t then s
    else
      let s := s.releaseHeld c slot
      let s1 := if t.seq then (s.freeTiles c 0x40).modSeq c Seq.leave else s
      let s2 := (s1.modLaunch t.launch fun l => { l with endedTeams := l.endedTeams ++ [t.index] }).modTeam c slot fun t => { t with ended := true }
      let s3 : State := { s2 with ckpts := s2.ckpts.filter fun i => !(i.launch == t.launch && i.index == t.index) }
      s3.settleCluster t.launch t.index

/-- Ends threads: their bits leave every J register of the warp, and copy status words and decide-once quads still outstanding are
discarded (R279, R291). -/
def State.exitLanes (s : State) (c w : Nat) (ls : List Nat) : State :=
  let s1 := ls.foldl (fun s l => s.modThread c w l fun t => { t with st := .exited, record := none }) s
  let keep := ~~~(maskOf ls)
  let s2 := s1.modWarp c w fun k =>
    { k with jregs := (k.jregs.map fun p => (p.1, p.2 &&& keep)).filter fun p => Store.get (α := Word) 0 k.jregs p.1 &&& keep != 0 }
  let mine (cc ww ll : Nat) : Bool := cc == c && ww == w && ls.contains ll
  let s3 : State :=
    { s2 with
      reqs := replaceIf (fun r => mine r.core r.warp r.lane && (match r.act with | .cell .. => true | _ => false))
        (fun r => { r with orphan := true }) s2.reqs
      copies := replaceIf (fun k => mine k.core k.warp k.lane) (fun k => { k with orphan := true }) s2.copies }
  (s3.warpExit c w).teamEnd c (s3.warpTeam c w)

-- The handler warp -------------------------------------------------------------------------------------------------

/-- The handler warp without its lanes and its event. -/
def State.handlerClear (s : State) (c : Nat) : State :=
  let s1 := (List.range 32).foldl (fun s l => s.setThread c 64 l Thread.absent) s
  (s1.setWarp c 64 Warp.idle).modCore c fun k => { k with handler := Handler.idle }

/-- Ends the handler's duty: the next event may be dispatched (R332, R350). Results still outstanding for its lanes are discarded; the
accesses of a lane stand in the program order of the thread that it served (R343). -/
def State.handlerFree (s : State) (c : Nat) : State :=
  let ids := s.teamIds c 64
  let w := match s.served c with
    | some e => if e.seq then 64 else e.warp
    | none => 64
  let mine (r : Req) : Bool := r.core == c && r.warp == 64 && (r.launch, r.team) == ids
  let s0 : State := { s with reqs := replaceIf mine (fun r => { r with orphan := true, warp := w }) s.reqs }
  s0.handlerClear c

-- Saved images (R344, R353) ----------------------------------------------------------------------------------------

def Image.empty : Image :=
  { regs := [], sregs := [], owners := [], scratch := [], scrPsn := [], opmem := [], opPsn := [], priv := [], privPsn := [],
    sems := [], threads := [], warps := [] }

/-- Applies a range operation to the stores that hold a warp, but for its tiles. -/
def Image.warpPart (i : Image) (f : {α : Type} → Nat → Nat → Store α → Store α) (c w : Nat) : Image :=
  { i with
    sregs := f (sregKey c w 0) (sregKey c (w + 1) 0) i.sregs
    priv := f (privKey c w 0 0) (privKey c (w + 1) 0 0) i.priv
    privPsn := f (privSector c w 0 0) (privSector c (w + 1) 0 0) i.privPsn
    threads := f (thrKey c w 0) (thrKey c (w + 1) 0) i.threads
    warps := f (warpKey c w) (warpKey c (w + 1)) i.warps }

/-- The contents and owners of some tiles of a core (keep), or all but those. -/
def Image.tilePart (i : Image) (keep : Bool) (c : Nat) (tiles : List Nat) : Image :=
  { i with
    regs := i.regs.filter fun p => (p.1 / 131072 == c && tiles.contains (p.1 / 256 % 512)) == keep
    owners := i.owners.filter fun p => (p.1 / 512 == c && tiles.contains (p.1 % 512)) == keep }

/-- Applies a range operation to the stores that hold a team's scratchpad window. -/
def Image.windowPart (i : Image) (f : {α : Type} → Nat → Nat → Store α → Store α) (c : Nat) (t : Team) : Image :=
  { i with
    scratch := f (scrKey c t.scr) (scrKey c (t.scr + t.scrLen)) i.scratch
    scrPsn := f (scrSector c t.scr) (scrSector c t.scr + (t.scrLen + 31) / 32) i.scrPsn }

/-- Applies a range operation to the stores that hold what a team shares. -/
def Image.teamPart (i : Image) (f : {α : Type} → Nat → Nat → Store α → Store α) (c : Nat) (t : Team) : Image :=
  { i.windowPart f c t with
    sems := f (semKey c t.sem 0) (semKey c t.sem 64) i.sems
    opmem := if t.seq then f (opKey c 0) (opKey (c + 1) 0) i.opmem else i.opmem
    opPsn := if t.seq then f (opRow c 0) (opRow (c + 1) 0) i.opPsn else i.opPsn }

/-- Applies a range operation to all of a core's stores (R22). -/
def Image.corePart (i : Image) (f : {α : Type} → Nat → Nat → Store α → Store α) (c : Nat) : Image :=
  { regs := f (regKey c 0 0) (regKey (c + 1) 0 0) i.regs
    sregs := f (sregKey c 0 0) (sregKey (c + 1) 0 0) i.sregs
    owners := f (ownKey c 0) (ownKey (c + 1) 0) i.owners
    scratch := f (scrKey c 0) (scrKey (c + 1) 0) i.scratch
    scrPsn := f (scrSector c 0) (scrSector (c + 1) 0) i.scrPsn
    opmem := f (opKey c 0) (opKey (c + 1) 0) i.opmem
    opPsn := f (opRow c 0) (opRow (c + 1) 0) i.opPsn
    priv := f (privKey c 0 0 0) (privKey (c + 1) 0 0 0) i.priv
    privPsn := f (privSector c 0 0 0) (privSector (c + 1) 0 0 0) i.privPsn
    sems := f (semKey c 0 0) (semKey (c + 1) 0 0) i.sems
    threads := f (thrKey c 0 0) (thrKey (c + 1) 0 0) i.threads
    warps := f (warpKey c 0) (warpKey (c + 1) 0) i.warps }

/-- The stores of the state as an image, and the state with an image's stores. -/
def State.stores (s : State) : Image :=
  { regs := s.regs, sregs := s.sregs, owners := s.owners, scratch := s.scratch, scrPsn := s.scrPsn, opmem := s.opmem,
    opPsn := s.opPsn, priv := s.priv, privPsn := s.privPsn, sems := s.sems, threads := s.threads, warps := s.warps }
def State.withStores (s : State) (i : Image) : State :=
  { s with regs := i.regs, sregs := i.sregs, owners := i.owners, scratch := i.scratch, scrPsn := i.scrPsn,
           opmem := i.opmem, opPsn := i.opPsn, priv := i.priv, privPsn := i.privPsn, sems := i.sems, threads := i.threads, warps := i.warps }

/-- One image laid over another. -/
def Image.lay (i j : Image) : Image :=
  { regs := i.regs.lay j.regs, sregs := i.sregs.lay j.sregs, owners := i.owners.lay j.owners,
    scratch := Store.lay i.scratch j.scratch, scrPsn := Store.lay i.scrPsn j.scrPsn,
    opmem := Store.lay i.opmem j.opmem, opPsn := Store.lay i.opPsn j.opPsn, priv := Store.lay i.priv j.priv, privPsn := Store.lay i.privPsn j.privPsn,
    sems := i.sems.lay j.sems, threads := i.threads.lay j.threads, warps := i.warps.lay j.warps }

/-- The warps of a team, with the handler warp where that is saved with it. -/
def Team.allWarps (t : Team) (handler : Bool) : List Nat := if handler then t.warps ++ [64] else t.warps

/-- The tiles that a team's warps, its sequencer, and the handler that serves it, own or have been given (R140, R344). -/
def State.teamTiles (s : State) (c : Nat) (t : Team) (handler : Bool) : List Nat :=
  let codes := (t.allWarps handler).map ownerCode ++ if t.seq then [0x40] else []
  (List.range 512).filter fun k => codes.any fun o => s.owner c k == o || s.owner c k == (o ||| 0x80)

/-- The tiles of the windows of a team's warps. -/
def State.windowTiles (s : State) (c : Nat) (t : Team) : List Nat :=
  t.warps.flatMap fun w => (List.range (s.warp c w).ntile).map ((s.warp c w).tbase + ·)

/-- The part of the stores that belongs to a team, with some tiles, and the stores without it. -/
def State.teamImageStores (s : State) (c : Nat) (t : Team) (handler : Bool) (tiles : List Nat) : Image :=
  let all := s.stores
  let shared := all.teamPart (fun lo hi m => m.slice lo hi) c t
  let tp := all.tilePart true c tiles
  let base : Image := { Image.empty with regs := tp.regs, owners := tp.owners, scratch := shared.scratch, scrPsn := shared.scrPsn, sems := shared.sems }
  let base := if t.seq then { base with opmem := shared.opmem, opPsn := shared.opPsn } else base
  (t.allWarps handler).foldl (fun acc w =>
      let p := all.warpPart (fun lo hi m => m.slice lo hi) c w
      acc.lay { Image.empty with sregs := p.sregs, priv := p.priv, privPsn := p.privPsn, threads := p.threads, warps := p.warps })
    base
def State.withoutTeam (s : State) (c : Nat) (t : Team) (handler : Bool) (tiles : List Nat) : State :=
  let i := (s.stores.teamPart (fun lo hi m => m.cut lo hi) c t).tilePart false c tiles
  s.withStores ((t.allWarps handler).foldl (fun acc w => acc.warpPart (fun lo hi m => m.cut lo hi) c w) i)

/-- Whether the handler of a core serves an event of a team. -/
def State.handlerServes (s : State) (c slot : Nat) : Bool :=
  match s.served c with
  | some e => e.team == slot
  | none => false

/-- The image of a team as it stands, with some more tiles (R344). A team that has ended has only its window (R260). -/
def State.teamImage (s : State) (c slot : Nat) (t : Team) (more : List Nat) : TeamImage :=
  let k := s.core c
  let h := s.handlerServes c slot
  if t.ended then
    let p := s.stores.windowPart (fun lo hi m => m.slice lo hi) c t
    { since := s.nextId, launch := t.launch, index := t.index, core := c, slot, tiles := [],
      img := { Image.empty with scratch := p.scratch, scrPsn := p.scrPsn },
      team := t, bins := [], events := [], held := [], handler := none, seq := none }
  else
  let tiles := (s.teamTiles c t h ++ more).eraseDups
  { since := s.nextId, launch := t.launch, index := t.index, core := c, slot := slot, tiles, img := s.teamImageStores c t h tiles, team := t,
    bins := k.binsOf slot, events := k.trapq.filter fun e => e.team == slot,
    held := k.held.filter fun e => e.team == slot,
    handler := if h then some k.handler else none, seq := if t.seq then some k.seq else none }

/-- The sequencer after its team has been taken off the core: FCAUSE and ISAT stay (assumption 38). -/
def Seq.vacant (q : Seq) : Seq := { Seq.reset with fcause := q.fcause, isat := q.isat }

/-- Takes a team's state off its core, but for its scratchpad window: registers, tiles, private parts, semaphores, bins, events, handler
lanes and sequencer (R312 step 3, R344). -/
def State.stripTeam (s : State) (c slot : Nat) (t : Team) : State :=
  let h := s.handlerServes c slot
  let s2 := s.withoutTeam c { t with scrLen := 0 } h (s.teamTiles c t h)
  let s3 := if t.seq then s2.modSeq c Seq.vacant else s2
  let s4 := if h then (s3.handlerClear c).freeHandlerTiles c else s3
  s4.modCore c fun k =>
    { k with
      bins := k.bins.filter fun p => p.2.team != slot
      trapq := k.trapq.filter fun e => e.team != slot
      held := k.held.filter fun e => e.team != slot }

/-- Takes a team off its core. Of a team that has ended only its window is there to free (R177). -/
def State.removeTeam (s : State) (c slot : Nat) : State :=
  match s.team c slot with
  | none => s
  | some t => (if t.ended then s else s.stripTeam c slot t).dropTeam c slot

/-- The stores without what a team's image will hold. -/
def Image.roomFor (i : Image) (t : TeamImage) : Image :=
  let cut {α : Type} (lo hi : Nat) (m : Store α) : Store α := m.cut lo hi
  if t.team.ended then i.windowPart cut t.core t.team
  else
    (t.team.allWarps t.handler.isSome).foldl (fun acc w => acc.warpPart cut t.core w)
      ((i.teamPart cut t.core t.team).tilePart false t.core t.tiles)

/-- The spawn bins of a core (R275), and the first that holds nothing. -/
def coreBins : Nat := 16
def Core.freeBin (k : Core) : Nat := ((List.range (k.bins.length + 1)).find? fun i => (k.bins.find i).isNone).getD coreBins

/-- Puts an image back where it came from. Its threads' bins take the first empty ones. -/
def State.installTeam (s : State) (i : TeamImage) : State :=
  (s.withStores ((s.stores.roomFor i).lay i.img)).modCore i.core fun k =>
    i.bins.foldl (fun k b => { k with bins := k.bins.put k.freeBin b.2 })
      { k with
        teams := k.teams.put i.slot i.team
        trapq := k.trapq ++ i.events
        held := k.held ++ i.held
        handler := i.handler.getD k.handler
        seq := match i.seq with
          | some q => { q with leaving := false, atRetire := false }
          | none => k.seq }

/-- A copy with an end in a scratchpad. -/
def Copy.inScratch (k : Copy) : Bool :=
  let sp (e : CopyEnd) : Bool := match e with
    | .sp .. => true
    | _ => false
  match k.job with
  | .span d r _ => sp d || sp r
  | .tensor _ d _ => sp d

/-- A page request that nobody waits for any more stays until its response (R311). -/
def PageReq.alone (r : PageReq) : PageReq := { r with who := .threads 0 0 [] }

/-- Whether the threads or the sequencer of a launch's team wait for a page request. -/
def State.pageOf (s : State) (launch team : Nat) (r : PageReq) : Bool :=
  r.launch == launch && (match r.who with
    | .threads c w _ => s.isResident c w launch team
    | .seq c => ((s.team c (s.core c).seq.team).map (·.index)) == some team
    | _ => false)

/-- Discards the requests' and copies' results of a team. Its copies to or from scratchpad end with it. -/
def State.orphanTeam (s : State) (launch team : Nat) : State :=
  { s with
    reqs := replaceIf (fun r => r.launch == launch && r.team == team) (fun r => { r with orphan := true }) s.reqs
    copies := (replaceIf (fun r => r.launch == launch && r.team == team) (fun r => { r with orphan := true }) s.copies).filter
      fun r => !(r.launch == launch && r.team == team && r.inScratch)
    pageReqs := replaceIf (s.pageOf launch team) PageReq.alone s.pageReqs }

/-- What stays with a core when the swap port exchanges its state: what R22 does not list. -/
def Core.stays (k old : Core) : Core :=
  { k with binTimer := old.binTimer, quads := old.quads, cycles := old.cycles, cls := old.cls, lastCharge := old.lastCharge, prof := old.prof }

/-- The swap port exchanges a core's state with its shadow slot (R13, R22, R331). -/
def State.exchangeCore (s : State) (c : Nat) : State :=
  let out : CoreImage := { img := s.stores.corePart (fun lo hi m => m.slice lo hi) c, core := (s.core c).stays Core.reset }
  let inn := (s.shadow.find c).getD { img := Image.empty, core := Core.reset }
  let s1 := s.withStores ((s.stores.corePart (fun lo hi m => m.cut lo hi) c).lay inn.img)
  { s1.setCore c (inn.core.stays (s.core c)) with shadow := s.shadow.put c out }

/-- Discards the teams of a launch on the cores listed. -/
def State.discardHere (s : State) (launch : Nat) : State :=
  let here := s.cores.flatMap fun k => k.2.teams.filterMap fun p => if p.2.launch == launch then some (k.1, p.1) else none
  here.foldl (fun s m => s.removeTeam m.1 m.2) s

/-- The same in the shadow slot of a core. -/
def State.discardShadow (s : State) (launch c : Nat) : State :=
  let s1 := s.exchangeCore c
  let mine := (s1.core c).teams.filterMap fun p => if p.2.launch == launch then some p.1 else none
  (mine.foldl (fun s m => s.removeTeam c m) s1).exchangeCore c

/-- Discards the teams of a launch everywhere (R312 step 3, R335). -/
def State.discardTeams (s : State) (launch : Nat) : State :=
  let s1 := (s.shadow.map (·.1)).foldl (fun s c => s.discardShadow launch c) (s.discardHere launch)
  { s1 with
    images := s1.images.filter fun i => i.launch != launch
    ckpts := s1.ckpts.filter fun i => i.launch != launch
    reqs := replaceIf (fun r => r.launch == launch) (fun r => { r with orphan := true }) s1.reqs
    copies := (replaceIf (fun r => r.launch == launch && r.queue.isNone) (fun r => { r with orphan := true }) s1.copies).filter
      fun r => !(r.launch == launch && r.queue.isNone && r.inScratch)
    pageReqs := replaceIf (fun r => r.launch == launch) PageReq.alone s1.pageReqs }

/-- A launch that a fault ends: its teams stop and are discarded; its record follows as LAUNCH_COMPLETE (R335, R350). -/
def State.faultLaunch (s : State) (launch detail : Nat) : State :=
  match s.launch launch with
  | some l => if l.fate.isSome then s else (s.setLaunch launch { l with fate := some (statusFaulted, detail) }).discardTeams launch
  | none => s

/-- A context machine check (R335): every live launch of the context ends FAULTED with DETAIL 0xFF. -/
def State.machineCheck (s : State) (ctx : Nat) (inc : Byte) : State :=
  (s.launches.filter fun p => p.2.ctx == ctx && p.2.inc == inc).foldl (fun s p => s.faultLaunch p.1 0xFF) s

-- RECOV (R352-R357) ------------------------------------------------------------------------------------------------

/-- Takes or replaces the checkpoint of a team (R353). -/
def State.checkpoint (s : State) (c slot : Nat) : State :=
  match s.team c slot with
  | some t =>
    { s with ckpts := s.teamImage c slot t (s.windowTiles c t) :: s.ckpts.filter fun i => !(i.launch == t.launch && i.index == t.index) }
  | none => s

/-- Ends the retryability of a team's interval (R355). -/
def State.endRetry (s : State) (c slot : Nat) : State :=
  match s.team c slot with
  | some { recov := some r, .. } =>
    if r.retry then
      (s.releaseHeld c slot).modTeam c slot fun t => { t with recov := some { r with retry := false, held := [] } }
    else s
  | _ => s

/-- A failure of a team of a launch is counted and listed, and its checkpoint goes (R357). -/
def State.noteFailure (s : State) (launch index why : Nat) : State :=
  let s1 := s.modLaunch launch fun l =>
    { l with failed := l.failed + 1, failures := l.failures ++ [{ team := index, why, time := s.time }] }
  { s1 with ckpts := s1.ckpts.filter fun i => !(i.launch == launch && i.index == index) }

/-- A failed team (R357): it counts as ended, and its window stays while its cluster lives (R177). -/
def State.failTeam (s : State) (c slot why : Nat) : State :=
  match s.team c slot with
  | some t =>
    ((((s.noteFailure t.launch t.index why).orphanTeam t.launch t.index).stripTeam c slot t).modTeam c slot fun t =>
      { t with ended := true, recov := none }).settleCluster t.launch t.index
  | none => s

/-- The image of a team that has failed while it was off its core: its window alone is left. -/
def TeamImage.failed (i : TeamImage) : TeamImage :=
  { i with img := { Image.empty with scratch := i.img.scratch, scrPsn := i.img.scrPsn }, tiles := [],
           team := { i.team with ended := true, recov := none },
           bins := [], events := [], held := [], handler := none, seq := none }
def State.failAway (s : State) (launch index why : Nat) : State :=
  let s1 := (s.noteFailure launch index why).orphanTeam launch index
  ({ s1 with images := replaceIf (fun i => i.launch == launch && i.index == index) TeamImage.failed s1.images }).settleCluster launch index

/-- A team on its way back to its checkpoint, or one whose held bytes are being performed at a commit, does nothing (R354, R356). -/
def Team.stopped (t : Team) : Bool :=
  match t.recov with
  | some r => r.rolling || r.commit.isSome
  | none => false
def Team.committing (t : Team) : Bool :=
  match t.recov with
  | some r => r.commit.isSome
  | none => false
def State.teamStopped (s : State) (c slot : Nat) : Bool :=
  match s.team c slot with
  | some t => t.stopped
  | none => false

/-- The slot of a team on a core. -/
def State.slotFor (s : State) (c launch index : Nat) : Option Nat :=
  ((s.core c).teams.find? fun p => p.2.launch == launch && p.2.index == index).map (·.1)

/-- The flags of a warp that only DEBUG, HALT and its exit change (R362, R364). -/
def Warp.keepFlags (k old : Warp) : Warp := { k with step := old.step, frz := old.frz, catches := old.catches, halted := old.halted }

/-- A team that goes back to its checkpoint has arrived at no barrier of its groups since (R223, R356). -/
def Launch.unarrive (l : Launch) (index : Nat) : Launch :=
  { l with gbars := l.gbars.map fun p => (p.1, { p.2 with arrived := p.2.arrived.filter (· != index) }) }

/-- Restores the checkpoint of a team that rolls back, once its copies have ended (R356). Results asked for since are discarded; the debug flags of
its warps stand (R364). -/
def State.settleRollback (s : State) (c slot : Nat) : State :=
  match s.team c slot with
  | some { recov := some r, launch, index, warps, .. } =>
    if !r.rolling || s.copies.any (fun k => k.launch == launch && k.team == index && k.queue.isNone) then s
    else match s.ckpts.find? fun i => i.launch == launch && i.index == index with
      | some i =>
        let late (q : Req) : Bool := q.launch == launch && q.team == index && decide (i.since ≤ q.id)
        let s1 : State :=
          { s with
            reqs := replaceIf late (fun q => { q with orphan := true }) s.reqs
            pageReqs := replaceIf (s.pageOf launch index) PageReq.alone s.pageReqs }
        let s2 := (s1.removeTeam c slot).installTeam i
        (warps.foldl (fun (s2 : State) w => s2.modWarp c w fun k => k.keepFlags (s.warp c w)) s2).modTeam c slot fun t =>
          { t with recov := some { retry := true, rolls := r.rolls, held := [], commit := none, rolling := false } }
      | none => s.failTeam c slot 1
  | _ => s

/-- The status words of a team's copies are discarded. -/
def State.orphanCopies (s : State) (launch index : Nat) : State :=
  { s with copies := replaceIf (fun k => k.launch == launch && k.team == index) (fun k => { k with orphan := true }) s.copies }

/-- What an uncorrectable error makes of a team: WHY of its failure, or none where it goes back to its checkpoint (R356, R357). -/
def Recov.verdict (r : Recov) : Option Nat :=
  if r.commit.isSome then some 3 else if !r.retry then some 1 else if r.rolls + 1 ≥ 3 then some 2 else none
def Recov.roll (r : Recov) : Recov := { r with rolls := r.rolls + 1, held := [], rolling := true }

/-- A team that consumes an uncorrectable error (R356), or a repeated DMR mismatch (R359): it stops, the status words of its copies are
discarded, and its checkpoint follows; while it commits, the error fails it with WHY 3 (Table 17.2). -/
def State.rollback (s : State) (c slot : Nat) : State :=
  match s.team c slot with
  | some { recov := some r, launch, index, .. } =>
    if r.rolling then s
    else match r.verdict with
      | some why => s.failTeam c slot why
      | none =>
        (((s.orphanCopies launch index).modLaunch launch fun l => l.unarrive index).modTeam c slot fun t =>
          { t with recov := some r.roll }).settleRollback c slot
  | _ => s

/-- The same for a team that is off its core: it goes back to its checkpoint once it is there again. -/
def State.rollbackAway (s : State) (launch index : Nat) : State :=
  match s.images.find? fun i => i.launch == launch && i.index == index with
  | some i =>
    match i.team.recov with
    | none => s
    | some r =>
      if r.rolling then s
      else match r.verdict with
        | some why => s.failAway launch index why
        | none =>
          let s1 := (s.orphanCopies launch index).modLaunch launch fun l => l.unarrive index
          { s1 with
            images := replaceIf (fun i => i.launch == launch && i.index == index) (fun i => { i with team := { i.team with recov := some r.roll } })
              s1.images }
  | none => s

/-- Whether the thread of a destination is of a RECOV team, on its core or in the save area; and that team consumes an uncorrectable error. -/
def State.recovers (s : State) (d : Dest) : Bool :=
  d.window.isNone
    && if s.isResident d.core d.warp d.launch d.team then ((s.teamOf d.core d.warp).map fun t => t.recov.isSome).getD false
      else s.images.any fun i => i.launch == d.launch && i.index == d.team && i.team.recov.isSome
def State.rollbackAt (s : State) (d : Dest) : State :=
  if s.isResident d.core d.warp d.launch d.team then s.rollback d.core (s.warpTeam d.core d.warp) else s.rollbackAway d.launch d.team

/-- A copy has ended: a team that waited for it to roll back may go on. -/
def State.settleCopy (s : State) (k : Copy) : State :=
  match s.slotFor k.core k.launch k.team with
  | some slot => s.settleRollback k.core slot
  | none => s

/-- Whether a warp's team is in a RECOV launch, and whether its interval is retryable. -/
def State.recovering (s : State) (c w : Nat) : Bool :=
  match s.teamOf c w with
  | some t => t.recov.isSome
  | none => false
def State.retryable (s : State) (c w : Nat) : Bool :=
  match s.teamOf c w with
  | some { recov := some r, .. } => r.retry
  | _ => false

-- Taking a trap (R332, R337, R338) ---------------------------------------------------------------------------------

/-- What a trapping thread contributes to its record. -/
structure Trap where
  cause : Byte
  info : Nat
  addr : DWord
  aux : Word
  defd : Bool
deriving DecidableEq, Repr

def Trap.plain (cause : Byte) : Trap := { cause, info := 0, addr := 0, aux := 0, defd := false }
def Trap.at_ (cause : Byte) (addr : Nat) (aux : Word) : Trap :=
  { cause, info := 0, addr := BitVec.ofNat 64 addr, aux, defd := false }

/-- AUX of a thread: access size, write, atomic (Table 16.1). -/
def auxOf (size : Nat) (write atomic : Bool) : Word :=
  BitVec.ofNat 32 (size + write.toNat * 256 + atomic.toNat * 512)

/-- The action a record holds when its event forms (Table 16.2): 0 RETRY, 1 SKIP, 3 FAULT. -/
def defaultAct (cause : Byte) : BitVec 2 :=
  if cause = 0x0C ∨ cause = 0x0E ∨ cause = 0x24 then 0
  else if cause = 0x0D ∨ decide (0x30 ≤ cause.toNat ∧ cause.toNat ≤ 0x3F) then 1
  else 3

def cIllegal : Byte := 0x01
def cTileOwn : Byte := 0x02
def cFormat : Byte := 0x03
def cPoison : Byte := 0x04
def cMisalign : Byte := 0x06
def cDataPage : Byte := 0x07
def cFetchPage : Byte := 0x08
def cProtection : Byte := 0x09
def cBarErr : Byte := 0x0A
def cDocMisuse : Byte := 0x0B
def cBreak : Byte := 0x0D
def cStep : Byte := 0x0E
def cWbFault : Byte := 0x0F
def cEcc : Byte := 0x10
def cDiverge : Byte := 0x11
def cDmr : Byte := 0x12

/-- The record of a thread that takes a trap (Table 16.1). -/
def State.trapRecord (s : State) (c w l : Nat) (t : Trap) : TrapRec :=
  let (ctx, inc) := s.tagOf c w
  { ctxt := ctxWord ctx inc, aux := t.aux, addr := t.addr, pc := (s.thread c w l).pc, ident := identWord s c w l,
    info := BitVec.ofNat 16 t.info, kind := false, defd := t.defd, act := defaultAct t.cause, cause := t.cause }

/-- Whether an event is of the issue under way: its lanes are among those that issue (R332). -/
def State.ofIssue (s : State) (c : Nat) (e : Event) : Bool :=
  match s.cur with
  | some k => k.core == c && k.warp == e.warp && !e.seq && e.lanes &&& ~~~k.mask == 0
  | none => false

/-- Adds an event to those of the same issue: one per cause, in ascending order of cause (R332). -/
def addEvent (e : Event) : List Event → List Event
  | [] => [e]
  | f :: fs =>
    if f.cause = e.cause then { f with lanes := f.lanes ||| e.lanes, defd := f.defd || e.defd, frz := f.frz || e.frz } :: fs
    else if e.cause.toNat < f.cause.toNat then e :: f :: fs
    else f :: addEvent e fs
def State.queueEvent (s : State) (c : Nat) (e : Event) (q : List Event) : List Event :=
  (q.filter fun f => !s.ofIssue c f) ++ addEvent e (if s.ofIssue c e then q.filter (s.ofIssue c) else [])

/-- An event joins the core's trap queue, or is held for the monitor (R332, R363). -/
def State.joinEvent (s : State) (c : Nat) (e : Event) : State :=
  let k := s.warp c e.warp
  if !e.seq && ((e.cause == cStep && k.step) || (e.cause == cBreak && k.catches)) then
    s.modCore c fun x => { x with held := s.queueEvent c e x.held }
  else s.modCore c fun x => { x with trapq := s.queueEvent c e x.trapq }

/-- Parks the threads that take one cause, and forms their event. -/
def State.trapEvent (s : State) (c w : Nat) (cause : Byte) (ts : List (Nat × Trap)) : State :=
  let s1 := ts.foldl (fun s p => s.modThread c w p.1 fun t => { t with st := .parked, record := some (s.trapRecord c w p.1 p.2) }) s
  let (ctx, inc) := s.tagOf c w
  s1.joinEvent c
    { warp := w, lanes := maskOf (ts.map (·.1)), seq := false, cause, defd := ts.any fun p => p.2.defd,
      team := s.warpTeam c w, ctx, inc, frz := cause == cStep && (s.warp c w).frz }

/-- The traps of one issue: one event per cause, in ascending order of cause (R332). A trap of the handler warp while it
serves an event is a context machine check (R335); in monitor mode it restarts the monitor (R351). -/
def State.takeTraps (s : State) (c w : Nat) (ts : List (Nat × Trap)) : State :=
  if ts.isEmpty then s
  else if w = 64 then
    match s.served c with
    | some e => (s.handlerFree c).machineCheck e.ctx e.inc
    | none => s.handlerFree c
  else
    (List.range 64).foldl (fun s cause =>
      let mine := ts.filter fun p => p.2.cause.toNat == cause
      if mine.isEmpty then s else s.trapEvent c w (BitVec.ofNat 8 cause) mine) s

/-- Freezes the rest of a team when a STEP event forms under FRZ, and runs it again (R364). -/
def State.setFrozen (s : State) (c slot : Nat) (v : Bool) : State :=
  (s.modTeam c slot fun t => { t with frozen := v }).modSeq c fun q => if q.active && q.team = slot then { q with frozen := v } else q

/-- A team frozen by a STEP event runs again once the event ends, unless another such event is still held, of the same warp or another (R364). -/
def State.thaw (s : State) (c : Nat) (e : Event) : State :=
  if e.cause == cStep && !((s.core c).held.any fun f => f.frz && f.team == e.team) then
    s.setFrozen c e.team false
  else s

/-- Threads complete an instruction and stand at new program counters: each retires it (R367) and is ready again. -/
def State.retire (s : State) (c w : Nat) (ls : List (Nat × DWord)) : State :=
  let s1 := ls.foldl (fun s p =>
    s.modThread c w p.1 fun t => { t with st := .ready, pc := p.2, since := s.time, again := [] }) s
  s1.modWarp c w fun k => { k with retired := k.retired + BitVec.ofNat 64 ls.length }

/-- Threads that have completed an instruction take STEP where their warp steps (R364). -/
def State.stepped (s : State) (c w : Nat) (ls : List Nat) : State :=
  let k := s.warp c w
  if k.step && w != 64 && !ls.isEmpty then
    let s1 := s.takeTraps c w (ls.map fun l => (l, Trap.plain cStep))
    if k.frz then s1.setFrozen c k.team true else s1
  else s

/-- Present threads retire an instruction, and take STEP where their warp steps (R364). -/
def State.complete (s : State) (c w : Nat) (ls : List (Nat × DWord)) : State := (s.retire c w ls).stepped c w (ls.map (·.1))

/-- Present threads go on at the next instruction; and threads that are not present do. -/
def State.advance (s : State) (c w : Nat) (ls : List Nat) : State :=
  s.complete c w (ls.map fun l => (l, (s.thread c w l).pc + 12))
def State.pass (s : State) (c w : Nat) (ls : List Nat) : State :=
  s.retire c w (ls.map fun l => (l, (s.thread c w l).pc + 12))

-- Returning from a trap (R350) -------------------------------------------------------------------------------------

def TrapRec.word (r : TrapRec) (ix : Nat) : Word :=
  match ix with
  | 0 => BitVec.ofNat 32 (r.cause.toNat + r.act.toNat * 256 + r.defd.toNat * 1024 + r.kind.toNat * 2048 + r.info.toNat * 65536)
  | 1 => r.ident
  | 2 => r.pc.setWidth 32
  | 3 => r.pc.extractLsb' 32 32
  | 4 => r.addr.setWidth 32
  | 5 => r.addr.extractLsb' 32 32
  | 6 => r.aux
  | _ => r.ctxt

/-- RTE on one thread of an event: RETRY and SKIP resume it, EXIT ends it, FAULT ends its launch (R350). -/
def State.resumeLane (s : State) (c w l : Nat) (r : TrapRec) (act : BitVec 2) : State :=
  let back (pc : DWord) : State :=
    s.modThread c w l fun t =>
      { t with st := .ready, pc, record := none, timeh := none, bch := none, since := s.time, again := [] }
  match act.toNat with
  | 0 => back r.pc
  | 1 => back (r.pc + 12)
  | 2 => s.exitLanes c w [l]
  | _ =>
    match s.teamOf c w with
    | some t => s.faultLaunch t.launch r.cause.toNat
    | none => s

-- Pending writes and gifts of tiles (R140, R141, R383) -------------------------------------------------------------

/-- The register that a request or copy writes, and how many from it on. -/
def Req.dst (r : Req) : Option (Opd × Nat) :=
  if r.orphan then none
  else match r.act with
    | .load ty d _ | .weight ty d _ _ | .rload _ _ ty d _ => some (d, ty.words)
    | .atom _ w64 _ d _ _ => some (d, if w64 then 2 else 1)
    | .cell _ d _ _ => some (d, 4)
    | .barrier _ _ _ _ d => d.map fun d => (d, 1)
    | _ => none
def Copy.dstReg (k : Copy) : Option (Opd × Nat) := if k.orphan then none else k.d.map fun d => (d, 1)

/-- Whether registers from d on lie in a tile of a window. -/
def inTile (tbase tile : Nat) (d : Option (Opd × Nat)) : Bool :=
  match d with
  | some (.v n, k) => (List.range k).any fun i => vTile tbase (n.toNat + i) == tile
  | _ => false

/-- The tiles that a pending ACC or DRAIN writes. -/
def Pend.tiles (p : Pend) : List Nat :=
  match p.dst with
  | .acc _ b _ => [b, b + 1, b + 2, b + 3]
  | .tiles b _ .d32 => [b, b + 1, b + 2, b + 3]
  | .tiles b _ .bf16 | .tiles b _ .f16 => [b, b + 1]
  | .tiles b _ _ => [b]
  | .slot .. => []
/-- The tiles that a K word moves rows to. -/
def KXfer.tiles (k : KXfer) : List Nat :=
  match k.move with
  | .storeTl tile _ => (List.range ((k.rows + 15) / 16)).map fun i => tile + i
  | _ => []

/-- Where the status word of a copy goes. -/
def Copy.dest (k : Copy) : Dest :=
  { core := k.core, warp := k.warp, lane := k.lane, launch := k.launch, team := k.team, ctx := k.ctx, id := k.id, window := none }

/-- Whether a result will land in a tile of a core: its partition is on the core, and the tile has not left with its own team (R140, R383). -/
def State.landsIn (s : State) (c tile : Nat) (d : Dest) (dst : Option (Opd × Nat)) : Bool :=
  d.core == c && !s.shadowed d.ctx && inTile (s.windowOf d) tile dst
    && !(d.window.isNone && s.images.any fun i => i.launch == d.launch && i.index == d.team && i.tiles.contains tile)

/-- Writes that will still land in a tile: of warps, of the array, of K words. -/
def State.tilePending (s : State) (c tile : Nat) : Bool :=
  (s.reqs.any fun r => s.landsIn c tile r.dest r.dst)
    || (s.copies.any fun k => s.landsIn c tile k.dest k.dstReg)
    || ((s.core c).seq.pend.any fun p => p.tiles.contains tile)
    || ((s.core c).seq.kq.any fun k => k.tiles.contains tile)

/-- Whether a warp's register results are still outstanding. -/
def State.resultsOut (s : State) (c w : Nat) : Bool :=
  (s.reqs.any fun r => r.core == c && r.warp == w && r.window.isNone && r.dst.isSome)
    || (s.copies.any fun k => k.core == c && k.warp == w && k.dstReg.isSome)

/-- Whether a recipient is live when a give is performed (R140): the warp's slot holds an unexited warp of the giver's
context; the giver's team holds the sequencer; the handler always. -/
def State.recipientLive (s : State) (c : Nat) (giver : Option Team) (ctx : Nat × Byte) (code : Byte) : Bool :=
  if code = 0x41 then true
  else if code = 0x40 then (giver.map (·.seq)).getD false
  else (s.warp c code.toNat).live && decide (s.tagOf c code.toNat = ctx)

/-- Gives tiles away: to a live recipient, else free at once. -/
def State.giveTiles (s : State) (c base n : Nat) (giver : Option Team) (ctx : Nat × Byte) (code : Byte) : State :=
  s.setOwners c base n (if s.recipientLive c giver ctx code then 0x80 ||| code else 0x7F)

-- Accesses under way (R212, R233, R258) -----------------------------------------------------------------------------

/-- Two half-open ranges overlap. -/
def meets (a n b m : Nat) : Bool := decide (a < b + m ∧ b < a + n)

/-- The bytes a request reads or writes. -/
def Req.size (r : Req) : Nat :=
  match r.act with
  | .load ty _ _ | .weight ty _ _ _ | .rload _ _ ty _ _ => ty.bytes
  | .store data | .rstore _ _ data | .unit _ _ data => data.length
  | .atom _ w64 _ _ _ _ => if w64 then 8 else 4
  | .cell .. => 32
  | _ => 0

/-- Whether an access is not yet performed: a read whose value is not fixed, a write on its way. What a copy writes or posts is no access of the
thread that started it. -/
def Req.unfixed (r : Req) : Bool :=
  match r.act with
  | .store _ | .writeback .. | .rstore .. => true
  | .unit .. => false
  | .barrier _ _ _ act _ => match act with
    | .post .. => false
    | _ => true
  | .load .. | .weight .. | .rload .. => r.stage == .sent && !r.orphan
  | _ => r.stage == .sent

/-- Whether a request is of the program order of a lane: its own, and those of the thread that a handler lane serves (R343). -/
def State.inOrder (s : State) (c w l : Nat) (r : Req) : Bool :=
  r.core == c && r.lane == l && (r.launch, r.team) == s.teamIds c w && r.window.isNone
    && (r.warp == w || (w == 64 && (match s.served c with
      | some e => !e.seq && r.warp == e.warp
      | none => false)))

/-- The stores of a core on their way that its agents know of already (R235). -/
def State.seenStores (s : State) (c : Nat) : List Req := s.reqs.filter fun r => r.core == c && r.seen && r.unfixed

/-- The earlier accesses of a thread that are not performed. -/
def State.earlier (s : State) (c w l : Nat) : List Req := s.reqs.filter fun r => s.inOrder c w l r && r.unfixed

end Sys2Proof.Machine
end

