-- ==== Sys2Proof/Machine/Operands.lean ====
section
/-!
DEFINITION. Sys2Proof/Machine/Operands.lean: the operands of a SIMT instruction and its issue. The registers an instruction names, special
registers (R58, R59), sources with their tags and poison (R82, R83), destinations (R57, R96), and the order of checks of
R62: legality, window, guard, then the checks of the entry.
-/
namespace Sys2Proof

/-- The operands of an instruction, each with the number of registers it names. CALL and CALLX name V1 (R288). -/
def Instr.opds : Instr → List (Opd × Nat)
  | .brx _ a => [(a, 2)]
  | .call _ _ => [(.v 1, 1)]
  | .callx _ a => [(a, 2), (.v 1, 1)]
  | .ret _ a => [(a, 1)]
  | .jset _ _ _ b => match b with | some b => [(b, 1)] | none => []
  | .spawn _ a b => [(a, 2), (b, 2)]
  | .chk _ a => [(a, 1)]
  | .iadd _ _ _ d a b | .isub _ _ _ d a b | .imul _ _ _ d a b => [(d, 1), (a, 1), (b, 1)]
  | .imulh _ _ d a b | .imin _ _ d a b | .imax _ _ d a b => [(d, 1), (a, 1), (b, 1)]
  | .imad _ _ _ d a b c => [(d, 1), (a, 1), (b, 1), (c, 1)]
  | .iabs _ _ d a | .ineg _ _ d a => [(d, 1), (a, 1)]
  | .isetp _ _ _ _ d a b c => [(d, 1), (a, 1), (b, 1), (c, 1)]
  | .sel _ _ d a b c => [(d, 1), (a, 1), (b, 1), (c, 1)]
  | .lea _ _ _ d a b => [(d, 2), (a, 2), (b, 1)]
  | .addw _ _ x d a b => [(d, 2), (a, 2), (b, if x then 1 else 2)]
  | .mulw _ _ d a b => [(d, 2), (a, 1), (b, 1)]
  | .isat _ _ _ d a => [(d, 1), (a, 1)]
  | .and _ d a b | .or _ d a b | .xor _ d a b | .shl _ d a b | .shr _ d a b | .sar _ d a b | .rotl _ d a b =>
      [(d, 1), (a, 1), (b, 1)]
  | .not _ d a | .popc _ d a | .clz _ d a | .brev _ d a | .mov _ d a => [(d, 1), (a, 1)]
  | .bfx _ _ d a b => [(d, 1), (a, 1), (b, 1)]
  | .bfi _ d a b c | .prmt _ d a b c => [(d, 1), (a, 1), (b, 1), (c, 1)]
  | .movi _ _ d _ => [(d, 1)]
  | .fadd _ _ d a b | .fsub _ _ d a b | .fmul _ _ d a b | .fscalb _ _ d a b => [(d, 1), (a, 1), (b, 1)]
  | .ffma _ _ d a b c => [(d, 1), (a, 1), (b, 1), (c, 1)]
  | .fmin _ d a b | .fmax _ d a b => [(d, 1), (a, 1), (b, 1)]
  | .fsetp _ _ _ d a b c => [(d, 1), (a, 1), (b, 1), (c, 1)]
  | .frnd _ _ d a => [(d, 1), (a, 1)]
  | .fclass _ d a _ => [(d, 1), (a, 1)]
  | .hadd2 _ _ _ _ d a b | .hmul2 _ _ _ _ d a b => [(d, 1), (a, 1), (b, 1)]
  | .hfma2 _ _ _ _ d a b c => [(d, 1), (a, 1), (b, 1), (c, 1)]
  | .hmin2 _ _ d a b | .hmax2 _ _ d a b => [(d, 1), (a, 1), (b, 1)]
  | .hsetp2 _ _ _ _ d a b => [(d, 1), (a, 1), (b, 1)]
  | .dot2 _ _ _ d a b c | .dot4 _ _ _ _ d a b c => [(d, 1), (a, 1), (b, 1), (c, 1)]
  | .cvt _ _ _ _ _ d a => [(d, 1), (a, 1)]
  | .pack2 _ _ _ _ d a b => [(d, 1), (a, 1), (b, 1)]
  | .pack4 _ _ _ _ _ _ d a b c => [(d, 1), (a, 1), (b, 1), (c, 1)]
  | .unpk _ _ _ d a => [(d, 1), (a, 1)]
  | .plnget _ d a b c | .plnput _ d a b c => [(d, 1), (a, 1), (b, 1), (c, 1)]
  | .tagset _ _ d a | .tagget _ d a => [(d, 1), (a, 1)]
  | .rcp _ d a | .rsq _ d a | .sqrt _ _ d a | .exp2 _ d a | .log2 _ d a | .sinpi _ d a | .cospi _ d a
  | .tanh _ d a | .erf _ d a => [(d, 1), (a, 1)]
  | .shfl _ _ d a b => [(d, 1), (a, 1), (b, 1)]
  | .vote _ _ d a | .matchLanes _ d a | .wred _ _ _ _ _ d a => [(d, 1), (a, 1)]
  | .ldg _ _ _ ty d a _ => [(d, if ty = .b64 then 2 else 1), (a, 2)]
  | .stg _ _ sz a b _ => [(a, 2), (b, if sz = .b64 then 2 else 1)]
  | .lds _ ty d a _ | .ldp _ ty d a _ | .ldw _ ty d a _ | .ldsr _ ty d a _ => [(d, if ty = .b64 then 2 else 1), (a, 1)]
  | .sts _ sz a b _ | .stp _ sz a b _ | .stsr _ sz a b _ => [(a, 1), (b, if sz = .b64 then 2 else 1)]
  | .atom _ op w64 _ _ d a b _ => [(d, if w64 then 2 else 1), (a, 2), (b, (if w64 then 2 else 1) * if op = .cas then 2 else 1)]
  | .atoms _ op w64 _ d a b _ => [(d, if w64 then 2 else 1), (a, 1), (b, (if w64 then 2 else 1) * if op = .cas then 2 else 1)]
  | .sem _ op d _ => (d, 1) :: match op with | .add a => [(a, 1)] | .rd => [] | .cas a c => [(a, 1), (c, 1)]
  | .wbr _ _ a b _ | .invr _ _ a b _ => [(a, 2), (b, 1)]
  | .pref _ _ a _ => [(a, 2)]
  | .cpy _ dk sk _ d a b c => [(d, 1), (a, if dk = .gm then 2 else 1), (b, if sk = .gm then 2 else 1), (c, 2)]
  | .cpyt _ _ d a b c => [(d, 1), (a, 2), (b, 1), (c, 1)]
  | .binit _ _ a b _ | .expect _ _ a b _ => [(a, 1), (b, 1)]
  | .arrive _ _ _ _ d a _ => [(d, 1), (a, 1)]
  | .bwait _ d a b _ => [(d, 1), (a, 1), (b, 2)]
  | .btest _ d a b _ => [(d, 1), (a, 1), (b, 1)]
  | .gbar _ _ d => [(d, 1)]
  | .dinit _ _ d a b _ | .dread _ _ d a b _ | .drecyc _ _ d a b _ => [(d, 4), (a, 2), (b, 1)]
  | .dprop _ _ d a b _ => [(d, 4), (a, 2), (b, 3)]
  | .town _ d _ => [(d, 1)]
  | .csrr _ d _ => [(d, 1)]
  | .csrw _ _ a => [(a, 1)]
  | .hread _ d x => [(d, 1), (x, 1)]
  | .hwrite _ x a => [(x, 1), (a, 1)]
  | .mboxRd _ d o => [(d, 1), (o, 1)]
  | .mboxWr _ o a => [(o, 1), (a, 1)]
  | _ => []

/-- The V registers an instruction names (R20). -/
def Instr.vregs (i : Instr) : List Nat :=
  i.opds.flatMap fun p =>
    match p.1 with
    | .v n => (List.range p.2).map fun k => n.toNat + k
    | _ => []

end Sys2Proof

namespace Sys2Proof.Machine

-- Special registers (Table 3.5) ------------------------------------------------------------------------------------

/-- %gidk: the groups of a team in ascending order, 0xFF in the places left over (R261). -/
def Group.has (g : Group) (t : Nat) : Bool :=
  decide (g.first ≤ t) && (t - g.first) % g.stride == 0 && decide ((t - g.first) / g.stride < g.count)
def Launch.gidsOf (l : Launch) (t : Nat) : List Nat :=
  (List.range l.groups.length).filter fun n =>
    match l.groups[n]? with
    | some g => g.has t
    | none => false
def Launch.gid (l : Launch) (t k : Nat) : Nat := (l.gidsOf t)[k]?.getD 0xFF

/-- The weight-store refresh window (R58, R181). -/
def wsGroup (time : Nat) : Nat := time % 16384 / 1024
def wsRefreshing (time : Nat) : Bool := decide (time % 1024 < 64)

/-- The first tile and length of a warp's window: T504 to T511 in the handler warp (R334). -/
def State.window (s : State) (c w : Nat) : Nat × Nat := ((s.warp c w).tbase, (s.warp c w).ntile)

def State.special (s : State) (c w l : Nat) (r : SReg) : Word :=
  let t := s.thread c w l
  let ln := s.launchOf c w
  let ix := ((s.teamOf c w).map (·.index)).getD 0
  let fromL (f : Launch → Nat) : Nat := (ln.map f).getD 0
  let gx := fromL (·.gx)
  let gy := fromL (·.gy)
  match r with
  | .timeh => t.timeh.getD (BitVec.ofNat 32 (s.time / 2 ^ 32))
  | .dfault => t.dfault
  | .issued => t.issued
  | _ =>
    BitVec.ofNat 32 <|
      match r with
      | .lane => l
      | .slot => slotOf w
      | .warp => w
      | .quad => quadOf w
      | .core => coreInDie c
      | .die => dieOf c
      | .chip => s.device.chipno.toNat
      | .team => ix
      | .teamx => ix % max gx 1
      | .teamy => ix / max gx 1 % max gy 1
      | .teamz => ix / max gx 1 / max gy 1
      | .gridx => gx
      | .gridy => gy
      | .gridz => fromL (·.gz)
      | .gid0 => fromL (·.gid ix 0)
      | .gid1 => fromL (·.gid ix 1)
      | .gid2 => fromL (·.gid ix 2)
      | .gid3 => fromL (·.gid ix 3)
      | .ctx => (ctxWord (s.tagOf c w).1 (s.tagOf c w).2).toNat
      | .time => s.time
      | .tbase => (s.window c w).1
      | .ntile => (s.window c w).2
      | .wsref => wsGroup s.time + (wsRefreshing s.time).toNat * 16
      | .clus => clusOf c
      | _ => 0

-- Sources ----------------------------------------------------------------------------------------------------------

/-- One word of a source: the register, VZ, an immediate, or a special register tagged W32. -/
def State.opd (s : State) (c : Cur) (l : Nat) (o : Opd) : TWord :=
  match o with
  | .v n => s.vreg c.core c.warp l n.toNat
  | .s n => s.sreg c.core c.warp n.toNat
  | .k r => { bits := s.special c.core c.warp l r, tag := .w32 }
  | .imm w => { bits := w, tag := .raw }
  | .p n => { bits := if (s.thread c.core c.warp l).pred n.toNat then 1 else 0, tag := .w32 }
  | .j n => { bits := s.jreg c.core c.warp n.toNat, tag := .w32 }
  | _ => TWord.zero

def State.bits (s : State) (c : Cur) (l : Nat) (o : Opd) : Word := (s.opd c l o).bits

/-- The 64-bit value of a pair (R93). -/
def State.pair (s : State) (c : Cur) (l : Nat) (o : Opd) : DWord := s.bits c l (o.next 1) ++ s.bits c l o

/-- A predicate operand. -/
def State.predOpd (s : State) (c : Cur) (l : Nat) (o : Opd) : Bool :=
  match o with
  | .p n => (s.thread c.core c.warp l).pred n.toNat
  | _ => true

/-- A source word with its field (0 D, 1 A, 2 B, 3 C), whether poison in it traps (R83), and the tags it accepts. -/
structure Src where
  field : Nat
  opd : Opd
  traps : Bool
  accepts : Tag → Bool

def notPsn (t : Tag) : Bool := t != .psn
def isAddr (t : Tag) : Bool := t == .i32 || t == .w32 || t == .raw
def isTag (a t : Tag) : Bool := t == a

def dataSrc (field : Nat) (o : Opd) (ok : Tag → Bool) : Src := { field, opd := o, traps := false, accepts := ok }
def trapSrc (field : Nat) (o : Opd) (ok : Tag → Bool) : Src := { field, opd := o, traps := true, accepts := ok }
/-- The field that holds the register of the C position: C, or B where the immediate form has moved it there (R53, Table 16.2). -/
def cField (b : Opd) : Nat :=
  match b with
  | .imm _ => 2
  | _ => 3
/-- The words of a wider source. -/
def wideSrc (f : Nat → Opd → (Tag → Bool) → Src) (field : Nat) (o : Opd) (n : Nat) (ok : Tag → Bool) : List Src :=
  (List.range n).map fun k => f field (o.next k) ok

/-- Whether a source word's tag is accepted (R82): immediates and VZ always, a special register where I32 is. -/
def Src.accepted (x : Src) (t : Tag) : Bool :=
  match x.opd with
  | .v _ | .s _ => x.accepts t
  | .k _ => x.accepts .i32 || x.accepts .w32
  | _ => true

/-- POISON_USE, then FORMAT unless a data word holds PSN (R83). INFO names the field and the tag found (Table 16.2). A PSN word that an
LDG.S left raises POISON_USE with DEF 0 here as any other, and its recorded fault only at a CHK (DESIGN CHOICE, assumption 63: R202 and
R83 differ). -/
def State.srcTrap (s : State) (c : Cur) (l : Nat) (srcs : List Src) : Option Trap :=
  let info (x : Src) : Nat := x.field * 16 + (s.opd c l x.opd).tag.code.toNat
  match srcs.find? fun x => x.traps && (s.opd c l x.opd).tag == .psn with
  | some x => some { Trap.plain cPoison with info := info x }
  | none =>
    if srcs.any fun x => (s.opd c l x.opd).tag == .psn then none
    else match srcs.find? fun x => !x.accepted (s.opd c l x.opd).tag with
      | some x => some { Trap.plain cFormat with info := info x }
      | none => none

/-- Whether a data word of the sources holds PSN. -/
def State.psnIn (s : State) (c : Cur) (l : Nat) (srcs : List Src) : Bool :=
  srcs.any fun x => (s.opd c l x.opd).tag == .psn

-- Destinations -----------------------------------------------------------------------------------------------------

/-- Writes successive words from a destination on. -/
def State.setOpds (s : State) (c : Cur) (l : Nat) (d : Opd) (k : Nat) : List TWord → State
  | [] => s
  | x :: xs => State.setOpds (s.setOpd c.core c.warp l (d.next k) x) c l d (k + 1) xs

/-- Writes the results of the present lanes: an S register takes that of the lowest (R96). -/
def State.writeDst (s : State) (c : Cur) (d : Opd) (rs : List (Nat × List TWord)) : State :=
  match d with
  | .s _ =>
    match rs with
    | (l, ws) :: _ => s.setOpds c l d 0 ws
    | [] => s
  | _ => rs.foldl (fun s r => s.setOpds c r.1 d 0 r.2) s

/-- Writes predicates per thread; a write to P7 is discarded (R57). -/
def State.writePred (s : State) (c : Cur) (d : Opd) (rs : List (Nat × Bool)) : State :=
  match d with
  | .p n =>
    if n = 7 then s
    else rs.foldl (fun s r => s.modThread c.core c.warp r.1 fun t => t.setPred n.toNat r.2) s
  | _ => s

-- The issue (R62) --------------------------------------------------------------------------------------------------

/-- Access to a control register (Table 16.3). -/
def csrGranted (handler : Bool) (n : Nat) : Bool :=
  n == 0 || n == 1 || n == 2 || n == 0x10 || n == 0x11 || n == 0x12 || (handler && (n == 0x20 || n == 0x21 || n == 0x22))

/-- What the issuing warp may execute (R286, R346, R347). -/
def State.mayExecute (s : State) (c : Cur) (i : Instr) : Bool :=
  let hd := c.warp == 64
  let serving := (s.served c.core).isSome
  match i with
  | .exit _ | .spawn .. => !hd
  | .rte _ | .hread .. | .hwrite .. => hd && serving
  | .mboxRd .. | .mboxWr .. | .mboxSig _ => hd && !serving
  | .csrr _ _ n | .csrw _ n _ => csrGranted hd n.toNat
  | .unassignedOpcode .. => false
  | _ => true

/-- The guard of a thread (R30, Table 3.1). -/
def guardOn (h : Head) (t : Thread) : Bool := t.pred h.pred.toNat != h.neg

/-- %issued counts the issue for each thread of the convergent set, but not the fetch again after a page request
(R59, R302). -/
def State.countIssue (s : State) (c : Cur) : State :=
  (lanesOf c.mask).foldl (fun s l =>
    s.modThread c.core c.warp l fun t => { t with issued := if t.again.any (fun p => p.1 == cDataPage) then t.issued else t.issued + 1 }) s

/-- TILE_OWN of a thread: the lowest tile named that its warp does not own (R140, R384). -/
def State.ownTrap (s : State) (c : Cur) (i : Instr) : Option Trap :=
  let tiles := (i.vregs.map fun n => vTile (s.warp c.core c.warp).tbase n).filter fun t => s.owner c.core t != ownerCode c.warp
  match tiles with
  | [] => none
  | t :: ts => some { Trap.plain cTileOwn with info := ts.foldl min t }

/-- Steps 2 and 3 of R62, which apply to the whole convergent set. -/
def State.wordTrap (s : State) (c : Cur) (i : Instr) : Option Trap :=
  if !i.wf || !s.mayExecute c i then some (Trap.plain cIllegal)
  else if i.vregs.any fun n => decide (n / 8 ≥ (s.warp c.core c.warp).ntile) then
    some { Trap.plain cTileOwn with info := 0xFFFF }
  else none

/-- A read of %time latches the high half for %timeh (R59). -/
def State.latchTime (s : State) (c : Cur) (i : Instr) (ls : List Nat) : State :=
  if i.opds.any fun p => p.1 == .k .time then
    ls.foldl (fun s l => s.modThread c.core c.warp l fun t => { t with timeh := some (BitVec.ofNat 32 (s.time / 2 ^ 32)) }) s
  else s

/-- The soft errors that one issue meets under DMR: at two the repeat mismatches as well (R358, R359). -/
def State.dmrMismatch (s : State) (c : Cur) : Bool :=
  c.warp != 64 && ((s.launchOf c.core c.warp).map (·.dmr)).getD false && decide ((s.warp c.core c.warp).upsets ≥ 2)
def State.spendUpsets (s : State) (c : Cur) : State :=
  if (s.warp c.core c.warp).upsets = 0 then s
  else s.modWarp c.core c.warp fun k => { k with upsets := k.upsets - 2 }

/-- A repeated mismatch (R359): both results are discarded, the traps they would have given among them. A retryable team rolls back; else the
threads of the issue take DMR_MISMATCH, and those whose guard is false go on. -/
def State.mismatch (s : State) (c : Cur) (on off : List Nat) : Out :=
  let s1 := s.spendUpsets c
  if s1.retryable c.core c.warp then .next (s1.rollback c.core (s1.warpTeam c.core c.warp))
  else .next ((s1.takeTraps c.core c.warp (on.map fun l => (l, Trap.plain cDmr))).pass c.core c.warp off)

/-- How often a warp's team has rolled back: an issue that rolls its team back, or fails it, ends there (R356). -/
def State.rollMark (s : State) (c w : Nat) : Option Nat :=
  match s.teamOf c w with
  | some { recov := some r, .. } => some r.rolls
  | _ => none

/-- One issue of an instruction (R62): chk gives the trap of a thread at step 5 after tile ownership, act the effect on
the present threads, which it also moves on, and the traps found in performing it. -/
def issueWith (i : Instr) (h : Head) (chk : State → Cur → Nat → Option Trap)
    (act : State → Cur → List Nat → State × List (Nat × Trap)) (s : State) : Out :=
  match s.cur with
  | none => .next s
  | some c =>
    let s1 := s.countIssue c
    let all := lanesOf c.mask
    let word := s1.wordTrap c i
    let on := all.filter fun l => guardOn h (s1.thread c.core c.warp l)
    let off := all.filter fun l => !guardOn h (s1.thread c.core c.warp l)
    if s1.dmrMismatch c then s1.mismatch c (if word.isSome then all else on) (if word.isSome then [] else off)
    else match word with
    | some t => .next ((s1.spendUpsets c).takeTraps c.core c.warp (all.map fun l => (l, t)))
    | none =>
      let verdict (l : Nat) : Option Trap := (s1.ownTrap c i).or (chk s1 c l)
      let present := on.filter fun l => (verdict l).isNone
      let bad := on.filterMap fun l => (verdict l).map fun t => (l, t)
      let s2 := (s1.spendUpsets c).pass c.core c.warp off
      let (s3, found) := act s2 c present
      if s3.rollMark c.core c.warp != s2.rollMark c.core c.warp then .next s3
      else .next ((s3.latchTime c i present).takeTraps c.core c.warp (bad ++ found))

/-- One issue whose performance finds no further trap. -/
def issue (i : Instr) (h : Head) (chk : State → Cur → Nat → Option Trap) (act : State → Cur → List Nat → State)
    (s : State) : Out :=
  issueWith i h chk (fun s c ls => (act s c ls, [])) s

/-- An instruction that computes on registers: n result words per lane from sources; PSN in a data source makes every
result word PSN (R83). -/
def compute (i : Instr) (h : Head) (d : Opd) (n : Nat) (srcs : List Src) (f : State → Cur → Nat → List TWord) (s : State) :
    Out :=
  issue i h (fun s c l => s.srcTrap c l srcs)
    (fun s c ls =>
      (s.writeDst c d (ls.map fun l => (l, if s.psnIn c l srcs then List.replicate n TWord.poison else f s c l))).advance
        c.core c.warp ls) s

/-- An instruction that writes a predicate: poison in a source traps (R83). -/
def computePred (i : Instr) (h : Head) (d : Opd) (srcs : List Src) (f : State → Cur → Nat → Bool) (s : State) : Out :=
  issue i h (fun s c l => s.srcTrap c l srcs)
    (fun s c ls => (s.writePred c d (ls.map fun l => (l, f s c l))).advance c.core c.warp ls) s

/-- One word with a tag, and the words of a 64-bit result with one tag in both. -/
def one (t : Tag) (w : Word) : List TWord := [{ bits := w, tag := t }]
def two (t : Tag) (v : DWord) : List TWord := [{ bits := v.setWidth 32, tag := t }, { bits := v.extractLsb' 32 32, tag := t }]

end Sys2Proof.Machine
end

