-- ==== Sys2Proof/Machine/CrossLane.lean ====
section
/-!
DEFINITION. Sys2Proof/Machine/CrossLane.lean: the cross-lane instructions over the present lanes of one issue (R91, R119-R122).
-/
namespace Sys2Proof.Machine

/-- The source lane of SHFL (R120), none where it is outside 0 to 31. -/
def shflLane (md : ShflMode) (l : Nat) (b : Word) : Option Nat :=
  match md with
  | .idx => some (b.toNat % 32)
  | .up => if b.toNat ≤ l then some (l - b.toNat) else none
  | .down => if l + b.toNat ≤ 31 then some (l + b.toNat) else none
  | .xor => some (l ^^^ b.toNat % 32)

def execShfl (h : Head) (md : ShflMode) (d a b : Opd) (s : State) : Out :=
  issue (.shfl h md d a b) h (fun _ _ _ => none)
    (fun s c ls =>
      let res (l : Nat) : TWord :=
        if (s.opd c l b).tag == .psn then TWord.poison
        else match shflLane md l (s.bits c l b) with
          | some x => if ls.contains x then s.opd c x a else s.opd c l a
          | none => s.opd c l a
      (s.writeDst c d (ls.map fun l => (l, [res l]))).advance c.core c.warp ls) s

/-- VOTE's operand as a truth value (R121). -/
def voteTrue (s : State) (c : Cur) (l : Nat) (a : Opd) : Bool := s.bits c l a != 0

def execVote (h : Head) (md : VoteMode) (d a : Opd) (s : State) : Out :=
  issue (.vote h md d a) h (fun s c l => s.srcTrap c l [trapSrc 1 a notPsn])
    (fun s c ls =>
      let all := ls.all fun l => voteTrue s c l a
      let any := ls.any fun l => voteTrue s c l a
      let eq := match ls with
        | [] => true
        | l0 :: _ => ls.all fun l => s.bits c l a == s.bits c l0 a
      let bal := maskOf (ls.filter fun l => voteTrue s c l a)
      let s1 := match md with
        | .all => s.writePred c d (ls.map fun l => (l, all))
        | .any => s.writePred c d (ls.map fun l => (l, any))
        | .eq => s.writePred c d (ls.map fun l => (l, eq))
        | .bal => s.writeDst c d (ls.map fun l => (l, one .w32 bal))
      s1.advance c.core c.warp ls) s

def execMatchLanes (h : Head) (d a : Opd) (s : State) : Out :=
  issue (.matchLanes h d a) h (fun s c l => s.srcTrap c l [dataSrc 1 a notPsn])
    (fun s c ls =>
      let sound := ls.filter fun l => (s.opd c l a).tag != .psn
      let res (l : Nat) : TWord :=
        if (s.opd c l a).tag == .psn then TWord.poison
        else { bits := maskOf (sound.filter fun x => s.bits c x a == s.bits c l a), tag := .w32 }
      (s.writeDst c d (ls.map fun l => (l, [res l]))).advance c.core c.warp ls) s

/-- One level of the tree of R91: neighbours combine, a lone child passes its value, no child is absent. -/
def treeLevel (f : Word → Word → Word) : List (Option Word) → List (Option Word)
  | some x :: some y :: t => some (f x y) :: treeLevel f t
  | some x :: none :: t => some x :: treeLevel f t
  | none :: y :: t => y :: treeLevel f t
  | l => l

/-- The root over lanes 0 to 31 (R91): five levels. -/
def treeRoot (f : Word → Word → Word) (vals : List (Option Word)) : Option Word :=
  ((treeLevel f (treeLevel f (treeLevel f (treeLevel f (treeLevel f vals)))))[0]?).join

/-- The node operation of WRED (R122). -/
def wredNode (op : WredOp) (ty : SFmt) (rm : RM) (sat : Bool) (x y : Word) : Word :=
  match op, ty with
  | .add, .f32 => f32 (Fmt.f32.addC rm false x.toNat y.toNat)
  | .add, .i32 => narrow false sat (x.toInt + y.toInt)
  | .add, .w32 => narrow true sat ((x.toNat : Int) + (y.toNat : Int))
  | .min, .f32 => f32 (Fmt.f32.minmax false x.toNat y.toNat)
  | .max, .f32 => f32 (Fmt.f32.minmax true x.toNat y.toNat)
  | .min, .i32 => if x.toInt ≤ y.toInt then x else y
  | .max, .i32 => if x.toInt ≤ y.toInt then y else x
  | .min, .w32 => if x.toNat ≤ y.toNat then x else y
  | .max, .w32 => if x.toNat ≤ y.toNat then y else x

def wredTag : SFmt → Tag
  | .f32 => .f32 | .i32 => .i32 | .w32 => .w32

def execWred (h : Head) (op : WredOp) (ty : SFmt) (rm : RM) (sat : Bool) (d a : Opd) (s : State) : Out :=
  issue (.wred h op ty rm sat d a) h (fun s c l => s.srcTrap c l [dataSrc 1 a (isTag (wredTag ty))])
    (fun s c ls =>
      let root := treeRoot (wredNode op ty rm sat)
        ((List.range 32).map fun l => if ls.contains l then some (s.bits c l a) else none)
      let res := if ls.any fun l => (s.opd c l a).tag == .psn then [TWord.poison] else one (wredTag ty) (root.getD 0)
      (s.writeDst c d (ls.map fun l => (l, res))).advance c.core c.warp ls) s

end Sys2Proof.Machine
end

