-- ==== Sys2Proof/Machine/Special.lean ====
section
/-!
DEFINITION. Sys2Proof/Machine/Special.lean: the special functions (R118). Their exact special values and SQRT are as the manual
states. For the rest the manual promises a bound: the device's own result is the free value Config.sfu, kept where
it lies within the bound; where it does not, a result within the bound takes its place (assumption 7).

The exact value is computed as an integer multiple of 2^-P. Where it is itself a binary fraction (RCP of a power of two, RSQ of a power
of four, SINPI halfway between integers) it is computed without error, so that a result whose error is the bound itself is kept. Elsewhere it
is irrational or no binary fraction, so that no result lies at the bound, and the error of the series is far below its distance from it.
-/
namespace Sys2Proof

/-- The precision of the fixed-point reference. -/
def sfP : Nat := 340

/-- pi, ln 2 and 2/sqrt(pi), times 2^340. -/
def sfPi : Nat :=
  0x3243f6a8885a308d313198a2e03707344a4093822299f31d0082efa98ec4e6c89452821e638d01377be546
def sfLn2 : Nat :=
  0xb17217f7d1cf79abc9e3b39803f2f6af40f343267298b62d8a0d175b8baafa2be7b876206debac9855955
def sfErf : Nat :=
  0x120dd750429b6d11ae3a914fed7fd8688281341d7587cea2e7342b06199cc416180eb39f0b24e1e2281806

/-- The integer square root, bit by bit. -/
def isqrt : Nat → Nat → Nat → Nat
  | 0, _, r => r
  | k + 1, n, r => isqrt k n (if (r + 2 ^ k) * (r + 2 ^ k) ≤ n then r + 2 ^ k else r)

def fixMul (a b : Int) : Int := a * b / 2 ^ sfP

/-- The fixed-point value of m * 2^e. -/
def toFix (m : Nat) (e : Int) : Int :=
  if 0 ≤ e + sfP then (m : Int) * 2 ^ (e + sfP).toNat else (m : Int) / 2 ^ (-(e + sfP)).toNat

/-- exp x for fixed-point x by its series: n terms from k on, the last term so far, the sum so far. -/
def expSum (x : Int) : Nat → Nat → Int → Int → Int
  | 0, _, _, s => s
  | n + 1, k, t, s =>
    let t' := fixMul t x / (k : Int)
    expSum x n (k + 1) t' (s + t')
def fixExp (x : Int) : Int := expSum x 90 1 (2 ^ sfP) (2 ^ sfP)

/-- Alternating series in z = x * x with ratios 1 / (k (k + 1)): sine from k = 2, cosine from k = 1; sinh and cosh
without the alternation. -/
def trigSum (alt : Bool) (z : Int) : Nat → Nat → Int → Int → Int
  | 0, _, _, s => s
  | n + 1, k, t, s =>
    let t' := fixMul t z / ((k : Int) * (k + 1))
    let t'' := if alt then -t' else t'
    trigSum alt z n (k + 2) t'' (s + t'')
def fixSin (x : Int) : Int := trigSum true (fixMul x x) 80 2 x x
def fixCos (x : Int) : Int := trigSum true (fixMul x x) 80 1 (2 ^ sfP) (2 ^ sfP)
def fixSinh (x : Int) : Int := trigSum false (fixMul x x) 50 2 x x
def fixCosh (x : Int) : Int := trigSum false (fixMul x x) 50 1 (2 ^ sfP) (2 ^ sfP)

/-- 2 atanh z = ln ((1 + z) / (1 - z)). -/
def atanhSum (z2 : Int) : Nat → Nat → Int → Int → Int
  | 0, _, _, s => s
  | n + 1, k, t, s =>
    let t' := fixMul t z2
    atanhSum z2 n (k + 2) t' (s + t' / (k : Int))
def fixLn (x : Int) : Int :=
  let z := (x - 2 ^ sfP) * 2 ^ sfP / (x + 2 ^ sfP)
  2 * atanhSum (fixMul z z) 120 3 z z

/-- erf's series: sum of (-1)^n x^(2n+1) / (n! (2n+1)). -/
def erfSum (z : Int) : Nat → Nat → Int → Int → Int
  | 0, _, _, s => s
  | n + 1, k, t, s =>
    let t' := -(fixMul t z / (k : Int))
    erfSum z n (k + 1) t' (s + t' / (2 * (k : Int) + 1))

/-- 2^x for fixed-point x: the integer part shifts, the fraction goes through exp. -/
def fixExp2 (x : Int) : Int :=
  let n := x / 2 ^ sfP
  let r := fixExp (fixMul (x % 2 ^ sfP) sfLn2)
  if 0 ≤ n then r * 2 ^ n.toNat else r / 2 ^ (-n).toNat

/-- A value below 1 by less than any bound shows: tanh beyond 20 and erf beyond 6 lie in the binade below 1. -/
def fixBelowOne : Int := 2 ^ sfP - 2 ^ 280

/-- Whether m * 2^e is an integer, and whether it is an even one. -/
def isInteger (m : Nat) (e : Int) : Bool := decide (0 ≤ e) || m % 2 ^ (-e).toNat == 0
def isEven (m : Nat) (e : Int) : Bool := decide (0 < e) || m % 2 ^ (1 - e).toNat == 0

/-- The exact value of function op (its opcode) at a finite non-zero operand where Table 5.8 gives no special value,
times 2^340. -/
def sfExact (op : Nat) (neg : Bool) (m : Nat) (e : Int) : Int :=
  let x := if neg then -(toFix m e) else toFix m e
  let sg (v : Int) : Int := if neg then -v else v
  let ax := toFix m e
  match op with
  | 0x60 =>
    let n := 2 * sfP + 200
    let q : Int := ((2 ^ n / m : Nat) : Int)
    let sh : Int := (n : Int) + e - sfP
    sg (if 0 ≤ sh then q / 2 ^ sh.toNat else q * 2 ^ (-sh).toNat)
  | 0x61 =>
    let ev := e % 2 = 0
    let m' := if ev then m else 2 * m
    let h : Int := (if ev then e else e - 1) / 2
    let n := 2 * (sfP + 200)
    let q : Int := (isqrt (sfP + 230) (2 ^ n / m') 0 : Nat)
    let sh : Int := (sfP : Int) + 200 + h - sfP
    if 0 ≤ sh then q / 2 ^ sh.toNat else q * 2 ^ (-sh).toNat
  | 0x63 => fixExp2 x
  | 0x64 =>
    let l := Nat.log2 m
    let frac := fixLn (toFix m (-(l : Int)))
    (e + (l : Int)) * 2 ^ sfP + frac * 2 ^ sfP / sfLn2
  | 0x65 =>
    let f := ax % 2 ^ (sfP + 1)
    sg (if isInteger m (e + 1) then (if f < 2 ^ sfP then 2 ^ sfP else -(2 ^ sfP)) else fixSin (fixMul f sfPi))
  | 0x66 => fixCos (fixMul (ax % 2 ^ (sfP + 1)) sfPi)
  | 0x67 =>
    if ax > 20 * 2 ^ sfP then sg fixBelowOne
    else if ax > 2 ^ sfP then
      let w := fixExp2 (2 * ax * 2 ^ sfP / sfLn2)
      sg ((w - 2 ^ sfP) * 2 ^ sfP / (w + 2 ^ sfP))
    else sg (fixSinh ax * 2 ^ sfP / fixCosh ax)
  | _ =>
    if ax > 6 * 2 ^ sfP then sg fixBelowOne
    else sg (fixMul (erfSum (fixMul ax ax) 200 1 ax ax) sfErf)

/-- The stated bound in units of the last place, and whether the result's magnitude is at most 1 (Table 5.8). -/
def sfUlps (op : Nat) : Nat :=
  match op with
  | 0x60 | 0x61 => 1
  | 0x67 => 3
  | 0x68 => 4
  | _ => 2
def sfUnit (op : Nat) : Bool := op == 0x67 || op == 0x68

/-- Whether an F32 code lies within the bound of the exact value n * 2^-340. A unit in the last place is that of the
exact value's own binade. -/
def sfWithin (op : Nat) (c : Nat) (n : Int) : Bool :=
  match Fmt.f32.decode c with
  | .fin neg m e =>
    let top : Int := (Nat.log2 n.natAbs : Int) - sfP
    let ulp := toFix 1 (max (top - 23) (-149))
    let v := if neg then -(toFix m e) else toFix m e
    decide ((v - n).natAbs ≤ (sfUlps op * ulp).toNat)
      && (!sfUnit op || decide (v.natAbs ≤ 2 ^ sfP))
  | _ => false

/-- The result of a special function where no special value applies: the device's candidate where it meets the bound. -/
def sfGeneral (op : Nat) (a : Nat) (neg : Bool) (m : Nat) (e : Int) : Nat :=
  let n := sfExact op neg m e
  let c := (Config.sfu op (BitVec.ofNat 32 a)).toNat
  if sfWithin op c n then c else Fmt.f32.round .rne false (decide (n < 0)) n.natAbs (-(sfP : Int))

/-- SQRT, correctly rounded: an exact square root with a sticky last bit. -/
def sqrtC (rm : RM) (a : Nat) : Nat :=
  match Fmt.f32.decode a with
  | .nan => Fmt.f32.nanCode
  | .inf neg => if neg then Fmt.f32.nanCode else a
  | .fin neg m e =>
    if m = 0 then a
    else if neg then Fmt.f32.nanCode
    else
      let ev := e % 2 = 0
      let n := (if ev then m else 2 * m) * 2 ^ 64
      let h : Int := (if ev then e else e - 1) / 2 - 32
      let r := isqrt 60 n 0
      Fmt.f32.round rm false false (2 * r + if r * r = n then 0 else 1) (h - 1)

/-- The special functions but SQRT, on F32 codes (Table 5.8). op is the opcode. -/
def specialC (op : Nat) (a : Nat) : Nat :=
  let one := 0x3F800000
  let inf (neg : Bool) := Fmt.f32.infCode false neg
  match Fmt.f32.decode a with
  | .nan => Fmt.f32.nanCode
  | .inf neg =>
    match op with
    | 0x60 => Fmt.f32.signBit neg
    | 0x61 => if neg then Fmt.f32.nanCode else 0
    | 0x63 => if neg then 0 else inf false
    | 0x64 => if neg then Fmt.f32.nanCode else inf false
    | 0x65 | 0x66 => Fmt.f32.nanCode
    | _ => Fmt.f32.signBit neg + one
  | .fin neg 0 _ =>
    match op with
    | 0x60 | 0x61 => inf neg
    | 0x63 | 0x66 => one
    | 0x64 => inf true
    | _ => Fmt.f32.signBit neg
  | .fin neg m e =>
    match op with
    | 0x61 => if neg then Fmt.f32.nanCode else sfGeneral op a neg m e
    | 0x63 =>
      let i : Int := if 0 ≤ e then (m : Int) * 2 ^ (min e.toNat 10) else (m : Int) / 2 ^ (-e).toNat
      if !neg && decide (128 ≤ i) then inf false
      else if neg && decide (150 ≤ i) then 0
      else if isInteger m e then Fmt.f32.round .rne false false 1 (if neg then -i else i)
      else sfGeneral op a neg m e
    | 0x64 =>
      if neg then Fmt.f32.nanCode
      else if m = 2 ^ Nat.log2 m then Fmt.f32.ofInt .rne false (e + (Nat.log2 m : Int))
      else sfGeneral op a neg m e
    | 0x65 => if isInteger m e then Fmt.f32.signBit neg else sfGeneral op a neg m e
    | 0x66 =>
      if isInteger m e then (if isEven m e then one else Fmt.f32.signBit true + one)
      else if isInteger m (e + 1) then 0
      else sfGeneral op a neg m e
    | _ => sfGeneral op a neg m e

end Sys2Proof
end

