-- ==== Sys2Proof/Machine/FloatInstr.lean ====
section
/-!
DEFINITION. Sys2Proof/Machine/FloatInstr.lean: FP32 arithmetic (R105-R108), packed pairs and dot products (R109-R111), conversions and
tags (R112-R117) and the special functions (R118).
-/
namespace Sys2Proof.Machine

-- FP32 (R105-R108) -------------------------------------------------------------------------------------------------

def fSrc (field : Nat) (o : Opd) : Src := dataSrc field o (isTag .f32)

/-- F32 results from the codes of one or two F32 sources. -/
def fOp1 (i : Instr) (h : Head) (d a : Opd) (f : Nat → Nat) (s : State) : Out :=
  compute i h d 1 [fSrc 1 a] (fun s k l => one .f32 (f32 (f (s.bits k l a).toNat))) s
def fOp2 (i : Instr) (h : Head) (d a b : Opd) (f : Nat → Nat → Nat) (s : State) : Out :=
  compute i h d 1 [fSrc 1 a, fSrc 2 b] (fun s k l => one .f32 (f32 (f (s.bits k l a).toNat (s.bits k l b).toNat))) s

def execFadd (h : Head) (rm : RM) (d a b : Opd) (s : State) : Out :=
  fOp2 (.fadd h rm d a b) h d a b (Fmt.f32.addC rm false) s
def execFsub (h : Head) (rm : RM) (d a b : Opd) (s : State) : Out :=
  fOp2 (.fsub h rm d a b) h d a b (Fmt.f32.subC rm false) s
def execFmul (h : Head) (rm : RM) (d a b : Opd) (s : State) : Out :=
  fOp2 (.fmul h rm d a b) h d a b (Fmt.f32.mulC rm false) s
def execFfma (h : Head) (rm : RM) (d a b c : Opd) (s : State) : Out :=
  compute (.ffma h rm d a b c) h d 1 [fSrc 1 a, fSrc 2 b, fSrc (cField b) c]
    (fun s k l =>
      one .f32 (f32 (Fmt.f32.fmaC rm false (s.bits k l a).toNat (s.bits k l b).toNat (s.bits k l c).toNat))) s
def execFmin (h : Head) (d a b : Opd) (s : State) : Out := fOp2 (.fmin h d a b) h d a b (Fmt.f32.minmax false) s
def execFmax (h : Head) (d a b : Opd) (s : State) : Out := fOp2 (.fmax h d a b) h d a b (Fmt.f32.minmax true) s

/-- Predicates of F32 sources: poison traps, another tag takes FORMAT (R107, R108). -/
def execFsetp (h : Head) (cc : Cmp) (bop : Bool) (d a b c : Opd) (s : State) : Out :=
  computePred (.fsetp h cc bop d a b c) h d [trapSrc 1 a (isTag .f32), trapSrc 2 b (isTag .f32)]
    (fun s k l => joinPred bop (cc.onFloat .f32 (s.bits k l a).toNat (s.bits k l b).toNat) (s.predOpd k l c)) s

def execFrnd (h : Head) (rm : RM) (d a : Opd) (s : State) : Out :=
  fOp1 (.frnd h rm d a) h d a (Fmt.f32.integral rm) s

/-- The class bit of an F32 code (R108). -/
def classBit (a : Nat) : Nat :=
  let neg := Fmt.f32.neg a
  if Fmt.f32.isNaN a then 8
  else if Fmt.f32.isInf a then (if neg then 0 else 7)
  else if Fmt.f32.mag a = 0 then (if neg then 3 else 4)
  else if Fmt.f32.mag a < 2 ^ 23 then (if neg then 2 else 5)
  else (if neg then 1 else 6)
def execFclass (h : Head) (d a : Opd) (mask : Word) (s : State) : Out :=
  computePred (.fclass h d a mask) h d [trapSrc 1 a (isTag .f32)]
    (fun s k l => mask.getLsbD (classBit (s.bits k l a).toNat)) s

/-- FSCALB (R106): B is an integer source. -/
def execFscalb (h : Head) (rm : RM) (d a b : Opd) (s : State) : Out :=
  compute (.fscalb h rm d a b) h d 1 [fSrc 1 a, dataSrc 2 b notPsn]
    (fun s k l =>
      one .f32 (f32 (Fmt.f32.ofFV rm false (FV.scale (s.bits k l b).toInt (Fmt.f32.decode (s.bits k l a).toNat))))) s

-- Packed pairs (R109, R110) ----------------------------------------------------------------------------------------

/-- The format and tag that TY selects. -/
def tyFmt (ty : Bool) : Fmt := if ty then .f16 else .bf16
def tyTag (ty : Bool) : Tag := if ty then .h2 else .bf2
def hSrc (ty : Bool) (field : Nat) (o : Opd) : Src := dataSrc field o (isTag (tyTag ty))

def hOp2 (i : Instr) (h : Head) (ty : Bool) (d a b : Opd) (f : Nat → Nat → Nat) (s : State) : Out :=
  compute i h d 1 [hSrc ty 1 a, hSrc ty 2 b]
    (fun s k l =>
      let x := s.bits k l a
      let y := s.bits k l b
      one (tyTag ty) (pack2w (f (half x 0) (half y 0)) (f (half x 1) (half y 1)))) s

def execHadd2 (h : Head) (ty : Bool) (rm : RM) (sat : Bool) (d a b : Opd) (s : State) : Out :=
  hOp2 (.hadd2 h ty rm sat d a b) h ty d a b ((tyFmt ty).addC rm sat) s
def execHmul2 (h : Head) (ty : Bool) (rm : RM) (sat : Bool) (d a b : Opd) (s : State) : Out :=
  hOp2 (.hmul2 h ty rm sat d a b) h ty d a b ((tyFmt ty).mulC rm sat) s
def execHfma2 (h : Head) (ty : Bool) (rm : RM) (sat : Bool) (d a b c : Opd) (s : State) : Out :=
  compute (.hfma2 h ty rm sat d a b c) h d 1 [hSrc ty 1 a, hSrc ty 2 b, hSrc ty (cField b) c]
    (fun s k l =>
      let x := s.bits k l a
      let y := s.bits k l b
      let z := s.bits k l c
      let f (n : Nat) : Nat := (tyFmt ty).fmaC rm sat (half x n) (half y n) (half z n)
      one (tyTag ty) (pack2w (f 0) (f 1))) s
def execHmin2 (h : Head) (ty : Bool) (d a b : Opd) (s : State) : Out :=
  hOp2 (.hmin2 h ty d a b) h ty d a b ((tyFmt ty).minmax false) s
def execHmax2 (h : Head) (ty : Bool) (d a b : Opd) (s : State) : Out :=
  hOp2 (.hmax2 h ty d a b) h ty d a b ((tyFmt ty).minmax true) s
def execHsetp2 (h : Head) (ty : Bool) (cc : Cmp) (any : Bool) (d a b : Opd) (s : State) : Out :=
  computePred (.hsetp2 h ty cc any d a b) h d
    [trapSrc 1 a (isTag (tyTag ty)), trapSrc 2 b (isTag (tyTag ty))]
    (fun s k l =>
      let x := s.bits k l a
      let y := s.bits k l b
      let c0 := cc.onFloat (tyFmt ty) (half x 0) (half y 0)
      let c1 := cc.onFloat (tyFmt ty) (half x 1) (half y 1)
      if any then c0 || c1 else c0 && c1) s

-- Dot products (R111) ----------------------------------------------------------------------------------------------

/-- An exact sum of three values, rounded once: a zero sum keeps the sign the terms share (R85). -/
def sum3 (rm : RM) (x y z : FV) : FV := FV.add rm (FV.add rm x y) z

def execDot2 (h : Head) (rm : RM) (sat : Bool) (d a b c : Opd) (s : State) : Out :=
  compute (.dot2 h rm sat d a b c) h d 1
    [dataSrc 1 a (isTag .bf2), dataSrc 2 b (isTag .bf2), dataSrc (cField b) c (isTag .f32)]
    (fun s k l =>
      let x := s.bits k l a
      let y := s.bits k l b
      let p (n : Nat) : FV := FV.mul (Fmt.bf16.decode (half x n)) (Fmt.bf16.decode (half y n))
      one .f32 (f32 (Fmt.f32.ofFV rm sat (sum3 rm (Fmt.f32.decode (s.bits k l c).toNat) (p 0) (p 1))))) s

/-- A byte read signed, or unsigned (DOT4's AU and BU). -/
def byteInt (u : Bool) (b : Byte) : Int := if u then (b.toNat : Int) else b.toInt
def execDot4 (h : Head) (au bu sat : Bool) (d a b c : Opd) (s : State) : Out :=
  compute (.dot4 h au bu sat d a b c) h d 1
    [dataSrc 1 a (isTag (if au then .w8q else .i8q)), dataSrc 2 b (isTag (if bu then .w8q else .i8q)),
      dataSrc (cField b) c (isTag .i32)]
    (fun s k l =>
      let x := s.bits k l a
      let y := s.bits k l b
      let p (n : Nat) : Int := byteInt au (byteOf x n) * byteInt bu (byteOf y n)
      one .i32 (narrow false sat ((s.bits k l c).toInt + p 0 + p 1 + p 2 + p 3))) s

-- Conversions and tags (R112-R117) ---------------------------------------------------------------------------------

def sfTag : SFmt → Tag
  | .f32 => .f32 | .i32 => .i32 | .w32 => .w32

/-- CVT by Table 4.7. -/
def cvtWord (df sf : SFmt) (rm : RM) (sat : Bool) (w : Word) : Word :=
  match sf, df with
  | .f32, .f32 => w
  | .f32, .i32 => BitVec.ofInt 32 (Fmt.f32.toInt rm (intLo false) (intHi false) w.toNat)
  | .f32, .w32 => BitVec.ofInt 32 (Fmt.f32.toInt rm (intLo true) (intHi true) w.toNat)
  | .i32, .f32 => f32 (Fmt.f32.ofInt rm false w.toInt)
  | .w32, .f32 => f32 (Fmt.f32.ofInt rm false (w.toNat : Int))
  | .i32, .i32 | .w32, .w32 => w
  | .i32, .w32 => narrow true sat w.toInt
  | .w32, .i32 => narrow false sat (w.toNat : Int)
def execCvt (h : Head) (df sf : SFmt) (rm : RM) (sat : Bool) (d a : Opd) (s : State) : Out :=
  compute (.cvt h df sf rm sat d a) h d 1 [dataSrc 1 a (isTag (sfTag sf))]
    (fun s k l => one (sfTag df) (cvtWord df sf rm sat (s.bits k l a))) s

def execPack2 (h : Head) (f16 : Bool) (rm : RM) (sat : Bool) (d a b : Opd) (s : State) : Out :=
  compute (.pack2 h f16 rm sat d a b) h d 1 [fSrc 1 a, fSrc 2 b]
    (fun s k l =>
      let f (w : Word) : Nat := Fmt.f32.convert (tyFmt f16) rm sat w.toNat
      one (tyTag f16) (pack2w (f (s.bits k l a)) (f (s.bits k l b)))) s

/-- PACK4's tag and its conversion of one element from F32, or from I32 under SI (R114). -/
def pk4Tag : Pk4 → Tag
  | .e4m3 => .e4q | .e5m2 => .e5q | .i8 => .i8q | .w8 => .w8q
def pk4Cvt (fm : Pk4) (si : Bool) (rm : RM) (sat : Bool) (w : Word) : Byte :=
  match fm with
  | .e4m3 => BitVec.ofNat 8 (Fmt.f32.convert .e4m3 rm sat w.toNat)
  | .e5m2 => BitVec.ofNat 8 (Fmt.f32.convert .e5m2 rm sat w.toNat)
  | .i8 =>
    BitVec.ofInt 8 (if si then (if sat then clamp (-128) 127 w.toInt else w.toInt) else Fmt.f32.toInt rm (-128) 127 w.toNat)
  | .w8 =>
    BitVec.ofInt 8 (if si then (if sat then clamp 0 255 w.toInt else w.toInt) else Fmt.f32.toInt rm 0 255 w.toNat)
def execPack4 (h : Head) (fm : Pk4) (si hi : Bool) (rm : RM) (sat : Bool) (d a b c : Opd) (s : State) : Out :=
  compute (.pack4 h fm si hi rm sat d a b c) h d 1
    [dataSrc 1 a (isTag (if si then .i32 else .f32)), dataSrc 2 b (isTag (if si then .i32 else .f32)),
      dataSrc (cField b) c (isTag (pk4Tag fm))]
    (fun s k l =>
      let x := pk4Cvt fm si rm sat (s.bits k l a)
      let y := pk4Cvt fm si rm sat (s.bits k l b)
      let old := s.bits k l c
      one (pk4Tag fm) (if hi then y ++ x ++ old.setWidth 16 else old.extractLsb' 16 16 ++ y ++ x)) s

/-- UNPK's source tag, result tag and widening (R115). -/
def unTag : UnFmt → Tag
  | .bf16 => .bf2 | .f16 => .h2 | .e4m3 => .e4q | .e5m2 => .e5q | .i8 => .i8q | .w8 => .w8q
def unResult : UnFmt → Tag
  | .i8 => .i32 | .w8 => .w32 | _ => .f32
def unpkWord (fm : UnFmt) (n : Nat) (w : Word) : Word :=
  match fm with
  | .bf16 => f32 (Fmt.bf16.convert .f32 .rne false (half w n))
  | .f16 => f32 (Fmt.f16.convert .f32 .rne false (half w n))
  | .e4m3 => f32 (Fmt.e4m3.convert .f32 .rne false (byteOf w n).toNat)
  | .e5m2 => f32 (Fmt.e5m2.convert .f32 .rne false (byteOf w n).toNat)
  | .i8 => (byteOf w n).signExtend 32
  | .w8 => (byteOf w n).setWidth 32
def execUnpk (h : Head) (fm : UnFmt) (n : BitVec 2) (d a : Opd) (s : State) : Out :=
  compute (.unpk h fm n d a) h d 1 [dataSrc 1 a (isTag (unTag fm))]
    (fun s k l => one (unResult fm) (unpkWord fm n.toNat (s.bits k l a))) s

/-- A word with one bit set to a value. -/
def putBit (w : Word) (n : Nat) (v : Bool) : Word :=
  if v then w ||| ((1 : Word) <<< n) else w &&& ~~~((1 : Word) <<< n)
def plnget (a b c : Word) : Word :=
  let p := b.toNat % 8
  let j := b.toNat / 16 % 8
  (List.range 4).foldl (fun w i => putBit w (4 * j + i) (a.getLsbD (8 * i + p))) c
def plnput (a b c : Word) : Word :=
  let p := b.toNat % 8
  let j := b.toNat / 16 % 8
  (List.range 4).foldl (fun w i => putBit w (8 * i + p) (a.getLsbD (4 * j + i))) c
def execPlnget (h : Head) (d a b c : Opd) (s : State) : Out :=
  compute (.plnget h d a b c) h d 1 [dataSrc 1 a (isTag .i8q), dataSrc 2 b notPsn, dataSrc (cField b) c (isTag .npl)]
    (fun s k l => one .npl (plnget (s.bits k l a) (s.bits k l b) (s.bits k l c))) s
def execPlnput (h : Head) (d a b c : Opd) (s : State) : Out :=
  compute (.plnput h d a b c) h d 1 [dataSrc 1 a (isTag .npl), dataSrc 2 b notPsn, dataSrc (cField b) c (isTag .i8q)]
    (fun s k l => one .i8q (plnput (s.bits k l a) (s.bits k l b) (s.bits k l c))) s

/-- TAGSET never removes poison; a target of PSN also zeroes the bits. TAGGET reads the tag of a PSN source (R117). -/
def execTagset (h : Head) (tg : Tag) (d a : Opd) (s : State) : Out :=
  compute (.tagset h tg d a) h d 1 [dataSrc 1 a fun _ => true]
    (fun s k l => one tg (if tg = .psn then 0 else s.bits k l a)) s
def execTagget (h : Head) (d a : Opd) (s : State) : Out :=
  issue (.tagget h d a) h (fun _ _ _ => none)
    (fun s c ls =>
      (s.writeDst c d (ls.map fun l => (l, one .w32 ((s.opd c l a).tag.code.setWidth 32)))).advance c.core c.warp ls) s

-- Special functions (R118) -----------------------------------------------------------------------------------------

def execRcp (h : Head) (d a : Opd) (s : State) : Out := fOp1 (.rcp h d a) h d a (specialC 0x60) s
def execRsq (h : Head) (d a : Opd) (s : State) : Out := fOp1 (.rsq h d a) h d a (specialC 0x61) s
def execSqrt (h : Head) (rm : RM) (d a : Opd) (s : State) : Out := fOp1 (.sqrt h rm d a) h d a (sqrtC rm) s
def execExp2 (h : Head) (d a : Opd) (s : State) : Out := fOp1 (.exp2 h d a) h d a (specialC 0x63) s
def execLog2 (h : Head) (d a : Opd) (s : State) : Out := fOp1 (.log2 h d a) h d a (specialC 0x64) s
def execSinpi (h : Head) (d a : Opd) (s : State) : Out := fOp1 (.sinpi h d a) h d a (specialC 0x65) s
def execCospi (h : Head) (d a : Opd) (s : State) : Out := fOp1 (.cospi h d a) h d a (specialC 0x66) s
def execTanh (h : Head) (d a : Opd) (s : State) : Out := fOp1 (.tanh h d a) h d a (specialC 0x67) s
def execErf (h : Head) (d a : Opd) (s : State) : Out := fOp1 (.erf h d a) h d a (specialC 0x68) s

end Sys2Proof.Machine
end

