-- ==== Sys2Proof/Machine/Integer.lean ====
section
/-!
DEFINITION. Sys2Proof/Machine/Integer.lean: integer arithmetic (R98-R101), logic, shifts, bit fields and moves (R102-R104).
-/
namespace Sys2Proof.Machine

/-- A two-source integer result: an exact value, narrowed (R99). -/
def intOp2 (i : Instr) (h : Head) (u sat : Bool) (d a b : Opd) (f : Int → Int → Int) (s : State) : Out :=
  compute i h d 1 [dataSrc 1 a notPsn, dataSrc 2 b notPsn]
    (fun s c l => one (intTag u) (narrow u sat (f (rdInt u (s.bits c l a)) (rdInt u (s.bits c l b))))) s

/-- A one-source integer result, signed (R99). -/
def intOp1 (i : Instr) (h : Head) (sat : Bool) (d a : Opd) (f : Int → Int) (s : State) : Out :=
  compute i h d 1 [dataSrc 1 a notPsn] (fun s c l => one .i32 (narrow false sat (f (rdInt false (s.bits c l a))))) s

def execIadd (h : Head) (u sat : Bool) (d a b : Opd) (s : State) : Out :=
  intOp2 (.iadd h u sat d a b) h u sat d a b (· + ·) s
def execIsub (h : Head) (u sat : Bool) (d a b : Opd) (s : State) : Out :=
  intOp2 (.isub h u sat d a b) h u sat d a b (· - ·) s
def execImul (h : Head) (u sat : Bool) (d a b : Opd) (s : State) : Out :=
  intOp2 (.imul h u sat d a b) h u sat d a b (· * ·) s
def execImulh (h : Head) (u : Bool) (d a b : Opd) (s : State) : Out :=
  intOp2 (.imulh h u d a b) h u false d a b (fun x y => x * y / 2 ^ 32) s
def execImad (h : Head) (u sat : Bool) (d a b c : Opd) (s : State) : Out :=
  compute (.imad h u sat d a b c) h d 1 [dataSrc 1 a notPsn, dataSrc 2 b notPsn, dataSrc (cField b) c notPsn]
    (fun s k l =>
      one (intTag u) (narrow u sat (rdInt u (s.bits k l a) * rdInt u (s.bits k l b) + rdInt u (s.bits k l c)))) s
def execImin (h : Head) (u : Bool) (d a b : Opd) (s : State) : Out :=
  intOp2 (.imin h u d a b) h u false d a b min s
def execImax (h : Head) (u : Bool) (d a b : Opd) (s : State) : Out :=
  intOp2 (.imax h u d a b) h u false d a b max s
def execIabs (h : Head) (sat : Bool) (d a : Opd) (s : State) : Out :=
  intOp1 (.iabs h sat d a) h sat d a (fun x => (x.natAbs : Int)) s
def execIneg (h : Head) (sat : Bool) (d a : Opd) (s : State) : Out :=
  intOp1 (.ineg h sat d a) h sat d a (fun x => -x) s

/-- ISETP (R100). -/
def execIsetp (h : Head) (cc : Cmp) (u bop : Bool) (d a b c : Opd) (s : State) : Out :=
  computePred (.isetp h cc u bop d a b c) h d [trapSrc 1 a notPsn, trapSrc 2 b notPsn]
    (fun s k l => joinPred bop (cc.onInt (rdInt u (s.bits k l a)) (rdInt u (s.bits k l b))) (s.predOpd k l c)) s

/-- SEL (R100): both sources are data, whichever is selected. -/
def execSel (h : Head) (u : Bool) (d a b c : Opd) (s : State) : Out :=
  compute (.sel h u d a b c) h d 1 [dataSrc 1 a notPsn, dataSrc 2 b notPsn]
    (fun s k l => one (intTag u) (if s.predOpd k l c then s.bits k l a else s.bits k l b)) s

/-- LEA, ADDW, MULW (R101). -/
def execLea (h : Head) (u : Bool) (sh : BitVec 3) (d a b : Opd) (s : State) : Out :=
  compute (.lea h u sh d a b) h d 2 (wideSrc dataSrc 1 a 2 notPsn ++ [dataSrc 2 b notPsn])
    (fun s k l => two (intTag u) (s.pair k l a + (ext64 u (s.bits k l b) <<< sh.toNat))) s
def execAddw (h : Head) (u x32 : Bool) (d a b : Opd) (s : State) : Out :=
  let narrowB : Bool := x32 || (match b with | .imm _ => true | _ => false)
  compute (.addw h u x32 d a b) h d 2 (wideSrc dataSrc 1 a 2 notPsn ++ wideSrc dataSrc 2 b (if narrowB then 1 else 2) notPsn)
    (fun s k l => two (intTag u) (s.pair k l a + (if narrowB then ext64 u (s.bits k l b) else s.pair k l b))) s
def execMulw (h : Head) (u : Bool) (d a b : Opd) (s : State) : Out :=
  compute (.mulw h u d a b) h d 2 [dataSrc 1 a notPsn, dataSrc 2 b notPsn]
    (fun s k l => two (intTag u) (ext64 u (s.bits k l a) * ext64 u (s.bits k l b))) s

/-- ISAT (R100). -/
def execIsat (h : Head) (wd : SatW) (u : Bool) (d a : Opd) (s : State) : Out :=
  compute (.isat h wd u d a) h d 1 [dataSrc 1 a notPsn]
    (fun s k l => one wd.tag (BitVec.ofInt 32 (clamp wd.lo wd.hi (rdInt u (s.bits k l a))))) s

-- Logic, shifts, bit fields (R102, R103) -------------------------------------------------------------------------

/-- A result tagged RAW from the bits of one, two or three sources. -/
def rawOp1 (i : Instr) (h : Head) (d a : Opd) (f : Word → Word) (s : State) : Out :=
  compute i h d 1 [dataSrc 1 a notPsn] (fun s k l => one .raw (f (s.bits k l a))) s
def rawOp2 (i : Instr) (h : Head) (d a b : Opd) (f : Word → Word → Word) (s : State) : Out :=
  compute i h d 1 [dataSrc 1 a notPsn, dataSrc 2 b notPsn] (fun s k l => one .raw (f (s.bits k l a) (s.bits k l b))) s
def rawOp3 (i : Instr) (h : Head) (d a b c : Opd) (f : Word → Word → Word → Word) (s : State) : Out :=
  compute i h d 1 [dataSrc 1 a notPsn, dataSrc 2 b notPsn, dataSrc (cField b) c notPsn]
    (fun s k l => one .raw (f (s.bits k l a) (s.bits k l b) (s.bits k l c))) s

/-- Shifts read the whole of B (R103): 32 or more leaves no bit, and SAR the sign. -/
def shlW (a b : Word) : Word := if b.toNat < 32 then a <<< b.toNat else 0
def shrW (a b : Word) : Word := if b.toNat < 32 then a >>> b.toNat else 0
def sarW (a b : Word) : Word := if b.toNat < 32 then a.sshiftRight b.toNat else if a.msb then 0xFFFFFFFF else 0
def rotlW (a b : Word) : Word := a.rotateLeft (b.toNat % 32)

/-- The set bits of a word, and its leading zeros. -/
def popcount (a : Word) : Nat := (lanesOf a).length
def leadingZeros (a : Word) : Nat := if a = 0 then 32 else 31 - Nat.log2 a.toNat
def reverseBits (a : Word) : Word := a.reverse

/-- The field of BFX and BFI: position and length, none where it is empty (R103). -/
def bitField (b : Word) : Option (Nat × Nat) :=
  let pos := b.toNat % 256
  let len := b.toNat / 256 % 256
  if pos ≥ 32 ∨ len = 0 then none else some (pos, min len (32 - pos))
def bfxW (sx : Bool) (a b : Word) : Word :=
  match bitField b with
  | none => 0
  | some (pos, len) =>
    let f := a.toNat / 2 ^ pos % 2 ^ len
    BitVec.ofInt 32 (if sx && f.testBit (len - 1) then (f : Int) - 2 ^ len else (f : Int))
def bfiW (a b c : Word) : Word :=
  match bitField b with
  | none => c
  | some (pos, len) =>
    let mask : Word := BitVec.ofNat 32 ((2 ^ len - 1) * 2 ^ pos)
    (c &&& ~~~mask) ||| ((a <<< pos) &&& mask)

/-- One byte of PRMT from the eight bytes of B:A. -/
def prmtByte (x : DWord) (sel : BitVec 4) : Byte :=
  let b := x.extractLsb' (8 * (sel.toNat % 8)) 8
  if sel.getLsbD 3 then (if b.getLsbD 7 then 0xFF else 0x00) else b
def prmtW (a b c : Word) : Word :=
  let x : DWord := b ++ a
  let p (i : Nat) : Byte := prmtByte x (c.extractLsb' (4 * i) 4)
  p 3 ++ p 2 ++ p 1 ++ p 0

def execAnd (h : Head) (d a b : Opd) (s : State) : Out := rawOp2 (.and h d a b) h d a b (· &&& ·) s
def execOr (h : Head) (d a b : Opd) (s : State) : Out := rawOp2 (.or h d a b) h d a b (· ||| ·) s
def execXor (h : Head) (d a b : Opd) (s : State) : Out := rawOp2 (.xor h d a b) h d a b (· ^^^ ·) s
def execNot (h : Head) (d a : Opd) (s : State) : Out := rawOp1 (.not h d a) h d a (~~~ ·) s
def execShl (h : Head) (d a b : Opd) (s : State) : Out := rawOp2 (.shl h d a b) h d a b shlW s
def execShr (h : Head) (d a b : Opd) (s : State) : Out := rawOp2 (.shr h d a b) h d a b shrW s
def execSar (h : Head) (d a b : Opd) (s : State) : Out := rawOp2 (.sar h d a b) h d a b sarW s
def execRotl (h : Head) (d a b : Opd) (s : State) : Out := rawOp2 (.rotl h d a b) h d a b rotlW s
def execPopc (h : Head) (d a : Opd) (s : State) : Out :=
  rawOp1 (.popc h d a) h d a (fun x => BitVec.ofNat 32 (popcount x)) s
def execClz (h : Head) (d a : Opd) (s : State) : Out :=
  rawOp1 (.clz h d a) h d a (fun x => BitVec.ofNat 32 (leadingZeros x)) s
def execBrev (h : Head) (d a : Opd) (s : State) : Out := rawOp1 (.brev h d a) h d a reverseBits s
def execBfx (h : Head) (sx : Bool) (d a b : Opd) (s : State) : Out := rawOp2 (.bfx h sx d a b) h d a b (bfxW sx) s
def execBfi (h : Head) (d a b c : Opd) (s : State) : Out := rawOp3 (.bfi h d a b c) h d a b c bfiW s
def execPrmt (h : Head) (d a b c : Opd) (s : State) : Out := rawOp3 (.prmt h d a b c) h d a b c prmtW s

/-- MOV copies bits and tag, PSN included; MOVI writes its immediate under TG (R104). -/
def execMov (h : Head) (d a : Opd) (s : State) : Out :=
  compute (.mov h d a) h d 1 [dataSrc 1 a fun _ => true] (fun s k l => [s.opd k l a]) s
def execMovi (h : Head) (tg : Tag) (d : Opd) (imm : Word) (s : State) : Out :=
  compute (.movi h tg d imm) h d 1 [] (fun _ _ _ => one tg imm) s

end Sys2Proof.Machine
end

