-- ==== Sys2Proof/Machine/LoadStore.lean ====
section
/-!
DEFINITION. Sys2Proof/Machine/LoadStore.lean: the checks of a memory operand (R197, R198), page requests (R324), and the load and store
instructions (R200-R204).

A load or store of global memory that misses leaves as a request; its data comes with LOAD_DATA_RETURN. Accesses to
the other spaces are performed at issue.
-/
namespace Sys2Proof.Machine

-- Addresses and permissions ----------------------------------------------------------------------------------------

/-- The effective address of a global access and of a local one (R197). -/
def State.ea (s : State) (c : Cur) (l : Nat) (a : Opd) (ofs : BitVec 24) : Nat :=
  (s.pair c l a + ofs.signExtend 64).toNat
def State.lofs (s : State) (c : Cur) (l : Nat) (a : Opd) (ofs : BitVec 24) : Nat :=
  (s.bits c l a + ofs.signExtend 32).toNat

/-- What an access does to its page. -/
inductive Access where
  | load | store | atom (op : AtOp) | cell (op : CellOp)
deriving DecidableEq, Repr

def Access.writes : Access → Bool
  | .load | .cell .read => false
  | _ => true
/-- AUX bit 9 (Table 16.1). A decide-once instruction counts as atomic, DREAD too (DESIGN CHOICE, assumption 77). -/
def Access.atomic : Access → Bool
  | .load | .store => false
  | _ => true

/-- PROTECTION for permissions and attributes, then DOC_MISUSE (R184, R195, R198, R206, R250). -/
def Access.refusal (x : Access) (a : Attr) : Option Byte :=
  match x with
  | .load => if a.r then none else some cProtection
  | .store => if !a.w then some cProtection else if a.doc then some cDocMisuse else none
  | .atom op =>
    if !(a.r && a.w) || a.cmp || (a.tgt == .host && !(op == .add || op == .exch || op == .cas)) then some cProtection
    else if a.doc then some cDocMisuse
    else none
  | .cell op =>
    if !a.r || (!(op == .read) && !a.w) || a.cmp then some cProtection
    else if !a.doc then some cDocMisuse
    else none

/-- Item 6 of R198 for one access of n bytes: none also where the page is to be requested from the host. -/
def State.globalTrap (s : State) (c : Cur) (l : Nat) (x : Access) (va n : Nat) : Option Trap :=
  let (ctx, inc) := s.tagOf c.core c.warp
  let aux := auxOf n x.writes x.atomic
  match s.pageFor c.core ctx inc va with
  | .ok _ a => (x.refusal a).map fun k => Trap.at_ k va aux
  | .fail => some (Trap.at_ cDataPage va aux)
  | .request => if (s.thread c.core c.warp l).again.contains (cDataPage, va / 4096) then some (Trap.at_ cDataPage va aux) else none

/-- Whether the page of an access is to be requested from the host (R324). -/
def State.pageAbsent (s : State) (c : Cur) (va : Nat) : Bool :=
  let (ctx, inc) := s.tagOf c.core c.warp
  decide (s.pageFor c.core ctx inc va = .request)

/-- MISALIGN of an access (R201). -/
def alignTrap (n va : Nat) (writes atomic : Bool) : Option Trap :=
  if va % n ≠ 0 then some (Trap.at_ cMisalign va (auxOf n writes atomic)) else none

/-- Item 5 of R198 for a local space. The lowest faulting byte is the first outside the extent (R338). -/
def extentTrap (n ofs extent : Nat) (writes atomic : Bool) : Option Trap :=
  if ofs + n > extent then some (Trap.at_ cProtection (max ofs extent) (auxOf n writes atomic)) else none

/-- Threads of one issue wait for pages at the host: one request per page (R302, R324). -/
def State.awaitPages (s : State) (c : Cur) (cause : Byte) (aux : Word) (ls : List (Nat × Nat)) : State :=
  let pages := (ls.map fun p => p.2 / 4096).eraseDups
  pages.foldl (fun s pg =>
    let mine := ls.filter fun p => p.2 / 4096 == pg
    let (id, s1) := s.fresh
    let (ctx, inc) := s.tagOf c.core c.warp
    let s2 := mine.foldl (fun s p => s.modThread c.core c.warp p.1 fun t => { t with st := .page id }) s1
    { s2 with
      pageReqs := s2.pageReqs ++
        [{ id, ctx, inc, va := (mine.map (·.2)).headD 0, who := .threads c.core c.warp mine, cause, aux,
           launch := (s.teamIds c.core c.warp).1 }] }) s

-- Results ----------------------------------------------------------------------------------------------------------

/-- Polling back-off (R204): the addresses of a yield-hinted load at its issue, and each value as it comes. -/
def State.hintIssue (s : State) (c : Cur) (h : Head) (ls : List (Nat × Nat)) : State :=
  if !h.yld || ls.isEmpty then s
  else
    let same := ls.all fun p => ((s.thread c.core c.warp p.1).yld.map (·.1)) == some (BitVec.ofNat 64 p.2)
    s.modWarp c.core c.warp fun k => { k with backoff := if same then min 8 (k.backoff + 1) else 0 }
def State.hintValue (s : State) (c w l : Nat) (hint : Bool) (addr : Nat) (v : DWord) : State :=
  if !hint then s
  else
    let a := BitVec.ofNat 64 addr
    let s1 := if (s.thread c w l).yld == some (a, v) then s else s.modWarp c w fun k => { k with backoff := 0 }
    s1.modThread c w l fun t => { t with yld := some (a, v) }
/-- The same for a thread wherever it is: a team that comes back to its core does so with back-off level 0 (R344). -/
def State.hintAt (s : State) (x : Dest) (hint : Bool) (addr : Nat) (v : DWord) : State :=
  if !hint then s
  else if x.window.isNone && s.isResident x.core x.warp x.launch x.team then s.hintValue x.core x.warp x.lane hint addr v
  else s.modThreadAt x fun t => { t with yld := some (BitVec.ofNat 64 addr, v) }

/-- The bytes that a team holds in a retryable interval, laid over those read (R354). -/
def State.heldOver (s : State) (c w : Nat) (a : Attr) (pa : Nat) (bs : List Byte) : List Byte :=
  layCells (s.heldNow c w a.tgt pa bs.length) pa bs

/-- The words that a load gives: those of its data with their tags, or PSN (R201, R203). -/
def loadedWords (ty : LdTy) (bs : List Byte) (psn : Bool) : List TWord :=
  if psn then List.replicate ty.words TWord.poison else ty.widen (bytesVal bs)

/-- The data of a load reaches its thread at its issue; what is uncorrectable leaves a deferred record (R201, R203). -/
def State.finishHere (s : State) (c : Cur) (l : Nat) (ty : LdTy) (d : Opd) (hint : Bool) (addr : Nat) (bs : List Byte) (psn : Bool) :
    State :=
  let s1 := s.setOpds c l d 0 (loadedWords ty bs psn)
  let s2 := if psn then s1.modThread c.core c.warp l fun t => t.defer cEcc (BitVec.ofNat 64 addr) else s1
  s2.hintValue c.core c.warp l hint addr (if psn then 0 else bytesVal bs)

/-- The same for data that was outstanding, to a thread wherever it is. -/
def State.finishLoad (s : State) (x : Dest) (ty : LdTy) (d : Opd) (hint : Bool) (addr : Nat) (bs : List Byte) (psn : Bool) : State :=
  let s1 := s.deliverAll x d 0 (loadedWords ty bs psn)
  let s2 := if psn then s1.deferAt x cEcc (BitVec.ofNat 64 addr) else s1
  s2.hintAt x hint addr (if psn then 0 else bytesVal bs)

/-- An S destination takes the value of the lowest present lane alone (R96, R199). -/
def laneDst (d : Opd) (ls : List Nat) (l : Nat) : Opd :=
  match d with
  | .s _ => if ls.head? = some l then d else .z
  | _ => d

/-- An issue of a RECOV team whose data is uncorrectable rolls the team back (R356). -/
def State.orRollback (s : State) (c : Cur) (psn : Bool) (go : State) : State :=
  if psn && s.recovering c.core c.warp then s.rollback c.core (s.warpTeam c.core c.warp) else go

-- Leases taken by a core ---------------------------------------------------------------------------------------------

/-- Whether a store of a core to a line waits at its home: the core's reads of the line come after it (R226, R228, R229). -/
def State.ownStoreWaits (s : State) (core pa : Nat) : Bool :=
  s.reqs.any fun q => q.core == core && q.attr.leased && q.pa / 128 == pa / 128 && (match q.act with
    | .store _ => true
    | _ => false)

/-- The line that a lease fill installs. -/
def leaseLine (ctx : Nat) (inc : Byte) (a : Attr) (va pa exp : Nat) (line : List Byte) (psn : List Bool) : L1Line :=
  { ctx, inc, va := lineOf va, pa := pa / 128 * 128, attr := a, exp, data := line, psn, valid := allSectors,
    dirty := List.replicate 128 false, by_ := [], stripped := false }

-- Global loads -----------------------------------------------------------------------------------------------------

/-- The line that serves a load now. One of a STRONG page does not while a store of the core to it waits at its home, so that all STRONG accesses
keep one order (R230). -/
def State.loadLine (s : State) (core ctx : Nat) (inc : Byte) (va : Nat) : Option L1Line :=
  (s.l1Hit core ctx inc va).filter fun x => !(x.attr.ord == .strong && s.ownStoreWaits core x.pa)

/-- The L1 line that a load hits, with the page's attributes. -/
def State.loadHit (s : State) (c : Cur) (va : Nat) : Option (Attr × L1Line) :=
  let (ctx, inc) := s.tagOf c.core c.warp
  match s.pageFor c.core ctx inc va with
  | .ok _ a => ((s.unstrip c.core ctx inc va a).loadLine c.core ctx inc va).map fun x => (a, x)
  | _ => none

/-- Whether a hit's sector is poisoned. -/
def L1Line.bad (x : L1Line) (va : Nat) : Bool := x.psn.getD (va % 128 / 32) false

/-- One lane of a load whose page allows it: served by the L1, or sent (R183, R188, R191). -/
def State.loadLane (s : State) (c : Cur) (ty : LdTy) (d : Opd) (acq hint : Bool) (l va : Nat) : State :=
  let (ctx, inc) := s.tagOf c.core c.warp
  match s.pageFor c.core ctx inc va with
  | .ok _ a =>
    let s1 := s.unstrip c.core ctx inc va a
    match s1.loadLine c.core ctx inc va with
    | some x =>
      let (bs, s2) := s1.returned ctx a (a.phys va) ((x.data.drop (va % 128)).take ty.bytes)
      s2.finishHere c l ty d hint va (s2.heldOver c.core c.warp a (a.phys va) bs) (x.bad va)
    | none => (s1.send c.core c.warp l a va (a.phys va) (.load ty d hint) acq).2
  | _ => s

/-- One lane of an LDG.S whose fault is deferred: PSN in its destination, and the record (R202, R339); the value is 0 (R204). -/
def State.deferLane (s : State) (c : Cur) (ty : LdTy) (d : Opd) (hint : Bool) (l va : Nat) (k : Byte) (ad : Nat) : State :=
  ((s.setOpds c l d 0 (List.replicate ty.words TWord.poison)).modThread c.core c.warp l fun t => t.defer k (BitVec.ofNat 64 ad)).hintValue
    c.core c.warp l hint va 0

/-- The traps of a load that an LDG.S defers: POISON_USE, MISALIGN, and those of its page (R202). -/
def State.loadFault (s : State) (c : Cur) (l n va : Nat) (x : Access) : Option Trap :=
  (alignTrap n va x.writes x.atomic).or (s.globalTrap c l x va n)

/-- What an LDG.S records in place of a trap, a page request included. -/
def State.specFault (s : State) (c : Cur) (l n va : Nat) (a : Opd) : Option (Byte × Nat) :=
  if s.psnIn c l (wideSrc trapSrc 1 a 2 isAddr) then some (cPoison, 0)
  else
    match s.loadFault c l n va .load with
    | some t => some (t.cause, va)
    | none => if s.pageAbsent c va then some (cDataPage, va) else none

def execLdg (h : Head) (ord : Option Scope) (spec : Bool) (ty : LdTy) (d a : Opd) (ofs : BitVec 24) (s : State) : Out :=
  let src := wideSrc trapSrc 1 a 2 isAddr
  issue (.ldg h ord spec ty d a ofs) h
    (fun s c l =>
      match s.srcTrap c l src with
      | some t => if spec && t.cause == cPoison then none else some t
      | none => if spec then none else s.loadFault c l ty.bytes (s.ea c l a ofs) .load)
    (fun s c ls =>
      let va (l : Nat) : Nat := s.ea c l a ofs
      let bad (l : Nat) : Option (Byte × Nat) := if spec then s.specFault c l ty.bytes (va l) a else none
      let waits := if spec then [] else ls.filter fun l => s.pageAbsent c (va l)
      let here := ls.filter fun l => !waits.contains l
      let go := here.filter fun l => (bad l).isNone
      let psn := go.any fun l => match s.loadHit c (va l) with
        | some (_, x) => x.bad (va l)
        | none => false
      s.orRollback c psn <|
        let s0 := s.hintIssue c h (here.map fun l => (l, va l))
        let s1 := here.foldl (fun s l =>
          match bad l with
          | some (k, ad) => s.deferLane c ty (laneDst d ls l) h.yld l (va l) k ad
          | none => s.loadLane c ty (laneDst d ls l) ord.isSome h.yld l (va l)) s0
        (s1.advance c.core c.warp here).awaitPages c cDataPage (auxOf ty.bytes false false)
          (waits.map fun l => (l, va l))) s

-- Global stores ----------------------------------------------------------------------------------------------------

/-- The low bytes of a store's datum. -/
def State.datum (s : State) (c : Cur) (l n : Nat) (b : Opd) : List Byte :=
  valBytes n (if n = 8 then s.pair c l b else (s.bits c l b).setWidth 64)

/-- The words of a store's datum (R83, Table 4.5). -/
def storeSrc (field : Nat) (b : Opd) (words : Nat) : List Src := wideSrc trapSrc field b words notPsn

/-- Lines that the L1 can keep for held stores: all of it (R355). -/
def l1Lines : Nat := 2048

/-- One lane of a store whose page allows it: held in a retryable RECOV interval, else on its way (R354, R355). -/
def State.storeLane (s : State) (c : Cur) (l va : Nat) (data : List Byte) : State :=
  let (ctx, inc) := s.tagOf c.core c.warp
  match s.pageFor c.core ctx inc va with
  | .ok _ a =>
    let s1 := s.unstrip c.core ctx inc va a
    let outside := a.tgt != .hbm && !a.soft
    if s1.retryable c.core c.warp && !outside then
      let slot := s1.warpTeam c.core c.warp
      let s2 := s1.modTeam c.core slot fun t =>
        { t with
          recov := t.recov.map fun r =>
            { r with held := r.held ++ [{ born := s.nextId, warp := c.warp, lane := l, va, pa := a.phys va, attr := a, data }] } }
      let lines := match s2.team c.core slot with
        | some { recov := some r, .. } => (r.held.map fun h => h.va / 128).eraseDups.length
        | _ => 0
      if lines > l1Lines then s2.endRetry c.core slot else s2
    else
      let s2 := if outside then s1.endRetry c.core (s1.warpTeam c.core c.warp) else s1
      s2.sendStore c.core c.warp l a va (a.phys va) data
  | _ => s

/-- A scope at which a release ends retryability (R355). -/
def endsRetry (sc : Scope) : Bool := sc.wide

def execStg (h : Head) (ord : Option Scope) (sz : StSz) (a b : Opd) (ofs : BitVec 24) (s : State) : Out :=
  let n := sz.bytes
  issue (.stg h ord sz a b ofs) h
    (fun s c l =>
      (s.srcTrap c l (wideSrc trapSrc 1 a 2 isAddr ++ storeSrc 2 b (if n = 8 then 2 else 1))).or
        (s.loadFault c l n (s.ea c l a ofs) .store))
    (fun s c ls =>
      let waits := ls.filter fun l => s.pageAbsent c (s.ea c l a ofs)
      let go := ls.filter fun l => !waits.contains l
      let items := go.map fun l => (l, s.ea c l a ofs, s.datum c l n b)
      let s0 := match ord with
        | some sc => if endsRetry sc && !go.isEmpty then s.endRetry c.core (s.warpTeam c.core c.warp) else s
        | none => s
      let s1 := items.foldl (fun s p => s.storeLane c p.1 p.2.1 p.2.2) s0
      (s1.advance c.core c.warp go).awaitPages c cDataPage (auxOf n true false) (waits.map fun l => (l, s.ea c l a ofs))) s

-- Local spaces -----------------------------------------------------------------------------------------------------

/-- The bytes of a team's scratchpad window, their poison, and the window with bytes written (R174, R214). -/
def State.scrRead (s : State) (core : Nat) (t : Team) (ofs n : Nat) : List Byte × Bool :=
  (Memory.read s.scratch (scrKey core (t.scr + ofs)) n,
   Marks.any s.scrPsn (scrSector core (t.scr + ofs)) ((ofs % 32 + n + 31) / 32))
def State.scrWrite (s : State) (core : Nat) (t : Team) (ofs : Nat) (bs : List Byte) : State :=
  { s with
    scratch := Memory.write s.scratch (scrKey core (t.scr + ofs)) bs
    scrPsn := Marks.covered s.scrPsn (core * 12288) (t.scr + ofs) bs.length }

/-- The extent of the window that a warp reaches (R176, R334). -/
def State.scrExtent (s : State) (c : Cur) : Nat :=
  match s.teamOf c.core c.warp with
  | some t => t.scrLen
  | none => 0

/-- Private bytes: the thread's share; 256 in the save area for a handler lane (R175, R334). An uncorrectable error marks a sector of 32
bytes, in the lane's SRAM or in the HBM that its share overflows into (R203, R356). -/
def State.privExtent (s : State) (c : Cur) : Nat :=
  if c.warp = 64 then 256 else ((s.teamOf c.core c.warp).map (·.share)).getD 0
def State.privRead (s : State) (c : Cur) (l ofs n : Nat) : List Byte × Bool :=
  let count := (ofs % 32 + n + 31) / 32
  if c.warp = 64 then
    let ctx := (s.tagOf c.core c.warp).1
    (Memory.read s.hpriv (hprivKey c.core ctx l ofs) n, Marks.any s.hprivPsn (hprivSector c.core ctx l ofs) count)
  else (Memory.read s.priv (privKey c.core c.warp l ofs) n, Marks.any s.privPsn (privSector c.core c.warp l ofs) count)
def State.privWrite (s : State) (c : Cur) (l ofs : Nat) (bs : List Byte) : State :=
  if c.warp = 64 then
    let ctx := (s.tagOf c.core c.warp).1
    { s with
      hpriv := Memory.write s.hpriv (hprivKey c.core ctx l ofs) bs
      hprivPsn := Marks.covered s.hprivPsn (hprivSector c.core ctx l 0) ofs bs.length }
  else
    { s with
      priv := Memory.write s.priv (privKey c.core c.warp l ofs) bs
      privPsn := Marks.covered s.privPsn (privSector c.core c.warp l 0) ofs bs.length }

/-- The weight-store window of a context and its bytes beneath a core (R179). -/
def State.wsWindow (s : State) (ctx : Nat) : Nat × Nat :=
  ((s.ctx ctx).wsbase.toNat * 65536, (s.ctx ctx).wslen.toNat * 65536)
def State.wsRead (s : State) (core ctx ofs n : Nat) : List Byte × Bool :=
  let at_ := (s.wsWindow ctx).1 + ofs
  (Memory.read s.wstore (wsKey core at_) n, Marks.any s.wsPsn (wsRow core at_) ((ofs % 64 + n + 63) / 64))

/-- Whether a weight-store span touches the group that refreshes now (R181). -/
def wsBusy (time ofs n : Nat) : Bool :=
  wsRefreshing time
    && (List.range ((ofs + n - 1) / 1024 - ofs / 1024 + 1)).any fun i => (ofs / 1024 + i) % 16 == wsGroup time

/-- The core and team that a remote address names, with the offset (R197). -/
def State.remote (s : State) (c : Cur) (addr : Nat) : Option (Nat × Nat × Team) :=
  match s.teamOf c.core c.warp with
  | none => none
  | some t =>
    let csize := ((s.launch t.launch).map (·.csize)).getD 1
    if addr ≥ 2 ^ 23 ∨ addr / 2 ^ 20 ≥ csize then none
    else (s.clusterTeams t.launch csize t.index).find? fun m => m.2.2.rank == addr / 2 ^ 20
def remoteOfs (addr : Nat) : Nat := addr % 2 ^ 20

/-- PROTECTION of a remote access of n bytes (R177, R197). -/
def State.remoteTrap (s : State) (c : Cur) (n addr : Nat) (writes atomic : Bool) : Option Trap :=
  match s.remote c addr with
  | some m =>
    if remoteOfs addr + n > m.2.2.scrLen then
      some (Trap.at_ cProtection (addr - remoteOfs addr + max (remoteOfs addr) m.2.2.scrLen) (auxOf n writes atomic))
    else none
  | none => some (Trap.at_ cProtection addr (auxOf n writes atomic))

/-- A load from a local space, performed at issue by the lanes that reach it. -/
def localLoad (i : Instr) (h : Head) (ty : LdTy) (d a : Opd) (ofs : BitVec 24) (room : State → Cur → Nat → Option Trap)
    (get : State → Cur → Nat → Nat → Option (List Byte × Bool)) (before : State → Cur → State) (s : State) : Out :=
  issue i h
    (fun s c l =>
      (s.srcTrap c l [trapSrc 1 a isAddr]).or
        ((alignTrap ty.bytes (s.lofs c l a ofs) false false).or (room s c (s.lofs c l a ofs))))
    (fun s c ls =>
      let items := ls.filterMap fun l => (get s c l (s.lofs c l a ofs)).map fun x => (l, s.lofs c l a ofs, x)
      let s0 := if ls.isEmpty then s else before s c
      s0.orRollback c (items.any fun p => p.2.2.2) <|
        let s1 := s0.hintIssue c h (items.map fun p => (p.1, p.2.1))
        (items.foldl (fun s p => s.finishHere c p.1 ty (laneDst d ls p.1) h.yld p.2.1 p.2.2.1 p.2.2.2) s1).advance c.core c.warp ls)
    s

/-- A store to a local space, performed at issue in ascending lane order (R199). -/
def localStore (i : Instr) (h : Head) (sz : StSz) (a b : Opd) (ofs : BitVec 24) (room : State → Cur → Nat → Option Trap)
    (put : State → Cur → Nat → Nat → List Byte → State) (s : State) : Out :=
  issue i h
    (fun s c l =>
      (s.srcTrap c l (trapSrc 1 a isAddr :: storeSrc 2 b (if sz = .b64 then 2 else 1))).or
        ((alignTrap sz.bytes (s.lofs c l a ofs) true false).or (room s c (s.lofs c l a ofs))))
    (fun s c ls =>
      let items := ls.map fun l => (l, s.lofs c l a ofs, s.datum c l sz.bytes b)
      (items.foldl (fun s p => put s c p.1 p.2.1 p.2.2) s).advance c.core c.warp ls) s

def execLds (h : Head) (ty : LdTy) (d a : Opd) (ofs : BitVec 24) (s : State) : Out :=
  localLoad (.lds h ty d a ofs) h ty d a ofs (fun s c o => extentTrap ty.bytes o (s.scrExtent c) false false)
    (fun s c _ o => (s.teamOf c.core c.warp).map fun t => s.scrRead c.core t o ty.bytes) (fun s _ => s) s

def execSts (h : Head) (sz : StSz) (a b : Opd) (ofs : BitVec 24) (s : State) : Out :=
  localStore (.sts h sz a b ofs) h sz a b ofs (fun s c o => extentTrap sz.bytes o (s.scrExtent c) true false)
    (fun s c _ o bs => match s.teamOf c.core c.warp with
      | some t => s.scrWrite c.core t o bs
      | none => s) s

def execLdp (h : Head) (ty : LdTy) (d a : Opd) (ofs : BitVec 24) (s : State) : Out :=
  localLoad (.ldp h ty d a ofs) h ty d a ofs (fun s c o => extentTrap ty.bytes o (s.privExtent c) false false)
    (fun s c l o => some (s.privRead c l o ty.bytes)) (fun s _ => s) s

def execStp (h : Head) (sz : StSz) (a b : Opd) (ofs : BitVec 24) (s : State) : Out :=
  localStore (.stp h sz a b ofs) h sz a b ofs (fun s c o => extentTrap sz.bytes o (s.privExtent c) true false)
    (fun s c l o bs => s.privWrite c l o bs) s

/-- LDW: a thread whose row is in refresh holds until LOAD_DATA_RETURN (R181, R201). -/
def execLdw (h : Head) (ty : LdTy) (d a : Opd) (ofs : BitVec 24) (s : State) : Out :=
  issue (.ldw h ty d a ofs) h
    (fun s c l =>
      (s.srcTrap c l [trapSrc 1 a isAddr]).or
        ((alignTrap ty.bytes (s.lofs c l a ofs) false false).or
          (extentTrap ty.bytes (s.lofs c l a ofs) (s.wsWindow (s.tagOf c.core c.warp).1).2 false false)))
    (fun s c ls =>
      let ctx := (s.tagOf c.core c.warp).1
      let o (l : Nat) : Nat := s.lofs c l a ofs
      let go := ls.filter fun l => !wsBusy s.time (o l) ty.bytes
      let wait := ls.filter fun l => wsBusy s.time (o l) ty.bytes
      s.orRollback c (go.any fun l => (s.wsRead c.core ctx (o l) ty.bytes).2) <|
        let items := go.map fun l => (l, o l, s.wsRead c.core ctx (o l) ty.bytes)
        let s0 := s.hintIssue c h (ls.map fun l => (l, o l))
        let s1 := items.foldl (fun s p => s.finishHere c p.1 ty (laneDst d ls p.1) h.yld p.2.1 p.2.2.1 p.2.2.2) s0
        let held := wait.map fun l => (l, o l)
        let s2 := held.foldl (fun s p =>
          let (id, s1) := s.send c.core c.warp p.1
            { tgt := .hbm, ord := .rc, soft := false, cmp := false, doc := false, enc := false, r := true, w := false, x := false, base := 0, size := 4096 }
            p.2 p.2 (.weight ty (laneDst d ls p.1) p.2 h.yld) false
          s1.modThread c.core c.warp p.1 fun t => { t with st := .answer id }) s1
        s2.advance c.core c.warp go) s

/-- A RECOV team that crosses to another team, or is reached by one, ends its retryability (R355). -/
def State.crossTeams (s : State) (c : Cur) : State := s.endRetry c.core (s.warpTeam c.core c.warp)
def State.reached (s : State) (core slot : Nat) : State := s.endRetry core slot

/-- The remote accesses of some lanes leave as requests (R10, R177): each with its lane, its address and what it asks of its window. -/
def State.sendRemote (s : State) (c : Cur) (items : List (Nat × Nat × (Nat → Nat → ReqAct))) : State :=
  items.foldl (fun s p =>
    match s.remote c p.2.1 with
    | some m => (s.send c.core c.warp p.1 plainAttr p.2.1 (remoteOfs p.2.1) (p.2.2 m.1 m.2.2.scr) false).2
    | none => s) s

def execLdsr (h : Head) (ty : LdTy) (d a : Opd) (ofs : BitVec 24) (s : State) : Out :=
  issue (.ldsr h ty d a ofs) h
    (fun s c l =>
      (s.srcTrap c l [trapSrc 1 a isAddr]).or
        ((alignTrap ty.bytes (s.lofs c l a ofs) false false).or (s.remoteTrap c ty.bytes (s.lofs c l a ofs) false false)))
    (fun s c ls =>
      let items := ls.map fun l => (l, s.lofs c l a ofs, fun home win => ReqAct.rload home win ty (laneDst d ls l) h.yld)
      let s0 := (if ls.isEmpty then s else s.crossTeams c).hintIssue c h (items.map fun p => (p.1, p.2.1))
      (s0.sendRemote c items).advance c.core c.warp ls) s

def execStsr (h : Head) (sz : StSz) (a b : Opd) (ofs : BitVec 24) (s : State) : Out :=
  issue (.stsr h sz a b ofs) h
    (fun s c l =>
      (s.srcTrap c l (trapSrc 1 a isAddr :: storeSrc 2 b (if sz = .b64 then 2 else 1))).or
        ((alignTrap sz.bytes (s.lofs c l a ofs) true false).or (s.remoteTrap c sz.bytes (s.lofs c l a ofs) true false)))
    (fun s c ls =>
      let items := ls.map fun l => (l, s.lofs c l a ofs, fun home win => ReqAct.rstore home win (s.datum c l sz.bytes b))
      ((if ls.isEmpty then s else s.crossTeams c).sendRemote c items).advance c.core c.warp ls) s

-- Requests in flight -----------------------------------------------------------------------------------------------

def State.req (s : State) (id : Nat) : Option Req := s.reqs.find? fun r => r.id == id
def State.dropReq (s : State) (id : Nat) : State := { s with reqs := s.reqs.filter fun r => r.id != id }
def State.setReq (s : State) (r : Req) : State := { s with reqs := replaceIf (fun x => x.id == r.id) (fun _ => r) s.reqs }

-- At the bank (R177, R201) -------------------------------------------------------------------------------------------

/-- The scratchpad window that a request of a thread acts on. -/
def Req.bank (r : Req) : Option (Nat × Nat) :=
  match r.act with
  | .rload home win .. | .rstore home win _ => some (home, win)
  | .barrier home win _ act _ =>
    match act with
    | .post .. => none
    | _ => some (home, win)
  | _ => none

/-- A thread's accesses to one window are performed at the banks in program order, and the lanes of one issue in ascending order (R199, R201). -/
def State.firstAtBank (s : State) (r : Req) : Bool :=
  let before (q : Req) : Bool :=
    q.bank == r.bank && q.bank.isSome && q.unfixed && q.core == r.core && q.from_ == r.from_ && (q.lane == r.lane || q.sentAt == r.sentAt)
  s.reqs.all fun q => !before q || decide (r.id ≤ q.id)

/-- Whether a scratchpad window of a launch is away from its core: with its team in the save area or in a shadow slot. The
window of a team that has ended stays where it was. -/
def State.windowAway (s : State) (launch core win : Nat) : Bool :=
  (s.images.any fun i => i.launch == launch && i.core == core && i.team.scr == win)
    || s.shadow.any fun p => p.1 == core && p.2.core.teams.any fun t => t.2.launch == launch && t.2.scr == win

/-- The team of a launch that a window of a core is bound to now (R177). -/
def State.windowTeam (s : State) (launch core win : Nat) : Option (Nat × Team) :=
  (s.core core).teams.find? fun p => p.2.launch == launch && p.2.scr == win

/-- What becomes of a request that arrives at a window: it is dropped where its tag is stale on its way or no team of its launch has the window
any more, waits where its turn has not come or the window is away, and else is performed there. -/
def State.atWindow (s : State) (r : Req) (home win : Nat) (go : Nat × Team → State) : State :=
  if !s.passes r.ahead r.ctx r.inc then s.dropReq r.id
  else if s.windowAway r.launch home win || !s.firstAtBank r then s
  else match s.windowTeam r.launch home win with
    | some m => go m
    | none => s.dropReq r.id

/-- A remote store reaches its bank: it ends the retryability of the team that it reaches from another (R355). -/
def State.remoteStore (s : State) (id : Nat) : State :=
  match s.req id with
  | none => s
  | some r =>
    match r.act, r.stage with
    | .rstore home win data, .sent =>
      s.atWindow r home win fun m =>
        let s1 := if m.2.index = r.team then s else s.reached home m.1
        (s1.scrWrite home m.2 r.pa data).dropReq id
    | _, _ => s

-- The data of an outstanding load ----------------------------------------------------------------------------------


/-- Whether a request is stale where its response arrives (R311). -/
def State.staleAt (s : State) (r : Req) : Bool := !s.passes [cpL1 r.core] r.ctx r.inc

/-- A request's data at the target, for a page that no cache holds (R184). -/
def State.targetData (s : State) (r : Req) (n : Nat) : Option (List Byte) :=
  match r.attr.tgt with
  | .hbm => none
  | _ => if r.attr.soft then none else some (s.readHome (s.pageKey r.ctx r.attr) r.attr r.pa n)

/-- What a peer says it runs under: a response under another epoch than the one its word names is an orphan (R373). -/
def State.peerKnown (s : State) (a : Attr) : Bool :=
  match a.tgt with
  | .peer c => s.peerEpoch.get 0 c == BitVec.ofNat 8 (s.peers.get 0 c).toNat
  | _ => true

/-- A request performed at a peer whose response is an orphan: its port keeps its entry until the timeout (R311, R373). -/
def State.lose (s : State) (r : Req) : State := s.setReq { r with stage := .lost }

/-- Data delivered to a request: a RECOV team that would consume poison rolls back instead (R203, R356). -/
def State.deliverLoad (s0 : State) (r : Req) (ty : LdTy) (d : Opd) (hint : Bool) (bs0 : List Byte) (psn : Bool) : State :=
  let (bs, s) := s0.returned r.ctx r.attr r.pa bs0
  let s1 := s.dropReq r.id
  if r.orphan || s.staleAt r then s1
  else if psn && s1.recovers r.dest then s1.rollbackAt r.dest
  else s1.finishLoad r.dest ty d hint r.va (layCells r.laid r.pa bs) psn

/-- The old value of an atomic reaches its thread, or PSN with a deferred record (R206). -/
def State.deliverAtom (s : State) (r : Req) (w64 u : Bool) (d : Opd) (v : DWord) (psn : Bool) : State :=
  let tag : Tag := if u then .w32 else .i32
  if psn then
    (s.deliverAll r.dest d 0 (List.replicate (if w64 then 2 else 1) TWord.poison)).deferAt r.dest cEcc (BitVec.ofNat 64 r.va)
  else
    let (bs, s1) := s.returned r.ctx r.attr r.pa (valBytes (if w64 then 8 else 4) v)
    s1.deliverAll r.dest d 0 (if w64 then two tag (bytesVal bs) else one tag ((bytesVal bs).setWidth 32))

/-- LOAD_DATA_RETURN: the data of a load, the old value of an atomic, or the row of a held LDW. -/
def execLoadDataReturn (id : Nat) (s : State) : Out :=
  match s.req id with
  | none => .next s
  | some r =>
    .next <|
      match r.act, r.stage with
      | .load ty d hint, .filled line psn =>
        s.deliverLoad r ty d hint ((line.drop (r.va % 128)).take ty.bytes) (psn.getD (r.va % 128 / 32) false)
      | .load ty d hint, .sent =>
        match s.targetData r ty.bytes with
        | some bs =>
          if !s.passes r.ahead r.ctx r.inc then s.dropReq id
          else if s.peerKnown r.attr then s.deliverLoad r ty d hint bs false
          else s.lose r
        | none => s
      | .atom _ w64 u d _ _, .result v psn =>
        let s1 := s.dropReq id
        if r.orphan || s.staleAt r then s1
        else if psn && s1.recovers r.dest then s1.rollbackAt r.dest
        else s1.deliverAtom r w64 u d v psn
      | .rload home win ty d hint, .sent =>
        if r.orphan || s.staleAt r then s.dropReq id
        else s.atWindow r home win fun m =>
          let (bs, psn) := s.scrRead home m.2 r.pa ty.bytes
          let s1 := s.dropReq id
          if psn && s1.recovers r.dest then s1.rollbackAt r.dest else s1.finishLoad r.dest ty d hint r.va bs psn
      | .weight ty d ofs hint, .sent =>
        if r.orphan || s.staleAt r then s.dropReq id
        else if wsBusy s.time ofs ty.bytes || !s.isResident r.core r.warp r.launch r.team then s
        else
          let (bs, psn) := s.wsRead r.core r.ctx ofs ty.bytes
          if psn && s.recovering r.core r.warp then (s.dropReq id).rollback r.core (s.warpTeam r.core r.warp)
          else ((s.dropReq id).finishLoad r.dest ty d hint r.va bs psn).advance r.core r.warp [r.lane]
      | _, _ => s

end Sys2Proof.Machine
end

