-- ==== Sys2Proof/Machine/Atomics.lean ====
section
/-!
DEFINITION. Sys2Proof/Machine/Atomics.lean: atomics (R205, R206), the semaphore file (R207), fences, write-back, invalidate and prefetch
(R208-R210).
-/
namespace Sys2Proof.Machine

-- Atomics (Table 9.4) ----------------------------------------------------------------------------------------------

/-- The new value of an atomic on n bytes; values are held in the low 8n bits. -/
def atomNew (op : AtOp) (w64 u : Bool) (old v cmp : DWord) : DWord :=
  let trim (x : DWord) : DWord := if w64 then x else (x.setWidth 32).setWidth 64
  let ext (x : DWord) : DWord := if w64 then x else (x.setWidth 32).signExtend 64
  let less (x y : DWord) : Bool := if u then decide ((trim x).toNat < (trim y).toNat) else decide ((ext x).toInt < (ext y).toInt)
  trim <|
    match op with
    | .add => old + v
    | .min => if less v old then v else old
    | .max => if less old v then v else old
    | .and => old &&& v
    | .or => old ||| v
    | .xor => old ^^^ v
    | .exch => v
    | .cas => if trim old = trim cmp then v else old
    | .inc => if (trim v).toNat ≤ (trim old).toNat then 0 else old + 1
    | .dec => if trim old = 0 ∨ (trim v).toNat < (trim old).toNat then v else old - 1

/-- The operand words of an atomic, and its value and compare value (R205). -/
def atomWords (op : AtOp) (w64 : Bool) : Nat := (if w64 then 2 else 1) * (if op = .cas then 2 else 1)
def State.atomArgs (s : State) (c : Cur) (l : Nat) (op : AtOp) (w64 : Bool) (b : Opd) : DWord × DWord :=
  let get (k : Nat) : DWord := if w64 then s.pair c l (b.next k) else (s.bits c l (b.next k)).setWidth 64
  if op = .cas then (get (if w64 then 2 else 1), get 0) else (get 0, 0)

/-- Whether a role releases or acquires. -/
def roleReleases : Role → Bool
  | .rel | .ar => true
  | .acq => false
def roleAcquires : Role → Bool
  | .acq | .ar => true
  | .rel => false

/-- Sends one lane's atomic to its home (R190, R206). -/
def State.atomLane (s : State) (c : Cur) (op : AtOp) (w64 u acq : Bool) (d : Opd) (p : Nat × Nat × DWord × DWord) : State :=
  let (l, va, v, cmp) := p
  let (ctx, inc) := s.tagOf c.core c.warp
  match s.pageFor c.core ctx inc va with
  | .ok _ a => (s.send c.core c.warp l a va (a.phys va) (.atom op w64 u d v cmp) acq).2
  | _ => s

def execAtom (h : Head) (op : AtOp) (w64 u : Bool) (ord : Option (Role × Scope)) (d a b : Opd) (ofs : BitVec 24)
    (s : State) : Out :=
  let n := if w64 then 8 else 4
  issue (.atom h op w64 u ord d a b ofs) h
    (fun s c l =>
      (s.srcTrap c l (wideSrc trapSrc 1 a 2 isAddr ++ storeSrc 2 b (atomWords op w64))).or
        (s.loadFault c l n (s.ea c l a ofs) (.atom op)))
    (fun s c ls =>
      let waits := ls.filter fun l => s.pageAbsent c (s.ea c l a ofs)
      let go := ls.filter fun l => !waits.contains l
      let items := go.map fun l => (l, s.ea c l a ofs, s.atomArgs c l op w64 b)
      let s0 := if go.isEmpty then s else s.endRetry c.core (s.warpTeam c.core c.warp)
      let acq := (ord.map fun r => roleAcquires r.1).getD false
      let s1 := items.foldl (fun s p => s.atomLane c op w64 u acq (laneDst d ls p.1) (p.1, p.2.1, p.2.2.1, p.2.2.2)) s0
      (s1.advance c.core c.warp go).awaitPages c cDataPage (auxOf n true true) (waits.map fun l => (l, s.ea c l a ofs))) s

/-- Requests to one line are performed in the order in which they left their core (R189, R228). -/
def State.firstAtHome (s : State) (r : Req) : Bool :=
  s.reqs.all fun q => !(q.writesLine r.pa && q.core == r.core) || decide (r.id ≤ q.id)

/-- The lanes of one issue act on the same bytes in ascending order, and so do a die's write-backs of one line (R199, R229). -/
def State.firstOfIssue (s : State) (r : Req) : Bool :=
  let before (q : Req) : Bool :=
    q.stage == .sent && q.attr.tgt == r.attr.tgt
      && (match q.act, r.act with
        | .writeback .., .writeback .. => dieOf q.core == dieOf r.core && q.pa == r.pa
        | .load .., _ | .weight .., _ | .barrier .., _ | .rload .., _ | .rstore .., _ | .unit .., _ | _, .unit .. => false
        | _, _ => q.core == r.core && q.from_ == r.from_ && q.sentAt == r.sentAt && meets q.pa q.size r.pa r.size)
  s.reqs.all fun q => !before q || decide (r.id ≤ q.id)

/-- The held stores that a release or a commit sends of one thread are performed in its program order (R230, R354). -/
def State.inTurn (s : State) (r : Req) : Bool :=
  let before (q : Req) : Bool :=
    r.turn.isSome && q.turn.isSome && q.unfixed && q.core == r.core && q.lane == r.lane && q.from_ == r.from_ &&
       q.launch == r.launch && q.team == r.team
  s.reqs.all fun q => !before q || decide (r.id ≤ q.id)

/-- Whether a write may be performed at its home now (R189), or at its target. -/
def State.mayPerform (s : State) (r : Req) : Bool :=
  s.firstOfIssue r && s.inTurn r
    && match r.attr.tgt with
      | .hbm => decide (s.lease r.pa ≤ s.time) && s.firstAtHome r
      | _ => true

/-- ATOMIC_PERFORM: an atomic acts at its home or target, indivisibly (R190, R206); one that meets poisoned bytes is
not performed. The answer of a peer under another epoch is an orphan (R373). -/
def execAtomicPerform (id : Nat) (s : State) : Out :=
  match s.req id with
  | none => .next s
  | some r =>
    match r.act, r.stage with
    | .atom op w64 u _ v cmp, .sent =>
      if !s.passes r.ahead r.ctx r.inc then .next (s.dropReq id)
      else if !s.mayPerform r then .next s
      else
        let n := if w64 then 8 else 4
        let key := s.pageKey r.ctx r.attr
        let answer (v : DWord) (psn : Bool) : ReqStage := if s.peerKnown r.attr then .result v psn else .lost
        if s.homePsn r.attr r.pa n then .next (s.setReq { r with stage := answer 0 true })
        else
          let old := bytesVal (s.readHome key r.attr r.pa n)
          .next ((s.writeHome key r.attr r.pa (valBytes n (atomNew op w64 u old v cmp))).setReq { r with stage := answer old false })
    | _, _ => .next s

/-- One lane of an ATOMS, at the bank (R206). -/
def State.atomsLane (s : State) (c : Cur) (t : Team) (op : AtOp) (w64 u : Bool) (d : Opd) (p : Nat × Nat × DWord × DWord) : State :=
  let (l, o, v, cmp) := p
  let n := if w64 then 8 else 4
  let tag : Tag := if u then .w32 else .i32
  let (bs, psn) := s.scrRead c.core t o n
  if psn then
    (s.setOpds c l d 0 (List.replicate (if w64 then 2 else 1) TWord.poison)).modThread c.core c.warp l fun x =>
      x.defer cEcc (BitVec.ofNat 64 o)
  else
    let old := bytesVal bs
    (s.scrWrite c.core t o (valBytes n (atomNew op w64 u old v cmp))).setOpds c l d 0
      (if w64 then two tag old else one tag (old.setWidth 32))

def execAtoms (h : Head) (op : AtOp) (w64 u : Bool) (d a b : Opd) (ofs : BitVec 24) (s : State) : Out :=
  let n := if w64 then 8 else 4
  issue (.atoms h op w64 u d a b ofs) h
    (fun s c l =>
      (s.srcTrap c l (trapSrc 1 a isAddr :: storeSrc 2 b (atomWords op w64))).or
        ((alignTrap n (s.lofs c l a ofs) true true).or (extentTrap n (s.lofs c l a ofs) (s.scrExtent c) true true)))
    (fun s c ls =>
      match s.teamOf c.core c.warp with
      | none => s.advance c.core c.warp ls
      | some t =>
        s.orRollback c (ls.any fun l => (s.scrRead c.core t (s.lofs c l a ofs) n).2) <|
          let items := ls.map fun l => (l, s.lofs c l a ofs, s.atomArgs c l op w64 b)
          (items.foldl (fun s p => s.atomsLane c t op w64 u (laneDst d ls p.1) (p.1, p.2.1, p.2.2.1, p.2.2.2)) s).advance
            c.core c.warp ls) s

-- Semaphores (R207) ------------------------------------------------------------------------------------------------

def State.sem (s : State) (core set n : Nat) : Word := s.sems.get 0 (semKey core set n)
def State.setSem (s : State) (core set n : Nat) (v : Word) : State := { s with sems := s.sems.set 0 (semKey core set n) v }

/-- The counter's new value; av is the addend or compare value and cv the value that CAS writes. -/
def semNew (op : SemOp) (old av cv : Word) : Word :=
  match op with
  | .add _ => old + av
  | .rd => old
  | .cas .. => if old = av then cv else old

/-- The register operands of a SEM. -/
def semArgs : SemOp → Opd × Opd
  | .add a => (a, .z)
  | .rd => (.z, .z)
  | .cas a c => (a, c)

/-- Table 4.5 names no class for SEM: its A and C accept every tag but PSN (DESIGN CHOICE, assumption 56). -/
def semSrcs : SemOp → List Src
  | .add a => [trapSrc 1 a notPsn]
  | .rd => []
  | .cas a c => [trapSrc 1 a notPsn, trapSrc 2 c notPsn]

/-- SEM. A warp of no team, the handler warp in monitor mode, reaches set 0 of its core (DESIGN CHOICE, assumption 57). -/
def execSem (h : Head) (op : SemOp) (d : Opd) (n : Word) (s : State) : Out :=
  issue (.sem h op d n) h (fun s c l => s.srcTrap c l (semSrcs op))
    (fun s c ls =>
      let set := ((s.teamOf c.core c.warp).map (·.sem)).getD 0
      let items := ls.map fun l => (l, s.bits c l (semArgs op).1, s.bits c l (semArgs op).2)
      (items.foldl (fun s p =>
        let old := s.sem c.core set n.toNat
        (s.setSem c.core set n.toNat (semNew op old p.2.1 p.2.2)).setOpds c p.1 (laneDst d ls p.1) 0 (one .w32 old)) s).advance
        c.core c.warp ls) s

-- Write-back (R208, R209, R341) ------------------------------------------------------------------------------------

/-- How far dirty bytes go: to the die's L2, or on to the home or target. -/
inductive Depth where
  | stay | die | home
deriving DecidableEq, Repr

/-- The dirty bytes of a line that lie in a range. -/
def dirtyIn (va : Nat) (dirty : List Bool) (range : Nat → Bool) : List Bool :=
  dirty.zipIdx.map fun p => p.1 && range (va + p.2)
def firstDirty (va : Nat) (mask : List Bool) : Nat := va + mask.findIdx (· == true)

/-- The result of a write-back: the state, and the lowest address that failed. -/
structure Written where
  s : State
  failed : Option Nat

def Written.fail (x : Written) (va : Nat) : Written :=
  { x with failed := some (match x.failed with | some f => min f va | none => va) }

/-- Sends dirty bytes of an L2 copy beyond its die: performed at a home in local HBM, where its tag passes; a request to any other target. -/
def State.writeOut (s : State) (c w l : Nat) (ln : L2Line) (mask : List Bool) : State :=
  match ln.attr.tgt with
  | .hbm => s.homeL2 { ln with dirty := mask }
  | _ => (s.send c w l ln.attr (lineOf ln.va) (ln.pa / 128 * 128) (.writeback ln.data mask ln.by_) false).2

/-- What is left of the launches that wrote a line once its dirty bytes are those of a mask. -/
def byLeft (by_ : List Nat) (dirty : List Bool) : List Nat := if dirty.contains true then by_ else []

/-- Writes back the SOFT bytes of a context in a range from the L1 of a core. -/
def State.flushL1 (s : State) (c ctx : Nat) (inc : Byte) (range : Nat → Bool) : Written :=
  (s.core c).l1.foldl (fun x ln =>
    let m := dirtyIn ln.va ln.dirty range
    if !(ln.ctx == ctx && ln.inc == inc && ln.attr.soft) || !m.contains true then x
    else if !x.s.lineWritable c ln then x.fail (firstDirty ln.va m)
    else
      let s1 := x.s.softToDie (dieOf c) ctx inc ln.attr ln.va ln.pa m ln.data ln.by_
      { x with
        s := s1.modCore c fun k =>
          { k with
             l1 := replaceIf (fun y => y.matches ctx inc ln.va) (fun y => { y with dirty := lessMask y.dirty m, by_ := byLeft y.by_ (lessMask y.dirty m) }) k.l1 } })
    { s, failed := none }

/-- Writes back the same from the L2 of a die to home or target. -/
def State.flushL2 (s : State) (c w l ctx : Nat) (inc : Byte) (range : Nat → Bool) : Written :=
  s.l2.foldl (fun x ln =>
    let m := dirtyIn ln.va ln.dirty range
    if !(ln.die == dieOf c && ln.ctx == ctx && ln.inc == inc) || !m.contains true then x
    else
      let ok := match x.s.translate ln.die ctx ln.va with
        | .ok _ a => a.w
        | _ => false
      if !ok then x.fail (firstDirty ln.va m)
      else
        let s1 := x.s.writeOut c w l ln m
        { x with
          s := { s1 with
            l2 := replaceIf (fun y => y.at_ ln.die ctx inc ln.attr ln.pa)
              (fun y => { y with dirty := lessMask y.dirty m, by_ := byLeft y.by_ (lessMask y.dirty m) }) s1.l2 } })
    { s, failed := none }

/-- Both, as deep as asked. -/
def State.flush (s : State) (c w l ctx : Nat) (inc : Byte) (depth : Depth) (range : Nat → Bool) : Written :=
  match depth with
  | .stay => { s, failed := none }
  | .die => s.flushL1 c ctx inc range
  | .home =>
    let x := s.flushL1 c ctx inc range
    let y := x.s.flushL2 c w l ctx inc range
    { y with failed := match x.failed, y.failed with
        | some f, some g => some (min f g)
        | some f, none => some f
        | none, g => g }

/-- Write-backs of a context's bytes in a range that a core's die has sent to a target, its evictions among them, and that are not
acknowledged (R238, R242). -/
def State.unacked (s : State) (c ctx : Nat) (inc : Byte) (range : Nat → Bool) : List Nat :=
  (s.reqs.filter fun r => dieOf r.core == dieOf c && r.ctx == ctx && r.inc == inc && (match r.act with
    | .writeback _ mask _ => (dirtyIn r.va mask range).contains true
    | _ => false)).map (·.id)

/-- Ends a fence or WBR in its lanes: WB_FAULT, a wait for acknowledgements, or completion. -/
def State.finishFlush (s : State) (c : Cur) (failed : Option Nat) (ids ls : List Nat) : State × List (Nat × Trap) :=
  match failed with
  | some va => (s, ls.map fun l => (l, Trap.at_ cWbFault va 0))
  | none =>
    if ids.isEmpty then (s.advance c.core c.warp ls, [])
    else (ls.foldl (fun s l => s.modThread c.core c.warp l fun t => { t with st := .acks ids }) s, [])

/-- How deep a releasing fence writes back (R208). -/
def fenceReleases : FKind → Bool
  | .acq => false
  | _ => true
def fenceAcquires : FKind → Bool
  | .rel => false
  | _ => true
def fenceDepth (sc : Scope) : Depth :=
  match sc with
  | .core => .stay
  | .die => .die
  | _ => .home

/-- FENCE. It issues only when the thread's earlier accesses of the kinds it covers are performed, and holds its later
ones until it completes (assumption 6). -/
def execFence (h : Head) (kind : FKind) (sc : Scope) (s : State) : Out :=
  issueWith (.fence h kind sc) h (fun _ _ _ => none)
    (fun s c ls =>
      match ls with
      | [] => (s, [])
      | l :: _ =>
        if !fenceReleases kind then (s.advance c.core c.warp ls, [])
        else
          let s0 := if endsRetry sc then s.endRetry c.core (s.warpTeam c.core c.warp) else s
          let (ctx, inc) := s0.tagOf c.core c.warp
          let x := s0.flush c.core c.warp l ctx inc (fenceDepth sc) fun _ => true
          x.s.finishFlush c x.failed (x.s.unacked c.core ctx inc fun _ => true) ls) s

/-- The bytes of a WBR or INVR: ea to ea + B - 1, widened to sectors; none for a count of 0 (R209). -/
def inRange (ea n va : Nat) : Bool := n != 0 && decide (ea / 32 * 32 ≤ va ∧ va < (ea + n + 31) / 32 * 32)

def rangeSrcs (a b : Opd) : List Src := wideSrc trapSrc 1 a 2 isAddr ++ [trapSrc 2 b isAddr]

/-- WBR: each present thread writes back its own range, and fails alone. -/
def execWbr (h : Head) (sc : Scope) (a b : Opd) (ofs : BitVec 24) (s : State) : Out :=
  issueWith (.wbr h sc a b ofs) h (fun s c l => s.srcTrap c l (rangeSrcs a b))
    (fun s c ls =>
      let items := ls.map fun l => (l, s.ea c l a ofs, (s.bits c l b).toNat)
      let s0 := if ls.isEmpty then s else s.endRetry c.core (s.warpTeam c.core c.warp)
      let (ctx, inc) := s0.tagOf c.core c.warp
      let (s1, rs) := items.foldl (fun (acc : State × List (Nat × Option Nat × List Nat)) p =>
        let x := acc.1.flush c.core c.warp p.1 ctx inc (if sc = .die then .die else .home) (inRange p.2.1 p.2.2)
        (x.s, acc.2 ++ [(p.1, x.failed, x.s.unacked c.core ctx inc (inRange p.2.1 p.2.2))])) (s0, [])
      rs.foldl (fun acc r =>
        let (s2, ts) := acc.1.finishFlush c r.2.1 r.2.2 [r.1]
        (s2, acc.2 ++ ts)) (s1, [])) s

/-- Which sectors of a line a range keeps, and a line without the others. -/
def keptSectors (va : Nat) (range : Nat → Bool) : List Bool := (List.range 4).map fun i => !range (va + 32 * i)
def L1Line.invalidate (x : L1Line) (range : Nat → Bool) : L1Line :=
  let k := keptSectors x.va range
  { x with
    valid := (x.valid.zip k).map fun p => p.1 && p.2
    dirty := lessMask x.dirty (outside k)
    by_ := byLeft x.by_ (lessMask x.dirty (outside k)) }
def L2Line.invalidate (x : L2Line) (range : Nat → Bool) : L2Line :=
  let k := keptSectors x.va range
  { x with
    valid := (x.valid.zip k).map fun p => p.1 && p.2
    dirty := lessMask x.dirty (outside k)
    by_ := byLeft x.by_ (lessMask x.dirty (outside k)) }

/-- Whether a SOFT line still holds a byte. -/
def L1Line.keeps (x : L1Line) : Bool := x.valid.contains true || x.dirty.contains true
def L2Line.keeps (x : L2Line) : Bool := x.valid.contains true || x.dirty.contains true

/-- INVR of one range: SOFT copies in the L1, at PKG and SYSTEM scope also the die's L2 copies; a fill in flight is not
installed (R192, R209). -/
def State.invalidate (s : State) (c ctx : Nat) (inc : Byte) (deep : Bool) (range : Nat → Bool) : State :=
  let s1 := s.modCore c fun k =>
    { k with
      l1 := (k.l1.map fun x => if x.ctx == ctx && x.inc == inc && x.attr.soft then x.invalidate range else x).filter L1Line.keeps }
  let s2 : State :=
    if deep then
      { s1 with
        l2 := (s1.l2.map fun x => if x.die == dieOf c && x.ctx == ctx && x.inc == inc then x.invalidate range else x).filter L2Line.keeps }
    else s1
  { s2 with
    reqs := replaceIf
      (fun r => r.core == c && r.ctx == ctx && r.inc == inc && r.attr.soft
        && (List.range 4).any (fun i => range (lineOf r.va + 32 * i))
        && (match r.act with | .load .. => true | _ => false))
      (fun r => { r with noInstall := true, noL2 := r.noL2 || deep }) s2.reqs }

def execInvr (h : Head) (sc : Scope) (a b : Opd) (ofs : BitVec 24) (s : State) : Out :=
  issue (.invr h sc a b ofs) h (fun s c l => s.srcTrap c l (rangeSrcs a b))
    (fun s c ls =>
      let items := ls.map fun l => (s.ea c l a ofs, (s.bits c l b).toNat)
      let (ctx, inc) := s.tagOf c.core c.warp
      (items.foldl (fun s p => s.invalidate c.core ctx inc (sc != .die) (inRange p.1 p.2)) s).advance c.core c.warp ls) s

/-- PREF requests a line, and changes no result (R210); to the L2 only a SOFT line that the die's L2 can hold. -/
def State.prefLane (s : State) (c : Cur) (l2 : Bool) (l va : Nat) : State :=
  let (ctx, inc) := s.tagOf c.core c.warp
  match s.pageFor c.core ctx inc va with
  | .ok _ a =>
    if !a.r || (s.l1Hit c.core ctx inc va).isSome || (a.tgt != .hbm && !a.soft) then s
    else if l2 && !(a.soft && softCopied (dieOf c.core) a (a.phys va)) then s
    else
      let (id, s1) := s.send c.core c.warp l a va (a.phys va) (.load .b32 .z false) false
      { s1 with reqs := replaceIf (fun r => r.id == id) (fun r => { r with orphan := true, noInstall := l2 }) s1.reqs }
  | _ => s

def execPref (h : Head) (l2 : Bool) (a : Opd) (ofs : BitVec 24) (s : State) : Out :=
  issue (.pref h l2 a ofs) h (fun s c l => s.srcTrap c l (wideSrc trapSrc 1 a 2 isAddr))
    (fun s c ls =>
      let items := ls.map fun l => (l, s.ea c l a ofs)
      (items.foldl (fun s p => s.prefLane c l2 p.1 p.2) s).advance c.core c.warp ls) s

/-- Threads whose last awaited write-back has been acknowledged go on. -/
def State.settleAcks (s : State) : State :=
  let mine := s.threads.filter fun p => match p.2.st with
    | .acks ids => ids.all fun id => (s.req id).isNone
    | _ => false
  mine.foldl (fun s p => s.advance (p.1 / 2080) (p.1 / 32 % 65) [p.1 % 32]) s

/-- A write is acknowledged: a copy whose unit it was goes on. -/
def State.acknowledged (s : State) (r : Req) : State :=
  match r.act with
  | .unit copy u _ => { s.dropReq r.id with copies := replaceIf (fun x => x.id == copy) (fun x => { x with moved := u :: x.moved }) s.copies }
  | _ => s.dropReq r.id

/-- TARGET_ACKNOWLEDGEMENT: a write performed at host or peer memory, by a unit of a copy too; what waits for it goes on (R184, R208, R212,
R242). One that is stale at a checkpoint still before it is dropped; the acknowledgement of a peer under another epoch is an orphan (R310,
R373). -/
def execTargetAcknowledgement (id : Nat) (s : State) : Out :=
  match s.req id with
  | none => .next s
  | some r =>
    let perform (go : State → State) : Out :=
      if r.stage ≠ .sent ∨ s.firstOfIssue r = false then .next s
      else if !s.passes r.ahead r.ctx r.inc then .next (s.dropReq id).settleAcks
      else if s.peerKnown r.attr then .next ((go s).acknowledged r).settleAcks
      else .next ((go s).lose r)
    match r.attr.tgt, r.act with
    | .hbm, _ => .next s
    | _, .store data | _, .unit _ _ data => perform fun s => s.writeHome 0 r.attr r.pa data
    | _, .writeback data mask _ => perform fun s => s.writeMasked 0 r.attr r.pa mask data
    | _, _ => .next s

end Sys2Proof.Machine
end

