-- ==== Sys2Proof/Machine/Cells.lean ====
section
/-!
DEFINITION. Sys2Proof/Machine/Cells.lean: decide-once cells (R245-R257): the four instructions, the action at the home, its result, and
decided copies.
-/
namespace Sys2Proof.Machine

-- The cell (Table 11.1) --------------------------------------------------------------------------------------------

structure Cell where
  value : DWord
  prev : DWord
  gen : Word
  winner : Word
  state : Byte
  flags : Byte
  rest : List Byte
deriving DecidableEq, Repr

def Cell.ofBytes (bs : List Byte) : Cell :=
  let f (o n : Nat) : Nat := leNat ((bs.drop o).take n)
  { value := BitVec.ofNat 64 (f 0 8), prev := BitVec.ofNat 64 (f 8 8), gen := BitVec.ofNat 32 (f 16 4),
    winner := BitVec.ofNat 32 (f 20 4), state := BitVec.ofNat 8 (f 24 1), flags := BitVec.ofNat 8 (f 25 1),
    rest := (bs.drop 26).take 6 }
def Cell.bytes (c : Cell) : List Byte :=
  valBytes 8 c.value ++ valBytes 8 c.prev ++ leBytes 4 c.gen.toNat ++ leBytes 4 c.winner.toNat ++ [c.state, c.flags] ++ c.rest

/-- R246. -/
def Cell.malformed (c : Cell) : Bool :=
  decide (c.state.toNat > 1) || decide (c.flags.toNat > 1) || c.rest.any (· != 0)

def Cell.fresh (g : Word) : Cell :=
  { value := 0, prev := 0, gen := g, winner := 0, state := 0, flags := 0, rest := List.replicate 6 0 }

/-- Status codes (Table 11.4). -/
def cWon : Nat := 0
def cLost : Nat := 1
def cLate : Nat := 2
def cExpired : Nat := 3
def cEarly : Nat := 4
def cFault : Nat := 5
def cEmpty : Nat := 6
def cMismatch : Nat := 7
def cDone : Nat := 8

def CellRes.plain (code : Nat) (info : Word) : CellRes := { val := 0, code, noprev := false, info }

/-- The home's action, indivisible in the cell's order (R248, R251): the cell after it and the result. -/
def cellAct (op : CellOp) (g : Word) (value : DWord) (ident : Word) (c : Cell) : Cell × CellRes :=
  match op with
  | .init =>
    if c.malformed || c.state = 0 then (Cell.fresh g, CellRes.plain cDone g) else (c, CellRes.plain cMismatch c.gen)
  | .recyc =>
    if c.malformed then (c, CellRes.plain cFault 0)
    else if c.gen ≠ g then (c, CellRes.plain cMismatch c.gen)
    else
      let decided := c.state = 1
      ({ c with prev := if decided then c.value else 0, flags := if decided then 1 else 0, value := 0, winner := 0, state := 0, gen := g + 1 },
        CellRes.plain cDone (g + 1))
  | .prop | .read =>
    if c.malformed then (c, CellRes.plain cFault 0)
    else
      let d := (c.gen - g).toNat
      if d ≥ 2 ^ 31 then (c, CellRes.plain cEarly c.gen)
      else if d ≥ 2 then (c, CellRes.plain cExpired c.gen)
      else if d = 1 then (c, { val := c.prev, code := cLate, noprev := !c.flags.getLsbD 0, info := c.gen })
      else if c.state = 1 then (c, { val := c.value, code := cLost, noprev := false, info := c.winner })
      else if op = .prop then
        ({ c with value := value, winner := ident, state := 1 }, { val := value, code := cWon, noprev := false, info := ident })
      else (c, CellRes.plain cEmpty c.gen)

/-- The result quad (R252). -/
def CellRes.quad (r : CellRes) : List TWord :=
  two .raw r.val ++ one .w32 (BitVec.ofNat 32 (r.code + 16 * r.noprev.toNat)) ++ one .w32 r.info

-- The instructions (R249, R250) ------------------------------------------------------------------------------------

/-- Sends one lane's action to the cell's home. -/
def State.cellLane (s : State) (c : Cur) (op : CellOp) (acq : Bool) (d : Opd) (p : Nat × Nat × Word × DWord) : State :=
  let (l, va, g, v) := p
  let (ctx, inc) := s.tagOf c.core c.warp
  match s.pageFor c.core ctx inc va with
  | .ok _ a => (s.send c.core c.warp l a va (a.phys va) (.cell op d g v) acq).2
  | _ => s

/-- The mould of the four instructions: one request per present thread. All but DREAD end a RECOV interval's
retryability (R257, R355). -/
def cellIssue (i : Instr) (h : Head) (op : CellOp) (ord : Option Scope) (d a b : Opd) (ofs : BitVec 24) (s : State) : Out :=
  let srcs := wideSrc trapSrc 1 a 2 isAddr
    ++ (if op = .prop then wideSrc trapSrc 2 b 2 notPsn ++ [trapSrc 2 (b.next 2) isAddr] else [trapSrc 2 b isAddr])
  issue i h
    (fun s c l =>
      (s.srcTrap c l srcs).or
        ((alignTrap 32 (s.ea c l a ofs) (op != .read) true).or (s.globalTrap c l (.cell op) (s.ea c l a ofs) 32)))
    (fun s c ls =>
      let waits := ls.filter fun l => s.pageAbsent c (s.ea c l a ofs)
      let go := ls.filter fun l => !waits.contains l
      let items := go.map fun l =>
        (l, s.ea c l a ofs, if op = .prop then s.bits c l (b.next 2) else s.bits c l b, if op = .prop then s.pair c l b else 0)
      let s0 := if op = .read || go.isEmpty then s else s.endRetry c.core (s.warpTeam c.core c.warp)
      let s1 := items.foldl (fun s p => s.cellLane c op ord.isSome d p) s0
      (s1.advance c.core c.warp go).awaitPages c cDataPage (auxOf 32 (op != .read) true) (waits.map fun l => (l, s.ea c l a ofs))) s

def execDinit (h : Head) (ord : Option Scope) (d a b : Opd) (ofs : BitVec 24) (s : State) : Out :=
  cellIssue (.dinit h ord d a b ofs) h .init ord d a b ofs s
def execDprop (h : Head) (ord : Option Scope) (d a b : Opd) (ofs : BitVec 24) (s : State) : Out :=
  cellIssue (.dprop h ord d a b ofs) h .prop ord d a b ofs s
def execDread (h : Head) (ord : Option Scope) (d a b : Opd) (ofs : BitVec 24) (s : State) : Out :=
  cellIssue (.dread h ord d a b ofs) h .read ord d a b ofs s
def execDrecyc (h : Head) (ord : Option Scope) (d a b : Opd) (ofs : BitVec 24) (s : State) : Out :=
  cellIssue (.drecyc h ord d a b ofs) h .recyc ord d a b ofs s

-- At the home ------------------------------------------------------------------------------------------------------

/-- The key of a cell for the time of its last change of GEN. -/
def cellKey (a : Attr) (pa : Nat) : Nat :=
  match a.tgt with
  | .peer c => peerKey (c + 1) pa / 32
  | _ => pa / 32

/-- Performs a cell request at its home now, the lanes of one issue in order (R199): nothing while its lease wait or its GEN hold lasts
(R189, R249). -/
def State.performCell (s : State) (r : Req) (op : CellOp) (d : Opd) (g : Word) (value : DWord) : State :=
  let key := s.pageKey r.ctx r.attr
  let bs := s.readHome key r.attr r.pa 32
  let c := Cell.ofBytes bs
  let (c1, res) := cellAct op g value (identWord s r.core r.from_ r.lane) c
  let turns := c1.gen != c.gen
  let hold := turns && match s.genTime.find (cellKey r.attr r.pa) with
    | some t => decide (s.time < t + Config.genHold)
    | none => false
  if hold || !s.firstOfIssue r || (op != .read && !s.mayPerform r) then s
  else
    let s1 := if c1 = c then s else s.writeHome key r.attr r.pa c1.bytes
    let s2 : State := if turns then { s1 with genTime := s1.genTime.put (cellKey r.attr r.pa) s.time } else s1
    s2.setReq { r with act := .cell op d g value, stage := if s.peerKnown r.attr then .cell res else .lost, sentAt := s.time }

/-- The shared part of DECIDE_ONCE_HOME_ACTION and GEN_HOLD_EXPIRY: a request dropped as stale never acted (R256). -/
def State.cellAtHome (s : State) (id : Nat) : State :=
  match s.req id with
  | none => s
  | some r =>
    match r.act, r.stage with
    | .cell op d g value, .sent =>
      if !s.passes r.ahead r.ctx r.inc then s.dropReq id else s.performCell r op d g value
    | _, _ => s

/-- DECIDE_ONCE_HOME_ACTION: the home performs an action (R251). -/
def execDecideOnceHomeAction (id : Nat) (s : State) : Out := .next (s.cellAtHome id)

/-- GEN_HOLD_EXPIRY: 16 cycles after the last change of GEN a held DINIT or DRECYC is performed (R249). -/
def execGenHoldExpiry (id : Nat) (s : State) : Out :=
  match s.req id with
  | some r =>
    match s.genTime.find (cellKey r.attr r.pa) with
    | some t => if s.time ≥ t + Config.genHold then .next (s.cellAtHome id) else .next s
    | none => .next s
  | none => .next s

-- Results and copies (R252, R254) ----------------------------------------------------------------------------------

/-- Whether an L1 or an L2 slice on the way of a request still takes its tag (R310, R311). -/
def State.holderTakes (s : State) (r : Req) (holder : Nat) : Bool :=
  s.passes [if holder < 192 then cpL1 r.core else cpSlice (dieOf r.core) r.pa] r.ctx r.inc

/-- A decided copy that may answer a request: under its tag, address and generation, and young enough. -/
def State.decidedFor (s : State) (r : Req) (g : Word) : Option Decided :=
  s.decided.find? fun x =>
    (x.holder == r.core || x.holder == 192 + dieOf r.core) && s.holderTakes r x.holder && x.ctx == r.ctx && x.inc == r.inc && x.va == r.va && x.gen == g
      && decide (s.time < x.born + Config.decidedLife)

/-- Installs decided copies: in the proposer's L1, and in its die's L2 where the home lies elsewhere; where the response is an orphan it leaves
none (R311). -/
def State.installDecided (s : State) (r : Req) (g : Word) (val : DWord) (ident : Word) (born : Nat) : State :=
  let mk (holder : Nat) : Decided := { holder, ctx := r.ctx, inc := r.inc, va := r.va, gen := g, value := val, winner := ident, born }
  let far := match r.attr.tgt with
    | .hbm => homeDie r.pa != dieOf r.core
    | _ => true
  { s with decided := ((mk r.core :: if far then [mk (192 + dieOf r.core)] else []).filter fun x => s.holderTakes r x.holder) ++ s.decided }

/-- The quad that a thread receives: free where its page is mapped twice (R191, assumption 14). A FAULT is no value of the page. -/
def State.cellQuad (s : State) (r : Req) (res : CellRes) : List TWord × State :=
  if res.code ≠ 5 ∧ s.twiceMapped r.ctx r.attr r.pa then
    let (bs, s1) := s.returned r.ctx r.attr r.pa (List.replicate 16 0)
    (two .raw (bytesVal (bs.take 8)) ++ two .w32 (bytesVal (bs.drop 8)), s1)
  else (res.quad, s)

/-- Writes the quad of a result to its thread (R252); an orphan's is discarded (R256, R291). -/
def State.finishCell (s : State) (r : Req) (d : Opd) (res : CellRes) : State :=
  let (quad, s0) := s.cellQuad r res
  let s1 := s0.dropReq r.id
  if r.orphan || s.staleAt r then s1 else s1.deliverAll r.dest d 0 quad

/-- DECIDE_ONCE_RESULT: the home's answer reaches the thread, or a matching copy answers a DREAD or DPROP that has not
reached its home. install says whether the answer leaves copies. -/
def execDecideOnceResult (id : Nat) (install : Bool) (s : State) : Out :=
  match s.req id with
  | none => .next s
  | some r =>
    match r.act, r.stage with
    | .cell op d g _, .cell res =>
      let keep := install && !r.noInstall && (op == .prop || op == .read) && decide (res.code ≤ 1)
      let s1 := if keep then s.installDecided r g res.val res.info r.sentAt else s
      .next (s1.finishCell r d res)
    | .cell op d g _, .sent =>
      if s.staleAt r then .next (s.dropReq id)
      else match s.decidedFor r g with
      | some x =>
        if op = .read ∨ op = .prop then
          let s1 := if install && !r.noInstall then s.installDecided r g x.value x.winner x.born else s
          .next (s1.finishCell r d { val := x.value, code := cLost, noprev := false, info := x.winner })
        else .next s
      | none => .next s
    | _, _ => .next s

/-- A peer answers a decide-once action with an error (R252): the status is FAULT, whether the action was performed or not. -/
def State.peerError (s : State) (id : Nat) : State :=
  match s.req id with
  | none => s
  | some r =>
    let answered : Bool := match r.stage with
      | .sent | .cell _ => true
      | _ => false
    match r.attr.tgt, r.act with
    | .peer _, .cell .. => if answered then s.setReq { r with stage := .cell { val := 0, code := 5, noprev := false, info := 0 } } else s
    | _, _ => s

/-- DECIDED_COPY_EXPIRY: a copy is discarded; it may be at any moment, and serves no longer than 2^33 cycles. -/
def execDecidedCopyExpiry (idx : Nat) (s : State) : Out := .next { s with decided := s.decided.eraseIdx idx }

end Sys2Proof.Machine
end

