-- ==== Sys2Proof/Machine/Control.lean ====
section
/-!
DEFINITION. Sys2Proof/Machine/Control.lean: control flow, threads and rejoin (R285-R300), spawn bins (R275, R276, R295, R296), and the
events that end their waits (R279, R297).
-/
namespace Sys2Proof.Machine

/-- Moves each present thread to a program counter of its own. -/
def State.jump (s : State) (c : Cur) (ls : List Nat) (f : Nat → DWord) : State :=
  s.complete c.core c.warp (ls.map fun l => (l, f l))

def State.pcOf (s : State) (c : Cur) (l : Nat) : DWord := (s.thread c.core c.warp l).pc

/-- The target of a displacement: PC + 4 × disp modulo 2^64 (R53, R289). -/
def dispTarget (pc : DWord) (disp : BitVec 36) : DWord := pc + (disp.signExtend 64 <<< 2)

/-- The address words of a branch target (R287). -/
def targetSrc (a : Opd) : List Src := wideSrc trapSrc 1 a 2 isAddr

def misaligned4 (v : DWord) : Bool := v.toNat % 4 != 0

/-- A target in another 4 GiB region than the return address (R288). -/
def crossesRegion (pc target : DWord) : Bool := target.extractLsb' 32 32 != (pc + 12).extractLsb' 32 32

def execNop (h : Head) (s : State) : Out :=
  issue (.nop h) h (fun _ _ _ => none) (fun s c ls => s.advance c.core c.warp ls) s

def execBra (h : Head) (disp : BitVec 36) (s : State) : Out :=
  issue (.bra h disp) h (fun _ _ _ => none) (fun s c ls => s.jump c ls fun l => dispTarget (s.pcOf c l) disp) s

def execBrx (h : Head) (a : Opd) (s : State) : Out :=
  issue (.brx h a) h
    (fun s c l =>
      (s.srcTrap c l (targetSrc a)).or
        (if misaligned4 (s.pair c l a) then some (Trap.at_ cMisalign (s.pair c l a).toNat 0) else none))
    (fun s c ls => s.jump c ls fun l => s.pair c l a) s

/-- Writes the return address V1 of each present thread (R288). -/
def State.link (s : State) (c : Cur) (ls : List Nat) : State :=
  s.writeDst c (.v 1) (ls.map fun l => (l, one .w32 ((s.pcOf c l + 12).setWidth 32)))

def execCall (h : Head) (disp : BitVec 36) (s : State) : Out :=
  issue (.call h disp) h
    (fun s c l =>
      let t := dispTarget (s.pcOf c l) disp
      if crossesRegion (s.pcOf c l) t then some (Trap.at_ cProtection t.toNat 0) else none)
    (fun s c ls => (s.link c ls).jump c ls fun l => dispTarget (s.pcOf c l) disp) s

def execCallx (h : Head) (a : Opd) (s : State) : Out :=
  issue (.callx h a) h
    (fun s c l =>
      let t := s.pair c l a
      (s.srcTrap c l (targetSrc a)).or
        (if misaligned4 t then some (Trap.at_ cMisalign t.toNat 0)
         else if crossesRegion (s.pcOf c l) t then some (Trap.at_ cProtection t.toNat 0)
         else none))
    (fun s c ls => (s.link c ls).jump c ls fun l => s.pair c l a) s

/-- RET joins the high half of its own address to A (R287, R289). -/
def retTarget (pc : DWord) (a : Word) : DWord := pc.extractLsb' 32 32 ++ a
def execRet (h : Head) (a : Opd) (s : State) : Out :=
  issue (.ret h a) h
    (fun s c l =>
      let t := retTarget (s.pcOf c l) (s.bits c l a)
      (s.srcTrap c l [trapSrc 1 a isAddr]).or (if misaligned4 t then some (Trap.at_ cMisalign t.toNat 0) else none))
    (fun s c ls => s.jump c ls fun l => retTarget (s.pcOf c l) (s.bits c l a)) s

/-- EXIT (R291). The instruction retires in each thread that it ends. -/
def execExit (h : Head) (s : State) : Out :=
  issue (.exit h) h (fun _ _ _ => none)
    (fun s c ls =>
      if ls.isEmpty then s
      else (s.modWarp c.core c.warp fun k => { k with retired := k.retired + BitVec.ofNat 64 ls.length }).exitLanes c.core c.warp ls) s

-- Rejoin (R279, R292-R294) -----------------------------------------------------------------------------------------

/-- The number of a J operand. -/
def Opd.jnum (o : Opd) : Nat :=
  match o with
  | .j n => n.toNat
  | _ => 0

def execArj (h : Head) (d : Opd) (s : State) : Out :=
  issue (.arj h d) h (fun _ _ _ => none)
    (fun s c ls =>
      (s.setJreg c.core c.warp (Opd.jnum d) (s.jreg c.core c.warp (Opd.jnum d) &&& ~~~(maskOf ls))).advance c.core c.warp ls) s

/-- JSET's new mask (R292). -/
def jsetMask (md : JMode) (old m present : Word) : Word :=
  match md with
  | .set => m
  | .or => old ||| m
  | .andn => old &&& ~~~m
  | .pres => present

def execJset (h : Head) (md : JMode) (d : Opd) (b : Option Opd) (s : State) : Out :=
  let o := b.getD .z
  issue (.jset h md d b) h
    (fun s c l => match b with
      | some b => s.srcTrap c l [trapSrc 2 b notPsn]
      | none => none)
    (fun s c ls =>
      match ls with
      | [] => s
      | l :: _ =>
        (s.setJreg c.core c.warp (Opd.jnum d) (jsetMask md (s.jreg c.core c.warp (Opd.jnum d)) (s.bits c l o) (maskOf ls))).advance
          c.core c.warp ls) s

def execWaitj (h : Head) (a : Opd) (s : State) : Out :=
  issue (.waitj h a) h (fun _ _ _ => none)
    (fun s c ls =>
      ls.foldl (fun s l => s.modThread c.core c.warp l fun t => { t with st := .waitj (BitVec.ofNat 3 (Opd.jnum a)) }) s) s

/-- The lanes of a warp that keep no WAITJ waiting: those at some WAITJ, and those that have exited, whose bits a later JSET may have set
(R279, R280); and whether a waiting thread's condition holds. -/
def State.waitjLanes (s : State) (c w : Nat) : List Nat :=
  (List.range 32).filter fun l => match (s.thread c w l).st with
    | .waitj _ | .exited | .absent => true
    | _ => false
def State.waitjHolds (s : State) (c w l : Nat) : Bool :=
  match (s.thread c w l).st with
  | .waitj j => s.jreg c w j.toNat &&& ~~~(maskOf (s.waitjLanes c w)) == 0
  | _ => false

/-- Every WAITJ of the warp whose condition holds completes together (R279, R294), unless a commit or a rollback stops the team (R352,
R356). -/
def execWaitjComplete (core warp : Nat) (s : State) : Out :=
  if s.teamStopped core (s.warpTeam core warp) then .next s
  else .next (s.advance core warp ((List.range 32).filter fun l => s.waitjHolds core warp l))

-- Spawning (R275, R276, R295) --------------------------------------------------------------------------------------

/-- The bin that takes a thread: one of its team and entry with room, else an empty one (R275). -/
def Core.binFor (k : Core) (slot : Nat) (entry : DWord) : Option Nat :=
  let takes (n : Nat) : Bool :=
    match k.bins.find n with
    | some b => b.team == slot && b.entry == entry && b.full.isNone && decide (b.args.length < 32)
    | none => false
  match k.bins.find? fun p => takes p.1 with
  | some p => some p.1
  | none => if k.bins.length < coreBins then (List.range coreBins).find? fun n => (k.bins.find n).isNone else none

/-- Places one thread in a bin (R275): a bin that reaches 32 threads is full. -/
def State.placeSpawn (s : State) (c slot : Nat) (entry arg : DWord) : Option State :=
  let k := s.core c
  match k.binFor slot entry with
  | none => none
  | some n =>
    let b := (k.bins.find n).getD { team := slot, entry, args := [], first := s.time, full := none }
    let b1 := { b with args := b.args ++ [arg] }
    let isFull := b1.args.length = 32
    some (s.setCore c
      { k with bins := k.bins.put n (if isFull then { b1 with full := some k.binSeq } else b1),
               binSeq := if isFull then k.binSeq + 1 else k.binSeq })

/-- SPAWN places the present threads in ascending lane order; one that no bin takes waits (R295). It ends the
retryability of a RECOV interval (R355). -/
def execSpawn (h : Head) (a b : Opd) (s : State) : Out :=
  issue (.spawn h a b) h
    (fun s c l =>
      (s.srcTrap c l (targetSrc a ++ wideSrc trapSrc 2 b 2 notPsn)).or
        (if misaligned4 (s.pair c l a) then some (Trap.at_ cMisalign (s.pair c l a).toNat 0) else none))
    (fun s c ls =>
      let s0 := if ls.isEmpty then s else s.endRetry c.core (s.warpTeam c.core c.warp)
      ls.foldl (fun s l =>
        match s.placeSpawn c.core (s.warpTeam c.core c.warp) (s.pair c l a) (s.pair c l b) with
        | some s1 => s1.advance c.core c.warp [l]
        | none => s.modThread c.core c.warp l fun t => { t with st := .spawn (s.pair c l a) (s.pair c l b) }) s0) s

/-- What placing a thread that waits at its SPAWN would give. -/
def State.spawnNow (s : State) (c w l : Nat) : Option State :=
  match (s.thread c w l).st with
  | .spawn entry arg => s.placeSpawn c (s.warpTeam c w) entry arg
  | _ => none

/-- A thread that waits at its SPAWN is placed once a bin can take it, and none of the lower lanes that wait at the same SPAWN could be
placed (R295). -/
def execSpawnPlace (core warp lane : Nat) (s : State) : Out :=
  let pc (l : Nat) : DWord := (s.thread core warp l).pc
  let lower := (List.range lane).any fun l => pc l == pc lane && (s.spawnNow core warp l).isSome
  match s.spawnNow core warp lane with
  | some s1 => if lower || s.teamStopped core (s.warpTeam core warp) then .next s else .next (s1.advance core warp [lane])
  | none => .next s

/-- Registers at a thread's start (R81, R284): V4-V5 a 64-bit value tagged RAW, V2 the private share tagged W32. -/
def State.startRegs (s : State) (c w l share : Nat) (arg : DWord) : State :=
  let n := (s.warp c w).ntile * 8
  let put (s : State) (k : Nat) (x : TWord) : State := if k < n then s.setVreg c w l k x else s
  put (put (put s 4 { bits := arg.setWidth 32, tag := .raw }) 5 { bits := arg.extractLsb' 32 32, tag := .raw }) 2
    { bits := BitVec.ofNat 32 share, tag := .w32 }

/-- The warp slot that a full bin launches into: one of its team whose warp has exited (R276), once no result is outstanding for it and no
write is pending on the tiles that it takes (R140, R383), and no commit or rollback stops the team. -/
def State.binWarp (s : State) (c : Nat) (b : Bin) : Option Nat :=
  match s.team c b.team with
  | none => none
  | some t =>
    if t.stopped || t.ended || b.full.isNone then none
    else t.warps.find? fun w =>
      let k := s.warp c w
      !k.live && !s.resultsOut c w
        && (List.range k.ntile).all fun i => s.owner c (k.tbase + i) != 0x7F || !s.tilePending c (k.tbase + i)

/-- Whether a bin is the next to launch: it can, and none that became full before it can (R276, R281). -/
def State.nextBin (s : State) (c bin : Nat) : Bool :=
  let k := s.core c
  match k.bins.find bin with
  | some b =>
    (s.binWarp c b).isSome && k.bins.all fun p => (s.binWarp c p.2).isNone || decide (b.full.getD 0 ≤ p.2.full.getD 0)
  | none => false

/-- The warp that a bin launches: it takes the FREE tiles of its window, and its registers start anew (R276). V2, V4 and V5 are written into the
tile that holds them whoever owns it, though only FREE tiles are zeroed (DESIGN CHOICE, assumption 75). -/
def execSpawnBinLaunch (core bin : Nat) (s : State) : Out :=
  let k := s.core core
  match k.bins.find bin with
  | none => .next s
  | some b =>
    match s.team core b.team, s.binWarp core b with
    | some t, some w =>
      if !s.nextBin core bin then .next s
      else
        let old := s.warp core w
        let free := (List.range old.ntile).filter fun i => s.owner core (old.tbase + i) == 0x7F
        let s1 := free.foldl (fun s i =>
          { (s.setOwner core (old.tbase + i) (ownerCode w)) with
            regs := (s.regs.cut (regKey core (old.tbase + i) 0) (regKey core (old.tbase + i + 1) 0)) }) s
        let s2 : State :=
          { s1 with sregs := s1.sregs.cut (sregKey core w 0) (sregKey core (w + 1) 0) }
        let s3 := s2.setWarp core w { Warp.idle with
          live := true, team := b.team, tbase := old.tbase, ntile := old.ntile, syncs := old.syncs, retired := old.retired }
        let s4 := (List.range 32).foldl (fun s l =>
          match b.args[l]? with
          | some arg => (s.setThread core w l (Thread.start b.entry s.time)).startRegs core w l t.share arg
          | none => s.setThread core w l { Thread.absent with st := .exited }) s3
        .next (s4.modCore core fun k => { k with bins := k.bins.erase bin })
    | _, _ => .next s

/-- 2,048 cycles after its first thread, a bin launches as it stands (R276). -/
def execSpawnBinTimer (core bin : Nat) (s : State) : Out :=
  let k := s.core core
  match k.bins.find bin with
  | none => .next s
  | some b =>
    if b.full.isSome || decide (s.time < b.first + k.binTimer) then .next s
    else .next (s.setCore core { k with bins := k.bins.put bin { b with full := some k.binSeq }, binSeq := k.binSeq + 1 })

-- Yield, traps, checks (R297-R300) ---------------------------------------------------------------------------------

/-- YIELD: the warp issues in this clock, and may not in the next max(n, 1) (R297). -/
def execYield (h : Head) (n : Word) (s : State) : Out :=
  issue (.yield h n) h (fun _ _ _ => none)
    (fun s c ls =>
      if ls.isEmpty then s
      else
        (s.modWarp c.core c.warp fun k => { k with inelig := s.clock + max n.toNat 1 + 1, waited := 0 }).advance c.core c.warp ls) s

/-- The ineligibility of a warp ends when its clock has come (R277, R297). -/
def execYieldExpiry (core warp : Nat) (s : State) : Out :=
  if s.clock ≥ (s.warp core warp).inelig then .next (s.modWarp core warp fun k => { k with inelig := 0 }) else .next s

def execTrap (h : Head) (code : Word) (s : State) : Out :=
  issue (.trap h code) h (fun _ _ _ => some (Trap.plain (code.setWidth 8))) (fun s _ _ => s) s

def execBkpt (h : Head) (n : Word) (s : State) : Out :=
  issue (.bkpt h n) h (fun _ _ _ => some { Trap.plain cBreak with info := n.toNat }) (fun s _ _ => s) s

/-- CHK of a PSN word takes the deferred fault, or POISON_USE without one (R300, R340). -/
def chkTrap (s : State) (c : Cur) (l : Nat) (a : Opd) : Option Trap :=
  let x := s.opd c l a
  let t := s.thread c.core c.warp l
  if x.tag == .psn then
    if t.dfV then some { cause := t.dfCause, info := 0, addr := t.dfAddr, aux := 0, defd := true }
    else some { Trap.plain cPoison with info := 0x1F }
  else none
def execChk (h : Head) (a : Opd) (s : State) : Out :=
  issue (.chk h a) h (fun s c l => chkTrap s c l a) (fun s c ls => s.advance c.core c.warp ls) s

end Sys2Proof.Machine
end

