-- ==== Sys2Proof/Machine/Barriers.lean ====
section
/-!
DEFINITION. Sys2Proof/Machine/Barriers.lean: byte-counting barriers (R218-R222), group barriers (R223), the synchronisations that REPLAY
logs (R367, R368), and the commit points of RECOV (R352).
-/
namespace Sys2Proof.Machine

-- The barrier object (Table 9.6, R219) -----------------------------------------------------------------------------

structure Bar where
  phase : Nat
  expa : Nat
  arrd : Nat
  tgt : Nat
  flags : Nat
  land : Nat
  nxta : Nat
deriving DecidableEq, Repr

def Bar.ofBytes (bs : List Byte) : Bar :=
  let f (o n : Nat) : Nat := leNat ((bs.drop o).take n)
  { phase := f 0 4, expa := f 4 2, arrd := f 6 2, tgt := f 8 6, flags := f 14 2, land := f 16 6, nxta := f 22 2 }
def Bar.bytes (b : Bar) : List Byte :=
  leBytes 4 b.phase ++ leBytes 2 b.expa ++ leBytes 2 b.arrd ++ leBytes 6 b.tgt ++ leBytes 2 b.flags ++ leBytes 6 b.land ++
    leBytes 2 b.nxta

def Bar.err (b : Bar) : Bool := b.flags.testBit 0
def Bar.setErr (b : Bar) : Bar := { b with flags := b.flags ||| 1 }
/-- The scope: 0 CORE, otherwise CLUSTER. -/
def Bar.scope (b : Bar) : Nat := b.flags / 256

/-- check() of R219; carried arrivals may complete at once, so it runs again after a completion. -/
def Bar.check : Nat → Bar → Bar
  | 0, b => b
  | fuel + 1, b =>
    if b.err then b
    else if b.land ≥ 2 ^ 48 ∨ b.tgt ≥ 2 ^ 48 then b.setErr
    else if b.expa = 0 then b.setErr
    else if b.arrd = b.expa then
      if b.land > b.tgt then b.setErr
      else if b.land = b.tgt then
        Bar.check fuel { b with phase := (b.phase + 1) % 2 ^ 32, arrd := b.nxta, nxta := 0, land := 0, tgt := 0 }
      else b
    else b

/-- The actions of R219 with the check each runs. A posting that follows a fault sets ERR first, and is not counted
(R215). -/
def Bar.act (b : Bar) (a : BarAct) : Bar :=
  match a with
  | .arrive =>
    if b.arrd < b.expa then Bar.check 3 { b with arrd := b.arrd + 1 }
    else
      let b1 := { b with nxta := b.nxta + 1, flags := b.flags ||| 2 }
      Bar.check 3 (if b1.nxta > b1.expa then b1.setErr else b1)
  | .expect n => Bar.check 3 { b with tgt := b.tgt + n }
  | .post n err => if err then b.setErr else if b.err then b else Bar.check 3 { b with land := b.land + n }

/-- An action from a core on the object of another: one of scope CORE refuses it, and sets ERR. The second component
says that the action found ERR or was refused. -/
def Bar.apply (b : Bar) (a : BarAct) (far : Bool) : Bar × Bool :=
  if far && b.scope == 0 then (b.setErr, true)
  else
    match a with
    | .post .. => (b.act a, false)
    | _ => if b.err then (b, true) else (b.act a, false)

/-- The object at an offset of a window. -/
def State.bar (s : State) (core win ofs : Nat) : Bar := Bar.ofBytes (Memory.read s.scratch (scrKey core (win + ofs)) 24)
def State.setBar (s : State) (core win ofs : Nat) (b : Bar) : State :=
  { s with scratch := Memory.write s.scratch (scrKey core (win + ofs)) b.bytes }

/-- Writes all 32 bytes of an object, whose last 8 are reserved and read as 0: its sector is no longer marked (R214, R220). -/
def State.initBar (s : State) (core win ofs : Nat) (b : Bar) : State :=
  { s with
    scratch := Memory.write s.scratch (scrKey core (win + ofs)) (b.bytes ++ List.replicate 8 0)
    scrPsn := Marks.covered s.scrPsn (core * 12288) (win + ofs) 32 }

-- Checks of the barrier instructions (R218, R224) ------------------------------------------------------------------

/-- The window offset of a warp's team. -/
def State.scrWin (s : State) (c : Cur) : Nat := ((s.teamOf c.core c.warp).map (·.scr)).getD 0

/-- MISALIGN and PROTECTION of a barrier object in the own window, or in that of a remote address. -/
def State.barTrap (s : State) (c : Cur) (rem : Bool) (o : Nat) (writes : Bool) : Option Trap :=
  (alignTrap 32 o writes false).or (if rem then s.remoteTrap c 32 o writes false else extentTrap 32 o (s.scrExtent c) writes false)

def barErr (o : Nat) : Trap := Trap.at_ cBarErr o 0

/-- Whether an object lies in a marked sector of a RECOV team's window: the team consumes an uncorrectable error where an action reads it (R356). -/
def State.barMarked (s : State) (core : Nat) (t : Team) (o : Nat) : Bool := t.recov.isSome && Marks.any s.scrPsn (scrSector core (t.scr + o)) 1
def State.barBad (s : State) (c : Cur) (o : Nat) : Bool :=
  match s.teamOf c.core c.warp with
  | some t => s.barMarked c.core t o
  | none => false

/-- The same for an action on the window of some team of a launch: that team rolls back or fails. -/
def State.strikeBar (s : State) (launch core win o : Nat) : State :=
  match s.windowTeam launch core win with
  | some m => if s.barMarked core m.2 o then s.rollback core m.1 else s
  | none => s

/-- BAR_ERR of an object whose ERR is set; a RECOV team that cannot read it rolls back instead (R356). -/
def State.errTrap (s : State) (c : Cur) (o : Nat) : Option Trap :=
  if s.barBad c o then none else if (s.bar c.core (s.scrWin c) o).err then some (barErr o) else none

def execBinit (h : Head) (sc : Scope) (a b : Opd) (ofs : BitVec 24) (s : State) : Out :=
  issue (.binit h sc a b ofs) h
    (fun s c l =>
      (s.srcTrap c l [trapSrc 1 a isAddr, trapSrc 2 b notPsn]).or (s.barTrap c false (s.lofs c l a ofs) true))
    (fun s c ls =>
      let items := ls.map fun l => (s.lofs c l a ofs, (s.bits c l b).toNat)
      (items.foldl (fun s p =>
        let scope := if sc = .core then 0 else 256
        let bad := p.2 = 0 ∨ p.2 > 65535
        s.initBar c.core (s.scrWin c) p.1
          { phase := 0, expa := p.2 % 65536, arrd := 0, tgt := 0, flags := scope + (if bad then 1 else 0), land := 0, nxta := 0 })
        s).advance c.core c.warp ls) s

/-- A barrier action leaves for the object's core, and its threads wait for the answer (R219). -/
def State.sendBarrier (s : State) (c : Cur) (addr : Nat) (act : BarAct) (d : Option Opd) (ls : List Nat) : State :=
  match ls, s.remote c addr with
  | l :: _, some m =>
    let (id, s1) := s.send c.core c.warp l plainAttr (remoteOfs addr) (remoteOfs addr)
      (.barrier m.1 m.2.2.scr (remoteOfs addr) act d) false
    ls.foldl (fun s l => s.modThread c.core c.warp l fun t => { t with st := .answer id }) s1
  | _, _ => s

def execExpect (h : Head) (rem : Bool) (a b : Opd) (ofs : BitVec 24) (s : State) : Out :=
  issueWith (.expect h rem a b ofs) h
    (fun s c l =>
      (s.srcTrap c l [trapSrc 1 a isAddr, trapSrc 2 b notPsn]).or (s.barTrap c rem (s.lofs c l a ofs) true))
    (fun s c ls =>
      let items := ls.map fun l => (l, s.lofs c l a ofs, (s.bits c l b).toNat)
      if rem then
        let s0 := if ls.isEmpty then s else s.crossTeams c
        (items.foldl (fun s p => s.sendBarrier c p.2.1 (.expect p.2.2) none [p.1]) s0, [])
      else if items.any fun p => s.barBad c p.2.1 then (s.rollback c.core (s.warpTeam c.core c.warp), [])
      else
        items.foldl (fun acc p =>
          let (b1, no) := (acc.1.bar c.core (acc.1.scrWin c) p.2.1).apply (.expect p.2.2) false
          let s1 := acc.1.setBar c.core (acc.1.scrWin c) p.2.1 b1
          if no then (s1, acc.2 ++ [(p.1, barErr p.2.1)]) else (s1.advance c.core c.warp [p.1], acc.2)) (s, [])) s

/-- The lanes that arrive, each with the lanes it stands for (R221). -/
def arrivals (warp : Bool) (ls : List Nat) : List (Nat × List Nat) :=
  if warp then
    match ls with
    | l :: _ => [(l, ls)]
    | [] => []
  else ls.map fun l => (l, [l])

/-- ARRIVE. It issues only when every earlier access that its release covers is performed (assumption 6). -/
def execArrive (h : Head) (rlx warp rem : Bool) (d a : Opd) (ofs : BitVec 24) (s : State) : Out :=
  issueWith (.arrive h rlx warp rem d a ofs) h
    (fun s c l => (s.srcTrap c l [trapSrc 1 a isAddr]).or (s.barTrap c rem (s.lofs c l a ofs) true))
    (fun s c ls =>
      let items := (arrivals warp ls).map fun p => (p.2, s.lofs c p.1 a ofs)
      if rem then
        let s0 := if ls.isEmpty then s else s.crossTeams c
        (items.foldl (fun s p => s.sendBarrier c p.2 .arrive (some d) p.1) s0, [])
      else if items.any fun p => s.barBad c p.2 then (s.rollback c.core (s.warpTeam c.core c.warp), [])
      else
        let r := items.foldl (fun (acc : State × List (Nat × List TWord) × List (Nat × Trap)) p =>
          let b0 := acc.1.bar c.core (acc.1.scrWin c) p.2
          let (b1, no) := b0.apply .arrive false
          let s1 := acc.1.setBar c.core (acc.1.scrWin c) p.2 b1
          if no then (s1, acc.2.1, acc.2.2 ++ p.1.map fun l => (l, barErr p.2))
          else (s1, acc.2.1 ++ p.1.map fun l => (l, one .w32 (BitVec.ofNat 32 b0.phase)), acc.2.2)) (s, [], [])
        ((r.1.writeDst c d r.2.1).advance c.core c.warp (r.2.1.map (·.1)), r.2.2)) s

/-- An S destination has its value from the lowest lane of its issue that arrived: the others' answers leave it (R96, R221). -/
def State.onlyLowest (s : State) (r : Req) : State :=
  { s with
    reqs := s.reqs.map fun q =>
      match q.act with
      | .barrier home win ofs act (some (.s _)) =>
        if q.core == r.core && q.warp == r.warp && q.sentAt == r.sentAt then { q with act := .barrier home win ofs act (some .z) } else q
      | _ => q }

/-- REMOTE_BARRIER_ACTION: an action that crosses cores is performed at the object (R177, R219), and its threads take the
answer. Actions of one warp keep their order, and wait while their team is off its core. None reaches a window that its launch has no longer
(R315). -/
def execRemoteBarrierAction (id : Nat) (s : State) : Out :=
  match s.req id with
  | none => .next s
  | some r =>
    match r.act with
    | .barrier home win ofs act d =>
      let resident := s.isResident r.core r.warp r.launch r.team
      let first := s.reqs.all fun q => !(q.core == r.core && q.warp == r.warp && (match q.act with | .barrier .. => true | _ => false)) || decide (id ≤ q.id)
      if s.passes r.ahead r.ctx r.inc && (!first || (d.isSome && !resident)) then .next s
      else .next <| s.atWindow r home win fun m =>
        let s0 := if home = r.core then s else s.reached home m.1
        let b0 := s0.bar home win ofs
        let (b1, no) := b0.apply act (home != r.core)
        let s1 := (s0.setBar home win ofs b1).dropReq id
        let ls := (List.range 32).filter fun l => (s1.thread r.core r.warp l).st == .answer id
        let s2 :=
          if !resident then s1
          else if no then s1.takeTraps r.core r.warp (ls.map fun l => (l, barErr ofs))
          else
            let s2 := match d with
              | some d => (ls.foldl (fun (s : State) l =>
                  s.deliver { r.dest with lane := l } (laneDst d ls l) { bits := BitVec.ofNat 32 b0.phase, tag := .w32 }) s1).onlyLowest r
              | none => s1
            s2.advance r.core r.warp ls
        s2.strikeBar r.launch home win ofs
    | _ => .next s

-- Synchronisations under REPLAY (R367, R368) -----------------------------------------------------------------------

/-- A warp completes a synchronisation in some lanes: its count is logged or compared. DIVERGE comes before the STEP of the same completion
(R364, R368). -/
def State.synchronise (s : State) (core w : Nat) (ls : List Nat) : State :=
  match s.teamOf core w, s.launchOf core w with
  | some t, some l =>
    if !l.replay || w = 64 || ls.isEmpty then s
    else
      let k := s.warp core w
      let s1 := s.modWarp core w fun k => { k with syncs := k.syncs + 1 }
      let log := l.cmpl + 4128
      let ix := 16 * t.index + (t.warps.findIdx (· == w))
      if l.cmpl = 0 then s1
      else match s.readVirt (dieOf core) l.ctx (·.r) log 8 with
        | none => s1
        | some hd =>
          let n := leNat (hd.drop 4)
          let va := log + 16 + 8 * (ix * n + k.syncs)
          if k.syncs ≥ n then s1
          else if leNat (hd.take 4) = 0 then
            match s.translate (dieOf core) l.ctx va, ls with
            | .ok _ a, lane :: _ =>
              if a.w && !a.doc then s1.sendStore core w lane a va (a.phys va) (valBytes 8 k.retired) else s1
            | _, _ => s1
          else
            match s.readVirt (dieOf core) l.ctx (·.r) va 8 with
            | some e =>
              if bytesVal e = k.retired then s1
              else
                let still := ls.filter fun x => (s1.thread core w x).st == .ready
                s1.takeTraps core w (still.map fun x => (x, { Trap.plain cDiverge with info := l.gid t.index 0 }))
            | none => s1
  | _, _ => s

-- Commit points (R352) ---------------------------------------------------------------------------------------------

/-- The bundle at which a sequencer stands holds RETIREPT. -/
def Seq.atRetireBundle (q : Seq) : Bool :=
  match q.halves.find? fun h => h.seg == q.pos.seg with
  | some h =>
    match decodeBundle (h.bundles.getD q.pos.idx []) with
    | .ok (b, _) => b.words.any fun w => match w.2 with
      | .ok i => i == .retirept
      | .error _ => false
    | .error _ => false
  | none => false

/-- Whether a team's threads all wait in BWAIT or GBAR, with none parked, and its sequencer stands still. -/
def State.quiescent (s : State) (core : Nat) (t : Team) : Bool :=
  let q := (s.core core).seq
  t.warps.all (fun w => (List.range 32).all fun l => match (s.thread core w l).st with
    | .absent | .exited | .bwait .. | .gbar .. => true
    | _ => false)
  && (!t.seq || (q.halt && q.record.isNone) || (q.stalled.isSome && q.atRetireBundle))

/-- A commit performs the held stores first (R354): it notes the numbers of the requests that carry them. -/
def State.startCommit (s : State) (core slot : Nat) : State :=
  let s1 := s.releaseHeld core slot
  s1.modTeam core slot fun t => { t with recov := t.recov.map fun r => { r with commit := some (s.nextId, s1.nextId) } }

/-- Whether the held bytes of a commit are all performed. -/
def State.commitReady (s : State) (core slot : Nat) : Bool :=
  match s.team core slot with
  | some { recov := some { commit := some (lo, hi), .. }, .. } => s.reqs.all fun q => !decide (lo ≤ q.id ∧ q.id < hi)
  | _ => false

/-- Begins a retryable interval once they are. -/
def State.endCommit (s : State) (core slot : Nat) : State :=
  s.modTeam core slot fun t => { t with recov := some { retry := true, rolls := 0, held := [], commit := none, rolling := false } }

/-- A team on its way back to its checkpoint. -/
def Team.rolling (t : Team) : Bool := t.stopped && !t.committing

/-- Completes waits of a team, unless it is on its way back to its checkpoint; at a commit point the held stores are performed first and the
checkpoint is taken after (R352, R353, R355). Until they are, the waits stand. -/
def State.releaseWaits (s : State) (core slot : Nat) (go : State → State) : State :=
  match s.team core slot with
  | some t =>
    if t.rolling then s
    else if t.recov.isSome && s.quiescent core t then
      let s1 := if t.committing then s else s.startCommit core slot
      if s1.commitReady core slot then (go (s1.endCommit core slot)).checkpoint core slot else s1
    else go s
  | none => s

/-- Whether a team can complete a wait: neither on its way back to a checkpoint nor (but for its commit) committing. -/
def State.waitsEnd (s : State) (core slot : Nat) : Bool :=
  match s.team core slot with
  | some { recov := some r, .. } => !r.rolling
  | _ => true

-- BWAIT and BTEST (R222) -------------------------------------------------------------------------------------------

def execBwait (h : Head) (d a b : Opd) (ofs : BitVec 24) (s : State) : Out :=
  issue (.bwait h d a b ofs) h
    (fun s c l =>
      (s.srcTrap c l (trapSrc 1 a isAddr :: wideSrc trapSrc 2 b 2 notPsn)).or
        ((s.barTrap c false (s.lofs c l a ofs) false).or (s.errTrap c (s.lofs c l a ofs))))
    (fun s c ls =>
      s.orRollback c (ls.any fun l => s.barBad c (s.lofs c l a ofs)) <| ls.foldl (fun s l =>
        s.modThread c.core c.warp l fun t =>
          { t with st := .bwait (laneDst d ls l) (s.lofs c l a ofs) (s.bits c l b) (s.bits c l (b.next 1)) s.time }) s) s

/-- Whether a thread waits in a BWAIT whose phase has changed, and whether its deadline has passed. -/
def State.bwaitBar (s : State) (core w : Nat) (ofs : Nat) : Bar := s.bar core ((s.teamOf core w).map (·.scr) |>.getD 0) ofs
def State.bwaitMarked (s : State) (core w l : Nat) : Bool :=
  match (s.thread core w l).st, s.teamOf core w with
  | .bwait _ ofs _ _ _, some t => s.barMarked core t ofs
  | _, _ => false
def State.bwaitDone (s : State) (core w l : Nat) : Bool :=
  !s.bwaitMarked core w l && match (s.thread core w l).st with
  | .bwait _ ofs p _ _ => decide ((s.bwaitBar core w ofs).phase ≠ p.toNat) && !(s.bwaitBar core w ofs).err
  | _ => false
def State.bwaitErr (s : State) (core w l : Nat) : Option Nat :=
  if s.bwaitMarked core w l then none
  else match (s.thread core w l).st with
  | .bwait _ ofs _ _ _ => if (s.bwaitBar core w ofs).err then some ofs else none
  | _ => none
def State.bwaitLate (s : State) (core w l : Nat) : Bool :=
  match (s.thread core w l).st with
  | .bwait _ _ _ t issue => decide (t ≠ 0) && decide (issue + t.toNat ≤ s.time)
  | _ => false

/-- Lanes that wait in the same BWAIT of a warp as a lane. -/
def State.sameWait (s : State) (core w l : Nat) : List Nat :=
  (List.range 32).filter fun k => match (s.thread core w k).st, (s.thread core w l).st with
    | .bwait .., .bwait .. => (s.thread core w k).pc == (s.thread core w l).pc
    | _, _ => false

/-- Writes D of a waiting thread. -/
def State.bwaitResult (s : State) (core w : Nat) (v : Word) (ls : List Nat) : State :=
  ls.foldl (fun s l => match (s.thread core w l).st with
    | .bwait d .. => s.setOpd core w l d { bits := v, tag := .w32 }
    | _ => s) s

/-- Threads complete a synchronisation: they retire it, its check follows, and those that take no DIVERGE take STEP where their warp steps
(R364, R367, R368). -/
def State.endSync (s : State) (core w : Nat) (ls : List Nat) : State :=
  let s1 := (s.pass core w ls).synchronise core w ls
  s1.stepped core w (ls.filter fun l => (s1.thread core w l).st == .ready)

/-- Completes the BWAITs of a warp whose phase has changed, at one program counter: one synchronisation (R367). -/
def State.passBwait (s : State) (core w : Nat) (ls : List Nat) : State := (s.bwaitResult core w 0 ls).endSync core w ls

/-- BWAIT_COMPLETE: D = 0 on a changed phase, BAR_ERR under ERR. A RECOV team that cannot read the object rolls back (R356). -/
def execBwaitComplete (core warp lane : Nat) (s : State) : Out :=
  if !s.waitsEnd core (s.warpTeam core warp) then .next s
  else if s.bwaitMarked core warp lane then .next (s.rollback core (s.warpTeam core warp))
  else match s.bwaitErr core warp lane with
  | some ofs =>
    if s.teamStopped core (s.warpTeam core warp) then .next s
    else .next (s.takeTraps core warp (((s.sameWait core warp lane).filter fun l => s.bwaitErr core warp l == some ofs).map fun l => (l, barErr ofs)))
  | none =>
    if s.bwaitDone core warp lane then
      .next (s.releaseWaits core (s.warpTeam core warp) fun s =>
        s.passBwait core warp ((s.sameWait core warp lane).filter fun l => s.bwaitDone core warp l))
    else .next s

/-- BWAIT_TIMEOUT: D = 1 once the deadline has passed; D = 0 stands if the phase has changed as well. -/
def execBwaitTimeout (core warp lane : Nat) (s : State) : Out :=
  if s.teamStopped core (s.warpTeam core warp) || !s.bwaitLate core warp lane || (s.bwaitErr core warp lane).isSome || s.bwaitDone core warp lane then .next s
  else if s.bwaitMarked core warp lane then .next (s.rollback core (s.warpTeam core warp))
  else .next ((s.bwaitResult core warp 1 [lane]).advance core warp [lane])

def execBtest (h : Head) (d a b : Opd) (ofs : BitVec 24) (s : State) : Out :=
  issue (.btest h d a b ofs) h
    (fun s c l =>
      (s.srcTrap c l [trapSrc 1 a isAddr, trapSrc 2 b notPsn]).or
        ((s.barTrap c false (s.lofs c l a ofs) false).or (s.errTrap c (s.lofs c l a ofs))))
    (fun s c ls =>
      s.orRollback c (ls.any fun l => s.barBad c (s.lofs c l a ofs)) <| (s.writeDst c d (ls.map fun l =>
        (l, one .w32 (if (s.bar c.core (s.scrWin c) (s.lofs c l a ofs)).phase = (s.bits c l b).toNat then 0 else 1)))).advance
        c.core c.warp ls) s

-- GBAR (R223) ------------------------------------------------------------------------------------------------------

/-- %gidk of a warp's team. -/
def State.gidOf (s : State) (core w k : Nat) : Nat :=
  match s.teamOf core w, s.launchOf core w with
  | some t, some l => l.gid t.index k
  | _, _ => 0xFF

/-- Whether each unexited warp of a team has a thread waiting at a group's barrier. A team whose warps have all exited but that has not
ended, its sequencer running or a bin pending, has not arrived (DESIGN CHOICE, assumption 59). -/
def gbarArrived (threads : Store Thread) (warps : Store Warp) (core : Nat) (t : Team) (l : Launch) (g : Nat) : Bool :=
  t.warps.any (fun w => (warps.get Warp.idle (warpKey core w)).live)
  && t.warps.all fun w =>
    !(warps.get Warp.idle (warpKey core w)).live
      || (List.range 32).any fun x => match (threads.get Thread.absent (thrKey core w x)).st with
        | .gbar _ k => l.gid t.index k.toNat == g
        | _ => false

/-- Records the arrival of a team at its groups' barriers, but for one that it is owed a completion of. -/
def State.noteArrival (s : State) (core slot : Nat) : State :=
  match s.team core slot with
  | none => s
  | some t =>
    s.modLaunch t.launch fun l =>
      (l.gidsOf t.index).foldl (fun l g =>
        if gbarArrived s.threads s.warps core t l g then
          let b := l.gbars.get GBar.start g
          if b.owed.contains t.index then l
          else { l with gbars := l.gbars.set GBar.start g { b with arrived := if b.arrived.contains t.index then b.arrived else t.index :: b.arrived } }
        else l) l

/-- Resumes the threads of a resident team that wait at a group's barrier, with D the earlier completions. -/
def State.endGbar (s : State) (core slot : Nat) (t : Team) (l : Launch) (g count : Nat) : State :=
  s.releaseWaits core slot fun s =>
    t.warps.foldl (fun s w =>
      let ls := (List.range 32).filter fun x => match (s.thread core w x).st with
        | .gbar _ k => l.gid t.index k.toNat == g
        | _ => false
      let s1 := ls.foldl (fun s x => match (s.thread core w x).st with
        | .gbar d _ => s.setOpd core w x d { bits := BitVec.ofNat 32 count, tag := .w32 }
        | _ => s) s
      s1.endSync core w ls) s

/-- The members of a group, and the failed teams. -/
def Group.members (g : Group) : List Nat := (List.range g.count).map fun i => g.first + i * g.stride
def Launch.overTeam (l : Launch) (t : Nat) : Bool := l.endedTeams.contains t || l.failures.any fun f => f.team == t

/-- Where a team of a launch is: on a core, or in the save area. -/
def State.teamAt (s : State) (launch index : Nat) : Option (Nat × Nat × Team) :=
  s.cores.findSome? fun k => (k.2.teams.find? fun p => p.2.launch == launch && p.2.index == index).map fun p => (k.1, p.1, p.2)
def State.imageOf (s : State) (launch index : Nat) : Option TeamImage :=
  s.images.find? fun i => i.launch == launch && i.index == index

/-- Whether a member has arrived: recorded, waiting now, or ended or failed. One that has still to take an earlier completion has not
arrived again, nor has one that goes back to its checkpoint. -/
def State.memberIn (s : State) (n : Nat) (l : Launch) (g t : Nat) : Bool :=
  let b := l.gbars.get GBar.start g
  l.overTeam t
    || (!b.owed.contains t
      && match s.teamAt n t with
        | some m => !m.2.2.rolling && (b.arrived.contains t || gbarArrived s.threads s.warps m.1 m.2.2 l g)
        | none =>
          match s.imageOf n t with
          | some i => !i.team.rolling && (b.arrived.contains t || gbarArrived i.img.threads i.img.warps i.core i.team l g)
          | none => false)

/-- Whether a team is owed a completion of some group. -/
def Launch.owes (l : Launch) (index : Nat) : Bool := (l.gidsOf index).any fun g => (l.gbars.get GBar.start g).owed.contains index

/-- A team on its core takes the completions it is owed, with D the number of earlier ones; a RECOV team first commits. -/
def State.settleGbars (s : State) (core slot : Nat) : State :=
  match s.team core slot with
  | none => s
  | some t =>
    match s.launch t.launch with
    | none => s
    | some l =>
      (l.gidsOf t.index).foldl (fun s g =>
        let b := l.gbars.get GBar.start g
        if !b.owed.contains t.index || !gbarArrived s.threads s.warps core t l g then s
        else
          let s1 := s.endGbar core slot t l g (b.count - 1)
          if s1.teamStopped core slot then s1
          else
            s1.modLaunch t.launch fun l =>
              { l with gbars := l.gbars.set GBar.start g { b with owed := (l.gbars.get GBar.start g).owed.filter (· != t.index) } }) s

/-- GBAR. A team that is owed a completion takes it as it arrives (R223, R356). -/
def execGbar (h : Head) (k : BitVec 2) (d : Opd) (s : State) : Out :=
  issue (.gbar h k d) h
    (fun s c _ => if s.gidOf c.core c.warp k.toNat = 0xFF then some (barErr 0) else none)
    (fun s c ls =>
      let slot := s.warpTeam c.core c.warp
      ((ls.foldl (fun s l => s.modThread c.core c.warp l fun t => { t with st := .gbar (laneDst d ls l) k }) s).noteArrival
        c.core slot).settleGbars c.core slot) s

/-- Whether every team of a group has arrived, one that waits among them. -/
def State.gbarFull (s : State) (launch : Nat) (l : Launch) (group : Nat) : Bool :=
  match l.groups[group]? with
  | none => false
  | some g => (g.members.all fun t => s.memberIn launch l group t) && g.members.any fun t => !l.overTeam t

/-- The stores that a team off its core holds are released; the interval they are of can be retried no longer (R355). -/
def State.releaseAway (s : State) (launch index : Nat) : State :=
  match s.imageOf launch index with
  | some i =>
    match i.team.recov with
    | some r =>
      let s1 := r.held.foldl (fun s h => s.performHeld (s.teamSender launch index) i.core h) s
      { s1 with
        images := replaceIf (fun i => i.launch == launch && i.index == index)
          (fun i => { i with team := { i.team with recov := some { r with retry := false, held := [] } } }) s1.images }
    | none => s
  | none => s

/-- The arrival of a RECOV team is a release at PKG scope of what it holds (R223, R354): a team at a commit point begins its commit, any other
ends its retryability (DESIGN CHOICE, assumption 70). -/
def State.readyMember (s : State) (launch index : Nat) : State :=
  match s.teamAt launch index with
  | some (core, slot, t) =>
    if t.recov.isNone || t.committing then s else if s.quiescent core t then s.startCommit core slot else s.endRetry core slot
  | none => if ((s.imageOf launch index).bind fun i => i.team.recov.map fun r => r.held.isEmpty).getD true then s else s.releaseAway launch index

/-- Whether stores that a team has released so are still to be performed. -/
def State.releasing (s : State) (launch index : Nat) : Bool :=
  s.reqs.any fun r => r.launch == launch && r.team == index && r.turn.isSome && r.unfixed

/-- GBAR_COMPLETE: every team of the group has arrived, and what the RECOV teams among them held is performed. Teams off their cores resume when
they are back. -/
def execGbarComplete (launch group : Nat) (s : State) : Out :=
  match s.launch launch with
  | none => .next s
  | some l =>
    match l.groups[group]? with
    | none => .next s
    | some g =>
      if !s.gbarFull launch l group then .next s
      else
        let b := l.gbars.get GBar.start group
        let waiting := g.members.filter fun t => !l.overTeam t
        let s0 := waiting.foldl (fun s t => s.readyMember launch t) s
        if waiting.any (s0.releasing launch) then .next s0
        else
          let s1 := s0.modLaunch launch fun l =>
            { l with gbars := l.gbars.set GBar.start group { arrived := [], count := b.count + 1, owed := waiting } }
          .next (waiting.foldl (fun s t => match s.teamAt launch t with
            | some m => s.settleGbars m.1 m.2.1
            | none => s) s1)

/-- Warps with a BWAIT that its barrier ends. -/
def State.waitsDone (s : State) (core : Nat) (t : Team) : List Nat :=
  t.warps.filter fun w => (List.range 32).any fun l => s.bwaitDone core w l

/-- COMMIT: a RECOV team at a commit point completes the waits that its barriers end, after its held stores and before its
new checkpoint (R352-R354). team is the slot of the team on the core. -/
def execCommit (core team : Nat) (s : State) : Out :=
  match s.team core team with
  | none => .next s
  | some t =>
    let owed := ((s.launch t.launch).map fun l => l.owes t.index).getD false
    if t.recov.isNone || !s.waitsEnd core team || !s.quiescent core t || ((s.waitsDone core t).isEmpty && !owed) then .next s
    else if owed then .next (s.settleGbars core team)
    else
      .next (s.releaseWaits core team fun s =>
        (s.waitsDone core t).foldl (fun s w =>
          ((List.range 32).foldl (fun s l =>
            if s.bwaitDone core w l then s.passBwait core w ((s.sameWait core w l).filter fun k => s.bwaitDone core w k) else s) s)) s)

/-- An uncorrectable error while a checkpoint is written at a commit point: the team fails with WHY 3 (Table 17.2); the bytes
that the commit has performed stand (R357). -/
def State.strikeCommit (s : State) (core slot : Nat) : State :=
  match s.team core slot with
  | some t =>
    let full := ((s.launch t.launch).map fun l => l.owes t.index || (l.gidsOf t.index).any (s.gbarFull t.launch l)).getD false
    if t.recov.isSome && s.quiescent core t && (full || t.committing || !(s.waitsDone core t).isEmpty) then
      (if t.committing then s else s.startCommit core slot).failTeam core slot 3
    else s
  | none => s

end Sys2Proof.Machine
end

