-- ==== Sys2Proof/Machine/Copies.lean ====
section
/-!
DEFINITION. Sys2Proof/Machine/Copies.lean: asynchronous copies (R211-R217): CPY and CPYT, the motion of their 16-byte units, and their
end with status word and posting. The units of copy packets move in the same way.
-/
namespace Sys2Proof.Machine

-- Tensor descriptors (Table 9.5, R217) -----------------------------------------------------------------------------

structure Tensor where
  base : Nat
  ext : List Nat
  str : List Nat
  box : List Nat
  esz : Nat
  fill : List Byte
  tidx : List Nat
deriving DecidableEq, Repr

/-- A descriptor of 64 bytes; none where it breaks the limits of its table, or its tile is no multiple of 16 bytes. -/
def Tensor.parse (bs : List Byte) : Option Tensor :=
  let f (o n : Nat) : Nat := leNat ((bs.drop o).take n)
  let dims := [0, 1, 2, 3, 4]
  let ndim := f 49 1
  let e := 2 ^ (f 50 1 % 4)
  let ext := dims.map fun d => f (8 + 4 * d) 4
  let str := dims.map fun d => if d = 0 then 1 else f (24 + 4 * d) 4
  let box := dims.map fun d => f (44 + d) 1
  let above := dims.filter fun d => decide (ndim ≤ d)
  let ok := decide (1 ≤ ndim ∧ ndim ≤ 5) && decide (f 50 1 < 4) && f 51 1 == 0 && decide (f 56 8 < 2 ^ 60) && f 0 8 % e == 0
    && above.all (fun d => ext.getD d 0 == 1 && (d == 0 || str.getD d 0 == 0) && box.getD d 0 == 0)
    && e * (box.foldl (fun n b => n * (b + 1)) 1) % 16 == 0
  if ok then
    some { base := f 0 8, ext, str, box := box.map (· + 1), esz := e, fill := (leBytes 8 (f 52 4)).take e,
           tidx := dims.map fun d => f 56 8 / 2 ^ (12 * d) % 4096 }
  else none

def Tensor.bytes (t : Tensor) : Nat := t.esz * t.box.foldl (· * ·) 1

/-- The indices of an element of the tile, and its source address; none outside the tensor. -/
def Tensor.indices : List Nat → List Nat → Nat → List Nat
  | b :: bs, i :: is, q => (i * b + q % b) :: Tensor.indices bs is (q / b)
  | _, _, _ => []
def Tensor.addr (t : Tensor) (q : Nat) : Option Nat :=
  let ix := Tensor.indices t.box t.tidx q
  if (ix.zip t.ext).all fun p => decide (p.1 < p.2) then
    some ((t.base + t.esz * ((ix.zip t.str).foldl (fun n p => n + p.1 * p.2) 0)) % 2 ^ 64)
  else none

-- Units ------------------------------------------------------------------------------------------------------------

def CopyEnd.plus (e : CopyEnd) (n : Nat) : CopyEnd :=
  match e with
  | .gm va => .gm (va + n)
  | .sp c w o => .sp c w (o + n)
  | .ws o => .ws (o + n)

/-- Where the bytes of unit k come from: pieces in order, each a place with its length, or fill bytes. -/
inductive Piece where
  | from (e : CopyEnd) (n : Nat)
  | fill (bs : List Byte)
deriving DecidableEq, Repr

def Copy.tensor (k : Copy) : Option Tensor :=
  match k.job with
  | .tensor _ _ bs => Tensor.parse bs
  | _ => none

def Copy.units (k : Copy) : Nat :=
  match k.job with
  | .span _ _ len => len / 16
  | .tensor .. => ((k.tensor).map fun t => t.bytes / 16).getD 0

def Copy.pieces (k : Copy) (u : Nat) : List Piece :=
  match k.job with
  | .span _ src _ => [.from (src.plus (16 * u)) 16]
  | .tensor .. =>
    match k.tensor with
    | none => []
    | some t =>
      (List.range (16 / t.esz)).map fun m =>
        match t.addr (16 * u / t.esz + m) with
        | some a => .from (.gm a) t.esz
        | none => .fill t.fill

def Copy.dst (k : Copy) : CopyEnd :=
  match k.job with
  | .span d _ _ => d
  | .tensor _ d _ => d

/-- The die whose engine moves a copy. -/
def Copy.die (k : Copy) : Nat := dieOf k.core

/-- What stands in the way of one end of a unit. -/
inductive EndState where
  | ok
  | fault
  | ask (va : Nat)
  | hold
deriving DecidableEq, Repr

/-- The page of an address for a copy: one that an overtaken unit was found to be allowed by stays its page (R213). -/
def State.copyPage (s : State) (k : Copy) (va : Nat) : Xlat :=
  match k.pages.find? fun p => p.1 == va / 4096 with
  | some p => .ok p.2.base p.2
  | none => s.translate k.die k.ctx va

/-- One end of n bytes: a page unmapped, forbidden or refused is a fault; an absent one is asked for once (R212, R213,
R247); a LEASE write waits for leases (R189), a weight-store read for its refresh (R181), and a peer under another epoch never answers
(R373). -/
def State.copyEnd (s : State) (k : Copy) (e : CopyEnd) (n : Nat) (writes : Bool) : EndState :=
  match e with
  | .gm va =>
    let pg := va / 4096
    if k.denied.contains (2 * pg + 1) then .fault
    else match s.copyPage k va with
      | .ok _ a =>
        if writes then
          if !a.w || a.doc then .fault
          else if !s.peerKnown a || (a.tgt == .hbm && decide (s.time < s.lease (a.phys va))) then .hold
          else .ok
        else if !a.r then .fault
        else if s.peerKnown a then .ok else .hold
      | .fail => .fault
      | .request => if k.denied.contains (2 * pg) then .fault else .ask va
  | .sp _ _ _ => .ok
  | .ws o => if wsBusy s.time o n then .hold else .ok

/-- What stands in the way of a unit: a fault first, then a page to ask for, then a wait. -/
def EndState.worse (a b : EndState) : EndState :=
  match a, b with
  | .fault, _ | _, .fault => .fault
  | .ask v, _ => .ask v
  | _, .ask v => .ask v
  | .hold, _ | _, .hold => .hold
  | .ok, .ok => .ok

/-- Whether a unit of a copy is on its way out of the package. -/
def State.unitOut (s : State) (k : Copy) : Bool := s.reqs.any fun r => match r.act with
  | .unit id _ _ => id == k.id
  | _ => false

def State.unitState (s : State) (k : Copy) (u : Nat) : EndState :=
  if s.unitOut k then .hold
  else (k.pieces u).foldl (fun x p => match p with
    | .from e n => x.worse (s.copyEnd k e n false)
    | .fill _ => x) (s.copyEnd k (k.dst.plus (16 * u)) 16 true)

/-- The bytes of one piece and whether they are poisoned; the stores that the team held when the copy started come before it (R388). -/
def State.pieceRead (s : State) (k : Copy) (p : Piece) : List Byte × Bool :=
  match p with
  | .fill bs => (bs, false)
  | .from e n =>
    match e with
    | .gm va =>
      match s.copyPage k va with
      | .ok _ a =>
        (layCells (heldCells k.laid a.tgt (a.phys va) n) (a.phys va) (s.readHome (s.pageKey k.ctx a) a (a.phys va) n), s.homePsn a (a.phys va) n)
      | _ => (List.replicate n 0, false)
    | .sp c w o => (Memory.read s.scratch (scrKey c (w + o)) n, Marks.any s.scrPsn (scrSector c (w + o)) 1)
    | .ws o => s.wsRead k.core k.ctx o n

/-- Bytes of a unit that its copy reads and writes at one place are not promised (R212). -/
def Copy.overlaps (k : Copy) (u i : Nat) : Bool :=
  match k.job with
  | .span (.gm d) (.gm r) len => d != r && decide (r ≤ d + 16 * u + i ∧ d + 16 * u + i < r + len)
  | .span (.sp c w d) (.sp c' w' r) len => c == c' && w == w' && d != r && decide (r ≤ d + 16 * u + i ∧ d + 16 * u + i < r + len)
  | _ => false

/-- Whether what a piece reads is undefined: a page that its context maps twice (R191). -/
def State.pieceFree (s : State) (k : Copy) (p : Piece) : Bool :=
  match p with
  | .from (.gm va) _ =>
    match s.copyPage k va with
    | .ok _ a => s.twiceMapped k.ctx a (a.phys va)
    | _ => false
  | _ => false

/-- The checkpoints that a unit passes to one of its ends: those of a page, or the bridge on the way to another die's scratchpad (R10,
R309). -/
def State.endCpsOf (s : State) (k : Copy) (e : CopyEnd) : List Nat :=
  match e with
  | .gm va =>
    match s.copyPage k va with
    | .ok _ a => dieCps k.die a (a.phys va)
    | _ => []
  | .sp c _ _ => bridgeCps k.die (dieOf c)
  | .ws _ => []
def State.unitCps (s : State) (k : Copy) (u : Nat) : List Nat :=
  s.endCpsOf k (k.dst.plus (16 * u))
    ++ (k.pieces u).flatMap fun p => match p with
      | .from e _ => s.endCpsOf k e
      | .fill _ => []

/-- A write to a scratchpad window reaches the team that it is bound to: from another team it ends that one's retryability (R355). -/
def State.touchWindow (s : State) (k : Copy) (core win : Nat) : State :=
  match (s.core core).teams.find? fun p => p.2.launch == k.launch && p.2.scr == win with
  | some p => if p.2.index = k.team then s else s.endRetry core p.1
  | none => s

/-- The bytes of a unit leave for an address outside the package: it has moved once they are acknowledged (R184, R212, R318). -/
def State.sendUnit (s : State) (k : Copy) (u : Nat) (a : Attr) (va : Nat) (bs : List Byte) : State :=
  (s.sendAs { ctx := k.ctx, inc := k.inc, launch := k.launch, team := k.team } k.core k.warp k.lane a va (a.phys va) (.unit k.id u bs) false).2
def State.markMoved (s : State) (k : Copy) (u : Nat) : State :=
  { s with copies := replaceIf (fun x => x.id == k.id) (fun x => { x with moved := u :: x.moved }) s.copies }

/-- Moves one unit (R212, R214): a poisoned one marks its destination sectors. One that is stale on its way is dropped (R310). -/
def State.moveUnit (s : State) (k : Copy) (u : Nat) : State :=
  let parts := (k.pieces u).map fun p => s.pieceRead k p
  let psn := parts.any (·.2)
  let raw := parts.flatMap (·.1)
  let loose := (k.pieces u).any (s.pieceFree k)
  let bs := raw.zipIdx.map fun p => if loose || k.overlaps u p.2 then Config.freeByte (s.freeCtr + p.2) else p.1
  let s0 : State :=
    { s with
      copies := replaceIf (fun x => x.id == k.id) (fun x => { x with bad := if psn then u :: x.bad else x.bad }) s.copies
      freeCtr := if loose || (List.range 16).any (fun i => k.overlaps u i) then s.freeCtr + 16 else s.freeCtr }
  if !s0.passes (s0.unitCps k u) k.ctx k.inc then s0.markMoved k u
  else match k.dst.plus (16 * u) with
  | .gm va =>
    match s0.copyPage k va with
    | .ok _ a =>
      if a.tgt = .hbm then
        let pa := a.phys va
        let s1 := (s0.writeHome (s0.pageKey k.ctx a) a pa bs).markMoved k u
        if psn then { s1 with hbmPsn := Marks.fill s1.hbmPsn (pa / 32) true 1 } else s1
      else s0.sendUnit k u a va bs
    | _ => s0.markMoved k u
  | .sp c w o =>
    let s0 := (s0.markMoved k u).touchWindow k c w
    let s1 : State := { s0 with scratch := Memory.write s0.scratch (scrKey c (w + o)) bs }
    if psn then { s1 with scrPsn := Marks.fill s1.scrPsn (scrSector c (w + o)) true 1 } else s1
  | .ws _ => s0.markMoved k u

def State.copy (s : State) (id : Nat) : Option Copy := s.copies.find? fun k => k.id == id

/-- A copy asks the host for a page, and waits (R212). One of a stale tag is refused at the host link (R310). -/
def State.askCopy (s : State) (k : Copy) (va : Nat) : State :=
  let (id, s1) := s.fresh
  if !s.passes (bridgeCps k.die 0 ++ [cpPcie]) k.ctx k.inc then s
  else { s1 with
    pageReqs := s1.pageReqs ++ [{ id, ctx := k.ctx, inc := k.inc, va, who := .copy k.id, cause := cDataPage, aux := 0, launch := k.launch }]
    copies := replaceIf (fun x => x.id == k.id) (fun x => { x with page := some id }) s1.copies }

/-- How a run of units ended. -/
inductive RunEnd where
  | all
  | faultAt (u : Nat)
  | waits
deriving DecidableEq, Repr

/-- Moves the units from u on that have not moved, in order, as far as they go; one that has left the package has still to be acknowledged. -/
def State.runUnits (id : Nat) : Nat → Nat → State → State × RunEnd
  | 0, _, s => (s, if (s.copy id).any s.unitOut then .waits else .all)
  | n + 1, u, s =>
    match s.copy id with
    | none => (s, .waits)
    | some k =>
      if k.moved.contains u then State.runUnits id n (u + 1) s
      else
        match s.unitState k u with
        | .ok =>
          let psn := (k.pieces u).any fun p => (s.pieceRead k p).2
          if psn && k.queue.isNone && s.isResident k.core k.warp k.launch k.team && s.recovering k.core k.warp &&
              !s.teamStopped k.core (s.warpTeam k.core k.warp) then
            (s.rollback k.core (s.warpTeam k.core k.warp), .waits)
          else State.runUnits id n (u + 1) (s.moveUnit k u)
        | .fault => (s, .faultAt u)
        | .ask va => (s.askCopy k va, .waits)
        | .hold => (s, .waits)

/-- Reads the descriptor of a CPYT: none where it stands, or the state that waits for its page; the second component says
that it cannot be read (R216). That one in a poisoned sector cannot be read is the model's choice (DESIGN CHOICE, assumption 60). -/
def State.readDescriptor (s : State) (k : Copy) : Option (State × Bool) :=
  match k.job with
  | .tensor desc d [] =>
    match s.copyEnd k (.gm desc) 64 false with
    | .ok =>
      match s.translate k.die k.ctx desc with
      | .ok _ a =>
        if s.homePsn a (a.phys desc) 64 then some (s, true)
        else
          let (bs0, s) := s.returned k.ctx a (a.phys desc) (s.readHome (s.pageKey k.ctx a) a (a.phys desc) 64)
          let bs := layCells (heldCells k.laid a.tgt (a.phys desc) 64) (a.phys desc) bs0
          some ({ s with copies := replaceIf (fun x => x.id == k.id) (fun x => { x with job := .tensor desc d bs }) s.copies }, false)
      | _ => some (s, true)
    | .fault => some (s, true)
    | .ask va => some (s.askCopy k va, false)
    | .hold => some (s, false)
  | _ => none

/-- A descriptor that breaks its table, or a tile whose span leaves the window, ends the copy as FAULT (R216). -/
def State.tileBad (s : State) (k : Copy) : Bool :=
  match k.job with
  | .tensor _ (.sp _ _ o) bs =>
    match Tensor.parse bs with
    | some t =>
      let room := (s.launch k.launch).map fun l => l.scr
      decide (o + t.bytes > room.getD 0)
    | none => true
  | _ => false

/-- Whether the scratchpad windows of a copy are on their cores now. -/
def State.windowsHere (s : State) (k : Copy) : Bool :=
  let here (e : CopyEnd) : Bool := match e with
    | .sp c w _ => !s.windowAway k.launch c w
    | _ => true
  (match k.job with
    | .span d r _ => here d && here r
    | .tensor _ d _ => here d)
  && (match k.post with
    | some (c, w, _) => !s.windowAway k.launch c w
    | none => true)

/-- Whether a copy may move now: its windows are here, and what its thread accessed before it is performed (R212). -/
def State.copyMay (s : State) (k : Copy) : Bool :=
  s.windowsHere k && !(s.reqs.any fun r => k.after.contains r.id && r.unfixed)

/-- The posting of a copy: at its barrier, or on the cluster network where it crosses cores (R215). It reaches only a window that its launch
still has (R315). -/
def State.postCopy (s : State) (k : Copy) (n : Nat) (err : Bool) : State :=
  match k.post with
  | none => s
  | some (home, win, ofs) =>
    if home = k.core then
      if (s.windowTeam k.launch home win).isNone then s
      else s.setBar home win ofs ((s.bar home win ofs).apply (.post n err) false).1
    else
      (s.sendAs { ctx := k.ctx, inc := k.inc, launch := k.launch, team := k.team } k.core k.warp k.lane plainAttr ofs ofs
        (.barrier home win ofs (.post n err) none) false).2

/-- Ends a CPY or CPYT: the status word, then the posting (R213, R215). A RECOV team whose barrier object cannot be read rolls back (R356). -/
def State.endCopy (s : State) (k : Copy) (code moved : Nat) : State :=
  let s1 : State := { s with copies := s.copies.filter fun x => x.id != k.id }
  let s2 := s1.postCopy k (16 * moved) (code == 1 || code == 3)
  let s3 := match k.d with
    | some d => if k.orphan then s2 else s2.deliver k.dest d { bits := BitVec.ofNat 32 (code + 16 * moved), tag := .w32 }
    | none => s2
  let s4 := s3.settleCopy k
  match k.post with
  | some (home, win, ofs) => if home = k.core then s4.strikeBar k.launch home win ofs else s4
  | none => s4

/-- Status of a copy that has come to its end (R213). -/
def Copy.code (k : Copy) (e : RunEnd) : Nat × Nat :=
  match e with
  | .faultAt u => if u = 0 then (1, 0) else (3, u)
  | _ => (if k.bad.isEmpty then 0 else 2, k.units)

/-- COPY_COMPLETE: the units still to move are moved, and the copy ends. A copy that waits for a page, a lease, a refresh,
an earlier access of its thread or a window off its core goes on later. A copy of a stale tag stops (R310). -/
def execCopyComplete (id : Nat) (s : State) : Out :=
  match s.copy id with
  | none => .next s
  | some k =>
    if k.queue.isSome || k.page.isSome || !s.copyMay k then .next s
    else if !s.passes [cpCopy k.die] k.ctx k.inc then
      .next (({ s with copies := s.copies.filter fun x => x.id != id } : State).settleCopy k)
    else
      match s.readDescriptor k with
      | some (s1, true) => .next (s1.endCopy k 1 0)
      | some (s1, false) => .next s1
      | none =>
        if s.tileBad k then .next (s.endCopy k 1 0)
        else
          let (s1, e) := s.runUnits id k.units 0
          match e, s1.copy id with
          | .waits, _ => .next s1
          | e, some k1 => .next (s1.endCopy k1 (k1.code e).1 (k1.code e).2)
          | _, none => .next s1

/-- The pages of the first units of a copy, as they are translated now. -/
def State.pagesUpTo (s : State) (k : Copy) (u : Nat) : List (Nat × Attr) :=
  let page (e : CopyEnd) : List (Nat × Attr) := match e with
    | .gm va => match s.copyPage k va with
      | .ok _ a => [(va / 4096, a)]
      | _ => []
    | _ => []
  ((List.range (u + 1)).flatMap fun i =>
    page (k.dst.plus (16 * i)) ++ (k.pieces i).flatMap fun p => match p with
      | .from e _ => page e
      | .fill _ => []).eraseDups

/-- Whether an end of a unit is outside the package, where a timeout may yet be its fault (R213, R374). -/
def State.unitOutside (s : State) (k : Copy) (u : Nat) : Bool :=
  let out (e : CopyEnd) : Bool := match e with
    | .gm va => match s.copyPage k va with
      | .ok _ a => a.tgt != .hbm
      | _ => false
    | _ => false
  out (k.dst.plus (16 * u)) || (k.pieces u).any fun p => match p with
    | .from e _ => out e
    | .fill _ => false

/-- A copy engine moves one unit, in any order, once no earlier unit is at fault (R212). The pages of those that it overtakes are found to
allow them, and none of those has an end outside the package, so that the units moved before a fault are those below it (R213). -/
def State.copyUnit (s : State) (id u : Nat) : State :=
  match s.copy id with
  | none => s
  | some k =>
    let clear := (List.range (u + 1)).all fun i => k.moved.contains i || s.unitState k i == .ok || (s.unitState k i == .hold && !s.unitOutside k i)
    if k.page.isSome || (k.queue.isSome && k.orphan) || !s.copyMay k || k.units ≤ u || !clear || s.unitState k u != .ok || k.moved.contains u
      || !s.passes [cpCopy k.die] k.ctx k.inc then s
    else
      let past := (List.range u).any fun i => !k.moved.contains i
      let s1 : State :=
        if past then { s with copies := replaceIf (fun x => x.id == id) (fun x => { x with pages := s.pagesUpTo k u }) s.copies } else s
      (State.runUnits id 1 u s1).1

-- CPY and CPYT -----------------------------------------------------------------------------------------------------

/-- One end of a CPY: the operand's address, with the first address outside its space (R212). -/
structure EndPlan where
  addr : Nat
  place : CopyEnd
  outside : Option Nat

/-- The first byte of a span beyond an extent. -/
def spanOut (ofs len extent : Nat) : Option Nat := if ofs + len > extent then some (max ofs extent) else none

def State.planEnd (s : State) (c : Cur) (l : Nat) (kd : CKind) (o : Opd) (len : Nat) : EndPlan :=
  match kd with
  | .gm => { addr := (s.pair c l o).toNat, place := .gm (s.pair c l o).toNat, outside := none }
  | .sp =>
    let a := (s.bits c l o).toNat
    { addr := a, place := .sp c.core (s.scrWin c) a, outside := spanOut a len (s.scrExtent c) }
  | .rs =>
    let a := (s.bits c l o).toNat
    match s.remote c a with
    | some m => { addr := a, place := .sp m.1 m.2.2.scr (remoteOfs a), outside := spanOut (remoteOfs a) len m.2.2.scrLen }
    | none => { addr := a, place := .gm 0, outside := some a }
  | .ws =>
    let a := (s.bits c l o).toNat
    { addr := a, place := .ws a, outside := spanOut a len (s.wsWindow (s.tagOf c.core c.warp).1).2 }

/-- The window that holds a copy's barrier: the destination team's, else the issuing team's (R215). -/
def State.postPlace (s : State) (c : Cur) (dst : CopyEnd) : Nat × Nat × Nat :=
  match dst with
  | .sp k w _ =>
    let launch := (s.teamIds c.core c.warp).1
    (k, w, (((s.core k).teams.find? fun p => p.2.scr == w && p.2.launch == launch).map fun p => p.2.scrLen).getD 0)
  | _ => (c.core, s.scrWin c, s.scrExtent c)

/-- AUX of a copy's trap, by what stands at the faulting address: its destination and the barrier are written (Table 16.1). -/
def readAux : Word := auxOf 16 false false
def writeAux : Word := auxOf 16 true false
def barAux : Word := auxOf 32 true false

/-- The lowest of some addresses, each with its AUX; of equal ones the first. -/
def lowestAux : List (Nat × Word) → Option (Nat × Word)
  | [] => none
  | a :: as => some (as.foldl (fun x y => if y.1 < x.1 then y else x) a)

/-- The traps of a copy's alignment, then of its spans (R212). -/
def copyTrap (misaligned outside : List (Nat × Word)) : Option Trap :=
  match lowestAux misaligned, lowestAux outside with
  | some a, _ => some (Trap.at_ cMisalign a.1 a.2)
  | none, some a => some (Trap.at_ cProtection a.1 a.2)
  | none, none => none

/-- Starts one copy; stores that its team holds come before it (R388). -/
def State.startCopy (s : State) (c : Cur) (l : Nat) (d : Opd) (job : CopyJob) (post : Option (Nat × Nat × Nat)) : State :=
  let (id, s1) := s.fresh
  let (ctx, inc) := s.tagOf c.core c.warp
  let (launch, team) := s.teamIds c.core c.warp
  { s1 with
    copies := s1.copies ++
      [{ id, core := c.core, warp := c.warp, lane := l, d := some d, queue := none, order := 0, cmpl := 0, irq := false, launch, team, ctx, inc,
         job, moved := [], bad := [], post, page := none, denied := [], orphan := false,
         after := (s.earlier c.core c.warp l ++ s.seenStores c.core).map (·.id), pages := [],
         laid := match s.teamOf c.core c.warp with
           | some { recov := some r, .. } => r.held
           | _ => [] }] }

/-- The team whose window a copy is to write is reached from another (R355). -/
def State.reachedBy (s : State) (launch : Nat) (job : CopyJob) : State :=
  match job with
  | .span (.sp k w _) _ _ =>
    match (s.core k).teams.find? fun q => q.2.launch == launch && q.2.scr == w with
    | some q => s.reached k q.1
    | none => s
  | _ => s

/-- The source words of a CPY: addresses, length, and the barrier offset under POST. -/
def cpySrcs (dk sk : CKind) (post : Bool) (a b c : Opd) : List Src :=
  wideSrc trapSrc 1 a (if dk = .gm then 2 else 1) isAddr ++ wideSrc trapSrc 2 b (if sk = .gm then 2 else 1) isAddr
    ++ trapSrc (cField b) c notPsn :: (if post then [trapSrc (cField b) (c.next 1) isAddr] else [])

def execCpy (h : Head) (dk sk : CKind) (post : Bool) (d a b cc : Opd) (s : State) : Out :=
  issue (.cpy h dk sk post d a b cc) h
    (fun s c l =>
      let len := (s.bits c l cc).toNat
      let x := s.planEnd c l dk a len
      let y := s.planEnd c l sk b len
      let bar := (s.bits c l (cc.next 1)).toNat
      let room := (s.postPlace c x.place).2.2
      (s.srcTrap c l (cpySrcs dk sk post a b cc)).or
        (copyTrap
          ((if x.addr % 16 ≠ 0 ∨ len % 16 ≠ 0 then [(x.addr, writeAux)] else []) ++ (if y.addr % 16 ≠ 0 then [(y.addr, readAux)] else [])
            ++ (if post && bar % 32 != 0 then [(bar, barAux)] else []))
          (x.outside.toList.map (·, writeAux) ++ y.outside.toList.map (·, readAux)
            ++ (if post then (spanOut bar 32 room).toList.map (·, barAux) else []))))
    (fun s c ls =>
      let items := ls.map fun l =>
        let len := (s.bits c l cc).toNat
        let x := s.planEnd c l dk a len
        let place := s.postPlace c x.place
        (l, CopyJob.span x.place (s.planEnd c l sk b len).place len,
          if post then some (place.1, place.2.1, (s.bits c l (cc.next 1)).toNat) else none)
      let s0 := if ls.isEmpty then s else if dk == .gm || dk == .rs then s.crossTeams c else s
      let s1 := items.foldl (fun s p =>
        let s1 := if dk == .rs then s.reachedBy (s.teamIds c.core c.warp).1 p.2.1 else s
        s1.startCopy c p.1 d p.2.1 p.2.2) s0
      s1.advance c.core c.warp ls) s

def execCpyt (h : Head) (post : Bool) (d a b cc : Opd) (s : State) : Out :=
  issue (.cpyt h post d a b cc) h
    (fun s c l =>
      let desc := (s.pair c l a).toNat
      let o := (s.bits c l b).toNat
      let bar := (s.bits c l cc).toNat
      (s.srcTrap c l (wideSrc trapSrc 1 a 2 isAddr ++ trapSrc 2 b isAddr :: (if post then [trapSrc (cField b) cc isAddr] else []))).or
        (copyTrap
          ((if desc % 64 ≠ 0 then [(desc, readAux)] else []) ++ (if o % 16 ≠ 0 then [(o, writeAux)] else [])
            ++ (if post && bar % 32 != 0 then [(bar, barAux)] else []))
          (if post then (spanOut bar 32 (s.scrExtent c)).toList.map (·, barAux) else [])))
    (fun s c ls =>
      let items := ls.map fun l =>
        (l, CopyJob.tensor (s.pair c l a).toNat (.sp c.core (s.scrWin c) (s.bits c l b).toNat) [],
          if post then some (c.core, s.scrWin c, (s.bits c l cc).toNat) else none)
      (items.foldl (fun s p => s.startCopy c p.1 d p.2.1 p.2.2) s).advance c.core c.warp ls) s

end Sys2Proof.Machine
end

