-- ==== Sys2Proof/Machine/Fetch.lean ====
section
/-!
DEFINITION. Sys2Proof/Machine/Fetch.lean: fetching bytes with X permission (R66, R72, R301, R302), piece by piece of a page, and the
instruction cache (R301).
-/
namespace Sys2Proof.Machine

/-- The end of a fetch: the bytes, the first byte that cannot be fetched, or the first byte of an absent page. -/
inductive Fetch where
  | bytes (bs : List Byte)
  | fault (va : Nat)
  | absent (va : Nat)

/-- Fetches n bytes by a die for a context; ok says which pages allow it. -/
def State.fetch (s : State) (die ctx : Nat) (ok : Attr → Bool) : Nat → Nat → Nat → Fetch
  | 0, _, _ => .bytes []
  | fuel + 1, va, n =>
    if n = 0 then .bytes []
    else match s.translate die ctx va with
      | .fail => .fault va
      | .request => .absent va
      | .ok _ a =>
        if !ok a then .fault va
        else
          let k := min n (4096 - va % 4096)
          let bs := s.readHome (s.pageKey ctx a) a (a.phys va) k
          match State.fetch s die ctx ok fuel (va + k) (n - k) with
          | .bytes rest => .bytes (bs ++ rest)
          | x => x

/-- Code of warps is fetched from LEASE pages of local HBM (R301); a sequencer's segments and header need X (R66, R72). -/
def codePage (a : Attr) : Bool := a.x && a.tgt == .hbm && !a.soft
def segPage (a : Attr) : Bool := a.x

-- The instruction cache (R21, R301) --------------------------------------------------------------------------------

/-- The line of a core's instruction cache that serves a fetch now: one whose lease has not ended (R188). -/
def State.codeHit (s : State) (c ctx : Nat) (inc : Byte) (va : Nat) : Option CodeLine :=
  (s.core c).icache.find? fun x => x.ctx == ctx && x.inc == inc && x.va == va / 128 * 128 && decide (s.time < x.exp)

/-- Fetches n bytes of code for a core, line by line: from the instruction cache, else from the home. A hit is not translated. -/
def State.fetchCode (s : State) (c ctx : Nat) (inc : Byte) : Nat → Nat → Nat → Fetch
  | 0, _, _ => .bytes []
  | fuel + 1, va, n =>
    if n = 0 then .bytes []
    else
      let k := min n (128 - va % 128)
      let here : Fetch :=
        match s.codeHit c ctx inc va with
        | some x => .bytes ((x.data.drop (va % 128)).take k)
        | none => s.fetch (dieOf c) ctx codePage 1 va k
      match here with
      | .bytes bs =>
        match State.fetchCode s c ctx inc fuel (va + k) (n - k) with
        | .bytes rest => .bytes (bs ++ rest)
        | x => x
      | x => x

/-- Lines that a core's instruction cache holds: 64 KiB. -/
def codeLines : Nat := 512

/-- The home grants a lease of a length on a code line that a core's cache lacks; one that has ended at its grant is not installed. -/
def State.codeFill (s : State) (c ctx : Nat) (inc : Byte) (va len : Nat) : State :=
  if len < 64 ∨ 4096 < len ∨ (s.codeHit c ctx inc va).isSome then s
  else match s.translate (dieOf c) ctx va with
    | .ok _ a =>
      let lpa := a.phys va / 128 * 128
      if !codePage a || !s.passes (pathCps c a lpa) ctx inc then s
      else
        let e := s.leaseExpiry lpa len
        let x : CodeLine := { ctx, inc, va := va / 128 * 128, pa := lpa, exp := e, data := s.readHome (s.pageKey ctx a) a lpa 128 }
        let s1 := s.recordLease lpa e
        if e ≤ s.time then s1
        else s1.modCore c fun k => { k with icache := x :: (k.icache.filter fun y => decide (s.time < y.exp)).take (codeLines - 1) }
    | _ => s

/-- An issue takes its lines into the cache under the shortest lease (assumption 34). -/
def State.takeCode (s : State) (c ctx : Nat) (inc : Byte) (va n : Nat) : State :=
  ((s.codeFill c ctx inc va 64).codeFill c ctx inc (va + n - 1) 64)

end Sys2Proof.Machine
end

