-- ==== Sys2Proof/Machine/SeqCore.lean ====
section
/-!
DEFINITION. Sys2Proof/Machine/SeqCore.lean: one bundle of the tensor sequencer. Operand memory and the landing of writes (R136-R138,
R155, R170), the reports of faults (R66, R391), instruction supply (R67-R70, R129), and the two phases in which the words of a
bundle are first all checked and then all performed (R66, R127, R128).
-/
namespace Sys2Proof.Machine

def cSeqDelayBr : Byte := 0x20
def cSeqSlot : Byte := 0x21
def cSeqTile : Byte := 0x22
def cSeqFormat : Byte := 0x23
def cSeqStop : Byte := 0x24
/-- What a word raises that reads a row marked uncorrectable: SEQ_FORMAT, and in a RECOV team a rollback (R170, R356). So does an SWAIT whose object a
RECOV team cannot read. -/
def cSeqMarked : Byte := 0xEC

-- Operand memory ---------------------------------------------------------------------------------------------------

/-- The place of row r of slot Qn. -/
def slotOfs (n row : Nat) : Nat := 2048 * n + 64 * row
def State.slotBytes (s : State) (c n ofs len : Nat) : List Byte := Memory.read s.opmem (opKey c (slotOfs n 0 + ofs)) len
/-- Whether rows of a slot are marked poisoned (R170). -/
def State.slotMarked (s : State) (c n row rows : Nat) : Bool := Marks.any s.opPsn (opRow c (slotOfs n row)) rows
/-- Writes one whole row of a slot, which sets or clears its mark. -/
def State.setSlotRow (s : State) (c n row : Nat) (bs : List Byte) (bad : Bool) : State :=
  { s with opmem := Memory.write s.opmem (opKey c (slotOfs n row)) bs,
           opPsn := Store.set false s.opPsn (opRow c (slotOfs n row)) bad }

/-- Row r of a tile as bytes, its tags, and a write of it. -/
def State.tileRow (s : State) (c tile row : Nat) : List TWord := (List.range 16).map fun i => s.tileWord c tile (16 * row + i)
def rowBytes (ws : List Word) : List Byte := ws.flatMap fun w => leBytes 4 w.toNat
def rowWords : Nat → List Byte → List Word
  | 0, _ => []
  | n + 1, bs => BitVec.ofNat 32 (leNat (bs.take 4)) :: rowWords n (bs.drop 4)
def State.setTileRow (s : State) (c tile row : Nat) (tag : Tag) (ws : List Word) : State :=
  ws.zipIdx.foldl (fun s p => s.setTileWord c tile (16 * row + p.2) { bits := p.1, tag }) s

-- Writes in issue order (R138, R170) -------------------------------------------------------------------------------

/-- The rows that a write covers, numbered over slots and tiles. -/
def slotUnit (n row : Nat) : Nat := 32 * n + row
def tileUnit (tile row : Nat) : Nat := 65536 + 16 * tile + row

/-- 64-byte rows that one row of a drain format takes. -/
def drainSpan : DFmt → Nat
  | .d32 => 4
  | .bf16 | .f16 => 2
  | _ => 1

def Pend.units (p : Pend) : List Nat :=
  (List.range p.rows.length).flatMap fun j =>
    match p.dst with
    | .acc _ base row => (List.range 4).map fun i => tileUnit (base + i) (row + j)
    | .tiles base row f => (List.range (drainSpan f)).map fun i => tileUnit (base + i) (row + j)
    | .slot n row f => (List.range (drainSpan f)).map fun i => slotUnit n ((row + j) * drainSpan f + i)

def KXfer.units (k : KXfer) : List Nat :=
  (List.range k.rows).flatMap fun i =>
    match k.move with
    | .fillSp _ | .fillWs _ | .fillTl _ => [slotUnit k.slot (k.row + i)]
    | .storeTl tile _ => [tileUnit (tile + i / 16) (i % 16)]
    | _ => []

/-- A write issued in a bundle has landed on some rows: writes issued before it leave them alone. -/
def Seq.supersede (q : Seq) (bundle : Nat) (us : List Nat) : Seq :=
  { q with pend := replaceIf (fun p => decide (p.land < bundle + Config.landDelay)) (fun p => { p with later := p.later ++ us }) q.pend
           kq := replaceIf (fun k => decide (k.bundle < bundle)) (fun k => { k with later := k.later ++ us }) q.kq }

-- K words in flight (R126, R137, R138, R155) -----------------------------------------------------------------------

def KMove.isFill : KMove → Bool
  | .fillSp _ | .fillWs _ | .fillTl _ => true
  | _ => false
def KMove.isStore : KMove → Bool
  | .storeSp _ | .storeTl .. => true
  | _ => false
/-- What an SFENCE holds back (R155). -/
def KMove.fenced : KMove → Bool
  | .fillSp _ | .storeSp _ | .storeTl .. => true
  | _ => false

/-- No K-slot write from before the last SFENCE ahead of a word is in flight. -/
def Seq.fenceOpen (q : Seq) (k : KXfer) : Bool :=
  !k.move.fenced || q.kq.all fun x => decide (k.fences ≤ x.fences) || !(x.move.isFill || x.move.isStore)

/-- Every write to a slot issued before a KSTORE has landed. -/
def Seq.slotQuiet (q : Seq) (k : KXfer) : Bool :=
  (q.kq.all fun x => !(x.move.isFill && x.slot == k.slot && decide (x.kid < k.kid)))
    && q.pend.all fun p => match p.dst with
      | .slot n _ _ => n != k.slot || decide (k.bundle + Config.landDelay ≤ p.land)
      | _ => true

/-- What a release of the sequencer comes after: its KSTOREs, and its reads of scratchpad (R152, R233, R240). -/
def KMove.released : KMove → Bool
  | .fillSp _ | .storeSp _ | .storeTl .. => true
  | _ => false

/-- Whether a K word may land now: a KSTORE once it has read its slot, an arrival after the K words that it releases. -/
def Seq.mayLand (q : Seq) (k : KXfer) : Bool :=
  q.fenceOpen k
    && match k.move with
      | .storeSp _ | .storeTl .. => k.data.isSome
      | .arrive _ => q.kq.all fun x => !(x.move.released && decide (x.kid < k.kid))
      | _ => true

/-- Held KSTOREs read their slots as soon as they may (R138). The check of R145 is made at issue alone: bytes that a KFILL ahead of the KSTORE has
since marked uncorrectable are stored unmarked (DESIGN CHOICE, assumption 72). -/
def State.readStores (s : State) (c : Nat) : State :=
  s.modSeq c fun q =>
    let ready (k : KXfer) : Bool := k.move.isStore && k.data.isNone && q.fenceOpen k && q.slotQuiet k
    { q with kq := replaceIf ready (fun k => { k with data := some (s.slotBytes c k.slot (64 * k.row) (64 * k.rows)) }) q.kq }

-- Landing of the array's writes (R136, R161, R162) ------------------------------------------------------------------

/-- One word of an ACC at its landing: the sum, or round(old + sum). -/
def accWord (add int : Bool) (old sum : Word) : Word × Bool :=
  if !add then (sum, false)
  else if int then clampI32 (old.toInt + sum.toInt)
  else (f32Add old sum, false)

/-- The tag of a drained word. -/
def drainTag (int : Bool) : DFmt → Tag
  | .d32 => if int then .i32 else .f32
  | .bf16 => .bf2 | .f16 => .h2 | .e4m3 => .e4q | .e5m2 => .e5q | .i8 => .i8q

/-- Lands one write of 16 words per tile or slot row; rows written by a later-issued write stay. -/
def State.landRow (s : State) (c : Nat) (p : Pend) (j : Nat) (ws : List Word) : State :=
  let part (i : Nat) : List Word := (ws.drop (16 * i)).take 16
  match p.dst with
  | .acc add base row =>
    (List.range 4).foldl (fun s i =>
      if p.later.contains (tileUnit (base + i) (row + j)) then s
      else
        let rs := ((s.tileRow c (base + i) (row + j)).zip (part i)).map fun x => accWord add p.int x.1.bits x.2
        (s.setTileRow c (base + i) (row + j) (if p.int then .i32 else .f32) (rs.map (·.1))).modSeq c fun q =>
          { q with isat := q.isat || rs.any (·.2) }) s
  | .tiles base row f =>
    (List.range (drainSpan f)).foldl (fun s i =>
      if p.later.contains (tileUnit (base + i) (row + j)) then s
      else s.setTileRow c (base + i) (row + j) (drainTag p.int f) (part i)) s
  | .slot n row f =>
    (List.range (drainSpan f)).foldl (fun s i =>
      let r := (row + j) * drainSpan f + i
      if p.later.contains (slotUnit n r) then s else s.setSlotRow c n r (rowBytes (part i)) false) s

def State.landPend (s : State) (c : Nat) (p : Pend) : State :=
  let s1 := p.rows.zipIdx.foldl (fun s r => s.landRow c p r.2 r.1) s
  s1.modSeq c fun q =>
    let q1 := q.supersede (p.land - Config.landDelay) p.units
    match p.dst with
    | .slot n _ _ => q1.modSlot n fun x => { x with drains := x.drains - 1 }
    | _ => q1

/-- The writes due at the bundle at hand land, in the order in which they were issued. -/
def State.landDue (s : State) (c : Nat) : State :=
  let q := (s.core c).seq
  let due := q.pend.filter fun p => decide (p.land ≤ q.bcount.toNat)
  let s1 := s.modSeq c fun q => { q with pend := q.pend.filter fun p => !decide (p.land ≤ q.bcount.toNat) }
  (due.foldl (fun s p => s.landPend c p) s1).readStores c

-- Returning from a trap (R342, R350) --------------------------------------------------------------------------------

/-- RTE on the sequencer (R342): a bundle that is skipped counts as issued, and the writes due at it land (R136). where_ is WHERE of the record:
at 1 and 2 no bundle stands at the fault. -/
def State.resumeSeq (s : State) (c : Nat) (r : TrapRec) (act : BitVec 2) : State :=
  let q := (s.core c).seq
  let where_ := r.aux.toNat / 2 ^ 12 % 4
  match act.toNat with
  | 0 =>
    let again (q : Seq) : Seq :=
      { q with record := none, halt := false, stalled := none, released := false, denied := [], pageWait := none,
               halves := if where_ = 0 then q.halves else q.halves.filter fun h => h.seg != r.addr }
    s.modSeq c again
  | 1 =>
    if where_ = 0 then
      (s.landDue c).modSeq c fun q =>
        { q.skipBundle with record := none, halt := false, stalled := none, released := false }
    else (s.modSeq c Seq.quit).teamEnd c q.team
  | 2 => (s.modSeq c Seq.quit).teamEnd c q.team
  | _ =>
    match s.team c q.team with
    | some t => s.faultLaunch t.launch r.cause.toNat
    | none => s

/-- Ends an event on all its lanes with one action, as RTE does when it finds that action (R333, R350, R363). -/
def State.endEvent (s : State) (c : Nat) (e : Event) (act : Option (BitVec 2)) : State :=
  let s0 := s.thaw c e
  if e.seq then
    match (s0.core c).seq.record with
    | some r => s0.resumeSeq c r (act.getD r.act)
    | none => s0
  else
    (lanesOf e.lanes).foldl (fun s l =>
      match (s.thread c e.warp l).record with
      | some r => s.resumeLane c e.warp l r (act.getD r.act)
      | none => s) s0

-- Faults (R66, R337, R391) -----------------------------------------------------------------------------------------

/-- The launch, context tag and team of a core's sequencer. -/
def State.seqTag (s : State) (c : Nat) : Nat × Byte :=
  match s.team c (s.core c).seq.team with
  | some t => ((s.launch t.launch).map fun l => (l.ctx, l.inc)).getD (0, 0)
  | none => (0, 0)
def State.seqTeam (s : State) (c : Nat) : Option Team := s.team c (s.core c).seq.team

/-- The sequencer stops with a record (Tables 16.1 and 16.6), and its event joins the trap queue, or is held (R363). -/
def State.seqFault (s : State) (c : Nat) (cause : Byte) (seg : DWord) (idx bits whr : Nat) : State :=
  let (ctx, inc) := s.seqTag c
  let q := (s.core c).seq
  let r : TrapRec :=
    { ctxt := ctxWord ctx inc, aux := BitVec.ofNat 32 (idx % 256 + bits * 256 + whr * 4096), addr := seg, pc := q.bcount,
      ident := identWord s c 0 0, info := 0, kind := true, defd := false, act := defaultAct cause, cause }
  let e : Event := { warp := 0, lanes := 1, seq := true, cause, defd := false, team := q.team, ctx, inc, frz := false }
  (s.modSeq c fun q => { q with fcause := cause, halt := true, record := some r, stalled := none, released := false }).modCore c fun k =>
    if cause == cSeqStop then { k with held := k.held ++ [e] } else { k with trapq := k.trapq ++ [e] }

-- Supply (R67-R70, R129) -------------------------------------------------------------------------------------------

def Seq.half (q : Seq) (seg : DWord) : Option Half := q.halves.find? fun h => h.seg == seg

/-- What stands at the next bundle: nothing yet, a fault, or the bundle in its segment. -/
inductive Supply where
  | wait
  | fault (cause : Byte) (seg : DWord) (idx whr : Nat)
  | leave (nxt : DWord)
  | ready (h : Half)

def Seq.supply (q : Seq) : Supply :=
  let p := q.pos
  if p.enter && p.seg == 0 then .fault cSeqSlot 0 p.idx 1
  else match q.half p.seg with
    | none => .wait
    | some h =>
      match h.st with
      | .noFetch => .fault cFetchPage p.seg p.idx 1
      | .malformed => .fault cSeqSlot p.seg p.idx 1
      | .good =>
      if p.enter then (if p.idx ≥ h.bundles.length then .fault cSeqSlot p.seg p.idx 1 else .ready h)
      else if p.idx < h.bundles.length then .ready h
      else if h.nxt == 0 || h.nxt.toNat % 16 != 0 then .fault cSeqSlot p.seg (h.bundles.length - 1) 2
      else .leave h.nxt

/-- Falls through into the next segment of the chain. -/
def Seq.fall (q : Seq) (nxt : DWord) : Seq := { q with pos := { q.pos with seg := nxt, idx := 0, enter := true } }

/-- The segment that is entered runs from its half: it stands first (R129). -/
def Seq.settleHalf (q : Seq) (h : Half) : Seq :=
  { q with halves := h :: q.halves.filter (fun x => x.seg != h.seg), pos := { q.pos with enter := false } }

/-- The bytes of the bundle at hand, and its address in memory. -/
def Seq.bundleBytes (q : Seq) : List Byte :=
  match q.half q.pos.seg with
  | some h => h.bundles.getD q.pos.idx []
  | none => []
def Seq.bundleAddr (q : Seq) : DWord :=
  match q.half q.pos.seg with
  | some h => q.pos.seg + BitVec.ofNat 64 (16 + ((h.bundles.take q.pos.idx).map List.length).foldl (· + ·) 0)
  | none => q.pos.seg

/-- The words of the bundle at hand, by slot. -/
def Seq.words (q : Seq) : List (BitVec 2 × Except Reject Instr) :=
  match decodeBundle q.bundleBytes with
  | .ok (b, _) => b.words
  | .error _ => []
def Seq.instrs (q : Seq) : List Instr := q.words.filterMap fun w => match w.2 with
  | .ok i => some i
  | .error _ => none

/-- Whether the sequencer of a core may issue at all: it runs, and no pre-emption, freeze, commit or rollback stops it (R352, R356). The
accesses of handler lane 0 for its last event come first (R343). -/
def State.seqRuns (s : State) (c : Nat) : Bool :=
  let q := (s.core c).seq
  q.active && !q.halt && !q.frozen && !q.preempted && q.record.isNone
    && match s.seqTeam c with
      | some t => !t.ended && !t.stopped && s.reqs.all fun r =>
          !(r.core == c && r.warp == 64 && r.lane == 0 && r.launch == t.launch && r.team == t.index && r.orphan && r.unfixed)
      | none => false

-- The two phases (R66, R127, R128) ---------------------------------------------------------------------------------

/-- The context of a bundle at its start, with the faults that belong to no entry: reserved presence bits, words that do not
decode, a branch in a delay bundle, and the retire distance (R64, R65, R69, R143). -/
def Seq.context (q : Seq) (core : Nat) : BundleCtx :=
  let bs := q.bundleBytes
  let presence := byteAt bs 0
  let opc := (byteAt bs 1).toNat
  let retires := q.instrs.any (· == .retirept)
  let faults : List (Byte × Byte) :=
    (if presence.toNat / 16 ≠ 0 then [(cSeqSlot, 0)] else [])
    ++ (q.words.filterMap fun w => match w.2 with
        | .ok _ => none
        | .error _ => some (cSeqSlot, BitVec.ofNat 8 (2 ^ w.1.toNat)))
    ++ (if q.pos.delays ≠ 0 && presence.getLsbD 0 && (opc == 1 || opc == 2) then [(cSeqDelayBr, 1)] else [])
    ++ (if !retires && decide (q.retdist < q.sinceRet) then [(cSeqSlot, 0)] else [])
  { core, phase := .check, presence, y := q.y, b := q.b, taken := [], faults, stall := false, wait := none, swap := false,
    push := none, zero := false, fed := false, cfg := none, retire := false, jump := none, halt := false, code := 0 }

/-- A slot word: what it raises at the start of the bundle, whether it stalls there, and its effect. -/
def slotWord (slot : Nat) (chk : State → BundleCtx → Seq → List Byte) (stalls : State → BundleCtx → Seq → Bool)
    (act : State → BundleCtx → State) (s : State) : Out :=
  match s.bun with
  | none => .next s
  | some b =>
    match b.phase with
    | .check =>
      let q := (s.core b.core).seq
      .next { s with bun := some { b with faults := b.faults ++ (chk s b q).map (fun f => (f, BitVec.ofNat 8 (2 ^ slot)))
                                          stall := b.stall || stalls s b q } }
    | .perform => .next (act s b)

/-- A word that never stalls. -/
def plainWord (slot : Nat) (chk : State → BundleCtx → Seq → List Byte) (act : State → BundleCtx → State) (s : State) : Out :=
  slotWord slot chk (fun _ _ _ => false) act s

def State.setBun (s : State) (b : BundleCtx) : State := { s with bun := some b }
def State.modBun (s : State) (f : BundleCtx → BundleCtx) : State := { s with bun := s.bun.map f }

/-- Checks on tiles and slots that a word names (R137, R141, R163). -/
def State.seqOwns (s : State) (b : BundleCtx) (tile : Nat) : Bool :=
  decide (tile < 512) && (s.owner b.core tile == 0x40 || b.taken.contains tile)
def State.tileCheck (s : State) (b : BundleCtx) (base n : Nat) : List Byte :=
  if (List.range n).all fun i => s.seqOwns b (base + i) then [] else [cSeqTile]
def Seq.slotCheck (q : Seq) (n : Nat) : List Byte := if n < 96 && (q.slot n).claimed then [] else [cSeqSlot]
def failIf (p : Bool) (cause : Byte) : List Byte := if p then [cause] else []

/-- Words one after another; a word that does not answer a next state ends the step. -/
def runWords (ex : Instr → State → Out) : List Instr → State → Out
  | [], s => .next s
  | i :: is, s =>
    match ex i s with
    | .next s1 => runWords ex is s1
    | o => o

/-- The cycle class that an issued bundle gives (Table 17.5). -/
def Seq.issueClass (q : Seq) (b : BundleCtx) (addr : DWord) : Nat × DWord :=
  match q.inFlight with
  | x :: _ => (3, x.addr)
  | [] => if b.push.isSome || b.zero then (4, addr) else (5, addr)

/-- The end of a bundle: the planes change, the bundle counts, and control moves on (R131, R142, R143, R157). -/
def State.closeBundle (s : State) : State :=
  match s.bun with
  | none => s
  | some b =>
    let q := (s.core b.core).seq
    let addr := q.bundleAddr
    let q1 := if b.swap then { q with plane := !q.plane } else q
    let q2 := match b.push with
      | some (i, bs) => q1.writeShadow i bs
      | none => q1
    let q3 := if b.zero then q2.zeroShadow else q2
    let q4 := match b.cfg with
      | some (md, af, wf, nk) => { q3 with md, af, wf, nk }
      | none => q3
    let q5 := q4.nextPos
    let q6 := match b.jump with
      | some t => if b.halt then q5 else { q5 with pos := { q5.pos with branch := some t, delays := 2 } }
      | none => q5
    let q7 := { q6 with bcount := q6.bcount + 1, sinceRet := if b.retire then 1 else q6.sinceRet + 1, halt := b.halt,
                        atRetire := b.retire, stalled := none, released := false }
    let s1 : State := { s.modCore b.core (fun k => { k with seq := q7, cls := some (q.issueClass b addr), lastCharge := addr }) with bun := none }
    let s2 := s1.readStores b.core
    if b.halt then s2.teamEnd b.core q7.team else s2

/-- The cause that a fault of a word reports. -/
def faultCause (k : Byte) : Nat := (if k == cSeqMarked then cSeqFormat else k).toNat

/-- The bundle at hand: its words are checked; it stalls, or reports the lowest cause with the words that raise it, or all its
words are performed. s holds the array's writes that land in this bundle, and s0 does not: they land only if it issues (R126, R136). -/
def runReady (ex : Instr → State → Out) (c : Nat) (s0 s : State) : Out :=
  let q := (s.core c).seq
  match runWords ex q.instrs (s.setBun (q.context c)) with
  | .next s1 =>
    match s1.bun with
    | none => .next s1
    | some b =>
      if b.stall then
        .next (s0.modSeq c fun q => { q with stalled := some (q.stalled.getD s.time), released := false })
      else
        match (b.faults.map fun f => faultCause f.1).min? with
        | some cause =>
          let mine := b.faults.filter fun f => faultCause f.1 == cause
          let bits := mine.foldl (fun m f => m ||| f.2) 0
          if (mine.any fun f => f.1 == cSeqMarked) && ((s0.seqTeam c).any fun t => t.recov.isSome) then .next (s0.rollback c q.team)
          else .next (s0.seqFault c (BitVec.ofNat 8 cause) q.pos.seg q.pos.idx bits.toNat 0)
        | none =>
          match runWords ex q.instrs ((s1.modSeq c Seq.advance).setBun { b with phase := .perform }) with
          | .next s2 => .next s2.closeBundle
          | o => o
  | o => o

/-- Reaches the bundle at hand: through the end of a segment, to a fault of supply, to a SEQ_STOP (R365), or to its issue. -/
def State.reach (s : State) (c : Nat) : Nat → State × Bool
  | 0 => (s, false)
  | fuel + 1 =>
    let q := (s.core c).seq
    match q.supply with
    | .wait => (s, false)
    | .fault cause seg idx whr => (s.seqFault c cause seg idx 0 whr, false)
    | .leave nxt => State.reach (s.modSeq c fun q => q.fall nxt) c fuel
    | .ready h =>
      let s1 := s.modSeq c fun q => q.settleHalf h
      if q.stop == some q.bcount then
        ((s1.seqFault c cSeqStop q.pos.seg q.pos.idx 0 0).modSeq c fun q => { q with stop := none }, false)
      else (s1, true)

/-- One bundle of a core. -/
def runBundle (ex : Instr → State → Out) (c : Nat) (s : State) : Out :=
  if !s.seqRuns c then .next s
  else match s.reach c 2 with
    | (s1, false) => .next s1
    | (s1, true) => runReady ex c s1 (s1.landDue c)

end Sys2Proof.Machine
end

