-- ==== Sys2Proof/Machine/SeqC.lean ====
section
/-!
DEFINITION. Sys2Proof/Machine/SeqC.lean: the words of the C slot (R147-R157): scalar work, branches, tiles, barriers, retire points and the
fence.
-/
namespace Sys2Proof.Machine

/-- The second source of a scalar word, as it stood at the start of the bundle (R128). -/
def BundleCtx.yval (b : BundleCtx) (n : BitVec 5) : Word := b.y.get 0 n.toNat
def BundleCtx.src (b : BundleCtx) : YSrc → Word
  | .y n => b.yval n
  | .imm w => w

/-- A word that writes a Y register (R146, R148). -/
def yWord (yd : BitVec 5) (f : BundleCtx → Word) (s : State) : Out :=
  plainWord 0 (fun _ _ _ => []) (fun s b => s.modSeq b.core fun q => q.setY yd.toNat (f b)) s

def execCnop (s : State) : Out := plainWord 0 (fun _ _ _ => []) (fun s _ => s) s

def execYadd (yd ya : BitVec 5) (x : YSrc) (s : State) : Out := yWord yd (fun b => b.yval ya + b.src x) s
def execYsub (yd ya : BitVec 5) (x : YSrc) (s : State) : Out := yWord yd (fun b => b.yval ya - b.src x) s
def execYmov (yd : BitVec 5) (x : YSrc) (s : State) : Out := yWord yd (fun b => b.src x) s

/-- YSHL: left by n, or right with zeros by -n (R148). -/
def yshl (a n : Word) : Word :=
  let k := n.toInt
  if k ≥ 32 ∨ k ≤ -32 then 0
  else if k ≥ 0 then a <<< k.toNat
  else a >>> (-k).toNat
def execYshl (yd ya : BitVec 5) (x : YSrc) (s : State) : Out := yWord yd (fun b => yshl (b.yval ya) (b.src x)) s

def execYcmp (cc : YCmp) (bd : BitVec 2) (ya : BitVec 5) (x : YSrc) (s : State) : Out :=
  plainWord 0 (fun _ _ _ => [])
    (fun s b => s.modSeq b.core fun q => if bd = 3 then q else q.setB bd.toNat (cc.holds (b.yval ya) (b.src x))) s

/-- A taken branch (R69, R149). -/
def segAddr (seg : BitVec 53) : DWord := seg.setWidth 64 <<< 4
def execSbr (seg : BitVec 53) (idx : BitVec 8) (s : State) : Out :=
  plainWord 0 (fun _ _ _ => []) (fun s _ => s.modBun fun b => { b with jump := some (segAddr seg, idx.toNat) }) s
def execSbrc (neg : Bool) (bp : BitVec 2) (seg : BitVec 53) (idx : BitVec 8) (s : State) : Out :=
  plainWord 0 (fun _ _ _ => [])
    (fun s _ => s.modBun fun b => if bPred b.b bp.toNat != neg then { b with jump := some (segAddr seg, idx.toNat) } else b) s

-- Tiles (R150, R151) -----------------------------------------------------------------------------------------------

/-- Whether SEQ may take a tile: it owns it already or has been given it, and every write pending on it has landed (R140,
R150). -/
def State.seqTakes (s : State) (c tile : Nat) : Bool :=
  (s.owner c tile == 0x40 || s.owner c tile == 0xC0) && !s.tilePending c tile
def State.stakeWaits (s : State) (c base n : Nat) : Bool :=
  decide (base + n ≤ 512) && !(List.range n).all fun i => s.seqTakes c (base + i)

/-- STAKE: the tiles it takes count as owned by every word of its bundle (R141, R145). -/
def execStake (tn : BitVec 5) (tb : BitVec 9) (s : State) : Out :=
  let n := tn.toNat + 1
  slotWord 0 (fun _ _ _ => failIf (decide (tb.toNat + n > 512)) cSeqTile) (fun s b _ => s.stakeWaits b.core tb.toNat n)
    (fun s b =>
      (s.setOwners b.core tb.toNat n 0x40).modSeq b.core fun q => { q with gave := q.gave.cut tb.toNat (tb.toNat + n) })
    (match s.bun with
      | some { phase := .check, .. } =>
        s.modBun fun b => { b with taken := (List.range n).map (tb.toNat + ·) }
      | _ => s)

/-- SGIVE: a recipient's TAKE waits for the KSTOREs and the reads of scratchpad issued before it (R151, R233). The words of a bundle
are performed in the order C, M, X, K, so that a K word of this bundle counts as issued after it (assumption 55). -/
def execSgive (tn : BitVec 5) (tb : BitVec 9) (rc : Byte) (s : State) : Out :=
  let n := tn.toNat + 1
  plainWord 0 (fun s b _ => s.tileCheck b tb.toNat n ++ failIf (!(decide (rc.toNat ≤ 0x3F) || rc == 0x41)) cSeqSlot)
    (fun s b =>
      let s1 := s.giveTiles b.core tb.toNat n (s.seqTeam b.core) (s.seqTag b.core) rc
      s1.modSeq b.core fun q => { q with gave := (List.range n).foldl (fun m i => m.put (tb.toNat + i) q.nextK) q.gave }) s

-- Barriers and the fence (R152-R155) -------------------------------------------------------------------------------

/-- A K word enters the K pipeline (R126). -/
def Seq.enqueue (q : Seq) (slot row rows : Nat) (move : KMove) : Seq :=
  { q with
    kq := q.kq ++ [{ kid := q.nextK, bundle := q.bcount.toNat, fences := q.fences, slot, row, rows, move, data := none, later := [] }]
    nextK := q.nextK + 1 }

/-- A barrier object of SARRIVE or SWAIT lies aligned in the window (R154). -/
def State.seqBarOk (s : State) (c ofs : Nat) : Bool :=
  match s.seqTeam c with
  | some t => ofs % 32 == 0 && decide (ofs + 32 ≤ t.scrLen)
  | none => false
def State.seqBar (s : State) (c ofs : Nat) : Bar := s.bar c ((s.seqTeam c).map (·.scr) |>.getD 0) ofs
/-- Whether a RECOV team cannot read such an object: it rolls back (R356). -/
def State.seqBarMarked (s : State) (c ofs : Nat) : Bool := (s.seqTeam c).any fun t => s.barMarked c t ofs

/-- SARRIVE: a K word of its own bundle counts as issued after it (assumption 55). -/
def execSarrive (ya : BitVec 5) (s : State) : Out :=
  plainWord 0 (fun s b _ => failIf (!s.seqBarOk b.core (b.yval ya).toNat) cSeqSlot)
    (fun s b => s.modSeq b.core fun q => q.enqueue 0 0 0 (.arrive (b.yval ya).toNat)) s

/-- What SWAIT writes, or none while it stalls: the lowest of 0, 1 and 2 whose condition holds (R153). -/
def State.swaitCode (s : State) (c ofs : Nat) (phase iv : Word) : Option Word :=
  let x := s.seqBar c ofs
  let late := match (s.core c).seq.stalled with
    | some t => decide (iv ≠ 0) && decide (t + iv.toNat ≤ s.time)
    | none => false
  if x.phase ≠ phase.toNat then some 0
  else if late then some 1
  else if x.err then some 2
  else none
/-- Whether a SWAIT stalls its bundle. -/
def State.swaitWaits (s : State) (c ofs : Nat) (phase iv : Word) : Bool :=
  s.seqBarOk c ofs && !s.seqBarMarked c ofs && (s.swaitCode c ofs phase iv).isNone
def execSwait (yd ya yb : BitVec 5) (iv : Word) (s : State) : Out :=
  slotWord 0
    (fun s b _ =>
      let ofs := (b.yval ya).toNat
      failIf (!s.seqBarOk b.core ofs) cSeqSlot ++ failIf (s.seqBarOk b.core ofs && s.seqBarMarked b.core ofs) cSeqMarked)
    (fun s b _ => s.swaitWaits b.core (b.yval ya).toNat (b.yval yb) iv)
    (fun s b =>
      s.modSeq b.core fun q => q.setY yd.toNat ((s.swaitCode b.core (b.yval ya).toNat (b.yval yb) iv).getD 0)) s

/-- SFENCE: a K word of its own bundle counts as issued after it (assumption 55). -/
def execSfence (s : State) : Out :=
  plainWord 0 (fun _ _ _ => []) (fun s b => s.modSeq b.core fun q => { q with fences := q.fences + 1 }) s

-- Retire points (R142, R143, R156, R157) ---------------------------------------------------------------------------

/-- Whether a word of the bundle at hand feeds the array. -/
def Seq.feeds (q : Seq) : Bool := q.instrs.any fun i => match i with
  | .mbeat _ (some _) _ _ _ => true
  | _ => false

/-- RETIREPT and SHALT: the pipeline must be empty, and no FEED beside it, which then bears its bit in the record too. -/
def retireWord (act : BundleCtx → BundleCtx) (s : State) : Out :=
  plainWord 0 (fun _ _ q => failIf (!q.pipeEmpty || q.feeds) cSeqSlot) (fun s _ => s.modBun act)
    (match s.bun with
      | some b =>
        if b.phase == .check && (s.core b.core).seq.feeds then s.modBun fun b => { b with faults := b.faults ++ [(cSeqSlot, 2)] } else s
      | none => s)
def execRetirept (s : State) : Out := retireWord (fun b => { b with retire := true }) s
def execShalt (s : State) : Out := retireWord (fun b => { b with halt := true }) s

/-- A word with an unassigned opcode (R64). -/
def execUnassignedSlotOpcode (slot : BitVec 2) (_opc : Byte) (s : State) : Out :=
  plainWord slot.toNat (fun _ _ _ => [cSeqSlot]) (fun s _ => s) s

end Sys2Proof.Machine
end

