-- ==== Sys2Proof/Machine/SeqM.lean ====
section
/-!
DEFINITION. Sys2Proof/Machine/SeqM.lean: the words of the M slot (R158-R165) and of the X slot (R166, R167).
-/
namespace Sys2Proof.Machine

-- M slot -----------------------------------------------------------------------------------------------------------

def execMnop (s : State) : Out := plainWord 1 (fun _ _ _ => []) (fun s _ => s) s

/-- The checks of a PUSH (R163, R170). -/
def State.pushCheck (s : State) (b : BundleCtx) (q : Seq) (p : PushF) : List Byte :=
  let o := 8 * p.ofs8.toNat
  q.slotCheck p.slot.toNat ++ failIf (decide (o + q.pushLen > 2048)) cSeqSlot
    ++ failIf (s.slotMarked b.core p.slot.toNat (o / 64) ((o + q.pushLen + 63) / 64 - o / 64)) cSeqMarked

/-- Whether the words of tile rows hold one of some tags. -/
def State.rowsTagged (s : State) (c base tiles row rows : Nat) (ok : Tag → Bool) : Bool :=
  (List.range tiles).all fun i => (List.range rows).all fun j => (s.tileRow c (base + i) (row + j)).all fun w => ok w.tag

/-- The checks of a FEED (R141, R160, R163). -/
def State.feedCheck (s : State) (b : BundleCtx) (q : Seq) (f : FeedF) : List Byte :=
  failIf (f.row.toNat % q.beatRows != 0) cSeqSlot
    ++ if f.fromSlot then
        q.slotCheck f.base.toNat ++ failIf (s.slotMarked b.core f.base.toNat (2 * f.row.toNat) (2 * q.beatRows)) cSeqMarked
      else
        s.tileCheck b f.base.toNat 2 ++ failIf (!s.rowsTagged b.core f.base.toNat 2 f.row.toNat q.beatRows (· == q.actTag)) cSeqFormat
def State.feedRows (s : State) (c : Nat) (q : Seq) (f : FeedF) : List (List Byte) :=
  (List.range q.beatRows).map fun j =>
    let r := f.row.toNat + j
    if f.fromSlot then s.slotBytes c f.base.toNat (128 * r) 128
    else rowBytes ((s.tileRow c f.base.toNat r).map (·.bits)) ++ rowBytes ((s.tileRow c (f.base.toNat + 1) r).map (·.bits))

/-- The checks of an ACC (R141, R161, R163). -/
def State.accCheck (s : State) (b : BundleCtx) (q : Seq) (a : AccF) : List Byte :=
  failIf (a.row.toNat % q.beatRows != 0) cSeqSlot ++ s.tileCheck b a.base.toNat 4
    ++ failIf (!a.anew && !s.rowsTagged b.core a.base.toNat 4 a.row.toNat q.beatRows fun t => t == q.sumTag || t == .raw) cSeqFormat

/-- The checks of a DRAIN (R141, R162, R163). -/
def drainSuits (int : Bool) : DFmt → Bool
  | .d32 => true
  | .i8 => int
  | _ => !int
def State.drainCheck (s : State) (b : BundleCtx) (q : Seq) (d : DrainF) : List Byte :=
  failIf (d.row.toNat % q.beatRows != 0) cSeqSlot
    ++ (if d.toSlot then q.slotCheck d.base.toNat ++ failIf (d.fmt == .d32) cSeqFormat
        else s.tileCheck b d.base.toNat (drainSpan d.fmt))
    ++ failIf (!drainSuits q.intMode d.fmt) cSeqFormat

/-- Words from elements of 16 and 8 bits, lowest first. -/
def packHalves : List Nat → List Word
  | a :: b :: t => pack2w a b :: packHalves t
  | _ => []
def packBytes : List Nat → List Word
  | a :: b :: c :: d :: t => BitVec.ofNat 32 (leNat ([a, b, c, d].map (BitVec.ofNat 8))) :: packBytes t
  | _ => []

/-- A row of sums converted by DRAIN, and whether the I8 clamp changed one (R162). -/
def drainRow (f : DFmt) (sat : Bool) (sums : List Word) : List Word × Bool :=
  let conv (g : Fmt) : List Nat := sums.map fun w => Fmt.f32.convert g .rne sat w.toNat
  match f with
  | .d32 => (sums, false)
  | .bf16 => (packHalves (conv .bf16), false)
  | .f16 => (packHalves (conv .f16), false)
  | .e4m3 => (packBytes (conv .e4m3), false)
  | .e5m2 => (packBytes (conv .e5m2), false)
  | .i8 =>
    let xs := sums.map fun w => clamp (-128) 127 w.toInt
    (packBytes (xs.map fun x => (BitVec.ofInt 8 x).toNat), (xs.zip sums).any fun p => p.1 != p.2.toInt)

/-- A write of the array that lands two bundles on (R136). -/
def Seq.pending (q : Seq) (dst : PendDst) (rows : List (List Word)) : Seq :=
  let q1 := { q with pend := q.pend ++ [{ land := q.bcount.toNat + Config.landDelay, int := q.intMode, rows, dst, later := [] }] }
  match dst with
  | .slot n _ _ => q1.modSlot n fun x => { x with drains := x.drains + 1 }
  | _ => q1

/-- ACC and DRAIN take the rows at the bottom (R161, R162). -/
def Seq.accumulate (q : Seq) (a : AccF) : Seq :=
  q.pending (.acc (!a.anew) a.base.toNat a.row.toNat) (q.rowsAt Config.bottomDelay)
def Seq.drain (q : Seq) (d : DrainF) : Seq :=
  let rs := (q.rowsAt Config.bottomDelay).map (drainRow d.fmt d.sat)
  let q1 := q.pending (if d.toSlot then .slot d.base.toNat d.row.toNat d.fmt else .tiles d.base.toNat d.row.toNat d.fmt) (rs.map (·.1))
  { q1 with isat := q1.isat || rs.any (·.2) }

/-- Whether a FEED or PUSH meets a slot whose fill count is not zero (R127, R138). -/
def Seq.fillWaits (q : Seq) (n : Nat) : Bool := decide (n < 96) && (q.slot n).fills != 0
def mbeatWaits (q : Seq) (push : Option PushF) (feed : Option FeedF) : Bool :=
  (match push with
    | some p => q.fillWaits p.slot.toNat
    | none => false)
  || match feed with
    | some f => f.fromSlot && q.fillWaits f.base.toNat
    | none => false

def execMbeat (push : Option PushF) (feed : Option FeedF) (acc : Option AccF) (drain : Option DrainF) (swap : Bool) (s : State) : Out :=
  slotWord 1
    (fun s b q =>
      failIf (acc.isSome && drain.isSome) cSeqSlot
        ++ (push.map (s.pushCheck b q)).getD [] ++ (feed.map (s.feedCheck b q)).getD []
        ++ (acc.map (s.accCheck b q)).getD [] ++ (drain.map (s.drainCheck b q)).getD [])
    (fun _ _ q => mbeatWaits q push feed)
    (fun s b =>
      let q := (s.core b.core).seq
      let addr := q.bundleAddr
      let q1 := match feed with
        | some f => q.feed (s.feedRows b.core q f) addr
        | none => q
      let q2 := match acc with
        | some a => q1.accumulate a
        | none => q1
      let q3 := match drain with
        | some d => q2.drain d
        | none => q2
      (s.modSeq b.core fun _ => q3).modBun fun b =>
        { b with
          fed := feed.isSome
          swap := swap
          push := push.map fun p => (p.krow.toNat, s.slotBytes b.core p.slot.toNat (8 * p.ofs8.toNat) q.pushLen) }) s

def execMswap (s : State) : Out := plainWord 1 (fun _ _ _ => []) (fun s _ => s.modBun fun b => { b with swap := true }) s
def execMzero (s : State) : Out := plainWord 1 (fun _ _ _ => []) (fun s _ => s.modBun fun b => { b with zero := true }) s

/-- MCFG on an empty pipeline, for the M words of the next bundle (R142, R165). -/
def execMcfg (md : AMode) (af wf : Bool) (nk : BitVec 4) (s : State) : Out :=
  plainWord 1 (fun _ _ q => failIf (!mcfgWf md af wf nk || !q.pipeEmpty) cSeqSlot)
    (fun s _ => s.modBun fun b => { b with cfg := some (md, af, wf, nk) }) s

-- X slot -----------------------------------------------------------------------------------------------------------

def execXnop (s : State) : Out := plainWord 2 (fun _ _ _ => []) (fun s _ => s) s

/-- The checks of the stages (R135, R166, R167, R170). -/
def State.scaleCheck (s : State) (b : BundleCtx) (q : Seq) : XExp → List Byte
  | .imm _ => []
  | .row n r => q.slotCheck n.toNat ++ failIf (s.slotMarked b.core n.toNat r.toNat 1) cSeqMarked
def State.biasCheck (s : State) (b : BundleCtx) (q : Seq) (x : XBiasF) : List Byte :=
  q.slotCheck x.slot.toNat ++ failIf (decide (x.row.toNat > 28)) cSeqSlot ++ failIf (s.slotMarked b.core x.slot.toNat x.row.toNat 4) cSeqMarked
def clampCheck (b : BundleCtx) (x : XClampF) : List Byte :=
  let lo := (b.yval x.lo).toNat
  let hi := (b.yval x.hi).toNat
  failIf (Fmt.f32.isNaN lo || Fmt.f32.isNaN hi || Cmp.gt.onFloat .f32 lo hi) cSeqFormat

/-- The stages on one sum (R90, R167). -/
def clampWord (lo hi x : Word) : Word :=
  if Cmp.lt.onFloat .f32 x.toNat lo.toNat then lo
  else if Cmp.gt.onFloat .f32 x.toNat hi.toNat then hi
  else x
def scaleWord (e : Int) (x : Word) : Word := round32 ((Fmt.f32.decode x.toNat).scale e)

/-- An X word: the stages that act, on the rows at the scale port (R135). -/
def xWordExec (e : Option XExp) (bias : Option XBiasF) (clamp : Option XClampF) (s : State) : Out :=
  plainWord 2
    (fun s b q =>
      failIf q.intMode cSeqFormat ++ (e.map (s.scaleCheck b q)).getD [] ++ (bias.map (s.biasCheck b q)).getD []
        ++ (clamp.map (clampCheck b)).getD [])
    (fun s b =>
      let exps : List Byte := match e with
        | some (.imm v) => List.replicate 64 v
        | some (.row n r) => s.slotBytes b.core n.toNat (64 * r.toNat) 64
        | none => []
      let addends : List Word := match bias with
        | some x => rowWords 64 (s.slotBytes b.core x.slot.toNat (64 * x.row.toNat) 256)
        | none => []
      let stage (n : Nat) (w : Word) : Word :=
        let w1 := if e.isSome then scaleWord (byteAt exps n).toInt w else w
        let w2 := if bias.isSome then f32Add w1 (addends.getD n 0) else w1
        match clamp with
        | some x => clampWord (b.yval x.lo) (b.yval x.hi) w2
        | none => w2
      s.modSeq b.core fun q =>
        q.setRowsAt Config.scalePortDelay ((q.rowsAt Config.scalePortDelay).map fun r => r.zipIdx.map fun p => stage p.2 p.1)) s

def execXscale (e : XExp) (bias : Option XBiasF) (clamp : Option XClampF) (s : State) : Out := xWordExec (some e) bias clamp s
def execXbias (bias : XBiasF) (clamp : Option XClampF) (s : State) : Out := xWordExec none (some bias) clamp s
def execXsat (clamp : XClampF) (s : State) : Out := xWordExec none none (some clamp) s

end Sys2Proof.Machine
end

