-- ==== Sys2Proof/Machine/SeqK.lean ====
section
/-!
DEFINITION. Sys2Proof/Machine/SeqK.lean: the words of the K slot (R137, R138, R168-R170) and the events of the sequencer: transfers that
land, interlocks that clear, deadlines, segments expanded, and the stop that the monitor sets.
-/
namespace Sys2Proof.Machine

-- K slot -----------------------------------------------------------------------------------------------------------

def execKnop (s : State) : Out := plainWord 3 (fun _ _ _ => []) (fun s _ => s) s

def execKclaim (n : BitVec 7) (s : State) : Out :=
  plainWord 3 (fun _ _ q => failIf (!decide (n.toNat < 96) || (q.slot n.toNat).claimed) cSeqSlot)
    (fun s b => s.modSeq b.core fun q => q.modSlot n.toNat fun _ => { claimed := true, fills := 0, drains := 0, releasing := false }) s
def execKrel (n : BitVec 7) (s : State) : Out :=
  plainWord 3 (fun _ _ q => q.slotCheck n.toNat)
    (fun s b => s.modSeq b.core fun q => q.modSlot n.toNat fun x => { x with releasing := true }) s

/-- A span of rows in a window of a given length (R169). -/
def spanOk (ofs rows extent : Nat) : Bool := ofs % 64 == 0 && decide (ofs + 64 * rows ≤ extent)
def State.seqScr (s : State) (c : Nat) : Nat := ((s.seqTeam c).map (·.scrLen)).getD 0
def State.seqWs (s : State) (c : Nat) : Nat := (s.wsWindow (s.seqTag c).1).2

/-- Tiles that rows of 64 bytes take. -/
def tilesOf (rows : Nat) : Nat := (rows + 15) / 16

/-- Rows of a tile strip as a KFILL reads them. -/
def State.stripRows (s : State) (c tile rows : Nat) : List (List TWord) :=
  (List.range rows).map fun i => s.tileRow c (tile + i / 16) (i % 16)

/-- Whether a KFILL meets a bank group in refresh (R127, R169). -/
def State.kfillWaits (s : State) (c : Nat) (b : BundleCtx) (rows : Nat) : KFrom → Bool
  | .ws ya => spanOk (b.yval ya).toNat rows (s.seqWs c) && wsBusy s.time (b.yval ya).toNat (64 * rows)
  | _ => false

def execKfill (n : BitVec 7) (row nr : BitVec 5) (src : KFrom) (s : State) : Out :=
  let rows := nr.toNat + 1
  slotWord 3
    (fun s b q =>
      q.slotCheck n.toNat ++ failIf (decide (row.toNat + nr.toNat > 31)) cSeqSlot
        ++ match src with
          | .sp ya => failIf (!spanOk (b.yval ya).toNat rows (s.seqScr b.core)) cSeqSlot
          | .ws ya => failIf (!spanOk (b.yval ya).toNat rows (s.seqWs b.core)) cSeqSlot
          | .tl tb =>
            s.tileCheck b tb.toNat (tilesOf rows)
              ++ failIf ((s.stripRows b.core tb.toNat rows).any fun r => r.any fun w => w.tag == .psn) cSeqFormat)
    (fun s b _ => s.kfillWaits b.core b rows src)
    (fun s b =>
      let move : KMove := match src with
        | .sp ya => .fillSp (b.yval ya).toNat
        | .ws ya => .fillWs (b.yval ya).toNat
        | .tl tb => .fillTl ((s.stripRows b.core tb.toNat rows).flatMap fun r => rowBytes (r.map (·.bits)))
      s.modSeq b.core fun q =>
        (q.modSlot n.toNat fun x => { x with fills := x.fills + 1 }).enqueue n.toNat row.toNat rows move) s

def execKstore (n : BitVec 7) (row nr : BitVec 5) (dst : KTo) (s : State) : Out :=
  let rows := nr.toNat + 1
  plainWord 3
    (fun s b q =>
      q.slotCheck n.toNat ++ failIf (decide (row.toNat + nr.toNat > 31)) cSeqSlot
        ++ failIf (s.slotMarked b.core n.toNat row.toNat rows) cSeqMarked
        ++ match dst with
          | .sp ya => failIf (!spanOk (b.yval ya).toNat rows (s.seqScr b.core)) cSeqSlot
          | .tl tb tg => failIf (Tag.ofCode tg |>.all (· == .psn)) cSeqSlot ++ s.tileCheck b tb.toNat (tilesOf rows))
    (fun s b =>
      let move : KMove := match dst with
        | .sp ya => .storeSp (b.yval ya).toNat
        | .tl tb tg => .storeTl tb.toNat ((Tag.ofCode tg).getD .raw)
      s.modSeq b.core fun q => q.enqueue n.toNat row.toNat rows move) s

-- Landing ----------------------------------------------------------------------------------------------------------

/-- The rows of a fill as they arrive, each with whether its data is uncorrectable (R170). -/
def State.fillRows (s : State) (c : Nat) (t : Team) (k : KXfer) : List (List Byte × Bool) :=
  (List.range k.rows).map fun i =>
    match k.move with
    | .fillSp ofs => s.scrRead c t (ofs + 64 * i) 64
    | .fillWs ofs => s.wsRead c (s.seqTag c).1 (ofs + 64 * i) 64
    | .fillTl data => ((data.drop (64 * i)).take 64, false)
    | _ => ([], false)

/-- One row of a transfer reaches its destination, unless a write issued later has been there. -/
def State.landKRow (s : State) (c : Nat) (t : Team) (k : KXfer) (i : Nat) (row : List Byte × Bool) : State :=
  match k.move with
  | .fillSp _ | .fillWs _ | .fillTl _ =>
    if k.later.contains (slotUnit k.slot (k.row + i)) then s else s.setSlotRow c k.slot (k.row + i) row.1 row.2
  | .storeSp ofs => s.scrWrite c t (ofs + 64 * i) row.1
  | .storeTl tile tag =>
    if k.later.contains (tileUnit (tile + i / 16) (i % 16)) then s
    else s.setTileRow c (tile + i / 16) (i % 16) tag (rowWords 16 row.1)
  | .arrive _ => s

/-- K_TRANSFER_LANDED: a K word that may land does so; its slot's count falls, and held words behind it may go on (R137, R138,
R152, R155). An arrival at a barrier of a wider scope than the core comes after the stores that agents of the core know of (R235). A fill of
uncorrectable data, or an arrival at an object that cannot be read, rolls a RECOV team back (R356). -/
def execKTransferLanded (core kid : Nat) (s : State) : Out :=
  let q := (s.core core).seq
  match q.kq.find? (fun k => k.kid == kid), s.seqTeam core with
  | some k, some t =>
    if !q.mayLand k then .next s
    else
      let s0 := s.modSeq core fun q => { q with kq := q.kq.filter fun x => x.kid != kid }
      match k.move with
      | .arrive ofs =>
        if (s0.seqBar core ofs).scope ≠ 0 ∧ !(s.seenStores core).isEmpty then .next s
        else if s0.barMarked core t ofs then .next (s0.rollback core q.team)
        else
        let b := (s0.seqBar core ofs).apply .arrive false
        .next ((s0.setBar core t.scr ofs b.1).teamEnd core q.team)
      | _ =>
        let rows := if k.move.isFill then s.fillRows core t k
          else (List.range k.rows).map fun i => (((k.data.getD []).drop (64 * i)).take 64, false)
        if rows.any (·.2) && t.recov.isSome then .next (s0.rollback core q.team)
        else
          let s1 := rows.zipIdx.foldl (fun s p => s.landKRow core t k p.2 p.1) s0
          let s2 := s1.modSeq core fun q =>
            let q1 := q.supersede k.bundle k.units
            if k.move.isFill then q1.modSlot k.slot fun x => { x with fills := x.fills - 1 } else q1
          .next ((s2.readStores core).teamEnd core q.team)
  | _, _ => .next s

-- Interlocks (R127) ------------------------------------------------------------------------------------------------

/-- Whether a word of the bundle at hand stalls it. -/
def State.wordWaits (s : State) (c : Nat) (i : Instr) : Bool :=
  let q := (s.core c).seq
  let b := q.context c
  match i with
  | .stake tn tb => s.stakeWaits c tb.toNat (tn.toNat + 1)
  | .swait _ ya yb iv => s.swaitWaits c (b.yval ya).toNat (b.yval yb) iv
  | .mbeat push feed _ _ _ => mbeatWaits q push feed
  | .kfill _ _ nr src => s.kfillWaits c b (nr.toNat + 1) src
  | _ => false
/-- Whether the bundle at hand would stall: the writes of the array that land in it count as landed. -/
def State.bundleWaits (s : State) (c : Nat) : Bool :=
  let s1 := s.landDue c
  (s1.core c).seq.instrs.any fun i => s1.wordWaits c i

/-- SEQ_INTERLOCK_RELEASE: what a stalled bundle waits for has come about; it issues at the sequencer's next turn. -/
def execSeqInterlockRelease (core : Nat) (s : State) : Out :=
  let q := (s.core core).seq
  if q.stalled.isSome && !q.released && !s.bundleWaits core then .next (s.modSeq core fun q => { q with released := true }) else .next s

/-- SWAIT_TIMEOUT: the deadline of the SWAIT at which the sequencer stalls has passed; it completes with code 1 (R153). -/
def State.swaitLate (s : State) (c : Nat) : Bool :=
  let q := (s.core c).seq
  let b := q.context c
  q.instrs.any fun i => match i with
    | .swait _ ya yb iv => s.swaitCode c (b.yval ya).toNat (b.yval yb) iv == some 1
    | _ => false
def execSwaitTimeout (core : Nat) (s : State) : Out :=
  let q := (s.core core).seq
  if q.stalled.isSome && !q.released && s.swaitLate core then .next (s.modSeq core fun q => { q with released := true }) else .next s

/-- WS_REFRESH_WINDOW: a bank group leaves its window, and the sequencers that stalled for it may issue (R127, R181). -/
def execWsRefreshWindow (s : State) : Out :=
  .next (s.cores.foldl (fun s p =>
    let q := p.2.seq
    let k := q.instrs.any fun i => match i with
      | .kfill _ _ _ (.ws _) => true
      | _ => false
    if q.stalled.isSome && !q.released && k && !s.bundleWaits p.1 then s.modSeq p.1 fun q => { q with released := true } else s) s)

-- Segments (R67, R68, R129) ----------------------------------------------------------------------------------------

/-- The bundles of a segment from an address on, with its bytes, or the failure of a fetch. -/
def State.fetchBundles (s : State) (die ctx : Nat) : Nat → Nat → Fetch × List (List Byte)
  | 0, _ => (.bytes [], [])
  | n + 1, va =>
    match s.fetch die ctx segPage 2 va 1 with
    | .bytes [p] =>
      match s.fetch die ctx segPage 2 va (1 + 12 * presentCount p) with
      | .bytes bs =>
        match State.fetchBundles s die ctx n (va + bs.length) with
        | (.bytes rest, more) => (.bytes (bs ++ rest), bs :: more)
        | x => x
      | x => (x, [])
    | x => (x, [])

def byteSum (bs : List Byte) : Nat := bs.foldl (fun n b => n + b.toNat) 0

/-- A segment as the prefetch engine reads and checks it; or the absent byte it waits for. -/
def State.readSegment (s : State) (die ctx : Nat) (seg : DWord) : Half ⊕ Nat :=
  let bad (st : SegState) : Half ⊕ Nat := .inl { seg, st, nxt := 0, bundles := [] }
  match s.fetch die ctx segPage 2 seg.toNat 16 with
  | .fault _ => bad .noFetch
  | .absent va => .inr va
  | .bytes h =>
    let count := leNat ((h.drop 8).take 2)
    if count = 0 ∨ count > 256 then bad .malformed
    else match s.fetchBundles die ctx count (seg.toNat + 16) with
      | (.fault _, _) => bad .noFetch
      | (.absent va, _) => .inr va
      | (.bytes bs, bundles) =>
        let check := leNat ((h.drop 12).take 4)
        let want := bs.length % 65536 + (byteSum (h.take 12) + byteSum bs) % 65536 * 65536
        .inl { seg, st := if leNat ((h.drop 10).take 2) = 0 ∧ check = want then .good else .malformed,
               nxt := bytesVal (h.take 8), bundles }

/-- The segment that the engine expands next: the one that control waits for, or the NEXT of the one that runs; nothing while an
expanded segment has still to start (R129). -/
def Seq.wanted (q : Seq) : Option DWord :=
  if (q.half q.pos.seg).isNone then (if q.pos.seg = 0 then none else some q.pos.seg)
  else if q.pos.enter then none
  else match q.halves with
    | h :: _ => if h.st == .good && h.nxt != 0 && h.nxt.toNat % 16 == 0 && (q.half h.nxt).isNone then some h.nxt else none
    | [] => none

/-- A page request by the sequencer of a core (R66, R324). -/
def State.askSeq (s : State) (c : Nat) (va : Nat) : State :=
  let (id, s1) := s.fresh
  let (ctx, inc) := s.seqTag c
  let s2 : State :=
    { s1 with
      pageReqs := s1.pageReqs ++
        [{ id, ctx, inc, va, who := .seq c, cause := cFetchPage, aux := 0, launch := ((s.seqTeam c).map (·.launch)).getD 0 }] }
  s2.modSeq c fun q => { q with pageWait := some id }

/-- SEGMENT_EXPANSION: the engine expands the segment it is to read into the half that does not run; an absent page is
requested from the host, and one that is refused, or absent again, cannot be fetched. -/
def execSegmentExpansion (core : Nat) (s : State) : Out :=
  let q := (s.core core).seq
  match q.wanted with
  | some seg =>
    if !q.active || q.pageWait.isSome then .next s
    else
      let put (h : Half) : Out :=
        .next (s.modSeq core fun q => { q with halves := q.halves.take 1 ++ [h], denied := [] })
      match s.readSegment (dieOf core) (s.seqTag core).1 seg with
      | .inl h => put h
      | .inr va =>
        if q.denied.contains (2 * (va / 4096)) || q.denied.contains (2 * (va / 4096) + 1) then
          put { seg, st := .noFetch, nxt := 0, bundles := [] }
        else .next (s.askSeq core va)
  | none => .next s

/-- SEQ_STOP: in place of the bundle at which the bundle count equals N (R365). -/
def execSeqStop (core : Nat) (s : State) : Out :=
  let q := (s.core core).seq
  if s.seqRuns core && q.stop == some q.bcount then .next (s.reach core 2).1 else .next s

end Sys2Proof.Machine
end

