-- ==== Sys2Proof/Machine/MemEvents.lean ====
section
/-!
DEFINITION. Sys2Proof/Machine/MemEvents.lean: the events of the memory system. Leases granted and ended (R188), writes performed at their
home (R189), fills (R191, R192), evictions (R192), walks and page requests (R324, R325), and requests that time out outside the
package (R311, R374).
-/
namespace Sys2Proof.Machine

-- Leases (R188, R189) ----------------------------------------------------------------------------------------------

/-- LEASE_GRANT: the home slice answers a miss with the line and its expiry; len is the length that the slice predicts, 64 to
4,096 cycles. The stores of the core to the line come first (R228, R229). -/
def execLeaseGrant (id len : Nat) (s : State) : Out :=
  match s.req id with
  | none => .next s
  | some r =>
    match r.act, r.stage with
    | .load .., .sent =>
      if !r.attr.leased || len < 64 || len > 4096 then .next s
      else if !s.passes r.ahead r.ctx r.inc then .next (s.dropReq id)
      else if s.ownStoreWaits r.core r.pa then .next s
      else
        let lpa := r.pa / 128 * 128
        let e := s.leaseExpiry r.pa len
        let stage : ReqStage := .granted e s.time (s.readHome (s.pageKey r.ctx r.attr) r.attr lpa 128) (s.homeSectors r.attr lpa)
        .next ((s.recordLease r.pa e).setReq { r with stage })
    | _, _ => .next s

/-- LEASE_EXPIRY: a copy whose lease has ended leaves the L1. idx is its place there. -/
def execLeaseExpiry (core idx : Nat) (s : State) : Out :=
  match (s.core core).l1[idx]? with
  | some x =>
    if x.attr.soft || decide (s.time < x.exp) then .next s
    else .next (s.modCore core fun k => { k with l1 := k.l1.eraseIdx idx })
  | none => .next s

/-- LEASE_WRITE_PERFORM: a store that waits at its home is performed once the leases on its line have expired; it is checked
again at that moment (R310). -/
def execLeaseWritePerform (id : Nat) (s : State) : Out :=
  match s.req id with
  | none => .next s
  | some r =>
    match r.act with
    | .store data =>
      if !r.attr.leased then .next s
      else if !s.passes r.ahead r.ctx r.inc then .next (s.dropReq id)
      else if !s.mayPerform r then .next s
      else .next ((s.writeHome (s.pageKey r.ctx r.attr) r.attr r.pa data).dropReq id)
    | _ => .next s

-- Fills (R191, R192) -----------------------------------------------------------------------------------------------

/-- A SOFT fill: the data of the die's L2 or the home, under the bytes that the core has itself written, and the caches with the line but for
those that it is kept out of (R191, R192). -/
def State.softFill (s : State) (r : Req) : List Byte × List Bool × State :=
  let (d, p, s1) := s.softFetch (dieOf r.core) r.ctx r.inc r.attr r.va r.pa
  let s2 := if r.noL2 then s.otherKey (dieOf r.core) r.ctx r.attr r.pa else s1
  let x := (s2.softIn r.core r.ctx r.inc r.attr r.va r.pa).filled d p
  (x.data, x.psn, if r.noInstall then s2 else s2.putL1 r.core x)

/-- Whether the slice of a core's die that would keep a SOFT line refuses it as stale (R310, R311). -/
def State.staleSlice (s : State) (r : Req) : Bool :=
  softCopied (dieOf r.core) r.attr r.pa && !s.passes [cpSlice (dieOf r.core) r.pa] r.ctx r.inc

/-- FILL_ARRIVAL: a line arrives at the L1. It is installed unless an INVR met it, its lease ended at its grant, or its tag is
stale there or at the die's slice before (R311); the load then takes its data (LOAD_DATA_RETURN). The answer of a peer under another
epoch is an orphan (R373). -/
def execFillArrival (id : Nat) (s : State) : Out :=
  match s.req id with
  | none => .next s
  | some r =>
    match r.act, r.stage with
    | .load .., .granted exp now line psn =>
      if s.staleAt r then .next (s.dropReq id)
      else
        let s1 := if r.noInstall || exp ≤ now then s else s.putL1 r.core (leaseLine r.ctx r.inc r.attr r.va r.pa exp line psn)
        .next (s1.setReq { r with stage := .filled line psn })
    | .load .., .sent =>
      if !r.attr.soft then .next s
      else if !s.passes r.ahead r.ctx r.inc then .next (s.dropReq id)
      else if !s.peerKnown r.attr then .next (s.lose r)
      else if s.staleSlice r then .next (s.dropReq id)
      else if s.staleAt r then .next ((s.softFill { r with noInstall := true }).2.2.dropReq id)
      else
        let (line, psn, s1) := s.softFill r
        .next (s1.setReq { r with stage := .filled line psn })
    | _, _ => .next s

-- Evictions (R191, R192) -------------------------------------------------------------------------------------------

/-- A write-back that no thread asked for, on its way to a target outside the package. It stands for the launches whose bytes it holds. -/
def State.sendEviction (s : State) (x : L2Line) : State :=
  let (id, s1) := s.sendAs { ctx := x.ctx, inc := x.inc, launch := noLaunch, team := 0 } (96 * x.die) 64 0 x.attr x.va x.pa
    (.writeback x.data x.dirty x.by_) false
  { s1 with reqs := replaceIf (fun r => r.id == id) (fun r => { r with orphan := true }) s1.reqs }

/-- Whether the page of an L2 line may be written now. -/
def State.l2Writable (s : State) (x : L2Line) : Bool :=
  match s.translate x.die x.ctx x.va with
  | .ok _ a => a.w
  | _ => false

/-- An eviction from the L2 of a die: what it writes is checked on its way as any request (R310). -/
def State.evictL2 (s : State) (idx : Nat) (x : L2Line) : State :=
  let s1 : State := { s with l2 := s.l2.eraseIdx idx }
  if !x.dirty.contains true then s1
  else if !s.l2Writable x then s1.machineCheck x.ctx x.inc
  else match x.attr.tgt with
    | .hbm => s1.homeL2 x
    | _ => s1.sendEviction x

/-- EVICTION_WRITEBACK: a line leaves the L1 of a core, or the L2 of die core − 192, and its dirty bytes go to the next level;
on a page that may no longer be written they are discarded, with a context machine check. -/
def execEvictionWriteback (core idx : Nat) (s : State) : Out :=
  if core ≥ 192 then
    match s.l2[idx]? with
    | some x => if x.die = core - 192 then .next (s.evictL2 idx x) else .next s
    | none => .next s
  else
    match (s.core core).l1[idx]? with
    | none => .next s
    | some x =>
      let s1 := s.modCore core fun k => { k with l1 := k.l1.eraseIdx idx }
      if !x.dirty.contains true then .next s1
      else if !s.lineWritable core x then .next (s1.machineCheck x.ctx x.inc)
      else .next (s1.softToDie (dieOf core) x.ctx x.inc x.attr x.va x.pa x.dirty x.data x.by_)

-- Translation (R324, R325) -----------------------------------------------------------------------------------------

/-- Whether every table entry that a walk reads at its home passes the checkpoints there under the walk's tag (R309, R310, R325). -/
def State.walkPasses (s : State) (die ctx : Nat) (inc : Byte) (va : Nat) : Bool :=
  let (lo, hi) := s.share ctx
  (s.walkReads lo hi va 4 (s.ctx ctx).ptroot.toNat).all fun pa => s.passes (dieCps die plainAttr pa) ctx inc

/-- TRANSLATION_WALK: a walk ends, and a leaf fills the translation cache of the die. Its request carries its tag, laid out as %ctx (R309);
a stale one is dropped. -/
def execTranslationWalk (die tag : Nat) (va : DWord) (s : State) : Out :=
  let ctx := tag / 256 % 4096
  let inc : Byte := BitVec.ofNat 8 (tag % 256)
  let fn := s.partOf ctx + 1
  if (s.tlb.any fun e => e.serves die ctx fn va.toNat) || !s.walkPasses die ctx inc va.toNat then .next s
  else match s.walk ctx va.toNat with
    | .ok oa a => .next { s with tlb := { die, ctx, va := va.toNat - va.toNat % a.size, oa, attr := a, fn } :: s.tlb }
    | _ => .next s

-- Page requests (R302, R324) ---------------------------------------------------------------------------------------

/-- The pages that a waiter has asked for, with the answer it got. -/
def answered (denied : List Nat) (va : Nat) (ok : Bool) : List Nat := (2 * (va / 4096) + (if ok then 0 else 1)) :: denied

/-- Threads that wait for a page go on as the answer says: they start the instruction again, or take the trap. A refused fetch is an issue
that traps, and counts (R59, R62, R302). -/
def State.answerThreads (s : State) (p : PageReq) (ok : Bool) (c w : Nat) (lanes : List (Nat × Nat)) : State :=
  let mine := lanes.filter fun x => (s.thread c w x.1).st == .page p.id
  if ok then
    mine.foldl (fun s x => s.modThread c w x.1 fun t =>
      { t with st := .ready, again := (p.cause, x.2 / 4096) :: t.again, since := s.time }) s
  else
    let s1 := if p.cause = cFetchPage then mine.foldl (fun s x => s.modThread c w x.1 fun t => { t with issued := t.issued + 1 }) s else s
    s1.takeTraps c w (mine.map fun x => (x.1, Trap.at_ p.cause x.2 p.aux))

def State.answerPage (s : State) (p : PageReq) (ok : Bool) : State :=
  let s1 : State := { s with pageReqs := s.pageReqs.filter fun q => q.id != p.id }
  match p.who with
  | .threads c w lanes => s1.answerThreads p ok c w lanes
  | .seq c =>
    if (s1.core c).seq.pageWait = some p.id then
      s1.modSeq c fun q => { q with pageWait := none, denied := answered q.denied p.va ok }
    else s1
  | .copy id =>
    { s1 with copies := replaceIf (fun k => k.id == id && k.page == some p.id)
                (fun k => { k with page := none, denied := answered k.denied p.va ok }) s1.copies }
  | .queue n =>
    let k := s1.queue n
    if k.pageWait = some p.id then s1.setQueue n { k with pageWait := none, denied := answered k.denied p.va ok } else s1
  | .handler c =>
    if (s1.core c).handler.pageWait = some p.id then
      s1.modCore c fun k => { k with handler := { k.handler with pageWait := none, asked := (p.ctx, p.va / 4096) :: k.handler.asked } }
    else s1

/-- PAGE_REQUEST_RESPONSE: the host's answer; that of a stale incarnation is an orphan (R311). -/
def execPageRequestResponse (id : Nat) (success : Bool) (s : State) : Out :=
  match s.pageReqs.find? fun p => p.id == id with
  | none => .next s
  | some p =>
    if s.passes [cpPcie] p.ctx p.inc then .next (s.answerPage p success)
    else .next { s with pageReqs := s.pageReqs.filter fun q => q.id != id }

-- Timeouts outside the package (R311, R374) ------------------------------------------------------------------------

/-- Cycles of the fabric's timeout: 4 ms. -/
def fabricTimeout : Nat := 5000000

/-- A request that has left the package, and has no response yet, ends as a timeout, whether its target has performed it or not (R374). A unit
of a copy faults so (R213). -/
def State.timeoutReq (s : State) (r : Req) : State :=
  let s1 := s.dropReq r.id
  let poison (d : Opd) (n : Nat) : State :=
    if r.orphan || s.staleAt r then s1
    else (s1.deliverAll r.dest d 0 (List.replicate n TWord.poison)).deferAt r.dest cDataPage (BitVec.ofNat 64 r.va)
  let answered : Bool := match r.stage with
    | .granted .. | .filled .. => true
    | _ => false
  if answered then s
  else match r.act with
    | .load ty d hint =>
      let s2 := poison d ty.words
      if r.orphan || s.staleAt r then s2 else s2.hintAt r.dest hint r.va 0
    | .atom _ w64 _ d _ _ => poison d (if w64 then 2 else 1)
    | .cell _ d _ _ => s.finishCell r d (CellRes.plain cFault 0)
    | .store _ | .writeback .. => s1.settleAcks.machineCheck r.ctx r.inc
    | .unit copy _ _ =>
        { s1 with copies := replaceIf (fun k => k.id == copy) (fun k => { k with denied := (2 * (r.va / 4096) + 1) :: k.denied }) s1.copies }
    | _ => s

/-- The lowest unit that a copy has still to move. -/
def Copy.nextUnit (k : Copy) : Option Nat := (List.range k.units).find? fun u => !k.moved.contains u

/-- What a copy has still to ask for: its descriptor, or both ends of its next unit. -/
def Copy.nextEnds (k : Copy) : List CopyEnd :=
  match k.job, k.nextUnit with
  | .tensor desc _ [], _ => [.gm desc]
  | _, none => []
  | _, some u => k.dst.plus (16 * u) :: (k.pieces u).filterMap fun p => match p with
      | .from e _ => some e
      | .fill _ => none

/-- The pages of a target that a copy reads or writes next. -/
def State.copyTargets (s : State) (k : Copy) (hit : Target → Bool) : List Nat :=
  k.nextEnds.filterMap fun e => match e with
    | .gm va =>
      match s.copyPage k va with
      | .ok _ a => if hit a.tgt then some (va / 4096) else none
      | _ => none
    | _ => none

/-- What a copy reads next ends as a timeout: it faults there (R213, R374). A unit that has left to be written is a request of its own, and none
with an end outside the package has been overtaken. -/
def State.timeoutCopy (s : State) (k : Copy) (hit : Target → Bool) : State :=
  let bad := s.copyTargets k hit
  if s.unitOut k then s
  else { s with copies := replaceIf (fun x => x.id == k.id) (fun x => { x with denied := x.denied ++ bad.map fun pg => 2 * pg + 1 }) s.copies }

/-- Ends what is outstanding towards some targets, as a timeout. -/
def State.timeoutAll (s : State) (hit : Target → Bool) : State :=
  let gone := s.reqs.filter fun r => hit r.attr.tgt
  let s1 := gone.foldl (fun s r => if (s.req r.id).isSome then s.timeoutReq r else s) s
  s1.copies.foldl (fun s k => s.timeoutCopy k hit) s1

/-- PORT_TIMEOUT: the host's completion timeout may pass at any moment, that of the fabric after 4 ms. A page request that the
host does not answer is refused. -/
def execPortTimeout (id : Nat) (s : State) : Out :=
  match s.req id, s.copy id, s.pageReqs.find? fun p => p.id == id with
  | some r, _, _ =>
    match r.attr.tgt with
    | .hbm => .next s
    | .host => .next (s.timeoutReq r)
    | .peer _ => if s.time < r.sentAt + fabricTimeout then .next s else .next (s.timeoutReq r)
  | none, some k, _ => .next (s.timeoutCopy k fun t => t != .hbm)
  | none, none, some p => .next (s.answerPage p false)
  | none, none, none => .next s

end Sys2Proof.Machine
end

