-- ==== Sys2Proof/Machine/Queues.lean ====
section
/-!
DEFINITION. Sys2Proof/Machine/Queues.lean: queues and their packets (R262-R272, R392): reading the slot at the head, refusals, launches
accepted, copies, reclaim fences, weight-store writes, and the engine's turns (R265).
-/
namespace Sys2Proof.Machine

-- Reading as the queue engine --------------------------------------------------------------------------------------

/-- A field of a packet or control block. -/
def field (bs : List Byte) (ofs n : Nat) : Nat := leNat ((bs.drop ofs).take n)

/-- Reads bytes as the engine of a queue; a page that the host has refused, or that is absent again, cannot be read. -/
def State.queueRead (s : State) (q : Nat) (ok : Attr → Bool) (va n : Nat) : Fetch :=
  let k := s.queue q
  match s.fetch k.die k.ctx ok (n / 4096 + 2) va n with
  | .absent a => if k.denied.contains (2 * (a / 4096)) || k.denied.contains (2 * (a / 4096) + 1) then .fault a else .absent a
  | x => x

/-- A page request by a queue engine. -/
def State.askQueue (s : State) (q va : Nat) : State :=
  let k := s.queue q
  let (id, s1) := s.fresh
  let s2 : State :=
    { s1 with
      pageReqs := s1.pageReqs ++
        [{ id, ctx := k.ctx, inc := (s.ctx k.ctx).live, va, who := .queue q, cause := cDataPage, aux := 0, launch := noLaunch }] }
  s2.setQueue q { k with pageWait := some id }

/-- The partition of a queue, and whether its engines take packets (R331, R375). -/
def queuePart (q : Nat) : Nat := q / 256
def State.partServes (s : State) (p : Nat) : Bool := (s.part p).en && (s.part p).resident && !(s.part p).swapping
def State.powered (s : State) : Bool := s.device.pstate == 0 && !s.device.busy && !s.device.trip
/-- Queues that an engine serves at once; packets and cycles of one turn: 100 µs (R265). -/
def queueSlots : Nat := 64
def turnPackets : Nat := 256
def turnCycles : Nat := 125000

/-- Whether the turn of a queue has ended: it has had its packets or its time. -/
def State.turnOver (s : State) (k : Queue) : Bool := decide (k.served ≥ turnPackets) || decide (s.time ≥ k.since + turnCycles)
/-- Whether some registered queue of a die waits for a turn. -/
def State.queuesWait (s : State) (die : Nat) : Bool := s.queues.any fun p => p.2.reg && !p.2.inn && p.2.die == die

def State.queueServes (s : State) (q : Nat) : Bool :=
  let k := s.queue q
  let c := s.ctx k.ctx
  k.reg && k.inn && !(s.turnOver k && s.queuesWait k.die) && !k.qerr && k.pageWait.isNone && c.st == .active && !c.qhalt &&
    s.partServes (queuePart q) && s.powered

/-- The head of a queue (R262, R264): the slot with its packet; nothing yet; a page to ask for; or an error (R372). The engine
also needs to write the slot and the control block. -/
inductive QHead where
  | idle | qerr
  | ask (va : Nat)
  | packet (slot ridx : Nat) (pk : List Byte)

def State.queueHead (s : State) (q : Nat) : QHead :=
  let k := s.queue q
  match s.queueRead q (fun a => a.r && a.w && !a.doc) k.qcb.toNat 64 with
  | .fault _ => .qerr
  | .absent va => .ask va
  | .bytes cb =>
    let n := field cb 24 1
    if n < 4 ∨ n > 16 then .qerr
    else
      let slot := field cb 16 8 + 64 * (field cb 8 8 % 2 ^ n)
      match s.queueRead q (fun a => a.r && a.w && !a.doc) slot 64 with
      | .fault _ => .qerr
      | .absent va => .ask va
      | .bytes pk => if field pk 0 4 % 16 = 0 then .idle else .packet slot (field cb 8 8) pk

def packetType (pk : List Byte) : Nat := field pk 0 4 % 16
def packetRecord (pk : List Byte) : Nat := field pk 56 8
def packetIrq (pk : List Byte) : Bool := (field pk 0 4).testBit 17

/-- Whether every earlier packet of a queue has completed. -/
def State.earlierDone (s : State) (q : Nat) : Bool :=
  (s.launches.all fun l => l.2.queue != q) && s.copies.all fun c => c.queue != some q

/-- The engine's writes at a packet's consumption can be performed now. -/
def State.mayConsume (s : State) (q slot : Nat) : Bool :=
  let k := s.queue q
  s.leasesOver k.die k.ctx slot 4 && s.leasesOver k.die k.ctx k.qcb.toNat 64

/-- Clears the header and counts the packet (R264). -/
def State.consume (s : State) (q slot ridx : Nat) : State :=
  let k := s.queue q
  let s1 := (s.writeVirt k.die k.ctx slot (leBytes 4 0)).writeVirt k.die k.ctx (k.qcb.toNat + 8) (leBytes 8 ((ridx + 1) % 2 ^ 64))
  s1.setQueue q { k with served := k.served + 1, order := k.order + 1, wsBegun := false, begun := none, denied := [],
                         reg := k.reg && !k.leaving, inn := k.inn && !k.leaving, leaving := false }

/-- The record of a packet that ends with its consumption, and the consumption. -/
def State.finishPacket (s : State) (q slot ridx : Nat) (pk : List Byte) (status detail done : Nat) : State :=
  (s.writeRecord q (packetRecord pk) (packetIrq pk) status detail done 0).consume q slot ridx

-- Refusals (R267, R392) --------------------------------------------------------------------------------------------

/-- One offence at an offset. -/
def offence (bad : Bool) (ofs : Nat) : List Nat := if bad then [ofs] else []
/-- Reserved bytes from a to b that are not zero. -/
def reservedBytes (pk : List Byte) (a b : Nat) : List Nat := ((List.range (b - a)).map (a + ·)).filter fun o => pk.getD o 0 != 0

/-- Offences of what every packet holds: its header, and the address of its record. -/
def headerOffences (pk : List Byte) : List Nat :=
  let h := field pk 0 4
  offence (decide (h % 16 > 4) || h / 16 % 16 != 1) 0 ++ offence (h.testBit 15) 1 ++ offence (h / 2 ^ 18 % 64 != 0) 2
    ++ offence (h / 2 ^ 24 != 0) 3 ++ offence (h % 16 != 1 && h / 256 % 128 != 0) 1
    ++ offence (field pk 56 8 % 32 != 0) 56

/-- Scratchpad bytes with their rounding. -/
def scrRounded (n : Nat) : Nat := (n + 383) / 384 * 384

/-- Tiles of a quadrant that program warps may have, and warps that one lane's private SRAM holds (R18, R20, R175). -/
def bankTiles (quad : Nat) : Nat := if quad = 3 then 120 else 128
def laneRoom (priv : Nat) : Nat := if priv = 0 then 16 else 2048 / min priv 2048

/-- Whether a team fits on an empty core (R273, R382), whatever else its packet offends in (R392). -/
def teamFits (warps tiles scr priv : Nat) (seq : Bool) : Bool :=
  let slots (q : Nat) : Nat := min (min 16 (laneRoom priv)) (if tiles = 0 then 16 else bankTiles q / tiles)
  decide (scrRounded scr ≤ 393216)
    && if seq then (List.range warps).all fun j => decide (j / 4 < 4 ∧ j % 4 < laneRoom priv ∧ tiles * (j % 4 + 1) ≤ bankTiles (j / 4))
      else decide (warps ≤ ((List.range 4).map slots).foldl (· + ·) 0)

/-- Bytes of a checkpoint of a team, by the sizes of R22: tiles, scratchpad, private parts, threads, warps, semaphores, and under
SEQ the sequencer with planes and operand memory. -/
def checkpointBytes (warps tiles scr priv : Nat) (seq : Bool) : Nat :=
  warps * (tiles * 1024 + 32 * (56 + min priv 2048) + 320) + scrRounded scr + 256 + (if seq then 16384 + 1024 + 196608 else 0)
/-- The room for checkpoints on a core of a partition (R353). -/
def Partition.ckptRoom (p : Partition) : Nat := if p.pair.getLsbD 3 then 272 * 1024 else 544 * 1024

def State.launchOffences (s : State) (q : Nat) (pk : List Byte) : List Nat :=
  let f := field pk
  let p := s.part (queuePart q)
  let md := f 15 1
  let okC := f 14 1 == 1 || f 14 1 == 2 || f 14 1 == 4 || f 14 1 == 8
  let fits := teamFits (f 12 1) (f 13 1) (f 16 4) (f 20 2) (md.testBit 0) && p.clmask.toNat % 2 ^ 24 != 0
  offence (f 4 4 == 0 || f 4 4 % f 14 1 != 0 || decide (f 4 4 * f 8 2 * f 10 2 > 2 ^ 32 - 1)) 4
    ++ offence (f 8 2 == 0) 8 ++ offence (f 10 2 == 0) 10 ++ offence (f 12 1 == 0 || decide (f 12 1 > 16)) 12
    ++ offence (f 13 1 == 0 || decide (f 13 1 > 32)) 13 ++ offence (!okC) 14 ++ offence (decide (md > 15)) 15
    ++ offence (decide (f 16 4 > 393216)) 16 ++ offence (decide (f 20 2 < 64) || decide (f 20 2 > 32768) || f 20 2 % 64 != 0) 20
    ++ offence (decide (f 22 2 > 255)) 22 ++ offence (f 24 8 % 4 != 0) 24
    ++ offence (if md.testBit 0 then f 32 8 == 0 || f 32 8 % 64 != 0 else f 32 8 != 0) 32
    ++ offence (f 48 8 % 16 != 0 || (f 22 2 == 0 && f 48 8 != 0)) 48
    ++ offence (!fits) 12
    ++ offence (fits && md.testBit 1
        && decide (p.ckptRoom < checkpointBytes (f 12 1) (f 13 1) (f 16 4) (f 20 2) (md.testBit 0))) 15

def copyOffences (pk : List Byte) : List Nat :=
  reservedBytes pk 4 8 ++ offence (field pk 8 8 % 16 != 0) 8 ++ offence (field pk 16 8 % 16 != 0) 16
    ++ offence (field pk 24 8 % 16 != 0 || decide (field pk 24 8 > 2 ^ 40)) 24 ++ reservedBytes pk 32 56

def State.fenceOffences (s : State) (q : Nat) (pk : List Byte) : List Nat :=
  offence (s.partOf (field pk 4 2 % 4096) != queuePart q) 4 ++ offence (field pk 5 1 / 16 != 0) 5 ++ reservedBytes pk 7 56

/-- The cores that a mask names, and those of a partition. -/
def coresOf (mask : Nat) : List Nat := (List.range 192).filter fun p => mask.testBit p
def State.hasCore (s : State) (part core : Nat) : Bool := (s.part part).clmask.getLsbD (clusOf core)

def State.weightOffences (s : State) (q : Nat) (pk : List Byte) : List Nat :=
  let f := field pk
  reservedBytes pk 4 8 ++ offence (f 8 8 % 64 != 0) 8
    ++ offence (f 16 4 % 64 != 0 || decide (f 16 4 + f 20 4 > (s.wsWindow (s.queue q).ctx).2)) 16
    ++ offence (f 20 4 == 0 || f 20 4 % 64 != 0) 20
    ++ offence (f 24 24 == 0 || !(coresOf (f 24 24)).all fun c => s.hasCore (queuePart q) c) 24 ++ reservedBytes pk 48 56

/-- The lowest offset at which a packet offends, the group table apart. -/
def State.packetOffence (s : State) (q : Nat) (pk : List Byte) : Option Nat :=
  let body :=
    match packetType pk with
    | 1 => s.launchOffences q pk
    | 2 => copyOffences pk
    | 3 => s.fenceOffences q pk
    | 4 => s.weightOffences q pk
    | _ => []
  (headerOffences pk ++ body).min?

-- Launches (R261, R268, R269, R72) ---------------------------------------------------------------------------------

/-- The entries of a group table, and whether they meet Table 12.1 and R261 for a grid. -/
def groupsOf : Nat → List Byte → List Group
  | 0, _ => []
  | n + 1, bs => { first := field bs 0 4, count := field bs 4 4, stride := field bs 8 4 } :: groupsOf n (bs.drop 16)
def groupsOk (total : Nat) (bs : List Byte) (gs : List Group) : Bool :=
  (gs.zipIdx.all fun p => p.1.count != 0 && p.1.stride != 0 && field bs (16 * p.2 + 12) 4 == 0
      && decide (p.1.first + (p.1.count - 1) * p.1.stride < total))
    && gs.all fun g => g.members.all fun t => decide ((gs.filter fun h => h.has t).length ≤ 4)

/-- What an attempt to read a launch's group table or header gives. -/
inductive Read (α : Type) where
  | ok (x : α)
  | bad
  | wait (va : Nat)

def State.readGroups (s : State) (q : Nat) (pk : List Byte) : Read (List Group) :=
  let n := field pk 22 2
  if n = 0 then .ok []
  else match s.queueRead q (·.r) (field pk 48 8) (16 * n) with
    | .fault _ => .bad
    | .absent va => .wait va
    | .bytes bs =>
      let gs := groupsOf n bs
      if groupsOk (field pk 4 4 * field pk 8 2 * field pk 10 2) bs gs then .ok gs else .bad

/-- The sequencer program header (Table 3.11): RETDIST and FIRST. Every program that runs has exposed latencies: the device holds
the table of stepping A0 alone (assumption 16). -/
def State.readHeader (s : State) (q : Nat) (pk : List Byte) : Read (Nat × Nat) :=
  if !(field pk 15 1).testBit 0 then .ok (0, 0)
  else match s.queueRead q segPage (field pk 32 8) 64 with
    | .fault _ => .bad
    | .absent va => .wait va
    | .bytes h =>
      let first := field h 16 8
      if field h 0 2 == 1 && field h 2 1 == Config.steppingCode.toNat && field h 3 1 == 0 && field h 4 4 == Config.latencyTable.toNat
          && decide (1 ≤ field h 8 4 ∧ field h 8 4 ≤ 65536) && field h 12 4 == 0 && first != 0 && first % 16 == 0
          && (reservedBytes h 24 64).isEmpty then .ok (field h 8 4, first)
      else .bad

/-- Cycles of a slice where the host sets none (R274). -/
def defaultSlice : Nat := 250000

/-- The launch that a packet describes. -/
def State.launchOf' (s : State) (q : Nat) (pk : List Byte) (groups : List Group) (hdr : Nat × Nat) : Launch :=
  let f := field pk
  let md := f 15 1
  let ctx := (s.queue q).ctx
  { ctx, inc := (s.ctx ctx).live, queue := q, order := (s.queue q).order, irq := packetIrq pk, pri := f 1 1 % 128, gx := f 4 4, gy := f 8 2,
    gz := f 10 2, warps := f 12 1, tiles := f 13 1, csize := f 14 1, seq := md.testBit 0, recov := md.testBit 1, dmr := md.testBit 2,
    replay := md.testBit 3, scr := f 16 4, priv := f 20 2, entry := BitVec.ofNat 64 (f 24 8), first := BitVec.ofNat 64 hdr.2,
    retdist := hdr.1, args := BitVec.ofNat 64 (f 40 8), cmpl := f 56 8, groups, gbars := [], next := 0, endedTeams := [], failures := [],
    failed := 0, slice := defaultSlice, fate := none }

/-- Whether a weight-store write of a context is in progress (R180). -/
def State.weightBusy (s : State) (ctx : Nat) : Bool := s.queues.any fun q => q.2.reg && q.2.ctx == ctx && q.2.wsBegun

/-- A launch packet without an offence in its own fields. -/
def State.takeLaunch (s : State) (q slot ridx : Nat) (pk : List Byte) : State :=
  if s.weightBusy (s.queue q).ctx then s
  else match s.readGroups q pk, s.readHeader q pk with
    | .bad, _ => s.finishPacket q slot ridx pk statusRefused 48 0
    | .wait va, _ => s.askQueue q va
    | _, .wait va => s.askQueue q va
    | _, .bad => s.finishPacket q slot ridx pk statusBadSeq 0 0
    | .ok gs, .ok hdr =>
      let (id, s1) := s.fresh
      (s1.setLaunch id (s.launchOf' q pk gs hdr)).consume q slot ridx

-- Copies, fences, weight-store writes (R270, R271, R316) -----------------------------------------------------------

def State.takeCopy (s : State) (q slot ridx : Nat) (pk : List Byte) : State :=
  let k := s.queue q
  let (id, s1) := s.fresh
  let s2 : State :=
    { s1 with
      copies := s1.copies ++
        [{ id, core := 96 * k.die, warp := 0, lane := 0, d := none, queue := some q, order := k.order, cmpl := packetRecord pk,
           irq := packetIrq pk, launch := noLaunch, team := 0, ctx := k.ctx, inc := (s.ctx k.ctx).live,
           job := .span (.gm (field pk 8 8)) (.gm (field pk 16 8)) (field pk 24 8), moved := [], bad := [], post := none, page := none,
           denied := [], orphan := false, after := [], pages := [], laid := [] }] }
  s2.consume q slot ridx

/-- Whether a reclaim fence completes now (R316). -/
def State.fenceDone (s : State) (pk : List Byte) : Bool :=
  let c := s.ctx (field pk 4 2 % 4096)
  let inc : Byte := pk.getD 6 0
  c.st == .free || (!c.unrec.contains inc && c.live != inc)

def State.takeFence (s : State) (q slot ridx : Nat) (pk : List Byte) : State :=
  if s.fenceDone pk then s.finishPacket q slot ridx pk statusOk 0 0 else s

/-- A weight-store write begins once no launch of its context is live (R180). The engine has read its packet, and will consume it (R264). -/
def State.beginWeights (s : State) (q slot ridx : Nat) (pk : List Byte) : State :=
  let k := s.queue q
  if k.wsBegun || s.launches.any fun l => l.2.ctx == k.ctx then s else s.setQueue q { k with wsBegun := true, begun := some (slot, ridx, pk) }

/-- The source rows of a weight-store write below its first fault, each with its poison; or the page it waits for. -/
def State.weightRows (s : State) (q : Nat) : Nat → Nat → List (List Byte × Bool) ⊕ Nat
  | 0, _ => .inl []
  | n + 1, va =>
    match s.queueRead q (·.r) va 64 with
    | .fault _ => .inl []
    | .absent a => .inr a
    | .bytes bs =>
      let k := s.queue q
      let psn := match s.translate k.die k.ctx va with
        | .ok _ a => s.homePsn a (a.phys va) 64
        | _ => false
      match State.weightRows s q n (va + 64) with
      | .inl rest => .inl ((bs, psn) :: rest)
      | .inr a => .inr a

/-- Writes rows into the stack beneath one core. -/
def State.putWeights (s : State) (core ofs : Nat) (rows : List (List Byte × Bool)) : State :=
  rows.zipIdx.foldl (fun s p =>
    { s with wstore := Memory.write s.wstore (wsKey core (ofs + 64 * p.2)) p.1.1,
             wsPsn := Store.set false s.wsPsn (wsRow core (ofs + 64 * p.2)) p.1.2 }) s

/-- A weight-store write that has begun is performed and recorded. -/
def State.endWeights (s : State) (q slot ridx : Nat) (pk : List Byte) : State :=
  let n := field pk 20 4 / 64
  match s.weightRows q n (field pk 8 8) with
  | .inr va => s.askQueue q va
  | .inl rows =>
    let base := (s.wsWindow (s.queue q).ctx).1 + field pk 16 4
    let s1 := (coresOf (field pk 24 24)).foldl (fun s c => s.putWeights c base rows) s
    let status :=
      if rows.isEmpty then statusCopyFault
      else if rows.length < n then statusCopyPartial
      else if rows.any (·.2) then statusCopyPoison
      else statusOk
    s1.finishPacket q slot ridx pk status 0 (64 * rows.length)

-- The engine (R264, R265) ------------------------------------------------------------------------------------------

/-- The engine looks at the head of a queue and acts on the packet by its type, where act allows that type. -/
def State.atHead (s : State) (q : Nat) (act : State → Nat → Nat → List Byte → State) : State :=
  if !s.queueServes q then s
  else match s.queueHead q with
    | .idle => s
    | .qerr => s.setQueue q { s.queue q with qerr := true }
    | .ask va => s.askQueue q va
    | .packet slot ridx pk =>
      if ((field pk 0 4).testBit 16 && !s.earlierDone q) || !s.mayConsume q slot || !s.recordReady q (packetRecord pk) then s
      else act s slot ridx pk

/-- The packet at the head, if it is of a type and offends nowhere. -/
def State.onType (s : State) (q ty : Nat) (act : State → Nat → Nat → List Byte → State) : State :=
  s.atHead q fun s slot ridx pk => if packetType pk == ty && (s.packetOffence q pk).isNone then act s slot ridx pk else s

/-- QUEUE_PACKET_CONSUME: the packet at the head is acted on; one that offends is refused. -/
def execQueuePacketConsume (q : Nat) (s : State) : Out :=
  .next (s.atHead q fun s slot ridx pk =>
    match s.packetOffence q pk with
    | some o => s.finishPacket q slot ridx pk statusRefused o 0
    | none =>
      match packetType pk with
      | 1 => s.takeLaunch q slot ridx pk
      | 2 => s.takeCopy q slot ridx pk
      | 3 => s.takeFence q slot ridx pk
      | _ => if (s.queue q).wsBegun then s.endWeights q slot ridx pk else s.beginWeights q slot ridx pk)

/-- LAUNCH_PACKET: a launch is accepted, or ends BAD_SEQPROG. -/
def execLaunchPacket (q : Nat) (s : State) : Out := .next (s.onType q 1 fun s slot ridx pk => s.takeLaunch q slot ridx pk)

/-- COPY_PACKET: a copy between global addresses starts. -/
def execCopyPacket (q : Nat) (s : State) : Out := .next (s.onType q 2 fun s slot ridx pk => s.takeCopy q slot ridx pk)

/-- RECLAIM_FENCE: a fence completes, or waits. -/
def execReclaimFence (q : Nat) (s : State) : Out := .next (s.onType q 3 fun s slot ridx pk => s.takeFence q slot ridx pk)

/-- WEIGHT_STORE_WRITE: a write begins. -/
def execWeightStoreWrite (q : Nat) (s : State) : Out := .next (s.onType q 4 fun s slot ridx pk => s.beginWeights q slot ridx pk)

/-- WEIGHT_STORE_WRITE_DONE: a write that has begun is performed and recorded. -/
def execWeightStoreWriteDone (q : Nat) (s : State) : Out :=
  .next (s.onType q 4 fun s slot ridx pk => if (s.queue q).wsBegun then s.endWeights q slot ridx pk else s)

/-- The record of a copy packet. -/
def copyStatus (code : Nat) : Nat :=
  match code with
  | 0 => statusOk
  | 1 => statusCopyFault
  | 2 => statusCopyPoison
  | _ => statusCopyPartial

/-- COPY_PACKET_COMPLETE: the units still to move are moved, and the record is written once it can be (R270, R272). A copy whose context has been
killed since gets no other record than that of the kill (R312, R313). -/
def execCopyPacketComplete (id : Nat) (s : State) : Out :=
  match s.copy id with
  | none => .next s
  | some k =>
    match k.queue with
    | none => .next s
    | some q =>
      if k.page.isSome || k.orphan || !s.passes [cpCopy k.die] k.ctx k.inc then .next s
      else
        let (s1, e) := s.runUnits id k.units 0
        match e, s1.copy id with
        | .waits, _ => .next s1
        | e, some k1 =>
          if k1.inc != (s1.ctx k1.ctx).live || !s1.recordReady q k1.cmpl then .next s1
          else
            let (code, n) := k1.code e
            .next ({ s1 with copies := s1.copies.filter fun x => x.id != id }.writeRecord q k1.cmpl k1.irq (copyStatus code) 0 (16 * n) 0)
        | _, none => .next s1

-- Turns (R265) -----------------------------------------------------------------------------------------------------

/-- The member with the least key. -/
def leastBy {α : Type} (f : α → Nat) : List α → Option α
  | [] => none
  | x :: xs =>
    match leastBy f xs with
    | some y => if f y < f x then some y else some x
    | none => some x

/-- QUEUE_SWITCH: while more queues are registered on a die than its engine serves, a queue whose turn has ended goes out, and the
one that has waited longest comes in. -/
def execQueueSwitch (die : Nat) (s : State) : Out :=
  let mine := s.queues.filter fun p => p.2.reg && p.2.die == die
  let inside := mine.filter fun p => p.2.inn
  let outside := leastBy (fun p : Nat × Queue => p.2.since) (mine.filter fun p => !p.2.inn)
  let enter (s : State) (p : Nat × Queue) : State := s.setQueue p.1 { p.2 with inn := true, served := 0, since := s.time }
  match outside with
  | none => .next s
  | some o =>
    if inside.length < queueSlots then .next (enter s o)
    else
      match inside.find? fun p => s.turnOver p.2 with
      | some i => .next (enter (s.setQueue i.1 { i.2 with inn := false, since := s.time }) o)
      | none => .next s

end Sys2Proof.Machine
end

