-- ==== Sys2Proof/Machine/Launches.lean ====
section
/-!
DEFINITION. Sys2Proof/Machine/Launches.lean: placing teams (R260, R273, R382, R387), time slices and swapping (R274, R344), and the end of a
launch (R241, R272, R357).
-/
namespace Sys2Proof.Machine

-- Room on a core (R273) --------------------------------------------------------------------------------------------

/-- What a team takes of a core. -/
structure Need where
  place : Place
  tiles : Nat
  scr : Nat
  share : Nat
  seq : Bool
  ckpt : Nat
deriving DecidableEq, Repr

/-- Teams of a core that have not ended. -/
def State.liveTeams (s : State) (c : Nat) : List (Nat × Team) := (s.core c).teams.filter fun p => !p.2.ended

/-- Warp slots: free, in their bank below T504, with windows that no team has and tiles that are FREE with no write pending. -/
def State.warpRoom (s : State) (n : Need) : Bool :=
  let c := n.place.core
  let held := (s.liveTeams c).flatMap fun p => p.2.warps
  let taken := held.map fun w => ((s.warp c w).tbase, (s.warp c w).ntile)
  (decide (n.place.warps.map (·.1)).Nodup)
  && (n.place.warps.all fun w =>
    decide (w.1 < 64) && !held.contains w.1
    && decide (128 * (w.1 / 16) ≤ w.2 ∧ w.2 + n.tiles ≤ 128 * (w.1 / 16) + bankTiles (w.1 / 16))
    && (taken.all fun t => !meets w.2 n.tiles t.1 t.2)
    && (n.place.warps.all fun v => v == w || !meets w.2 n.tiles v.2 n.tiles)
    && (List.range n.tiles).all fun i => s.owner c (w.2 + i) == 0x7F && !s.tilePending c (w.2 + i))

/-- The bytes of core scratchpads that a copy will still read or write: core, first byte, length. The tile of a tensor may be anywhere in its
window until the descriptor is read. -/
def State.copySpans (s : State) (k : Copy) : List (Nat × Nat × Nat) :=
  let sp (e : CopyEnd) (n : Nat) : List (Nat × Nat × Nat) := match e with
    | .sp c w o => [(c, w + o, n)]
    | _ => []
  (match k.job with
    | .span d r len => sp d len ++ sp r len
    | .tensor _ (.sp c w _) [] => [(c, w, ((s.launch k.launch).map (·.scr)).getD 393216)]
    | .tensor _ d _ => sp d (16 * k.units))
  ++ (match k.post with
    | some (h, w, o) => [(h, w + o, 32)]
    | none => [])

/-- Copies, remote accesses and barrier actions that will still reach a scratchpad window, but for those of some teams. -/
def State.windowBusy (s : State) (c scr len : Nat) (but : Nat → Nat → Bool) : Bool :=
  let hit (x : Nat × Nat × Nat) : Bool := x.1 == c && meets scr len x.2.1 x.2.2
  (s.copies.any fun k => !but k.launch k.team && (s.copySpans k).any hit)
  || s.reqs.any fun r => !but r.launch r.team && match r.act with
    | .barrier h w o _ _ => hit (h, w + o, 32)
    | .rload h w .. | .rstore h w _ => hit (h, w + r.pa, r.size)
    | _ => false

/-- A scratchpad window, a semaphore set, private SRAM in every lane, the sequencer, and room for the checkpoint. What is under way for some
teams does not hold the window. -/
def State.teamRoom (s : State) (part : Nat) (n : Need) (but : Nat → Nat → Bool) : Bool :=
  let c := n.place.core
  let live := s.liveTeams c
  let quads := n.place.warps.map fun w => w.1 / 16
  let resident (q : Nat) : Nat := (live.map fun p => ((p.2.warps.filter fun w => w / 16 == q).length) * min p.2.share 2048).foldl (· + ·) 0
  let ckpts := (live.map fun p =>
    if p.2.recov.isSome then checkpointBytes p.2.warps.length ((s.warp c (p.2.warps.headD 0)).ntile) p.2.scrLen p.2.share p.2.seq else 0).foldl
    (· + ·) 0
  decide (live.length < 16)
  && n.place.scr % 384 == 0 && decide (n.place.scr + scrRounded n.scr ≤ 393216)
  && ((s.core c).teams.all fun p => !meets n.place.scr (scrRounded n.scr) p.2.scr (scrRounded p.2.scrLen))
  && !s.windowBusy c n.place.scr (scrRounded n.scr) but
  && decide (n.place.sem < 16) && (live.all fun p => p.2.sem != n.place.sem)
  && ((List.range 4).all fun q => decide (resident q + (quads.filter (· == q)).length * min n.share 2048 ≤ 2048))
  && (!n.seq || (live.all fun p => !p.2.seq))
  && decide (ckpts + n.ckpt ≤ (s.part part).ckptRoom)

/-- Whether a core may take teams of a partition now (R330, R331, R376). -/
def State.coreOpen (s : State) (part c : Nat) : Bool :=
  decide (c < 192) && s.hasCore part c && !s.device.gate.getLsbD (clusOf c) && s.partServes part && s.powered

/-- The fixed pattern of a team with SEQ (R382). -/
def seqPattern (warps tiles : Nat) : List (Nat × Nat) :=
  (List.range warps).map fun j => (16 * (j / 4) + j % 4, 128 * (j / 4) + tiles * (j % 4))

/-- The places of a cluster: distinct cores of one hardware cluster, rank j on die j mod 2 (R260). -/
def clusterPlaces (places : List Place) : Bool :=
  let cores := places.map (·.core)
  decide cores.Nodup
  && (cores.all fun c => clusOf c == clusOf (cores.headD 0))
  && (decide (places.length ≤ 1) || cores.zipIdx.all fun p => dieOf p.1 == p.2 % 2)

-- Starting a team (R81, R124, R284, R387) --------------------------------------------------------------------------

/-- Teams of a grid. -/
def Launch.total (l : Launch) : Nat := l.gx * l.gy * l.gz

/-- What a team of a launch needs at a place. -/
def Launch.need (l : Launch) (p : Place) : Need :=
  { place := p, tiles := l.tiles, scr := l.scr, share := l.priv, seq := l.seq,
    ckpt := if l.recov then checkpointBytes l.warps l.tiles l.scr l.priv l.seq else 0 }

/-- One warp of a starting team. -/
def State.startWarp (s : State) (l : Launch) (c slot w tbase : Nat) : State :=
  let s1 : State :=
    { s with
      regs := s.regs.cut (regKey c tbase 0) (regKey c (tbase + l.tiles) 0)
      sregs := s.sregs.cut (sregKey c w 0) (sregKey c (w + 1) 0)
      priv := Store.cut (privKey c w 0 0) (privKey c (w + 1) 0 0) s.priv
      privPsn := Store.cut (privSector c w 0 0) (privSector c (w + 1) 0 0) s.privPsn }
  let s2 := (s1.setOwners c tbase l.tiles (ownerCode w)).setWarp c w
    { Warp.idle with live := true, team := slot, tbase, ntile := l.tiles }
  (List.range 32).foldl (fun s x => (s.setThread c w x (Thread.start l.entry s.time)).startRegs c w x l.priv l.args) s2

/-- The sequencer of a starting team: its saturation flag and last cause stand. -/
def Seq.start (q : Seq) (team : Nat) (l : Launch) : Seq :=
  { Seq.reset with active := true, team, halt := false, fcause := q.fcause, isat := q.isat, retdist := l.retdist,
                   pos := { seg := l.first, idx := 0, enter := true, branch := none, delays := 0 } }

/-- One team of a launch starts at a place; a RECOV team takes its first checkpoint. -/
def State.startTeam (s : State) (launch : Nat) (l : Launch) (index : Nat) (p : Place) : State :=
  let (slot, s0) := s.fresh
  let c := p.core
  let t : Team :=
    { launch, index, rank := index % l.csize, warps := p.warps.map (·.1), scr := p.scr, scrLen := l.scr, sem := p.sem, share := l.priv,
      seq := l.seq, began := s.time, frozen := false, ended := false,
      recov := if l.recov then some { retry := true, rolls := 0, held := [], commit := none, rolling := false } else none }
  let s1 : State :=
    { s0.setTeam c slot t with
      scratch := Store.cut (scrKey c p.scr) (scrKey c (p.scr + scrRounded l.scr)) s0.scratch
      scrPsn := Store.cut (scrSector c p.scr) (scrSector c (p.scr + scrRounded l.scr)) s0.scrPsn
      sems := s0.sems.cut (semKey c p.sem 0) (semKey c p.sem 64) }
  let s2 := p.warps.foldl (fun s w => s.startWarp l c slot w.1 w.2) s1
  let s3 : State :=
    if l.seq then
      { s2.modSeq c fun q => q.start slot l with
        opmem := Store.cut (opKey c 0) (opKey (c + 1) 0) s2.opmem
        opPsn := Store.cut (opRow c 0) (opRow (c + 1) 0) s2.opPsn }
    else s2
  if l.recov then s3.checkpoint c slot else s3

/-- Starts the next cluster of a launch at its places. -/
def State.startCluster (s : State) (launch : Nat) (l : Launch) (places : List Place) : State :=
  let part := queuePart l.queue
  let good := places.length = l.csize && decide (l.next + l.csize ≤ l.total) && clusterPlaces places
    && places.all fun p =>
      s.coreOpen part p.core && decide (p.warps.length = l.warps) && (!l.seq || p.warps == seqPattern l.warps l.tiles)
        && s.warpRoom (l.need p) && s.teamRoom part (l.need p) fun _ _ => false
  if good then
    (places.zipIdx.foldl (fun s p => s.startTeam launch l (l.next + p.2) p.1) s).modLaunch launch fun l => { l with next := l.next + l.csize }
  else s

-- Swapping (R274, R344) --------------------------------------------------------------------------------------------

/-- The images of a cluster, in the order in which they were saved. -/
def State.clusterImages (s : State) (launch csize index : Nat) : List TeamImage :=
  s.images.filter fun i => i.launch == launch && i.index / csize == index / csize

/-- What a saved team needs, at the place from which it was saved. -/
def TeamImage.need (i : TeamImage) (l : Launch) : Need :=
  l.need { core := i.core, scr := i.team.scr, sem := i.team.sem,
           warps := i.team.warps.map fun w => (w, (i.img.warps.get Warp.idle (warpKey i.core w)).tbase) }
/-- Whether a request or copy belongs to the cluster of an image: its own stay under way while it is away. -/
def TeamImage.ofCluster (i : TeamImage) (l : Launch) (launch team : Nat) : Bool :=
  launch == i.launch && team / l.csize == i.index / l.csize

/-- The warp slots and windows of a saved team are free, and so are the tiles that it brings back: no team has them, and no write is pending there
(R140). Tiles of its windows that it had given away stay with their owners. Its bins fit among those of the core (R275). -/
def State.imageWarps (s : State) (n : Need) (i : TeamImage) : Bool :=
  let c := n.place.core
  let held := (s.liveTeams c).flatMap fun p => p.2.warps
  (n.place.warps.all fun w =>
    !held.contains w.1 && held.all fun v => !meets w.2 n.tiles (s.warp c v).tbase (s.warp c v).ntile)
  && (i.tiles.all fun k => s.owner c k == ownDflt k && !s.tilePending c k)
  && decide ((s.core c).bins.length + i.bins.length ≤ coreBins)

/-- Room for a saved team where it was; one that has ended needs only its window. -/
def State.imageRoom (s : State) (l : Launch) (i : TeamImage) : Bool :=
  let n := i.need l
  s.coreOpen (queuePart l.queue) i.core
    && (if i.team.ended then
          ((s.core i.core).teams.all fun p => !meets n.place.scr (scrRounded n.scr) p.2.scr (scrRounded p.2.scrLen))
            && !s.windowBusy i.core n.place.scr (scrRounded n.scr) (i.ofCluster l)
        else s.imageWarps n i && s.teamRoom (queuePart l.queue) n (i.ofCluster l))
    && (i.handler.isNone || (s.core i.core).handler.serving.isNone)

/-- A thread that waited for a page asks afresh. -/
def Thread.renew (t : Thread) (time : Nat) : Thread :=
  match t.st with
  | .page _ => { t with st := .ready, again := [], since := time }
  | _ => t
/-- The warps of a team that is back on its core: back-off and waiting counts are 0, and pages are asked for afresh (R344). -/
def State.wakeWarps (s : State) (c : Nat) (ws : List Nat) : State :=
  ws.foldl (fun s w =>
    let s1 := s.modWarp c w fun k => { k with backoff := 0, waited := 0 }
    (List.range 32).foldl (fun s x => s.modThread c w x fun t => t.renew s.time) s1) s

/-- A team back on its core goes on as it stood: waits and deadlines run on; threads and sequencer that waited for a page ask afresh. One that
has met an uncorrectable error meanwhile goes back to its checkpoint (R356). -/
def State.resumeTeam (s : State) (i : TeamImage) : State :=
  let s1 := s.installTeam i
  if i.team.ended then s1
  else
  let s2 := s1.wakeWarps i.core (i.team.warps ++ if i.handler.isSome then [64] else [])
  let s3 := s2.modTeam i.core i.slot fun t => { t with began := s.time }
  let s4 := if i.team.seq && i.seq.isSome then
      s3.modSeq i.core fun q => { q with leaving := false, pageWait := none, denied := [], halves := [] }
    else s3
  (s4.settleAcks.settleGbars i.core i.slot).settleRollback i.core i.slot

/-- Brings back the cluster of a launch that has waited longest among those for which there is room (R274, R280). -/
def State.resumeCluster (s : State) (launch : Nat) (l : Launch) : State :=
  match s.images.find? fun i => i.launch == launch && (s.clusterImages launch l.csize i.index).all fun i => s.imageRoom l i with
  | none => s
  | some i =>
    (s.clusterImages launch l.csize i.index).foldl (fun s i => s.resumeTeam i)
      { s with images := s.images.filter fun x => !(x.launch == launch && x.index / l.csize == i.index / l.csize) }

/-- TEAM_START: the loader starts the next cluster of a launch at the places given, or, with none given, brings back a cluster
that was swapped out. -/
def execTeamStart (launch : Nat) (places : List Place) (s : State) : Out :=
  match s.launch launch with
  | none => .next s
  | some l =>
    if l.fate.isSome || (s.ctx l.ctx).live != l.inc then .next s
    else if places.isEmpty then .next (s.resumeCluster launch l)
    else .next (s.startCluster launch l places)

/-- A sequencer is told to stop at its next retire point (R143, R331). -/
def Seq.tellLeave (q : Seq) : Seq := if q.leaving then q else { q with leaving := true, atRetire := false }

/-- Whether a team's sequencer may leave: it stands after the retire point at which it was to stop, has halted, or has faulted. -/
def State.seqMayLeave (s : State) (c : Nat) (t : Team) : Bool :=
  let q := (s.core c).seq
  !t.seq || t.ended || q.halt || q.preempted || q.record.isSome

/-- A cluster begins to leave: each sequencer stops at its next retire point; once all may go, and none is stopped by a commit or a
rollback, the cluster is saved. -/
def State.swapCluster (s : State) (launch : Nat) (l : Launch) (index : Nat) : State :=
  let mates := s.clusterTeams launch l.csize index
  let s1 := mates.foldl (fun s m => if m.2.2.seq && !m.2.2.ended then s.modSeq m.1 Seq.tellLeave else s) s
  if mates.all fun m => s1.seqMayLeave m.1 m.2.2 && !m.2.2.stopped then
    mates.foldl (fun s m => match s.team m.1 m.2.1 with
      | some t => { s with images := s.images ++ [s.teamImage m.1 m.2.1 t []] }.removeTeam m.1 m.2.1
      | none => s) s1
  else s1

/-- Sequencers of a cluster that has not to leave after all run on. -/
def State.keepCluster (s : State) (launch : Nat) (l : Launch) (index : Nat) : State :=
  (s.clusterTeams launch l.csize index).foldl (fun s m =>
    if m.2.2.seq && !m.2.2.ended && (s.core m.1).seq.leaving then s.modSeq m.1 fun q => { q with leaving := false } else s) s

/-- Whether every unexited warp of a team waits, so that it may leave before its slice ends (R274). -/
def State.teamWaits (s : State) (c : Nat) (t : Team) : Bool :=
  (t.warps.all fun w => (s.aliveLanes c w).all fun x => match (s.thread c w x).st with
    | .bwait .. | .gbar .. | .take .. | .waitj _ => true
    | _ => false)
  && (!t.seq || (s.core c).seq.halt || (s.core c).seq.stalled.isSome)

/-- Whether some team waits for residency in a partition. -/
def State.teamsWait (s : State) (part : Nat) : Bool :=
  s.launches.any fun l =>
    queuePart l.2.queue == part && l.2.fate.isNone && (decide (l.2.next < l.2.total) || s.images.any fun i => i.launch == l.1)

/-- Whether the teams of a partition have to leave a core whatever their slices say: its cluster is gated, its partition swaps, or the
device goes to a state in which cores lose their clocks (R331, R375, R376). -/
def State.mustLeave (s : State) (part core : Nat) : Bool :=
  s.device.gate.getLsbD (clusOf core) || (s.part part).swapping || (s.device.busy && decide (2 ≤ s.device.going))

/-- TEAM_SLICE_EXPIRY: a team whose slice has ended, or whose warps all wait, leaves its core with its cluster; one on a gated
cluster leaves at once (R376). One whose swap is no longer due stays. team is its slot. -/
def execTeamSliceExpiry (core team : Nat) (s : State) : Out :=
  match s.team core team with
  | none => .next s
  | some t =>
    match s.launch t.launch with
    | none => .next s
    | some l =>
      let part := queuePart l.queue
      let due := decide (s.time ≥ t.began + l.slice) || s.teamWaits core t
      if s.device.gate.getLsbD (clusOf core) || (due && s.teamsWait part) then .next (s.swapCluster t.launch l t.index)
      else if (s.clusterTeams t.launch l.csize t.index).any fun m =>
          s.mustLeave part m.1
            || (match s.team m.1 m.2.1 with
              | some x => (decide (s.time ≥ x.began + l.slice) || s.teamWaits m.1 x) && s.teamsWait part
              | none => false) then .next s
      else .next (s.keepCluster t.launch l t.index)

-- The end of a launch (R241, R272, R357) ---------------------------------------------------------------------------

/-- A write of a launch, of any kind, that is not performed: a request of its own, or a write-back that holds its bytes. -/
def Req.unperformed (r : Req) (launch : Nat) : Bool :=
  r.stage == .sent
    && match r.act with
      | .writeback _ _ by_ => r.launch == launch || by_.contains launch
      | .store _ | .atom .. | .cell .. | .rstore .. | .unit .. => r.launch == launch
      | _ => false

/-- Writes back the dirty SOFT lines that hold bytes of a launch, as evictions do. -/
def State.drainSoft (s : State) (launch : Nat) : State :=
  let s1 := s.cores.foldl (fun s p =>
    p.2.l1.foldl (fun s x =>
      if !(x.by_.contains launch && x.attr.soft && x.dirty.contains true) then s
      else
        let s1 := s.dropL1 p.1 fun y => y.matches x.ctx x.inc x.va
        if s.lineWritable p.1 x then s1.softToDie (dieOf p.1) x.ctx x.inc x.attr x.va x.pa x.dirty x.data x.by_ else s1.machineCheck x.ctx x.inc) s) s
  s1.l2.foldl (fun s x =>
    match s.l2.findIdx? fun y => y.at_ x.die x.ctx x.inc x.attr x.pa with
    | some i => match s.l2[i]? with
      | some y => if y.by_.contains launch && y.dirty.contains true then s.evictL2 i y else s
      | none => s
    | none => s) s1
def State.softDirty (s : State) (launch : Nat) : Bool :=
  (s.cores.any fun p => p.2.l1.any fun x => x.by_.contains launch && x.attr.soft && x.dirty.contains true)
    || s.l2.any fun x => x.by_.contains launch && x.dirty.contains true

/-- An entry of the failure list (Table 17.2). -/
def Failure.bytes (f : Failure) : List Byte := leBytes 4 f.team ++ leBytes 1 f.why ++ [cEcc] ++ leBytes 2 0 ++ leBytes 8 f.time

/-- The failure list of a RECOV launch, beside its record: its bytes, and whether it is written. -/
def Launch.failBytes (l : Launch) : List Byte := (l.failures.take 255).flatMap Failure.bytes
def State.listsFailures (s : State) (l : Launch) : Bool :=
  l.recov && l.cmpl != 0 && l.cmpl % 32 == 0 && !l.failBytes.isEmpty && s.canWrite (s.queue l.queue).die l.ctx (l.cmpl + 32) l.failBytes.length
def State.writeFailures (s : State) (l : Launch) : State :=
  if s.listsFailures l then s.writeVirt (s.queue l.queue).die l.ctx (l.cmpl + 32) l.failBytes else s

/-- Whether a launch's record and its failure list can be written now, with no lease on their lines (R189). -/
def State.launchReady (s : State) (l : Launch) : Bool :=
  s.recordReady l.queue l.cmpl
    && (!s.listsFailures l || s.leasesOver (s.queue l.queue).die l.ctx (l.cmpl + 32) l.failBytes.length)

/-- Forgets a launch. -/
def State.dropLaunch (s : State) (launch : Nat) : State :=
  { s with
    launches := s.launches.erase launch
    images := s.images.filter fun i => i.launch != launch
    ckpts := s.ckpts.filter fun i => i.launch != launch }

/-- Whether every team of a launch has ended or failed, or a fault has ended it. -/
def Launch.isOver (l : Launch) : Bool := l.fate.isSome || decide (l.endedTeams.length + l.failed = l.total)

/-- The record of a launch as it stands. -/
def State.launchRecord (s : State) (l : Launch) : State :=
  let (status, detail) := l.fate.getD (if l.failed = 0 then statusOk else statusPartial, 0)
  (s.writeFailures l).writeRecord l.queue l.cmpl l.irq status detail l.endedTeams.length l.failed

/-- LAUNCH_COMPLETE: once every request and copy of the launch is performed and its SOFT bytes are written back, the record is written; what
other launches have under way does not matter (R241). -/
def execLaunchComplete (launch : Nat) (s : State) : Out :=
  match s.launch launch with
  | none => .next s
  | some l =>
    if !l.isOver || (s.ctx l.ctx).live != l.inc || (s.ctx l.ctx).st != .active then .next s
    else if (s.reqs.any fun r => r.unperformed launch) || s.copies.any fun k => k.launch == launch then .next s
    else if s.softDirty launch then .next (s.drainSoft launch)
    else if !s.launchReady l then .next s
    else .next ((s.launchRecord l).dropLaunch launch)

end Sys2Proof.Machine
end

