-- ==== Sys2Proof/Machine/Contexts.lean ====
section
/-!
DEFINITION. Sys2Proof/Machine/Contexts.lean: context commands (R307, R308), incarnations and checkpoints (R310-R317), and keys of confidential
contexts (R320, R380).
-/
namespace Sys2Proof.Machine

def resOk : BitVec 3 := 0
def resKillBusy : BitVec 3 := 1
def resBadState : BitVec 3 := 2
def resBadCfg : BitVec 3 := 3
def resBadCmd : BitVec 3 := 4
def resPending : BitVec 3 := 5

-- What the host reads (Table 14.3) ---------------------------------------------------------------------------------

def CtxState.code : CtxState → Nat
  | .free => 0
  | .active => 1
  | .stopping => 2
  | .destroying => 3

/-- STAT and UNREC. -/
def Ctx.stat (c : Ctx) : Word :=
  BitVec.ofNat 32 (c.st.code + c.qhalt.toNat * 4 + c.res.toNat * 2 ^ 8 + c.unrec.length * 2 ^ 12 + c.live.toNat * 2 ^ 16)
def Ctx.unrecWord (c : Ctx) : Word := BitVec.ofNat 32 (leNat c.unrec)

/-- Whether a function reaches a context's block: the physical function reaches all (R307, R329). -/
def State.reaches (s : State) (fn ctx : Nat) : Bool := decide (ctx < 4096) && (fn == 0 || s.partOf ctx + 1 == fn)

def State.setRes (s : State) (ctx : Nat) (r : BitVec 3) : State := s.modCtx ctx fun c => { c with res := r }

/-- A command that the block takes: the function reaches it, and no command is pending. -/
def State.command (s : State) (fn ctx : Nat) (go : Ctx → State) : State :=
  if !s.reaches fn ctx || (s.ctx ctx).res == resPending then s else go (s.ctx ctx)

-- CREATE -----------------------------------------------------------------------------------------------------------

/-- The configuration that CREATE checks (R179, R306, R308, R330). -/
def State.cfgOk (s : State) (fn : Nat) (c : Ctx) : Bool :=
  let p := c.cfg.toNat % 8
  let part := s.part p
  (fn == 0 || p + 1 == fn)
    && (c.wslen == 0 || decide (part.wsbase.toNat ≤ c.wsbase.toNat ∧ c.wsbase.toNat + c.wslen.toNat ≤ part.wsbase.toNat + part.wslen.toNat
          ∧ c.wsbase.toNat + c.wslen.toNat ≤ 64))
    && (!c.cfg.getLsbD 8 || (s.keys.find (c.cfg.toNat / 2 ^ 16 % 256)).isSome)

def State.doCreate (s : State) (fn ctx : Nat) (inc : Byte) : State :=
  s.command fn ctx fun c =>
    if c.st != .free then s.setRes ctx resBadState
    else if !s.cfgOk fn c then s.setRes ctx resBadCfg
    else if !c.unrec.isEmpty then s.setRes ctx resBadState
    else s.setCtx ctx { c with live := inc, st := .active, qhalt := false, res := resOk, keyed := c.cfg.getLsbD 8, lagging := [], due := false }

def execCreate (fn ctx : Nat) (inc : Byte) (s : State) : Out := .next (s.doCreate fn ctx inc)

-- KILL (R312) ------------------------------------------------------------------------------------------------------

/-- Steps 1 and 2: LIVE advances, and every checkpoint has still to learn it. -/
def State.advanceLive (s : State) (ctx : Nat) : State :=
  s.modCtx ctx fun c => { c with live := c.live + 1, unrec := c.unrec ++ [c.live], lagging := List.range cpCount, due := false }

/-- Whether a weight-store write of a context has begun. -/
def State.weightsBegun (s : State) (ctx : Nat) : Bool := s.queues.any fun p => p.2.ctx == ctx && p.2.wsBegun

/-- Steps 3 and 4 but for the records: the context's state is discarded, and its queues halt, after a weight-store write that has begun is
consumed (R264). -/
def State.haltContext (s : State) (ctx : Nat) : State :=
  let mine := s.launches.filter fun p => p.2.ctx == ctx
  let s1 := mine.foldl (fun s p =>
    (s.modLaunch p.1 fun l => { l with fate := some (l.fate.getD (statusKilled, 0)) }).discardTeams p.1) s
  let s2 := if s1.weightsBegun ctx then s1 else s1.modCtx ctx fun c => { c with qhalt := true }
  { s2 with queues := s2.queues.map fun p => if p.2.ctx = ctx then (p.1, { p.2 with pageWait := none, denied := [] }) else p }

/-- DESTROY with four incarnations unreclaimed also stops the copies of the live one. -/
def State.stopCopies (s : State) (ctx : Nat) : State :=
  { s with copies := (s.copies.filter fun k => !(k.ctx == ctx && k.queue.isNone)).map fun k => if k.ctx = ctx then { k with orphan := true } else k }

def State.doKill (s : State) (fn ctx : Nat) : State :=
  s.command fn ctx fun c =>
    if c.st != .active then s.setRes ctx resBadState
    else if c.unrec.length = 4 then s.setRes ctx resKillBusy
    else ((s.advanceLive ctx).haltContext ctx).modCtx ctx fun c => { c with st := .stopping, res := resPending }

/-- KILL. -/
def execKill (fn ctx : Nat) (s : State) : Out := .next (s.doKill fn ctx)

/-- What a checkpoint does on learning a new INC (Table 14.4). -/
def State.learnAt (s : State) (ctx cp : Nat) : State :=
  let stale (c : Nat) (inc : Byte) : Bool := c == ctx && inc != (s.ctx ctx).live
  if cp < 192 then
    let s1 := s.dropL1 cp fun x => stale x.ctx x.inc
    let s2 := s1.modCore cp fun k => { k with icache := k.icache.filter fun x => !stale x.ctx x.inc }
    { s2 with decided := s2.decided.filter fun x => !(x.holder == cp && stale x.ctx x.inc) }
  else if cp < 320 then
    let die := (cp - 192) / 64
    let here (x : L2Line) : Bool := cpSlice x.die x.pa == cp && stale x.ctx x.inc
    { s with l2 := s.l2.filter fun x => !here x, decided := s.decided.filter fun x => !(x.holder == 192 + die && stale x.ctx x.inc) }
  else if cp = cpCopy 0 ∨ cp = cpCopy 1 then
    { s with copies := s.copies.filter fun k => !(k.queue.isNone && cpCopy k.die == cp && stale k.ctx k.inc) }
  else s

/-- A checkpoint learns the live incarnation of a context. -/
def State.learn (s : State) (ctx cp : Nat) : State :=
  if (s.ctx ctx).lagging.contains cp then
    (s.modCtx ctx fun c => { c with lagging := c.lagging.filter (· != cp) }).learnAt ctx cp
  else s

/-- Whether nothing of a launch or copy whose context is killed can be performed any more (R241, R386): its requests are performed or dropped, and
every checkpoint holds the new INC, unless LIVE has still to change (R308). -/
def State.killQuiet (s : State) (ctx : Nat) (mine : Req → Bool) : Bool :=
  ((s.ctx ctx).due || (s.ctx ctx).lagging.isEmpty) && !s.reqs.any mine
/-- A unit of a copy that is on its way out. -/
def Req.unitOf (r : Req) (copy : Nat) : Bool :=
  r.stage == .sent && match r.act with
    | .unit id _ _ => id == copy
    | _ => false

/-- The record of one launch of a killed context, once it may be written: FAILED is 0 in a KILLED one, and no failure list follows it. Before LIVE
changes its SOFT bytes are written back first, as at its end (R241, R308). -/
def State.killRecord (s : State) (ctx launch : Nat) (l : Launch) : State :=
  if !s.killQuiet ctx fun r => r.unperformed launch then s
  else if s.softDirty launch && (s.ctx ctx).due then s.drainSoft launch
  else match l.fate with
    | some (3, _) => if s.launchReady l then (s.launchRecord l).dropLaunch launch else s
    | _ =>
      if s.recordReady l.queue l.cmpl then (s.writeRecord l.queue l.cmpl l.irq statusKilled 0 l.endedTeams.length 0).dropLaunch launch else s

/-- The packet of a weight-store write that a kill ends is recorded and consumed. Every row of its span keeps its old bytes (DESIGN CHOICE,
assumption 74). -/
def State.killWeights (s : State) (q : Nat) : State :=
  match (s.queue q).begun with
  | some (slot, ridx, pk) =>
    if s.mayConsume q slot && s.recordReady q (packetRecord pk) then s.finishPacket q slot ridx pk statusKilled 0 0 else s
  | none => s.setQueue q { s.queue q with wsBegun := false }

/-- The records of step 4 that can be written now. -/
def State.killRecords (s : State) (ctx : Nat) : State :=
  let s1 := (s.launches.filter fun p => p.2.ctx == ctx).foldl (fun s p => s.killRecord ctx p.1 p.2) s
  let s2 := (s1.copies.filter fun k => k.ctx == ctx).foldl (fun s k => match k.queue with
    | some q =>
      if s.killQuiet ctx (fun r => r.unitOf k.id) && s.recordReady q k.cmpl then
        { s with copies := s.copies.filter fun x => x.id != k.id }.writeRecord q k.cmpl k.irq statusKilled 0 0 0
      else s
    | none => s) s1
  let s3 := (s2.queues.filter fun p => p.2.ctx == ctx && p.2.wsBegun).foldl (fun s p => s.killWeights p.1) s2
  if s3.weightsBegun ctx then s3 else s3.modCtx ctx fun c => { c with qhalt := true }

/-- Whether every record of step 4 has been written. -/
def State.recordsDone (s : State) (ctx : Nat) : Bool :=
  (s.launches.all fun p => p.2.ctx != ctx) && (s.copies.all fun k => !(k.ctx == ctx && k.queue.isSome))
    && !s.weightsBegun ctx

-- DESTROY (R308, R320) ---------------------------------------------------------------------------------------------

/-- Detaches the key of a context, and purges it once no context names the slot. -/
def State.detachKey (s : State) (ctx : Nat) : State :=
  let c := s.ctx ctx
  if !c.keyed then s
  else
    let slot := c.cfg.toNat / 2 ^ 16 % 256
    let s1 := s.modCtx ctx fun c => { c with keyed := false }
    if s1.ctxs.any fun p => p.2.keyed && p.2.cfg.toNat / 2 ^ 16 % 256 == slot then s1 else { s1 with keys := s1.keys.erase slot }

/-- A destroyed context whose sequence has ended gives up its key, and is FREE once nothing is unreclaimed: its queues are then
unregistered (R372). -/
def State.settleDestroy (s : State) (ctx : Nat) : State :=
  let c := s.ctx ctx
  if c.st != .destroying || c.due || !c.lagging.isEmpty || !s.recordsDone ctx then s
  else
    let s1 := s.detachKey ctx
    if !(s1.ctx ctx).unrec.isEmpty then s1
    else
      let s2 := s1.modCtx ctx fun c => { c with st := .free, res := resOk }
      { s2 with queues := s2.queues.map fun p => if p.2.ctx = ctx then (p.1, { p.2 with reg := false, inn := false }) else p }

def State.doDestroy (s : State) (fn ctx : Nat) : State :=
  s.command fn ctx fun c =>
    if c.st != .active then s.setRes ctx resBadState
    else
      let s1 := if c.unrec.length = 4 then ((s.haltContext ctx).stopCopies ctx).modCtx ctx fun c => { c with due := true }
        else (s.advanceLive ctx).haltContext ctx
      s1.modCtx ctx fun c => { c with st := .destroying, res := resPending }

/-- DESTROY. -/
def execDestroy (fn ctx : Nat) (s : State) : Out := .next (s.doDestroy fn ctx)

/-- KILL_SEQUENCE_END: records are written; once all are, and every checkpoint holds the new INC, the context is ACTIVE again. -/
def execKillSequenceEnd (ctx : Nat) (s : State) : Out :=
  let c := s.ctx ctx
  if c.st != .stopping && c.st != .destroying then .next s
  else
    let s1 := s.killRecords ctx
    if !c.lagging.isEmpty || !s1.recordsDone ctx then .next s1
    else if c.st = .stopping then .next (s1.modCtx ctx fun c => { c with st := .active, res := resOk })
    else .next (s1.settleDestroy ctx)

def State.doResume (s : State) (fn ctx : Nat) : State :=
  s.command fn ctx fun c =>
    if c.st != .active || !c.qhalt then s.setRes ctx resBadState else s.setCtx ctx { c with qhalt := false, res := resOk }

/-- RESUME. -/
def execResume (fn ctx : Nat) (s : State) : Out := .next (s.doResume fn ctx)

-- Reclaim (R316) ---------------------------------------------------------------------------------------------------

/-- Whether nothing under a tag remains: requests, copies, page requests that wait for the host's answer, lines, decided copies. -/
def State.tagGone (s : State) (ctx : Nat) (inc : Byte) : Bool :=
  (s.reqs.all fun r => !(r.ctx == ctx && r.inc == inc)) && (s.copies.all fun k => !(k.ctx == ctx && k.inc == inc))
    && (s.pageReqs.all fun p => !(p.ctx == ctx && p.inc == inc)) && (s.decided.all fun x => !(x.ctx == ctx && x.inc == inc))
    && (s.l2.all fun x => !(x.ctx == ctx && x.inc == inc))
    && s.cores.all fun p => (p.2.l1.all fun x => !(x.ctx == ctx && x.inc == inc)) && p.2.icache.all fun x => !(x.ctx == ctx && x.inc == inc)

/-- RECLAIM_COMPLETE: an incarnation leaves UNREC. A DESTROY that waits for the oldest goes on with its kill (R308). -/
def execReclaimComplete (ctx inc : Nat) (s : State) : Out :=
  let c := s.ctx ctx
  let i : Byte := BitVec.ofNat 8 inc
  if !c.unrec.contains i || !c.lagging.isEmpty || !s.tagGone ctx i then .next s
  else
    let s1 := s.modCtx ctx fun c => { c with unrec := c.unrec.filter (· != i) }
    .next ((if c.due && c.unrec.head? == some i then s1.advanceLive ctx else s1).settleDestroy ctx)

-- Key slots (R371, R380) -------------------------------------------------------------------------------------------

/-- Whether a function reaches a key slot. -/
def reachesKey (fn slot : Nat) : Bool := decide (slot < 256) && (fn == 0 || slot / 32 + 1 == fn)

/-- KEY_SLOT_LOAD: a wrap that fails to unwrap leaves the slot empty; a new key starts the trace sequence at 0 (R321). -/
def execKeySlotLoad (fn slot : Nat) (ct wrap : List Byte) (s : State) : Out :=
  if !reachesKey fn slot || ct.length ≠ 1088 || wrap.length ≠ 104 then .next s
  else
    match Crypto.unwrapKeys ct wrap with
    | some (keys, trace) => .next { s with keys := s.keys.put slot { keys, trace, seq := 0 } }
    | none => .next { s with keys := s.keys.erase slot }

/-- A record under the trace key of a context's slot (R321): the header in the clear, the encrypted payload, and the tag. -/
def State.sealed (s : State) (ctx : Nat) (inc : Byte) (payload : List Byte) : List Byte × State :=
  let slot := (s.ctx ctx).cfg.toNat / 2 ^ 16 % 256
  match s.keys.find slot with
  | some k =>
    let hdr := leBytes 2 ctx ++ [inc] ++ leBytes 1 0 ++ valBytes 8 k.seq ++ leBytes 4 payload.length
    (hdr ++ Crypto.gcm (leBytes 32 k.trace) (hdr.take 12) hdr payload, { s with keys := s.keys.put slot { k with seq := k.seq + 1 } })
  | none => ([], s)

end Sys2Proof.Machine
end

