-- ==== Sys2Proof/Machine/Partitions.lean ====
section
/-!
DEFINITION. Sys2Proof/Machine/Partitions.lean: partitions and their swap (R329-R331), the queue registry (R372), invalidation of translations
(R324, R326-R328), power, clocks and the thermal trip (R375-R377).
-/
namespace Sys2Proof.Machine

-- Partitions (Table 15.3) ------------------------------------------------------------------------------------------

/-- PSTAT. -/
def Partition.stat (p : Partition) : Word :=
  BitVec.ofNat 32 (p.en.toNat + p.resident.toNat * 2 + p.swapping.toNat * 4 + p.res.toNat * 16)

/-- The partner of a partition: each names the other (R331). -/
def State.partner (s : State) (p : Nat) : Option Nat :=
  let a := s.part p
  let q := a.pair.toNat % 8
  let b := s.part q
  if a.pair.getLsbD 3 && b.pair.getLsbD 3 && b.pair.toNat % 8 == p && q != p then some q else none

/-- Shares in HBM and weight store as base and length. -/
def Partition.hbmShare (p : Partition) : Nat × Nat := (p.hbmbase.toNat, p.hbmlen.toNat)
def Partition.wsShare (p : Partition) : Nat × Nat := (p.wsbase.toNat, p.wslen.toNat)
def sharesMeet (a b : Nat × Nat) : Bool := decide (a.2 ≠ 0 ∧ b.2 ≠ 0 ∧ a.1 < b.1 + b.2 ∧ b.1 < a.1 + a.2)

/-- Whether ENABLE finds an overlap (R330). -/
def State.overlaps (s : State) (p : Nat) : Bool :=
  let a := s.part p
  (List.range 8).any fun q =>
    let b := s.part q
    q != p && b.en
      && (sharesMeet a.hbmShare b.hbmShare || sharesMeet a.wsShare b.wsShare
          || (s.partner p != some q && a.clmask &&& b.clmask &&& 0xFFFFFF != 0))

/-- The cores of a partition. -/
def State.partCores (s : State) (p : Nat) : List Nat := (List.range 192).filter fun c => s.hasCore p c

/-- Whether the clocks of a core run as far as GATE goes: those of a gated cluster stop once the core's teams have left it (R376). -/
def State.coreClocked (s : State) (c : Nat) : Bool := !s.device.gate.getLsbD (clusOf c) || !(s.liveTeams c).isEmpty

/-- The class counters of a core at 0 (R366): their base is the core clock now, or that at which the core's clocks stopped (R376). -/
def State.zeroCycles (s : State) (c : Nat) : State :=
  s.modCore c fun k =>
    { k with
      cycles := (Store.set 0 [] 0 (BitVec.ofNat 64 s.clock)).set 0 6 (if s.coreClocked c then 0 else BitVec.ofNat 64 (s.clock + 1)) }

/-- ENABLE. The class counters of the cores are zeroed (R366); the first of a pair is resident. That of a partition which is enabled is answered
BAD_STATE (DESIGN CHOICE, assumption 80). -/
def execEnable (p : Nat) (s : State) : Out :=
  let a := s.part p
  if p ≥ 8 then .next s
  else if a.en then .next (s.setPart p { a with res := 2 })
  else if s.overlaps p then .next (s.setPart p { a with res := 1 })
  else
    let away := match s.partner p with
      | some q => (s.part q).en && ((s.part q).resident || (s.part q).swapping)
      | none => false
    .next ((s.partCores p).foldl (fun s c => s.zeroCycles c) (s.setPart p { a with en := true, resident := !away, res := 0 }))

-- The swap (R331) --------------------------------------------------------------------------------------------------

/-- A core as its state goes into a shadow slot: the L1, the instruction cache and the loop buffer are empty. -/
def State.cleanCore (s : State) (c : Nat) : State :=
  let s1 := (s.core c).l1.foldl (fun s x =>
    if !(x.attr.soft && x.dirty.contains true) then s
    else if s.lineWritable c x then s.softToDie (dieOf c) x.ctx x.inc x.attr x.va x.pa x.dirty x.data x.by_
    else s.machineCheck x.ctx x.inc) s
  s1.modCore c fun k => { k with l1 := [], icache := [], seq := { k.seq with halves := [] } }

/-- The threads, handler and sequencer of a core whose state has come back. -/
def State.wakeCore (s : State) (c : Nat) : State :=
  let s1 := s.modCore c fun k =>
    { k with
      handler := { k.handler with pageWait := none, asked := [] }
      seq := { k.seq with leaving := false, pageWait := none, denied := [], halves := [] } }
  let s2 := s1.wakeWarps c (((s1.core c).teams.flatMap fun p => p.2.warps) ++ [64])
  (s2.core c).teams.foldl (fun s p => s.settleGbars c p.1) s2.settleAcks

/-- The teams that come out of the shadow slot of a core in a gated cluster go to their save areas: the cluster receives none (R376). -/
def State.evacuate (s : State) (c : Nat) : State :=
  if s.device.gate.getLsbD (clusOf c) then
    (s.core c).teams.foldl (fun s p => match s.team c p.1 with
      | some t => ({ s with images := s.images ++ [s.teamImage c p.1 t []] } : State).removeTeam c p.1
      | none => s) s
  else s

/-- Exchanges the states of cores with their shadow slots. -/
def State.swapCores (s : State) (cs : List Nat) : State :=
  let s1 := cs.foldl (fun s c => (s.cleanCore c).exchangeCore c) s
  cs.foldl (fun s c => s.wakeCore c) (cs.foldl (fun s c => s.evacuate c) s1)

/-- Whether the swap port has its clock: not after a trip, nor while the cores are off and the shadow slots keep what they hold (R375, R377). -/
def State.portRuns (s : State) : Bool := !s.device.trip && decide (s.device.pstate < 2)

/-- Whether a copy of a team that has left a core for good will still reach the window that it had there (R387). -/
def State.strays (s : State) (c : Nat) : Bool :=
  let gone (launch : Nat) (e : CopyEnd) : Bool := match e with
    | .sp k w _ => k == c && (s.windowTeam launch k w).isNone && !s.windowAway launch k w
    | _ => false
  s.copies.any fun k => match k.job with
    | .span d r _ => gone k.launch d || gone k.launch r
    | .tensor _ d _ => gone k.launch d

/-- PSWAP: the queue engines of the outgoing partition stop, and its sequencers go to their next retire points. That of a pair of which one
partition is not enabled is answered BAD_STATE (DESIGN CHOICE, assumption 80). -/
def execPswap (p : Nat) (s : State) : Out :=
  let a := s.part p
  match s.partner p with
  | some q =>
    if p ≥ 8 || !a.en || !(s.part q).en || a.swapping || (s.part q).swapping then .next (s.setPart p { a with res := 2 })
    else
      let s1 := (s.setPart p { a with swapping := true, res := 0 }).setPart q { s.part q with swapping := true }
      .next ((s1.partCores p).foldl (fun s c => s.modSeq c fun x => if x.active then x.tellLeave else x) s1)
  | none => if p ≥ 8 then .next s else .next (s.setPart p { a with res := 2 })

/-- Whether the state of a core may leave it: its sequencer stands at a retire point, and no commit or rollback stops a team of it. -/
def State.coreMayLeave (s : State) (c : Nat) : Bool :=
  let q := (s.core c).seq
  (!q.active || q.halt || q.preempted || q.record.isSome) && (s.core c).teams.all fun p => !p.2.stopped

/-- PSWAP_COMPLETE: every sequencer stands at a retire point, no copy of a team that has ended is still to reach a window (R387), and the cores'
states are exchanged. -/
def execPswapComplete (p : Nat) (s : State) : Out :=
  match s.partner p with
  | some q =>
    let a := s.part p
    if !a.swapping || !s.portRuns || !(s.partCores p).all (fun c => s.coreMayLeave c && !s.strays c) then .next s
    else
      let s1 := s.swapCores (s.partCores p)
      .next ((s1.setPart p { a with resident := !a.resident, swapping := false }).setPart q
        { s.part q with resident := a.resident, swapping := false })
  | none => .next s

/-- DISABLE: no context of the partition is ACTIVE. A partner in the shadow slots becomes resident, its state taken from them at once or, where
the swap port has no clock now, with PSWAP_COMPLETE (DESIGN CHOICE, assumption 80). -/
def execDisable (p : Nat) (s : State) : Out :=
  let a := s.part p
  if p ≥ 8 then .next s
  else if s.ctxs.any fun c => c.2.st == .active && c.2.cfg.toNat % 8 == p then .next (s.setPart p { a with res := 2 })
  else
    let s1 := s.setPart p { a with en := false, resident := false, swapping := false, res := 0 }
    match s.partner p with
    | some q =>
      if a.resident && (s.part q).en then
        if s.portRuns then .next ((s1.swapCores (s.partCores p)).setPart q { s.part q with resident := true, swapping := false })
        else .next (s1.setPart q { s.part q with swapping := true })
      else .next s1
    | none => .next s1

-- The queue registry (Table 18.4, R372) ----------------------------------------------------------------------------

/-- QSTAT. -/
def Queue.stat (q : Queue) : Word := BitVec.ofNat 32 (q.reg.toNat + q.inn.toNat * 2 + q.qerr.toNat * 4 + q.res.toNat * 16)

/-- Whether a function reaches a queue's entry. -/
def reachesQueue (fn q : Nat) : Bool := decide (q < 2048) && (fn == 0 || queuePart q + 1 == fn)

def State.doRegister (s : State) (fn q : Nat) : State :=
  let k := s.queue q
  let c := s.ctx k.ctx
  if !reachesQueue fn q then s
  else if k.reg then s.setQueue q { k with res := 2 }
  else if c.st != .active || s.partOf k.ctx != queuePart q then s.setQueue q { k with res := 1 }
  else if k.qcb.toNat % 64 ≠ 0 then s.setQueue q { k with res := 2 }
  else
    let inside := (s.queues.filter fun p => p.2.inn && p.2.die == k.die).length
    s.setQueue q { k with reg := true, inn := decide (inside < queueSlots), qerr := false, res := 0, served := 0, since := s.time,
                          wsBegun := false, begun := none, pageWait := none, denied := [], leaving := false }

/-- REGISTER. -/
def execRegister (fn q : Nat) (s : State) : Out := .next (s.doRegister fn q)

def State.doUnregister (s : State) (fn q : Nat) : State :=
  let k := s.queue q
  if !reachesQueue fn q then s
  else if !k.reg then s.setQueue q { k with res := 2 }
  else if k.wsBegun then s.setQueue q { k with leaving := true, res := 0 }
  else s.setQueue q { k with reg := false, inn := false, pageWait := none, denied := [], res := 0 }

/-- UNREGISTER: the packet that the engine acts on is finished first. -/
def execUnregister (fn q : Nat) (s : State) : Out := .next (s.doUnregister fn q)

-- Invalidation (R326-R328) -----------------------------------------------------------------------------------------

/-- TISTAT. -/
def TInv.stat (t : TInv) : Word := BitVec.ofNat 32 (t.busy.toNat + t.res.toNat * 2)

/-- The context that a block names, and the range of the invalidation that it runs (R326). -/
def TInv.ctxNo (t : TInv) : Nat := t.ctx.toNat % 4096
def TInv.meets (t : TInv) (va size : Nat) : Bool := t.run.2.2 == 0 || Machine.meets va size t.run.2.1 (4096 * t.run.2.2)
def TInv.covers (t : TInv) (va : Nat) : Bool := t.meets va 1

/-- What an invalidation drops and strips (R327). Fills and decided copies in flight are kept out. -/
def State.invalidateRange (s : State) (t : TInv) : State :=
  let c := t.run.1
  { s with
    tlb := s.tlb.filter fun e => !(e.ctx == c && t.meets e.va e.attr.size)
    decided := s.decided.filter fun x => !(x.ctx == c && t.covers x.va)
    reqs := replaceIf (fun r => r.ctx == c && t.covers (lineOf r.va) && (match r.act with
      | .load .. | .cell .. => true
      | _ => false)) (fun r => { r with noInstall := true }) s.reqs
    cores := s.cores.map fun p =>
      (p.1, { p.2 with
        l1 := (p.2.l1.filter fun x => !(x.ctx == c && t.covers x.va) || (x.attr.soft && x.dirty.contains true)).map fun x =>
          if x.ctx == c && t.covers x.va then { x with stripped := true } else x
        icache := p.2.icache.filter fun x => !(x.ctx == c && t.covers x.va) }) }

def State.doInvalidate (s : State) (fn : Nat) : State :=
  let t := s.tinv fn
  if t.busy then s
  else if !s.reaches fn t.ctxNo then s.setTinv fn { t with res := 1 }
  else if t.ctx.toNat ≥ 4096 ∨ t.va.toNat % 4096 ≠ 0 ∨ t.va.toNat ≥ 2 ^ 57 ∨ t.va.toNat + 4096 * t.cnt.toNat > 2 ^ 57 then
    s.setTinv fn { t with res := 2 }
  else
    let t1 := { t with busy := true, res := 0, run := (t.ctxNo, t.va.toNat, t.cnt.toNat), since := s.nextId }
    (s.invalidateRange t1).setTinv fn t1

/-- TRANSLATION_INVALIDATION: a TICMD write of 1. -/
def execTranslationInvalidation (fn : Nat) (s : State) : Out := if fn > 8 then .next s else .next (s.doInvalidate fn)

/-- Whether an access found by an address and the attributes that it used belongs to the range under an entry that is no longer there. -/
def State.usesOld (s : State) (t : TInv) (va : Nat) (a : Attr) : Bool :=
  t.covers va && (match s.walk t.run.1 va with
    | .ok _ b => b != a
    | _ => true)

/-- Every RECOV team: on its core, in its shadow slot, or saved. -/
def State.recovTeams (s : State) : List Team :=
  let of (k : Core) : List Team := k.teams.map (·.2)
  ((s.cores.flatMap fun p => of p.2) ++ (s.shadow.flatMap fun p => of p.2.core) ++ s.images.map (·.team)).filter fun t => t.recov.isSome

/-- The stores that RECOV teams of a context hold (R354). -/
def State.heldStores (s : State) (ctx : Nat) : List Held :=
  (s.recovTeams.filter fun t => (s.launch t.launch).any fun l => l.ctx == ctx).flatMap fun t => (t.recov.map (·.held)).getD []

/-- Whether accesses of an invalidation's range that used an old entry are still to be performed: requests made before it, held stores, also once
they are released, and units of copies whose page an engine has read (R328). -/
def State.oldAccesses (s : State) (t : TInv) : Bool :=
  (s.reqs.any fun r => r.ctx == t.run.1 && t.covers r.va && (decide (r.id < t.since) || (r.turn.map fun b => decide (b < t.since)).getD false) &&
      r.stage == .sent && (match r.act with
      | .barrier .. | .weight .. | .rload .. | .rstore .. => false
      | _ => true))
    || ((s.heldStores t.run.1).any fun h => s.usesOld t h.va h.attr)
    || s.copies.any fun k => k.ctx == t.run.1 && k.pages.any fun p => s.usesOld t (4096 * p.1) p.2

/-- INVALIDATION_COMPLETE: every access that used an old entry is performed, and BUSY clears (R328). -/
def execInvalidationComplete (fn : Nat) (s : State) : Out :=
  let t := s.tinv fn
  if !t.busy || s.oldAccesses t then .next s else .next (s.setTinv fn { t with busy := false })

/-- ATS_INVALIDATION: the results of host translation that the host names leave the caches (R324). -/
def execAtsInvalidation (fn addr len : Nat) (s : State) : Out :=
  .next { s with
    tlb := s.tlb.filter fun e => !(e.attr.tgt == .host && e.fn == fn && decide (addr < e.oa + 4096 ∧ e.oa < addr + len)) }

-- Power (R375-R377) ------------------------------------------------------------------------------------------------

/-- PWRSTAT. -/
def Device.pwrstat (d : Device) : Word := BitVec.ofNat 32 (d.pstate + d.trip.toNat * 8 + d.busy.toNat * 16 + d.res.toNat * 32)

/-- Whether cores, sequencers and queue engines have clocks; on the way out of PS1 into PS2 or PS3 the cores run to where their
teams may be removed. -/
def State.coresRun (s : State) : Bool :=
  let d := s.device
  !d.trip && (d.pstate == 0 || (d.pstate == 1 && d.busy && decide (2 ≤ d.going)))

def State.doPower (s : State) (target : Nat) : State :=
  let d := s.device
  if d.busy then s
  else if target > 4 || (target == 4 && s.ctxs.any fun c => c.2.st != .free) then { s with device := { d with res := 1 } }
  else { s with device := { d with busy := true, going := target, res := 0 } }

/-- POWER_STATE_CHANGE: PWRCMD with GO. -/
def execPowerStateChange (target : BitVec 3) (s : State) : Out := .next (s.doPower target.toNat)

/-- Every team that may leave its core leaves it. -/
def State.removeTeams (s : State) (which : Nat → Bool) : State :=
  let all := s.cores.flatMap fun k => if which k.1 then k.2.teams.map fun p => (k.1, p.1) else []
  all.foldl (fun s m => match s.team m.1 m.2 with
    | some t => match s.launch t.launch with
      | some l => s.swapCluster t.launch l t.index
      | none => s
    | none => s) s

/-- Every dirty byte of the L1s and of the L2 copies goes home. -/
def State.drainCaches (s : State) : State :=
  let s1 := s.cores.foldl (fun s k => s.cleanCore k.1) s
  let s2 := s1.l2.foldl (fun s x => match s.l2.findIdx? fun y => y.at_ x.die x.ctx x.inc x.attr x.pa with
    | some i => s.evictL2 i x
    | none => s) s1
  s2

/-- What PS4 loses: eDRAM, HBM and all state of cores; firmware must boot again. -/
def State.powerOff (s : State) : State :=
  { s with hbm := [], hbmPsn := [], unitKey := [], leases := [], genTime := [], l2 := [], tlb := [], decided := [], images := [], ckpts := [],
           shadow := [], regs := [], sregs := [], owners := [], scratch := [], scrPsn := [], opmem := [], opPsn := [], priv := [], privPsn := [],
           hpriv := [], hprivPsn := [], sems := [], wstore := [], wsPsn := [], threads := [], warps := [], cores := [],
           fw := { image := none, cause := 0 } }

/-- POWER_TRANSITION_DONE: the transition ends once what it asks for is done, BUSY clears, and vector 2 is signalled. Out of PS4 firmware has
booted first (R378). A trip holds what needs the clocks of cores and caches (R377). -/
def execPowerTransitionDone (s : State) : Out :=
  let d := s.device
  let settle (s : State) : State := { s with device := { s.device with pstate := d.going, busy := false } }.irq 0 2
  if !d.busy || (d.pstate == 4 && d.going != 4 && s.fw.image.isNone) then .next s
  else if d.going = 4 then .next (settle s.powerOff)
  else if d.going ≤ 1 ∨ 2 ≤ d.pstate then .next (settle s)
  else if d.trip then .next s
  else
    let s1 := s.removeTeams fun _ => true
    if !s1.copies.isEmpty || s1.cores.any fun k => !k.2.teams.isEmpty then .next s1 else .next (settle s1.drainCaches)

/-- TRIPCLR: the clocks start again once the temperature is 10 degrees below the threshold. -/
def State.doTripclr (s : State) : State :=
  let d := s.device
  if d.busy then s
  else if d.temp.toInt ≤ Config.tripThreshold - 10 then { s with device := { d with trip := false, res := 0 } }
  else { s with device := { d with res := 1 } }
def execTripclr (s : State) : Out := .next s.doTripclr

/-- THERMAL_TRIP: at the threshold every clock but TIME stops, and vector 2 of the physical function is signalled. -/
def execThermalTrip (s : State) : Out :=
  let d := s.device
  if d.trip || decide (d.temp.toInt < Config.tripThreshold) then .next s
  else .next ({ s with device := { d with trip := true } }.irq 0 2)

/-- CLKCAP: a value outside its limits is ignored. -/
def State.doClkcap (s : State) (v : Word) : State :=
  let n := v.toNat % 2048
  if 400 ≤ n ∧ n ≤ 1250 ∧ n % 25 = 0 then { s with device := { s.device with clkcap := BitVec.ofNat 32 n } } else s
def execClkcap (v : Word) (s : State) : Out := .next (s.doClkcap v)

/-- Stops or starts the clock of a core's class counters (R366, R376). -/
def State.gateCycles (s : State) (c : Nat) : State :=
  let off := (s.core c).cycles.get 0 6
  let now := BitVec.ofNat 64 s.clock
  if s.coreClocked c then
    if off = 0 then s
    else s.modCore c fun k => { k with cycles := (k.cycles.set 0 6 0).set 0 0 (k.cycles.get 0 0 + (now + 1 - off)) }
  else if off = 0 then s.modCore c fun k => { k with cycles := k.cycles.set 0 6 (now + 1) }
  else s
def State.gateClocks (s : State) : State := (List.range 192).foldl (fun s c => s.gateCycles c) s

/-- GATE: the teams of gated clusters leave their cores, whose clocks then stop; after a trip they leave once the clocks run (R377). -/
def State.doGate (s : State) (mask : Word) : State :=
  let m := mask &&& 0xFFFFFF
  let s1 : State := { s with device := { s.device with gate := m } }
  (if s.device.trip then s1 else s1.removeTeams fun c => m.getLsbD (clusOf c)).gateClocks
def execGate (mask : Word) (s : State) : Out := .next (s.doGate mask)

end Sys2Proof.Machine
end

