-- ==== Sys2Proof/Machine/HostOps.lean ====
section
/-!
DEFINITION. Sys2Proof/Machine/HostOps.lean: the host and the peer chips (R242, R247, R319, R369-R374, R378, R379): register writes through the
control and mailbox windows, requests to device memory, firmware and attestation.
-/
namespace Sys2Proof.Machine

-- Register writes (R307, R326, R329, R370-R372) --------------------------------------------------------------------

/-- Writes a register of 8 bytes, whole at its offset or its high half at the next word. -/
def put64 (old : DWord) (half : Nat) (v : DWord) : DWord :=
  if half = 0 then v else v.setWidth 32 ++ (old.setWidth 32 : Word)

/-- A CMD write of a context block (Table 14.2). INC is to be zero in every command but CREATE: one that is not is taken as a reserved bit that is
not zero, and answered BAD_CMD (DESIGN CHOICE, assumption 78). -/
def State.cmdWrite (s : State) (fn ctx : Nat) (v : Word) : State :=
  let op := v.toNat % 8
  let inc := v.toNat / 256 % 256
  if !s.reaches fn ctx || (s.ctx ctx).res == resPending || op = 0 && v = 0 then s
  else if v.toNat / 2 ^ 16 ≠ 0 ∨ v.toNat / 8 % 32 ≠ 0 ∨ op > 4 ∨ (inc ≠ 0 ∧ op ≠ 1) then s.setRes ctx resBadCmd
  else match op with
    | 1 => s.doCreate fn ctx (BitVec.ofNat 8 inc)
    | 2 => s.doKill fn ctx
    | 3 => s.doResume fn ctx
    | 4 => s.doDestroy fn ctx
    | _ => s

/-- A write into a context block: configuration only while FREE. -/
def State.ctxWrite (s : State) (fn ctx ofs : Nat) (v : DWord) : State :=
  let w : Word := v.setWidth 32
  if !s.reaches fn ctx then s
  else if ofs = 0x1C then s.cmdWrite fn ctx w
  else if ofs ≥ 0x1C then s
  else if (s.ctx ctx).st != .free then s.setRes ctx resBadState
  else
    s.modCtx ctx fun c => match ofs with
      | 0x00 => { c with ptroot := put64 c.ptroot 0 v }
      | 0x04 => { c with ptroot := put64 c.ptroot 1 v }
      | 0x08 => { c with traptab := put64 c.traptab 0 v }
      | 0x0C => { c with traptab := put64 c.traptab 1 v }
      | 0x10 => { c with wsbase := w }
      | 0x14 => { c with wslen := w }
      | 0x18 => { c with cfg := w &&& 0x00FF0107 }
      | _ => c

/-- A write into a partition block, by the physical function alone: configuration only while EN = 0. -/
def State.partWrite (s : State) (p ofs : Nat) (v : Word) : Out :=
  let a := s.part p
  match ofs with
  | 0x18 =>
    match v.toNat with
    | 1 => execEnable p s
    | 2 => execDisable p s
    | 3 => execPswap p s
    | _ => .next s
  | _ =>
    if a.en then .next s
    else .next (match ofs with
      | 0x00 => s.setPart p { a with clmask := v &&& 0xFFFFFF }
      | 0x04 => s.setPart p { a with hbmbase := v }
      | 0x08 => s.setPart p { a with hbmlen := v }
      | 0x0C => s.setPart p { a with wsbase := v }
      | 0x10 => s.setPart p { a with wslen := v }
      | 0x14 => s.setPart p { a with pair := v &&& 0xF }
      | _ => s)

/-- A write into a function's translation-invalidation block. -/
def State.tinvWrite (s : State) (fn ofs : Nat) (v : DWord) : State :=
  let t := s.tinv fn
  let w : Word := v.setWidth 32
  match ofs with
  | 0x00 => s.setTinv fn { t with va := put64 t.va 0 v }
  | 0x04 => s.setTinv fn { t with va := put64 t.va 1 v }
  | 0x08 => s.setTinv fn { t with cnt := w }
  | 0x0C => s.setTinv fn { t with ctx := w }
  | 0x10 => if w = 1 then s.doInvalidate fn else s
  | _ => s

/-- A write into a queue's registry entry: QCB and QCFG only while REG = 0. -/
def State.queueWrite (s : State) (fn q ofs : Nat) (v : DWord) : State :=
  let k := s.queue q
  let w : Word := v.setWidth 32
  if !reachesQueue fn q then s
  else match ofs with
    | 0x00 => if k.reg then s else s.setQueue q { k with qcb := put64 k.qcb 0 v }
    | 0x04 => if k.reg then s else s.setQueue q { k with qcb := put64 k.qcb 1 v }
    | 0x08 => if k.reg then s else s.setQueue q { k with qcfg := w &&& 0x10FFF }
    | 0x0C => if w = 1 then s.doRegister fn q else if w = 2 then s.doUnregister fn q else s
    | _ => s

/-- A peer-table word that changes its epoch or V ends what is outstanding towards that chip (R374). -/
def State.peerWrite (s : State) (n : Nat) (v : Word) : State :=
  let new := v &&& 0x1FF
  let s1 : State := { s with peers := s.peers.set 0 n new }
  if s.peers.get 0 n = new then s1 else s1.timeoutAll fun t => t == .peer n

/-- A write into the device block, by the physical function alone. -/
def State.deviceWrite (s : State) (ofs : Nat) (v : Word) : State :=
  let d := s.device
  let faben := d.fabctl.getLsbD 0
  match ofs with
  | 0x04 => if faben then s else { s with device := { d with chipno := v.setWidth 10 } }
  | 0x08 => if faben then s else { s with device := { d with epoch := v.setWidth 8 } }
  | 0x0C => { s with device := { d with fabctl := v &&& 0xFFFFFF01 } }
  | 0x10 =>
    let s1 := if v.getLsbD 4 then s.doTripclr else s
    if v.getLsbD 3 then s1.doPower (v.toNat % 8) else s1
  | 0x18 => s.doClkcap v
  | 0x1C => s.doGate v
  | _ => s

/-- A word of the mailbox window, where the function reaches its page. -/
def State.mailboxWrite (s : State) (fn ofs : Nat) (v : Word) : State :=
  if ofs ≥ 98304 ∨ ofs % 4 ≠ 0 then s
  else if fn ≠ 0 ∧ !(s.part (fn - 1)).clmask.getLsbD (ofs / 4096) then s
  else { s with mailbox := Memory.write s.mailbox ofs (leBytes 4 v.toNat) }

/-- REGISTER_WRITE: a write at an offset of a function's control window; offsets from 0x10_0000 up are those of its mailbox
window. A register that the function does not reach, or that cannot be written, ignores it. -/
def execRegisterWrite (fn ofs : Nat) (v : DWord) (s : State) : Out :=
  let w : Word := v.setWidth 32
  if fn > 8 ∨ ofs % 4 ≠ 0 then .next s
  else if ofs ≥ 0x100000 then .next (s.mailboxWrite fn (ofs - 0x100000) w)
  else if ofs ≥ 0x80000 then
    let q := (ofs - 0x80000) / 64 + (if fn = 0 then 0 else 256 * (fn - 1))
    .next (if fn = 0 ∨ ofs < 0x84000 then s.queueWrite fn q (ofs % 64) v else s)
  else if ofs ≥ 0x40000 then .next (s.ctxWrite fn ((ofs - 0x40000) / 64) (ofs % 64) v)
  else if ofs ≥ 0x20000 then .next (if ofs < 0x20040 then s.tinvWrite fn (ofs - 0x20000) v else s)
  else if fn ≠ 0 then .next s
  else if ofs ≥ 0x10000 then (if ofs < 0x10200 then s.partWrite ((ofs - 0x10000) / 64) (ofs % 64) w else .next s)
  else if 0x1000 ≤ ofs ∧ ofs < 0x2000 then .next (s.peerWrite ((ofs - 0x1000) / 4) w)
  else if ofs < 0x40 then .next (s.deviceWrite ofs w)
  else .next s

/-- PEER_TABLE_WRITE. -/
def execPeerTableWrite (n : Nat) (v : Word) (s : State) : Out := if n < 1024 then .next (s.peerWrite n v) else .next s

-- Register reads (R4, R307, R326, R329, R370-R372) ----------------------------------------------------------------

/-- The word at an offset of a partition block. -/
def Partition.word (p : Partition) (ofs : Nat) : Word :=
  match ofs with
  | 0x00 => p.clmask
  | 0x04 => p.hbmbase
  | 0x08 => p.hbmlen
  | 0x0C => p.wsbase
  | 0x10 => p.wslen
  | 0x14 => p.pair
  | 0x1C => p.stat
  | _ => 0

/-- The word at an offset of a context block; reserved fields read as zero. -/
def Ctx.word (c : Ctx) (ofs : Nat) : Word :=
  match ofs with
  | 0x00 => c.ptroot.setWidth 32 &&& 0xFFFFF000
  | 0x04 => (c.ptroot >>> 32).setWidth 32 &&& 0x7F
  | 0x08 => c.traptab.setWidth 32
  | 0x0C => (c.traptab >>> 32).setWidth 32
  | 0x10 => c.wsbase
  | 0x14 => c.wslen
  | 0x18 => c.cfg
  | 0x20 => c.stat
  | 0x24 => c.unrecWord
  | _ => 0

/-- The word at an offset of a translation-invalidation block; reserved fields read as zero. -/
def TInv.word (t : TInv) (ofs : Nat) : Word :=
  match ofs with
  | 0x00 => t.va.setWidth 32 &&& 0xFFFFF000
  | 0x04 => (t.va >>> 32).setWidth 32 &&& 0x1FFFFFF
  | 0x08 => t.cnt
  | 0x0C => t.ctx &&& 0xFFF
  | 0x14 => t.stat
  | _ => 0

/-- The word at an offset of a queue's registry entry. -/
def Queue.word (q : Queue) (ofs : Nat) : Word :=
  match ofs with
  | 0x00 => q.qcb.setWidth 32
  | 0x04 => (q.qcb >>> 32).setWidth 32
  | 0x08 => q.qcfg
  | 0x10 => q.stat
  | _ => 0

/-- The word at an offset of the device block. -/
def Device.word (d : Device) (ofs : Nat) : Word :=
  match ofs with
  | 0x00 => Config.devid
  | 0x04 => d.chipno.setWidth 32
  | 0x08 => d.epoch.setWidth 32
  | 0x0C => d.fabctl
  | 0x14 => d.pwrstat
  | 0x18 => d.clkcap
  | 0x1C => d.gate
  | 0x20 => d.temp.setWidth 32
  | _ => 0

/-- The word that a function reads at an offset of its control window; offsets from 0x10_0000 up are those of its mailbox window.
An offset that it cannot reach reads as zero. None in the key block and the firmware block, whose registers the spec lays out
nowhere (assumption 52). -/
def State.registerRead (s : State) (fn ofs : Nat) : Option Word :=
  if fn > 8 ∨ ofs % 4 ≠ 0 then some 0
  else if ofs ≥ 0x100000 then
    let m := ofs - 0x100000
    some (if m ≥ 98304 ∨ (fn ≠ 0 ∧ !(s.part (fn - 1)).clmask.getLsbD (m / 4096)) then 0
      else BitVec.ofNat 32 (leNat (Memory.read s.mailbox m 4)))
  else if ofs ≥ 0x80000 then
    let q := (ofs - 0x80000) / 64 + (if fn = 0 then 0 else 256 * (fn - 1))
    some (if (fn = 0 ∨ ofs < 0x84000) ∧ reachesQueue fn q then (s.queue q).word (ofs % 64) else 0)
  else if ofs ≥ 0x40000 then
    let c := (ofs - 0x40000) / 64
    some (if s.reaches fn c then (s.ctx c).word (ofs % 64) else 0)
  else if ofs ≥ 0x20000 then some (if ofs < 0x20040 then (s.tinv fn).word (ofs - 0x20000) else 0)
  else if ofs < 0x40 then some (s.device.word ofs)
  else if 0x2000 ≤ ofs ∧ ofs < 0x3000 then none
  else if fn ≠ 0 then some 0
  else if 0x3000 ≤ ofs ∧ ofs < 0x4000 then none
  else if 0x10000 ≤ ofs ∧ ofs < 0x10200 then some ((s.part ((ofs - 0x10000) / 64)).word (ofs % 64))
  else if 0x1000 ≤ ofs ∧ ofs < 0x2000 then some (s.peers.get 0 ((ofs - 0x1000) / 4))
  else some 0

-- Requests to device memory (R242, R247, R319) ---------------------------------------------------------------------

/-- Whether a context that is not FREE maps a physical address of local HBM with a property. -/
def State.pageHas (s : State) (pa : Nat) (has : Attr → Bool) : Bool :=
  s.ctxs.any fun c =>
    c.2.st != .free && c.2.ptroot.toNat % 4096 == 0
      && (let (lo, hi) := s.share c.1
          (s.leavesAt lo hi 4 c.2.ptroot.toNat 0).any fun p =>
            p.2.tgt == .hbm && decide (p.2.base ≤ pa ∧ pa < p.2.base + p.2.size) && has p.2)

/-- The pages of a span. -/
def pagesOf (pa n : Nat) : List Nat := (List.range ((pa + n - 1) / 4096 - pa / 4096 + 1)).map fun i => (pa / 4096 + i) * 4096

/-- A request that is completed as unsupported: any to an ENC page, a write of a DOC page. -/
def State.unsupported (s : State) (pa n : Nat) (write : Bool) : Bool :=
  n != 0 && (pagesOf pa n).any fun pg => s.pageHas pg fun a => a.enc || (write && a.doc)

/-- Whether leases on the lines of a span have ended (R189). -/
def State.spanFree (s : State) (pa n : Nat) : Bool :=
  (List.range ((pa + n - 1) / 128 - pa / 128 + 1)).all fun i => decide (s.lease (pa + 128 * i) ≤ s.time)

/-- A function's memory window: the physical address of an offset, or none outside its reach (Table 18.1). -/
def State.memWindow (s : State) (fn addr n : Nat) : Option Nat :=
  if fn = 0 then (if addr + n ≤ 2 ^ 39 then some addr else none)
  else
    let p := s.part (fn - 1)
    if addr + n ≤ p.hbmlen.toNat * 2 ^ 30 then some (p.hbmbase.toNat * 2 ^ 30 + addr) else none

/-- What a request answers to its sender, functions 0 to 8, and peer chip n as 4096 + n; nothing, where it completes as unsupported. -/
def State.answer (s : State) (who : Nat) (bs : List Byte) : State := { s with hostReplies := s.hostReplies ++ [(who, bs)] }

/-- A write from outside the package, page by page: on a CMP page it reads and writes whole blocks (R194). -/
def State.outerWrite (s : State) (pa : Nat) (data : List Byte) : State :=
  (pagesOf pa data.length).foldl (fun s pg =>
    let lo := max pa pg
    s.writeHome 0 (s.outerAttr lo) lo ((data.drop (lo - pa)).take (pg + 4096 - lo))) s

/-- HOST_MEMORY_REQUEST: performed at the home slice as a LEASE access, whatever the page's COH; a write waits for leases. A
read asks for as many bytes as data has. A write is posted, so that only a read completes as unsupported. -/
def execHostMemoryRequest (fn addr : Nat) (write : Bool) (data : List Byte) (s : State) : Out :=
  let n := data.length
  if fn > 8 ∨ n = 0 then .next s
  else match s.memWindow fn addr n with
    | none => .next (if write then s else s.answer fn (List.replicate n 0))
    | some pa =>
      if s.unsupported pa n write then .next (if write then s else s.answer fn [])
      else if write then (if s.spanFree pa n then .next (s.outerWrite pa data) else .next s)
      else .next (s.answer fn (s.readHome 0 plainAttr pa n))

/-- An atomic of the host or a peer at a physical address: the old value and the state. It acts as an ATOM (R369): on a CMP page it has no
effect and completes as unsupported (R195), and on poisoned bytes it is not performed and answers 0 (R206, assumption 64). -/
def State.outerAtomic (s : State) (who pa : Nat) (op : AtOp) (w64 u : Bool) (v cmp : DWord) : State :=
  let n := if w64 then 8 else 4
  if pa % n ≠ 0 then s
  else if s.unsupported pa n true || s.pageHas (pa / 4096 * 4096) (fun a => a.cmp) then s.answer who []
  else if !s.spanFree pa n then s
  else if s.homePsn plainAttr pa n then s.answer who (List.replicate n 0)
  else
    let old := bytesVal (s.readHome 0 plainAttr pa n)
    (s.writeHome 0 plainAttr pa (valBytes n (atomNew op w64 u old v cmp))).answer who (valBytes n old)

/-- HOST_ATOMICOP: FetchAdd, Swap and CAS (R369). -/
def execHostAtomicop (fn addr : Nat) (op : AtOp) (w64 : Bool) (v cmp : DWord) (s : State) : Out :=
  if fn > 8 || !(op == .add || op == .exch || op == .cas) then .next s
  else match s.memWindow fn addr (if w64 then 8 else 4) with
    | some pa => .next (s.outerAtomic fn pa op w64 false v cmp)
    | none => .next (s.answer fn (List.replicate (if w64 then 8 else 4) 0))

-- The fabric (R373) ------------------------------------------------------------------------------------------------

/-- Whether an incoming request is performed. -/
def State.fabricOk (s : State) (src : Nat) (epoch : Byte) (pa n : Nat) : Bool :=
  let w := s.peers.get 0 src
  s.device.fabctl.getLsbD 0 && w.getLsbD 8 && (w.setWidth 8 : Byte) == epoch
    && (List.range 8).any fun p =>
      s.device.fabctl.getLsbD (8 + p)
        && decide ((s.part p).hbmbase.toNat * 2 ^ 30 ≤ pa ∧ pa + n ≤ ((s.part p).hbmbase.toNat + (s.part p).hbmlen.toNat) * 2 ^ 30)

/-- A decide-once action of a peer at its home here: nothing while a lease or the hold of GEN lasts (R249). -/
def State.peerCell (s : State) (who pa : Nat) (op : CellOp) (g : Word) (value : DWord) (ident : Word) : State :=
  let c := Cell.ofBytes (s.readHome 0 plainAttr pa 32)
  let (c1, res) := cellAct op g value ident c
  let turns := c1.gen != c.gen
  let hold := turns && match s.genTime.find (cellKey plainAttr pa) with
    | some t => decide (s.time < t + Config.genHold)
    | none => false
  if pa % 32 ≠ 0 ∨ hold ∨ (op ≠ .read ∧ !s.spanFree pa 32) then s
  else
    let s1 := if c1 = c then s else s.writeHome 0 plainAttr pa c1.bytes
    let s2 : State := if turns then { s1 with genTime := s1.genTime.put (cellKey plainAttr pa) s.time } else s1
    s2.answer who (valBytes 8 res.val ++ leBytes 4 (res.code + 16 * res.noprev.toNat) ++ leBytes 4 res.info.toNat)

/-- FABRIC_REQUEST: performed by the checks of R373, else dropped without a response. A decide-once action needs a DOC page, an
atomic may not act on one (R206, R250). -/
def execFabricRequest (src : Nat) (epoch : Byte) (addr : Nat) (act : PeerAct) (s : State) : Out :=
  let who := 4096 + src
  match act with
  | .read n =>
    if n = 0 || !s.fabricOk src epoch addr n then .next s
    else if s.unsupported addr n false then .next (s.answer who [])
    else .next (s.answer who (s.readHome 0 plainAttr addr n))
  | .write data =>
    if data.isEmpty || !s.fabricOk src epoch addr data.length || s.unsupported addr data.length true || !s.spanFree addr data.length then .next s
    else .next (s.outerWrite addr data)
  | .atom op w64 u v cmp =>
    if !s.fabricOk src epoch addr (if w64 then 8 else 4) then .next s else .next (s.outerAtomic who addr op w64 u v cmp)
  | .cell op g value ident =>
    if !s.fabricOk src epoch addr 32 || !s.pageHas (addr / 4096 * 4096) (fun a => a.doc) then .next s
    else if s.unsupported addr 32 false then .next (s.answer who [])
    else .next (s.peerCell who addr op g value ident)

-- Firmware and attestation (R378, R379) ----------------------------------------------------------------------------

/-- Whether the boot ROM runs an image: both signatures verify, both keys match their fused hashes, and its security version is not below the
fused minimum (R378). -/
def firmwareRuns (image : List Byte) : Bool :=
  Config.edVerifies image && Config.mlVerifies image
    && Crypto.sha384 (Config.edKey image) == Config.fusedEdHash && Crypto.sha384 (Config.mlKey image) == Config.fusedMlHash
    && decide (Config.fusedVersion ≤ Config.securityVersion image)

/-- FIRMWARE_BOOT: the boot ROM runs an image that verifies; one that it refuses leaves the device in PS4. A power state is entered only by
PWRCMD (R375). -/
def execFirmwareBoot (image : List Byte) (s : State) : Out :=
  if s.fw.image.isSome then .next s
  else if firmwareRuns image then .next { s with fw := { image := some image, cause := 0 } }
  else .next { s with fw := { image := none, cause := Config.refusalCause image }, device := { s.device with pstate := 4 } }

/-- A partition block as the host reads it. -/
def Partition.bytes (p : Partition) : List Byte :=
  leBytes 4 p.clmask.toNat ++ leBytes 4 p.hbmbase.toNat ++ leBytes 4 p.hbmlen.toNat ++ leBytes 4 p.wsbase.toNat ++ leBytes 4 p.wslen.toNat
    ++ leBytes 4 p.pair.toNat ++ leBytes 4 0 ++ leBytes 4 p.stat.toNat ++ List.replicate 32 0

/-- What a report says for a function and a nonce (R379): SHA-384 measurement and security version of the image, the device, the function's partition,
the nonce, and the device's public key. -/
def State.reportBody (s : State) (fn : Nat) (image nonce : List Byte) : List Byte :=
  Crypto.sha384 image ++ leBytes 4 (Config.securityVersion image)
    ++ leBytes 4 Config.devid.toNat ++ leBytes 4 s.device.chipno.toNat ++ leBytes 4 s.device.epoch.toNat
    ++ (if fn = 0 then [] else (s.part (fn - 1)).bytes) ++ nonce ++ Config.kemKey

/-- ATTESTATION_REPORT: for a 32-byte nonce, a report to the function that asks, signed with both identity keys. -/
def execAttestationReport (fn : Nat) (nonce : List Byte) (s : State) : Out :=
  match s.fw.image with
  | some image =>
    if fn > 8 ∨ nonce.length ≠ 32 then .next s
    else
      let body := s.reportBody fn image nonce
      .next { s with reports := s.reports ++ [(fn, body ++ Config.signatures body)] }
  | none => .next s

end Sys2Proof.Machine
end

