-- ==== Sys2Proof/Machine/System.lean ====
section
/-!
DEFINITION. Sys2Proof/Machine/System.lean: control registers (R346-R348), trap records (R349), RTE (R350), the mailbox (R351), and the
handler warp (R333-R336).
-/
namespace Sys2Proof.Machine

-- Control registers (Table 16.3) -----------------------------------------------------------------------------------

/-- Whether a warp sees the core's sequencer: its team holds it, or it is the handler warp (R347). -/
def State.seesSeq (s : State) (c w : Nat) : Bool := w == 64 || ((s.teamOf c w).map (·.seq)).getD false

/-- HEVT: cause, monitor mode, kind and warp served. -/
def State.hevt (s : State) (c : Nat) : Word :=
  match s.served c with
  | some e => BitVec.ofNat 32 (e.cause.toNat * 256 + e.seq.toNat * 64 + (if e.seq then 0 else e.warp % 64))
  | none => 0x80

/-- HMASK. -/
def State.hmask (s : State) (c : Nat) : Word :=
  match s.served c with
  | some e => if e.seq then 1 else e.lanes
  | none => 0

/-- A control register of one thread. -/
def State.csr (s : State) (c w l n : Nat) : Word :=
  let t := s.thread c w l
  let q := (s.core c).seq
  let seq (v : Word) : Word := if s.seesSeq c w then v else 0
  match n with
  | 0x000 => t.dfault
  | 0x001 => t.dfAddr.setWidth 32
  | 0x002 => t.dfAddr.extractLsb' 32 32
  | 0x010 => seq q.status
  | 0x011 => seq (q.bcount.setWidth 32)
  | 0x012 => seq (t.bch.getD (q.bcount.extractLsb' 32 32))
  | 0x020 => s.hevt c
  | 0x021 => s.hmask c
  | 0x022 => BitVec.ofNat 32 (s.core c).handler.budget
  | _ => 0

def execCsrr (h : Head) (d : Opd) (csr : Word) (s : State) : Out :=
  issue (.csrr h d csr) h (fun _ _ _ => none)
    (fun s c ls =>
      let vals := ls.map fun l => (l, s.csr c.core c.warp l csr.toNat)
      let s0 :=
        if csr = 0x011 then
          ls.foldl (fun s l => s.modThread c.core c.warp l fun t =>
            { t with bch := some (if s.seesSeq c.core c.warp then (s.core c.core).seq.bcount.extractLsb' 32 32 else 0) }) s
        else s
      let s1 := match d, vals with
        | .j n, (_, v) :: _ => s0.setJreg c.core c.warp n.toNat v
        | _, _ => s0.writeDst c d (vals.map fun (p : Nat × Word) => (p.1, one .w32 p.2))
      s1.advance c.core c.warp ls) s

/-- CSRW: a write of DFAULT clears the record of its thread; ISAT is cleared by a one from the handler warp. Writes of
other registers and bits are ignored (R347, R348). -/
def execCsrw (h : Head) (csr : Word) (a : Opd) (s : State) : Out :=
  issue (.csrw h csr a) h (fun s c l => s.srcTrap c l [trapSrc 1 a notPsn])
    (fun s c ls =>
      let s1 :=
        if csr = 0 then ls.foldl (fun s l => s.modThread c.core c.warp l Thread.dfClear) s
        else if csr = 0x010 && c.warp = 64 && ls.any (fun l => (s.bits c l a).getLsbD 0) then
          s.modSeq c.core fun q => { q with isat := false }
        else s
      s1.advance c.core c.warp ls) s

-- RTE (R350) -------------------------------------------------------------------------------------------------------

/-- Ends a handler lane. Its accesses stand before those that the thread it served makes next (R343). -/
def State.endHandlerLane (s : State) (c l : Nat) : State :=
  let ids := s.teamIds c 64
  let w := match s.served c with
    | some e => if e.seq then 64 else e.warp
    | none => 64
  let s1 := s.modThread c 64 l fun t => { t with st := .exited }
  { s1 with
    reqs := replaceIf (fun r => r.core == c && r.warp == 64 && r.lane == l && (r.launch, r.team) == ids)
      (fun r => { r with orphan := true, warp := w }) s1.reqs }

/-- RTE in one lane: acts on the lane's thread, or on the sequencer. -/
def State.rteLane (s : State) (c l : Nat) : State :=
  match s.served c with
  | none => s
  | some e =>
    let s1 := s.endHandlerLane c l
    if e.seq then
      match (s1.core c).seq.record with
      | some r => s1.resumeSeq c r r.act
      | none => s1
    else
      match (s1.thread c e.warp l).record with
      | some r => s1.resumeLane c e.warp l r r.act
      | none => s1

def execRte (h : Head) (s : State) : Out :=
  issue (.rte h) h (fun _ _ _ => none)
    (fun s c ls =>
      if ls.isEmpty then s
      else
        let s1 := ls.foldl (fun s l => s.rteLane c.core l) s
        match s1.served c.core with
        | some e =>
          if (s1.aliveLanes c.core 64).isEmpty then
            let s2 := (s1.handlerFree c.core).freeHandlerTiles c.core
            s2.thaw c.core e
          else s1
        | none => s1) s

-- HREAD and HWRITE (R349) ------------------------------------------------------------------------------------------

def selSpace (x : Word) : Nat := x.toNat / 4096 % 16
def selIndex (x : Word) : Nat := x.toNat % 4096

/-- A selector's own trap: PROTECTION of a selector or index that names nothing. -/
def selOk (x : Word) (seq write : Bool) : Bool :=
  decide (x.toNat < 65536)
    && match selSpace x with
      | 0 => !seq && decide (selIndex x ≤ (if write then 0x14F else 0x16A))
      | 1 => write || decide (selIndex x ≤ 7)
      | 2 => !seq && decide (selIndex x ≤ (if write then 0 else 2))
      | 3 => seq && decide (selIndex x ≤ 35)
      | _ => false

/-- TILE_OWN of a V register of the thread served (R349). -/
def State.selOwn (s : State) (c w : Nat) (x : Word) : Option Trap :=
  if selSpace x = 0 ∧ selIndex x ≤ 0xFF then
    let k := s.warp c w
    let tile := vTile k.tbase (selIndex x)
    if selIndex x / 8 ≥ k.ntile then some { Trap.plain cTileOwn with info := 0xFFFF }
    else if s.owner c tile != ownerCode w then some { Trap.plain cTileOwn with info := tile }
    else none
  else none

def State.selTrap (s : State) (c : Nat) (x : Word) (write : Bool) : Option Trap :=
  match s.served c with
  | none => some (Trap.plain cIllegal)
  | some e => if !selOk x e.seq write then some (Trap.plain cProtection) else s.selOwn c e.warp x

/-- Register ix of a thread (Table 3.3). A P or J register carries no tag: that it reads as W32 is the model's choice (DESIGN CHOICE,
assumption 62). -/
def State.regAt (s : State) (c w l ix : Nat) : TWord :=
  let x : Cur := { core := c, warp := w, pc := 0, mask := 0 }
  if ix ≤ 0xFF then s.vreg c w l ix
  else if ix ≤ 0x13F then s.sreg c w (ix - 0x100)
  else if ix ≤ 0x147 then s.opd x l (.p (BitVec.ofNat 3 (ix - 0x140)))
  else if ix ≤ 0x14F then s.opd x l (.j (BitVec.ofNat 3 (ix - 0x148)))
  else match SReg.ofCode ix with
    | some r => s.opd x l (.k r)
    | none => TWord.zero
def State.setRegAt (s : State) (c w l ix : Nat) (v : TWord) : State :=
  if ix ≤ 0xFF then s.setVreg c w l ix v
  else if ix ≤ 0x13F then s.setSreg c w (ix - 0x100) v
  else if ix ≤ 0x146 then s.modThread c w l fun t => t.setPred (ix - 0x140) (v.bits != 0)
  else if ix = 0x147 then s
  else s.setJreg c w (ix - 0x148) v.bits

/-- Y and B registers of a sequencer by index. -/
def Seq.regAt (q : Seq) (ix : Nat) : Word :=
  if ix < 32 then q.yreg ix else if bPred q.b (ix - 32) then 1 else 0
def Seq.setRegAt (q : Seq) (ix : Nat) (v : Word) : Seq :=
  if ix < 32 then q.setY ix v else if ix = 35 then q else q.setB (ix - 32) (v != 0)

/-- What HREAD reads in lane l of an event. -/
def State.selRead (s : State) (c l : Nat) (e : Event) (x : Word) : TWord :=
  let w32 (v : Word) : TWord := { bits := v, tag := .w32 }
  match selSpace x with
  | 0 => s.regAt c e.warp l (selIndex x)
  | 1 =>
    match if e.seq then (s.core c).seq.record else (s.thread c e.warp l).record with
    | some r => w32 (r.word (selIndex x))
    | none => w32 0
  | 2 => w32 (s.csr c e.warp l (selIndex x))
  | _ => w32 ((s.core c).seq.regAt (selIndex x))

/-- What HWRITE writes to a record: ACT, and the PC of a thread with its two low bits zero. -/
def TrapRec.write (r : TrapRec) (ix : Nat) (v : Word) (seq : Bool) : TrapRec :=
  match ix with
  | 0 => { r with act := v.extractLsb' 8 2 }
  | 2 => if seq then r else { r with pc := (r.pc.extractLsb' 32 32 ++ v) &&& ~~~3 }
  | 3 => if seq then r else { r with pc := (v ++ (r.pc.setWidth 32 : Word)) &&& ~~~3 }
  | _ => r

def State.selWrite (s : State) (c l : Nat) (e : Event) (x : Word) (v : TWord) : State :=
  match selSpace x with
  | 0 => s.setRegAt c e.warp l (selIndex x) v
  | 1 =>
    if e.seq then s.modSeq c fun q => { q with record := q.record.map fun r => r.write (selIndex x) v.bits true }
    else s.modThread c e.warp l fun t => { t with record := t.record.map fun r => r.write (selIndex x) v.bits false }
  | 2 => s.modThread c e.warp l Thread.dfClear
  | _ => s.modSeq c fun q => q.setRegAt (selIndex x) v.bits

def execHread (h : Head) (d x : Opd) (s : State) : Out :=
  issue (.hread h d x) h
    (fun s c l => (s.srcTrap c l [trapSrc 2 x notPsn]).or (s.selTrap c.core (s.bits c l x) false))
    (fun s c ls =>
      match s.served c.core with
      | some e => (s.writeDst c d (ls.map fun l => (l, [s.selRead c.core l e (s.bits c l x)]))).advance c.core c.warp ls
      | none => s) s

/-- HWRITE (R349). Space 0 takes a word of any tag, PSN among them; a P or J register keeps no tag and takes the word's bits, which are 0 in
a PSN word (DESIGN CHOICE, assumption 61: R83 would have the write of a P or J register trap). -/
def execHwrite (h : Head) (x a : Opd) (s : State) : Out :=
  issue (.hwrite h x a) h
    (fun s c l =>
      (s.srcTrap c l (trapSrc 2 x notPsn :: (if selSpace (s.bits c l x) = 0 then [] else [trapSrc 1 a notPsn]))).or
        (s.selTrap c.core (s.bits c l x) true))
    (fun s c ls =>
      match s.served c.core with
      | some e =>
        let items := ls.map fun l => (l, s.bits c l x, s.opd c l a)
        (items.foldl (fun s p => s.selWrite c.core p.1 e p.2.1 p.2.2) s).advance c.core c.warp ls
      | none => s) s

/- MBOX, CSRW, HREAD and HWRITE: Table 4.5 has no class for their sources, which accept every tag but PSN (DESIGN CHOICE, assumption 76). -/

-- MBOX (R351) ------------------------------------------------------------------------------------------------------

/-- Where an offset of a core's mailbox page lies in the mailbox window. -/
def mboxAddr (core ofs : Nat) : Nat := 4096 * clusOf core + ofs

def mboxTrap (ofs : Nat) (write : Bool) : Option Trap :=
  if ofs % 4 ≠ 0 ∨ ofs ≥ 4096 then some (Trap.at_ cProtection ofs (auxOf 4 write false)) else none

def execMboxRd (h : Head) (d o : Opd) (s : State) : Out :=
  issue (.mboxRd h d o) h
    (fun s c l => (s.srcTrap c l [trapSrc 2 o notPsn]).or (mboxTrap (s.bits c l o).toNat false))
    (fun s c ls =>
      (s.writeDst c d (ls.map fun l =>
        (l, one .w32 (BitVec.ofNat 32 (leNat (Memory.read s.mailbox (mboxAddr c.core (s.bits c l o).toNat) 4)))))).advance
        c.core c.warp ls) s

def execMboxWr (h : Head) (o a : Opd) (s : State) : Out :=
  issue (.mboxWr h o a) h
    (fun s c l => (s.srcTrap c l [trapSrc 1 a notPsn, trapSrc 2 o notPsn]).or (mboxTrap (s.bits c l o).toNat true))
    (fun s c ls =>
      let items := ls.map fun l => (mboxAddr c.core (s.bits c l o).toNat, leBytes 4 (s.bits c l a).toNat)
      (items.foldl (fun (s : State) p => { s with mailbox := Memory.write s.mailbox p.1 p.2 }) s).advance c.core c.warp ls) s

def execMboxSig (h : Head) (s : State) : Out :=
  issue (.mboxSig h) h (fun _ _ _ => none)
    (fun s c ls => if ls.isEmpty then s else (s.irq 0 1).advance c.core c.warp ls) s

-- The handler warp (R333-R335) -------------------------------------------------------------------------------------

/-- What reading an entry of a trap table gives (R333). -/
inductive Entry where
  | value (v : Nat)
  | bad
  | wait
  | ask (va : Nat)

/-- Reads an entry as an ordinary LEASE load under a context tag: from the L1, or at the home, under a lease of 64 cycles (assumption 26).
It cannot be read where such a load would trap, or would return PSN. -/
def State.entryRead (s : State) (c ctx : Nat) (inc : Byte) (n : Nat) : Entry × State :=
  let va := (s.ctx ctx).traptab.toNat / 64 * 64 + 8 * n
  let value (s : State) (a : Attr) (line : List Byte) : Entry × State :=
    let (bs, s1) := s.returned ctx a (a.phys va) ((line.drop (va % 128)).take 8)
    (.value (leNat bs), s1)
  match s.loadLine c ctx inc va with
  | some x => if x.attr.r && !x.bad va then value s x.attr x.data else (.bad, s)
  | none =>
    match s.translate (dieOf c) ctx va with
    | .fail => (.bad, s)
    | .request => (if (s.core c).handler.asked.contains (ctx, va / 4096) then .bad else .ask va, s)
    | .ok _ a =>
      let pa := a.phys va
      let read (s : State) (line : List Byte) (psn : List Bool) : Entry × State :=
        if psn.getD (va % 128 / 32) false then (.bad, s) else value s a line
      if (Access.load.refusal a).isSome then (.bad, s)
      else if !s.passes (pathCps c a pa) ctx inc || s.ownStoreWaits c pa then (.wait, s)
      else if a.soft then
        let s1 := s.softLine c ctx inc a va pa
        match s1.l1Hit c ctx inc va with
        | some x => read s1 x.data x.psn
        | none => (.bad, s1)
      else
        let line := s.readHome (s.pageKey ctx a) a (pa / 128 * 128) 128
        let psn := s.homeSectors a (pa / 128 * 128)
        if a.leased then
          let e := s.leaseExpiry pa 64
          let s1 := s.recordLease pa e
          read (if s.time < e then s1.putL1 c (leaseLine ctx inc a va pa e line psn) else s1) line psn
        else read s line psn

/-- The vector of an event: entry 5 of a deferred fault where it is not 0, else that of the cause. -/
def State.vector (s : State) (c : Nat) (e : Event) : Entry × State :=
  if e.defd then
    match s.entryRead c e.ctx e.inc 5 with
    | (.value 0, s1) => s1.entryRead c e.ctx e.inc e.cause.toNat
    | x => x
  else s.entryRead c e.ctx e.inc e.cause.toNat

/-- The handler warp asks the host for the page of an entry, and waits (R324). -/
def State.askHandler (s : State) (c : Nat) (e : Event) (va : Nat) : State :=
  let (id, s1) := s.fresh
  let s2 : State :=
    { s1 with
      pageReqs := s1.pageReqs ++ [{ id, ctx := e.ctx, inc := e.inc, va, who := .handler c, cause := cDataPage, aux := 0, launch := noLaunch }] }
  s2.modCore c fun k => { k with handler := { k.handler with pageWait := some id } }

/-- The handler warp enters a handler for an event (R334). -/
def State.enterHandler (s : State) (c : Nat) (e : Event) (vec : Nat) : State :=
  let s1 := (s.handlerFree c).freeHandlerTiles c
  let s2 : State :=
    { s1 with
      regs := s1.regs.cut (regKey c 504 0) (regKey c 512 0)
      sregs := s1.sregs.cut (sregKey c 64 0) (sregKey c 65 0) }
  let s3 := (s2.setWarp c 64 { Warp.idle with live := true, team := e.team, tbase := 504, ntile := 8 }).modCore c fun k =>
    { k with handler := { Handler.idle with serving := some e, budget := Config.handlerBudget } }
  (lanesOf (s3.hmask c)).foldl (fun s l =>
    ((s.setThread c 64 l (Thread.start (BitVec.ofNat 64 vec) s.time)).setVreg c 64 l 4 { bits := s3.hevt c, tag := .w32 }).setVreg c 64 l 5
      { bits := s3.hmask c, tag := .w32 }) s3

/-- Whether a dispatch of an event waits for a page of its trap table. -/
def State.handlerAsks (s : State) (c : Nat) (e : Event) : Bool :=
  match (s.core c).handler.pageWait with
  | some id => s.pageReqs.any fun p => p.id == id && p.ctx == e.ctx && p.inc == e.inc
  | none => false

/-- HANDLER_DISPATCH: the next event of the queue is served; without a handler it ends as by FAULT (R332, R333). A sequencer
event waits for the K words that still land (R343); an event of a team that a commit or a rollback stops waits for that. -/
def execHandlerDispatch (core : Nat) (s : State) : Out :=
  let k := s.core core
  match k.handler.serving, k.trapq with
  | none, e :: rest =>
    if (e.seq && k.seq.kq.any k.seq.mayLand) || s.teamStopped core e.team || s.handlerAsks core e then .next s
    else
      let (v, s1) := s.vector core e
      let s2 := s1.modCore core fun k => { k with trapq := rest, handler := { k.handler with asked := [] } }
      match v with
      | .wait => .next s
      | .ask va => .next (s1.askHandler core e va)
      | .bad => .next (s2.endEvent core e (some 3))
      | .value vec =>
        if vec = 0 ∨ vec % 4 ≠ 0 then .next (s2.endEvent core e (some 3)) else .next (s2.enterHandler core e vec)
  | _, _ => .next s

/-- HANDLER_BUDGET_EXPIRY: a context machine check (R335). -/
def execHandlerBudgetExpiry (core : Nat) (s : State) : Out :=
  let k := s.core core
  match k.handler.serving with
  | some e => if k.handler.budget = 0 then .next (((s.handlerFree core).freeHandlerTiles core).machineCheck e.ctx e.inc) else .next s
  | none => .next s

/-- WARP_URGENT: a warp that has waited 64,000 cycles (R278). -/
def execWarpUrgent (core warp : Nat) (s : State) : Out :=
  if (s.warp core warp).waited ≥ 64000 then .next (s.modWarp core warp fun k => { k with urgent := true }) else .next s

end Sys2Proof.Machine
end

