-- ==== Sys2Proof/Machine/Quince.lean ====
section
/-!
DEFINITION. Sys2Proof/Machine/Quince.lean: the Quince monitor (R360-R365), matrix cycle classes and class sampling (R366), and a SIMT
word with an unassigned opcode (R60). The monitor runs in the handler warp while that serves no event.
-/
namespace Sys2Proof.Machine

-- The request area (Table 17.3) ------------------------------------------------------------------------------------

/-- The first byte of the area of a core in the mailbox window, and of its page. -/
def areaIndex (core : Nat) : Nat := 4 * dieOf core + coreInDie core % 4
def areaAt (core : Nat) : Nat := mboxAddr core (64 + 480 * areaIndex core)
def State.area (s : State) (core ofs n : Nat) : List Byte := Memory.read s.mailbox (areaAt core + ofs) n
def State.setArea (s : State) (core ofs : Nat) (bs : List Byte) : State :=
  { s with mailbox := Memory.write s.mailbox (areaAt core + ofs) bs }

def qOk : Nat := 0
def qBadOp : Nat := 1
def qNoTarget : Nat := 2
def qConfidential : Nat := 3
def qFault : Nat := 4

/-- A reply: STATUS, ADATA, AINFO, and the context that it concerns. -/
structure Reply where
  status : Nat
  data : List Byte
  info : Nat
  about : Option (Nat × Byte)

def Reply.plain (status : Nat) (about : Option (Nat × Byte)) : Reply := { status, data := [], info := 0, about }
def Reply.ok (data : List Byte) (about : Option (Nat × Byte)) : Reply := { status := qOk, data, info := 0, about }
def Reply.fault (cause : Byte) (about : Option (Nat × Byte)) : Reply := { status := qFault, data := [], info := cause.toNat, about }

/-- The reply fields from STATUS on, and ADATA. -/
def replyFields (status len info : Nat) : List Byte := leBytes 2 status ++ leBytes 2 len ++ leBytes 8 info

/-- Writes the reply fields. What concerns a confidential context leaves encrypted (R321, R362): the record in ADATA, LEN its length, seals the
reply from STATUS on, and STATUS and AINFO in the clear are 0 (DESIGN CHOICE, assumption 79). -/
def State.writeReply (s : State) (core : Nat) (r : Reply) : State :=
  let plain : State := (s.setArea core 244 (replyFields r.status r.data.length r.info)).setArea core 256 r.data
  match r.about with
  | some (ctx, inc) =>
    if (s.ctx ctx).keyed then
      let (bs, s1) := s.sealed ctx inc (replyFields r.status r.data.length r.info ++ r.data)
      (s1.setArea core 244 (replyFields 0 bs.length 0)).setArea core 256 bs
    else plain
  | none => plain

/-- Whether the monitor of a core runs: the handler warp serves no event, and none is queued (R336, R351). -/
def State.monitorRuns (s : State) (core : Nat) : Bool := decide (core < 192) && (s.served core).isNone && (s.core core).trapq.isEmpty

/-- An operation by itself: the monitor performs it and writes the reply. -/
def quinceOp (core : Nat) (op : State → Reply × State) (s : State) : Out :=
  if s.monitorRuns core then
    let (r, s1) := op s
    .next (s1.writeReply core r)
  else .next s

-- Targets ----------------------------------------------------------------------------------------------------------

/-- 127 names the sequencer, any other number a warp by its six low bits (R362). -/
def namesSeq (target : Nat) : Bool := target % 128 == 127

/-- The held event of a target: the oldest. -/
def State.heldOf (s : State) (core target : Nat) : Option Event :=
  (s.core core).held.find? fun e => if namesSeq target then e.seq else !e.seq && e.warp == target % 64
def State.dropHeld (s : State) (core : Nat) (e : Event) : State := s.modCore core fun k => { k with held := k.held.erase e }

/-- The context of a warp's or the sequencer's target, where it is live. -/
def State.aboutWarp (s : State) (core w : Nat) : Option (Nat × Byte) :=
  if (s.warp core w).live then some (s.tagOf core w) else none
def State.aboutSeq (s : State) (core : Nat) : Option (Nat × Byte) :=
  if (s.core core).seq.active then some (s.seqTag core) else none

def State.aboutTarget (s : State) (core target : Nat) : Option (Nat × Byte) :=
  if namesSeq target then s.aboutSeq core else s.aboutWarp core (target % 64)

/-- An operation on a held target whose context is not confidential. -/
def State.onHeld (s : State) (core target : Nat) (go : Event → Reply × State) : Reply × State :=
  match s.heldOf core target with
  | none => (.plain qNoTarget (s.aboutTarget core target), s)
  | some e => if (s.ctx e.ctx).keyed then (.plain qConfidential (some (e.ctx, e.inc)), s) else go e

-- HALT and RESUME (R362, R363) -------------------------------------------------------------------------------------

/-- The lanes of a warp at an instruction boundary. -/
def State.readyLanes (s : State) (c w : Nat) : List Nat := (List.range 32).filter fun l => decide ((s.thread c w l).st = .ready)

/-- The trap of a HALT. -/
def haltTrap : Trap := { Trap.plain cBreak with info := 0xFFFF }

/-- Lanes of a halted warp that have come to an instruction boundary join its held event, which is the newest BREAK of the warp. -/
def State.joinHalt (s : State) (c w : Nat) (ls : List Nat) : State :=
  match ((s.core c).held.filter fun e => !e.seq && e.warp == w && e.cause == cBreak).getLast? with
  | some e =>
    let s1 := ls.foldl (fun s l => s.modThread c w l fun x => { x with st := .parked, record := some (s.trapRecord c w l haltTrap) }) s
    s1.modCore c fun k => { k with held := replaceIf (fun f => f == e) (fun f => { f with lanes := f.lanes ||| maskOf ls }) k.held }
  | none => s

def State.doHalt (s : State) (core warp : Nat) : Reply × State :=
  let k := s.warp core warp
  if warp ≥ 64 ∨ !k.live then (.plain qNoTarget none, s)
  else
    let (ctx, inc) := s.tagOf core warp
    if k.halted then (.ok [] (some (ctx, inc)), s)
    else
      let e : Event := { warp, lanes := 0, seq := false, cause := cBreak, defd := false, team := k.team, ctx, inc, frz := false }
      let s1 := (s.modWarp core warp fun x => { x with halted := true }).modCore core fun x => { x with held := x.held ++ [e] }
      (.ok [] (some (ctx, inc)), s1.joinHalt core warp (s.readyLanes core warp))
def execQuinceHalt (core warp : Nat) (s : State) : Out := quinceOp core (fun s => s.doHalt core warp) s

def State.doRelease (s : State) (core target : Nat) (act : BitVec 2) : Reply × State :=
  match s.heldOf core target with
  | none => (.plain qNoTarget (s.aboutTarget core target), s)
  | some e =>
    let s1 := s.dropHeld core e
    let still := (s1.core core).held.any fun f => !f.seq && f.warp == e.warp && f.cause == cBreak
    let s2 := if e.seq then s1 else s1.modWarp core e.warp fun k => { k with halted := k.halted && still }
    (.ok [] (some (e.ctx, e.inc)), s2.endEvent core e (some act))
def execQuinceResume (core target : Nat) (act : BitVec 2) (s : State) : Out := quinceOp core (fun s => s.doRelease core target act) s

-- Registers (RDREG, WRREG) -----------------------------------------------------------------------------------------

/-- Whether an event holds a lane: the sequencer's one is lane 0. -/
def Event.hasLane (e : Event) (l : Nat) : Bool := decide (l < 32) && e.lanes.getLsbD l

/-- The trap that HREAD or HWRITE of a selector would take. -/
def State.heldSelTrap (s : State) (core : Nat) (e : Event) (sel : Word) (write : Bool) : Option Trap :=
  if !selOk sel e.seq write then some (Trap.plain cProtection) else s.selOwn core e.warp sel

def State.doRdreg (s : State) (core target lane : Nat) (sel : Word) : Reply × State :=
  s.onHeld core target fun e =>
    let about := some (e.ctx, e.inc)
    if !e.hasLane lane then (.plain qNoTarget about, s)
    else match s.heldSelTrap core e sel false with
      | some t => (.fault t.cause about, s)
      | none =>
        let v := s.selRead core lane e sel
        (.ok (leBytes 4 v.bits.toNat ++ leBytes 1 v.tag.code.toNat) about, s)
def execRdreg (core target lane : Nat) (sel : Word) (s : State) : Out := quinceOp core (fun s => s.doRdreg core target lane sel) s

def State.doWrreg (s : State) (core target lane : Nat) (sel : Word) (v : TWord) : Reply × State :=
  s.onHeld core target fun e =>
    let about := some (e.ctx, e.inc)
    if !e.hasLane lane then (.plain qNoTarget about, s)
    else if selSpace sel ≠ 0 ∧ v.tag = .psn then (.fault cPoison about, s)
    else match s.heldSelTrap core e sel true with
      | some t => (.fault t.cause about, s)
      | none => (.ok [] about, s.selWrite core lane e sel v)
def execWrreg (core target lane : Nat) (sel : Word) (v : TWord) (s : State) : Out :=
  quinceOp core (fun s => s.doWrreg core target lane sel v) s

-- Memory (RDMEM, WRMEM) --------------------------------------------------------------------------------------------

/-- A byte as a load of a warp's lane 0 finds it, or the cause of its trap. A page that the host would be asked for gives
DATA_PAGE. A poisoned byte reads as the 0 that a PSN word holds (DESIGN CHOICE, assumption 65). -/
def State.peek (s : State) (c : Cur) (va : Nat) : Byte ⊕ Byte :=
  let (ctx, inc) := s.tagOf c.core c.warp
  match s.pageFor c.core ctx inc va with
  | .ok _ a =>
    match Access.load.refusal a with
    | some k => .inr k
    | none =>
      let pa := a.phys va
      let (bs, psn) : List Byte × Bool := match s.l1Hit c.core ctx inc va with
        | some x => ((x.data.drop (va % 128)).take 1, x.psn.getD (va % 128 / 32) false)
        | none => match s.l2.find? fun x => a.soft && x.at_ (dieOf c.core) ctx inc a pa && x.valid.getD (pa % 128 / 32) true with
          | some x => ((x.data.drop (pa % 128)).take 1, x.psn.getD (pa % 128 / 32) false)
          | none => (s.readHome (s.pageKey ctx a) a pa 1, s.homePsn a pa 1)
      .inl (if psn then 0 else byteAt (s.heldOver c.core c.warp a pa bs) 0)
  | _ => .inr cDataPage
/-- Whether the byte's page is mapped twice, so that its value is undefined (R191). -/
def State.peekFree (s : State) (c : Cur) (va : Nat) : Bool :=
  let (ctx, inc) := s.tagOf c.core c.warp
  match s.pageFor c.core ctx inc va with
  | .ok _ a => s.twiceMapped ctx a (a.phys va)
  | _ => false
def State.peekAll (s : State) (c : Cur) : Nat → Nat → List Byte ⊕ Byte
  | _, 0 => .inl []
  | va, n + 1 =>
    match s.peek c va with
    | .inr k => .inr k
    | .inl b => match State.peekAll s c (va + 1) n with
      | .inl bs => .inl (b :: bs)
      | .inr k => .inr k

/-- The trap of a store of bytes by a warp's lane 0. -/
def State.pokeTrap (s : State) (c : Cur) : Nat → Nat → Option Byte
  | _, 0 => none
  | va, n + 1 =>
    let (ctx, inc) := s.tagOf c.core c.warp
    match s.pageFor c.core ctx inc va with
    | .ok _ a => (Access.store.refusal a).or (State.pokeTrap s c (va + 1) n)
    | _ => some cDataPage

/-- The warp that an access of memory is made as: the target, where it is a warp. -/
def heldCur (core : Nat) (e : Event) : Cur := { core, warp := e.warp, pc := 0, mask := 1 }
def State.doRdmem (s : State) (core target : Nat) (va : DWord) (n : Nat) : Reply × State :=
  if n > 224 then (.plain qBadOp (s.aboutTarget core target), s)
  else if namesSeq target then (.plain qNoTarget none, s)
  else s.onHeld core target fun e =>
    let about := some (e.ctx, e.inc)
    let free (i : Nat) : Bool := s.peekFree (heldCur core e) (va.toNat + i)
    match s.peekAll (heldCur core e) va.toNat n with
    | .inl bs =>
      (.ok (bs.zipIdx.map fun p => if free p.2 then Config.freeByte (s.freeCtr + p.2) else p.1) about,
        if (List.range n).any free then { s with freeCtr := s.freeCtr + n } else s)
    | .inr k => (.fault k about, s)
def execRdmem (core target : Nat) (va : DWord) (n : Nat) (s : State) : Out := quinceOp core (fun s => s.doRdmem core target va n) s

def State.doWrmem (s : State) (core target : Nat) (va : DWord) (data : List Byte) : Reply × State :=
  if data.length > 216 then (.plain qBadOp (s.aboutTarget core target), s)
  else if namesSeq target then (.plain qNoTarget none, s)
  else s.onHeld core target fun e =>
    let about := some (e.ctx, e.inc)
    let c := heldCur core e
    match s.pokeTrap c va.toNat data.length with
    | some k => (.fault k about, s)
    | none => (.ok [] about, data.zipIdx.foldl (fun s p => s.storeLane c 0 (va.toNat + p.2) [p.1]) s)
def execWrmem (core target : Nat) (va : DWord) (data : List Byte) (s : State) : Out :=
  quinceOp core (fun s => s.doWrmem core target va data) s

-- Flags and stops (R364, R365) -------------------------------------------------------------------------------------

/-- The first masked live warp of a confidential context: DEBUG's reply concerns that context (R362). -/
def State.aboutMask (s : State) (core : Nat) (mask : DWord) : Option (Nat × Byte) :=
  ((List.range 64).find? fun w => mask.getLsbD w && (s.warp core w).live && (s.ctx (s.tagOf core w).1).keyed).map fun w => s.tagOf core w

/-- DEBUG: the flags on the masked live warps, none on the others. -/
def State.doDebug (s : State) (core : Nat) (mask : DWord) (step frz catch_ : Bool) : Reply × State :=
  (.ok [] (s.aboutMask core mask),
    (List.range 64).foldl (fun s w =>
      if (s.warp core w).live then
        let on := mask.getLsbD w
        s.modWarp core w fun k => { k with step := on && step, frz := on && frz, catches := on && catch_ }
      else s) s)
def execDebug (core : Nat) (mask : DWord) (step frz catch_ : Bool) (s : State) : Out :=
  quinceOp core (fun s => s.doDebug core mask step frz catch_) s

def State.doSeqstop (s : State) (core : Nat) (n : DWord) : Reply × State :=
  if !(s.core core).seq.active then (.plain qNoTarget none, s)
  else (.ok [] (s.aboutSeq core), s.modSeq core fun q => { q with stop := if n = 0 then none else some n })
def execSeqstop (core : Nat) (n : DWord) (s : State) : Out := quinceOp core (fun s => s.doSeqstop core n) s

/-- One beat as SEQDUMP reports it. The row fed by the last bundle has 68 bundles to go. -/
def Seq.dumpBeat (q : Seq) (x : Beat) : List Byte :=
  let left := x.t + Config.bottomDelay + 1 - (q.bcount.toNat : Int)
  let pending := q.pend.any fun p => ((p.land : Int) - x.t) == ((Config.bottomDelay + Config.landDelay : Nat) : Int)
  leBytes 4 x.t.toNat ++ leBytes 1 (min left.toNat 68) ++ leBytes 1 x.rows.length ++ leBytes 1 pending.toNat ++ leBytes 1 0
def State.doSeqdump (s : State) (core first : Nat) : Reply × State :=
  match s.aboutSeq core with
  | none => (.plain qNoTarget none, s)
  | some a =>
    let q := (s.core core).seq
    if (s.ctx a.1).keyed then (.plain qConfidential (some a), s)
    else (.ok (((q.inFlight.drop first).take 27).flatMap q.dumpBeat) (some a), s)
def execSeqdump (core first : Nat) (s : State) : Out := quinceOp core (fun s => s.doSeqdump core first) s

-- Cycle classes (R366) ---------------------------------------------------------------------------------------------

/-- A class counter of a core: classes 1 to 4 are counted, and every other cycle of its clocks since they were zeroed is of class 5. -/
def State.classCount (s : State) (core cls : Nat) : DWord :=
  let n (i : Nat) : DWord := (s.core core).cycles.get 0 i
  if cls < 5 then n cls else (if n 6 = 0 then BitVec.ofNat 64 s.clock else n 6 - 1) - n 0 - (n 1 + n 2 + n 3 + n 4)

def State.doCycles (s : State) (core : Nat) : Reply × State :=
  (.ok ((List.range 5).flatMap fun i => valBytes 8 (s.classCount core (i + 1))) (s.aboutSeq core), s)
def execCycles (core : Nat) (s : State) : Out := quinceOp core (fun s => s.doCycles core) s

def State.doProf (s : State) (core : Nat) (ring : DWord) (period entries : Nat) : Reply × State :=
  let about := s.aboutSeq core
  if (about.map fun a => (s.ctx a.1).keyed).getD false then (.plain qConfidential about, s)
  else if period = 0 then (.ok [] about, s.modCore core fun k => { k with prof := none })
  -- A period outside 8 to 24 is answered BAD_OP (DESIGN CHOICE, assumption 81).
  else if period < 8 ∨ period > 24 then (.plain qBadOp about, s)
  else (.ok [] about, s.modCore core fun k => { k with prof := some { ring, period, entries, next := 0, last := s.time } })
def execProf (core : Nat) (ring : DWord) (period entries : Nat) (s : State) : Out :=
  quinceOp core (fun s => s.doProf core ring period entries) s

/-- The class of the cycle at hand and the address it is charged to (Table 17.5): that of the bundle that issues; a running sequencer that
issues none stalls, whatever it waits for. -/
def Core.class_ (k : Core) : Nat × DWord :=
  match k.cls with
  | some x => x
  | none =>
    let q := k.seq
    if q.active && !q.halt && q.record.isNone && !q.preempted then
      match q.inFlight.getLast? with
      | some x => (1, x.addr)
      | none => (2, q.bundleAddr)
    else (5, k.lastCharge)
def Core.countCycle (k : Core) : Core :=
  if k.class_.1 = 5 then k else { k with cycles := k.cycles.set 0 k.class_.1 (k.cycles.get 0 k.class_.1 + 1) }

/-- A sample: TIME, class and charged address. -/
def sampleBytes (time : Nat) (cls : Nat × DWord) : List Byte := leBytes 6 time ++ leBytes 1 cls.1 ++ leBytes 1 0 ++ valBytes 8 cls.2

/-- A sample's bytes by the lines that hold them: an entry of a ring that is not aligned may lie in two, and so on two pages (R187). -/
def samplePieces (va : Nat) (bs : List Byte) : List (Nat × List Byte) :=
  let n := 128 - va % 128
  (va, bs.take n) :: if bs.length ≤ n then [] else [(va + n, bs.drop n)]

/-- PROF_SAMPLE: every 2^p cycles of a core with an active sequencer, into the next entry of the ring. A sample of a
confidential context leaves as a record of R321; one whose entry cannot be written is lost. -/
def execProfSample (core : Nat) (s : State) : Out :=
  let k := s.core core
  match k.prof with
  | none => .next s
  | some p =>
    if s.time % 2 ^ p.period ≠ 0 || s.time ≤ p.last || !k.seq.active then .next s
    else
      let (ctx, inc) := s.seqTag core
      let bs := sampleBytes s.time k.class_
      let s1 := s.setCore core { k with prof := some { p with next := (p.next + 1) % 2 ^ p.entries, last := s.time } }
      if (s.ctx ctx).keyed then
        let (rec_, s2) := s1.sealed ctx inc bs
        .next { s2 with trace := s2.trace ++ [rec_] }
      else
        let va := p.ring.toNat + 16 * p.next
        let w := ((s.seqTeam core).map fun t => t.warps.headD 0).getD 0
        let page (va : Nat) : Option Attr := match s.pageFor core ctx inc va with
          | .ok _ a => if a.w && !a.doc then some a else none
          | _ => none
        let pieces := samplePieces va bs
        if pieces.all fun x => (page x.1).isSome then
          .next (pieces.foldl (fun s x => match page x.1 with
            | some a => s.sendStore core w 0 a x.1 (a.phys x.1) x.2
            | none => s) s1)
        else .next s1

-- Requests (R361) --------------------------------------------------------------------------------------------------

/-- The operation of a request area (Table 17.4). An access of memory is made as the oldest held warp. -/
def State.quinceRun (s : State) (core : Nat) : Reply × State :=
  let op := leNat (s.area core 4 2)
  let a0 := leNat (s.area core 8 8)
  let a1 := leNat (s.area core 16 8)
  let data := s.area core 24 216
  let target := a0 % 128
  let heldWarp := match (s.core core).held.find? fun e => !e.seq with
    | some e => e.warp
    | none => 127
  match op with
  | 1 => s.doHalt core (a0 % 64)
  | 2 => s.doRelease core target (BitVec.ofNat 2 a1)
  | 3 => s.doRdreg core target (a1 % 32) (BitVec.ofNat 32 (a1 / 2 ^ 32))
  | 4 =>
    match Tag.ofCode (BitVec.ofNat 4 (byteAt data 4).toNat) with
    | some tag => s.doWrreg core target (a1 % 32) (BitVec.ofNat 32 (a1 / 2 ^ 32)) { bits := BitVec.ofNat 32 (leNat (data.take 4)), tag }
    | none => (.plain qBadOp (s.aboutTarget core target), s)
  | 5 => s.doRdmem core heldWarp (BitVec.ofNat 64 a0) a1
  | 6 => if a1 > 216 then (.plain qBadOp (s.aboutTarget core heldWarp), s) else s.doWrmem core heldWarp (BitVec.ofNat 64 a0) (data.take a1)
  | 7 => s.doDebug core (BitVec.ofNat 64 a0) (a1.testBit 0) (a1.testBit 1) (a1.testBit 2)
  | 8 => s.doSeqstop core (BitVec.ofNat 64 a0)
  | 9 => s.doSeqdump core a0
  | 10 => s.doCycles core
  | 11 => s.doProf core (BitVec.ofNat 64 a0) (a1 % 256) (a1 / 2 ^ 32 % 256)
  | _ => (.plain qBadOp none, s)

/-- The header: VERSION, and the core's bit of ALIVE. -/
def State.markAlive (s : State) (core : Nat) : State :=
  let page := mboxAddr core 0
  let alive := leNat (Memory.read s.mailbox (page + 4) 4) ||| 2 ^ areaIndex core
  { s with mailbox := Memory.write s.mailbox page (leBytes 4 1 ++ leBytes 4 alive) }

/-- QUINCE_REQUEST: the monitor that runs marks itself in the header; a request is performed, its reply written, ASEQ set, and the host
signalled. -/
def execQuinceRequest (core : Nat) (s : State) : Out :=
  if !s.monitorRuns core then .next s
  else
    let s0 := s.markAlive core
    let rseq := s0.area core 0 4
    if rseq = s0.area core 240 4 then .next s0
    else
      let (r, s1) := s0.quinceRun core
      .next (((s1.writeReply core r).setArea core 240 rseq).irq 0 1)

-- Unassigned opcodes (R60) -----------------------------------------------------------------------------------------

/-- UNASSIGNED_OPCODE: ILLEGAL in every thread of the convergent set. -/
def execUnassignedOpcode (h : Head) (opc : Byte) (s : State) : Out :=
  issue (.unassignedOpcode h opc) h (fun _ _ _ => none) (fun s c ls => s.advance c.core c.warp ls) s

end Sys2Proof.Machine
end

