-- ==== Sys2Proof/Machine/Schedule.lean ====
section
/-!
DEFINITION. Sys2Proof/Machine/Schedule.lean: what moves next. The convergent set of an issue (R17, R277), the order of a thread's accesses
(R229-R233, R239, R258), fetching (R301, R302), the choice among warps (R277, R278), the passing of TIME, and what the
environment supplies (assumption 4). ex stands for the meaning of the decoded instruction.
-/
namespace Sys2Proof.Machine

-- Operands in use (R277) -------------------------------------------------------------------------------------------

/-- Whether n registers from a meet m registers from b. -/
def opdsMeet (a : Opd) (n : Nat) (b : Opd) (m : Nat) : Bool :=
  match a, b with
  | .v x, .v y => meets x.toNat n y.toNat m
  | .s x, .s y => meets x.toNat n y.toNat m
  | _, _ => false

/-- Registers of a lane whose results are outstanding; an S register belongs to the warp. -/
def State.outstanding (s : State) (c w l : Nat) : List (Opd × Nat) :=
  let mine (lane : Nat) (d : Option (Opd × Nat)) : Option (Opd × Nat) :=
    match d with
    | some (.s n, k) => some (.s n, k)
    | some x => if lane = l then some x else none
    | none => none
  (s.reqs.filterMap fun r => if r.core == c && r.warp == w then mine r.lane r.dst else none)
    ++ s.copies.filterMap fun k => if k.core == c && k.warp == w then mine k.lane k.dstReg else none

/-- Whether a lane's operands are available: what it names is not outstanding. -/
def State.operandsReady (s : State) (c w l : Nat) (i : Instr) : Bool :=
  (s.outstanding c w l).all fun x => i.opds.all fun o => !opdsMeet o.1 o.2 x.1 x.2

-- The order of a thread's accesses (R229-R233) ---------------------------------------------------------------------

def Req.reads (r : Req) : Bool :=
  match r.act with
  | .load .. | .atom .. | .cell .. | .weight .. | .rload .. => true
  | _ => false

/-- Whether a request accesses bytes of global memory. -/
def Req.global (r : Req) : Bool :=
  match r.act with
  | .load .. | .store _ | .writeback .. | .atom .. | .cell .. => true
  | _ => false

/-- What an instruction accesses in order: bytes of global memory; a space ordered as scratchpad is, its own window or another; or a range that
it writes back (R239). -/
inductive Touch where
  | none | scratch (own : Bool) | span (va n : Nat) | range (va n : Nat)

def State.touch (s : State) (c : Cur) (l : Nat) (i : Instr) : Touch :=
  match i with
  | .ldg _ _ _ ty _ a ofs => .span (s.ea c l a ofs) ty.bytes
  | .stg _ _ sz a _ ofs => .span (s.ea c l a ofs) sz.bytes
  | .atom _ _ w64 _ _ _ a _ ofs => .span (s.ea c l a ofs) (if w64 then 8 else 4)
  | .dinit _ _ _ a _ ofs | .dprop _ _ _ a _ ofs | .dread _ _ _ a _ ofs | .drecyc _ _ _ a _ ofs => .span (s.ea c l a ofs) 32
  | .lds .. | .sts .. | .atoms .. | .binit .. | .bwait .. | .btest .. => .scratch true
  | .expect _ rem .. | .arrive _ _ _ rem .. => .scratch !rem
  | .ldsr .. | .stsr .. | .invr .. => .scratch false
  | .wbr _ _ a b ofs => .range (s.ea c l a ofs) (s.bits c l b).toNat
  | _ => .none

/-- How wide a release must reach, and whether it covers UNORD and relaxed decide-once actions; reads only, for an acquiring fence (Table 10.1). -/
structure Covers where
  scope : Scope
  unord : Bool
  relaxed : Bool
  readsOnly : Bool

/-- The scope of a barrier, as its object states it. -/
def scopeOfCode (n : Nat) : Scope := (Scope.ofCode (BitVec.ofNat 3 n)).getD .system

def State.barScope (s : State) (c : Cur) (l : Nat) (rem : Bool) (a : Opd) (ofs : BitVec 24) : Scope :=
  let o := s.lofs c l a ofs
  if rem then
    match s.remote c o with
    | some m => scopeOfCode (s.bar m.1 m.2.2.scr (remoteOfs o)).scope
    | none => .system
  else scopeOfCode (s.bar c.core (s.scrWin c) o).scope

/-- What an instruction waits for before it is performed (R208, R233, R258, R296). A fence waits for every earlier access, relaxed decide-once
actions among them; other releases do not (R208, R258). RTE orders nothing for other agents (R343). -/
def State.covers (s : State) (c : Cur) (l : Nat) (i : Instr) : Option Covers :=
  let all (sc : Scope) : Option Covers := some { scope := sc, unord := true, relaxed := false, readsOnly := false }
  let plain (sc : Scope) : Option Covers := some { scope := sc, unord := false, relaxed := false, readsOnly := false }
  match i with
  | .stg _ (some sc) .. => plain sc
  | .atom _ _ _ _ (some (r, sc)) .. => if roleReleases r then plain sc else none
  | .dinit _ (some sc) .. | .dprop _ (some sc) .. | .drecyc _ (some sc) .. => plain sc
  | .fence _ k sc => some { scope := sc, unord := decide (k = .all), relaxed := true, readsOnly := !fenceReleases k }
  | .arrive _ rlx _ rem _ a ofs => if rlx then none else all (s.barScope c l rem a ofs)
  | .gbar .. => all .pkg
  | .give .. | .spawn .. => all .core
  | _ => none

/-- Whether an earlier access is performed as far as a release asks. A store to a LEASE line stands for its own core at once, since the
core's later reads of the line wait for it (R226, R228). -/
def Covers.holds (k : Covers) (r : Req) : Bool :=
  (k.readsOnly && !r.reads) || (!k.unord && r.attr.ord == .unord)
    || (match r.act with
      | .store _ => k.scope == .core && r.attr.leased
      | .cell .. => !r.acq && !k.relaxed
      | _ => false)

/-- The scratchpad window of a thread's own team. -/
def State.ownBank (s : State) (c : Cur) : Option (Nat × Nat) := (s.teamOf c.core c.warp).map fun t => (c.core, t.scr)

/-- Whether one earlier access lets a later access of the same thread go. -/
def State.letsGo (s : State) (c : Cur) (t : Touch) (r : Req) : Bool :=
  match t with
  | .none => true
  | .scratch own => !r.acq && r.attr.ord != .strong && !(own && r.bank.isSome && r.bank == s.ownBank c)
  | .range va n => !r.acq && r.attr.ord != .strong &&
      !(r.global && n != 0 && meets (va / 32 * 32) ((va + n + 31) / 32 * 32 - va / 32 * 32) r.va r.size)
  | .span va n =>
    let (ctx, inc) := s.tagOf c.core c.warp
    match s.pageFor c.core ctx inc va with
    | .ok _ a =>
      let same := r.global && r.attr.tgt == a.tgt && meets (a.phys va) n r.pa r.size
      let kinds := a.ord != .unord && r.attr.ord != .unord
      !same && !(a.ord != .unord && r.acq) && !(kinds && (r.attr.ord == .strong || a.ord == .strong))
    | _ => true

/-- Whether a lane may perform an instruction now, after its earlier accesses. A release wider than its core also comes after the stores
that threads of the core know of already: those that a CORE release released, and of those found in the L1 the kinds that it covers (R235). -/
def State.orderAllows (s : State) (c : Cur) (l : Nat) (i : Instr) : Bool :=
  let old := s.earlier c.core c.warp l
  let t := s.touch c l i
  (old.all fun r => s.letsGo c t r)
    && match s.covers c l i with
      | some k => (old.all fun r => k.holds r) && (k.scope == .core || k.readsOnly || (s.seenStores c.core).all fun r => !r.freed && k.holds r)
      | none => true

/-- How lanes of a convergent set act as one: all of them release, so that none goes before all may (GIVE); or the lowest present lane alone
does, for the others (ARRIVE.WARP, R385). -/
def Instr.together : Instr → Bool
  | .give .. => true
  | _ => false
def Instr.arrivesAsOne : Instr → Option Head
  | .arrive h _ warp .. => if warp then some h else none
  | _ => none

/-- The lanes of an issue whose accesses a release of it releases. -/
def State.releasers (s : State) (c : Cur) (ls : List Nat) (i : Instr) : List Nat :=
  match Instr.arrivesAsOne i with
  | some h => (ls.filter fun l => guardOn h (s.thread c.core c.warp l)).take 1
  | none => ls

/-- Of the lanes whose operands are there, those that go: each whose order allows it, or all or none. The order is that of the issue, which
counts already (R389). -/
def State.ordered (s : State) (c : Cur) (ls : List Nat) (i : Instr) : List Nat :=
  let s1 := s.countIssue c
  let may (l : Nat) : Bool := s1.orderAllows c l i
  if Instr.together i || (Instr.arrivesAsOne i).isSome then if (s1.releasers c ls i).all may then ls else [] else ls.filter may

-- The issue of one warp (R17) --------------------------------------------------------------------------------------

/-- Whether the clock of a core runs (R375-R377). -/
def State.coreRuns (s : State) (c : Nat) : Bool := s.coresRun && s.coreClocked c

/-- Whether a warp is eligible: it is live, its team runs, no STEP event of another warp stops it, and its back-off is over (R277, R352,
R356, R362, R364). Of no team, it is the monitor, which an event that is queued stops (R336). -/
def State.warpMay (s : State) (c w : Nat) : Bool :=
  let k := s.warp c w
  let stepped (slot : Nat) : Bool := (s.core c).held.any fun e => e.frz && e.team == slot && e.warp != w
  s.coreRuns c && k.live && !k.halted && decide (k.inelig ≤ s.clock)
    && match s.teamOf c w with
      | some t => !t.ended && !t.stopped && (w == 64 || !(t.frozen && stepped (s.warpTeam c w)))
      | none => w == 64 && (s.served c).isNone && (s.core c).trapq.isEmpty

/-- Whether a warp may issue now: its quadrant has not issued in this cycle (R17). -/
def State.warpRuns (s : State) (c w : Nat) : Bool := s.warpMay c w && decide ((s.core c).quads.get 0 (quadOf w) ≤ s.clock)

/-- The ready lanes of a warp at an address. -/
def State.lanesAt (s : State) (c w : Nat) (pc : DWord) : List Nat :=
  (s.readyLanes c w).filter fun l => (s.thread c w l).pc == pc

/-- The instruction that a fetch gives. -/
inductive Fetched where
  | instr (i : Instr)
  | illegal
  | page (va : Nat)
  | fault (va : Nat)

def State.fetchInstr (s : State) (c w : Nat) (pc : DWord) : Fetched :=
  let (ctx, inc) := s.tagOf c w
  match s.fetchCode c ctx inc 3 pc.toNat 12 with
  | .bytes bs =>
    match decodeSimt bs with
    | .ok (i, _) => .instr i
    | .error _ => .illegal
  | .absent va => .page va
  | .fault va => .fault va

/-- The convergent set of an issue: the ready lanes at the address whose operands are there and whose order allows it. -/
def State.convergent (s : State) (c w : Nat) (pc : DWord) (i : Instr) : List Nat :=
  let ls := s.lanesAt c w pc
  let k : Cur := { core := c, warp := w, pc, mask := maskOf ls }
  s.ordered k (ls.filter fun l => s.operandsReady c w l i) i

/-- A warp has issued: its waiting ends, its weight holds it back, and its quadrant issues no more in this cycle (R17, R277). -/
def State.noteIssue (s : State) (c w : Nat) : State :=
  let s1 := s.modCore c fun k => { k with quads := k.quads.set 0 (quadOf w) (s.clock + 1) }
  if (s1.warp c w).live then
    s1.modWarp c w fun k => { k with waited := 0, urgent := false, inelig := max k.inelig (s.clock + 2 ^ k.backoff) }
  else s1

/-- An issue that ends at step 1 or 2 of R62: it counts, and under DMR it is compared before any trap record is written (R358). -/
def State.issueTrap (s : State) (k : Cur) (ls : List Nat) (t : Trap) : Out :=
  if ls.isEmpty then .next s
  else
    let s1 := s.countIssue k
    if s1.dmrMismatch k then s1.mismatch k ls []
    else .next ((s1.spendUpsets k).takeTraps k.core k.warp (ls.map fun l => (l, t)))

/-- What follows an outcome that is a next state. -/
def thenNext (o : Out) (f : State → State) : Out :=
  match o with
  | .next s => .next (f s)
  | o => o

/-- Whether performing an instruction ends the retryable interval of a warp's team with stores still held: they are released, and performed
as its order asks, before it is (R355). -/
def State.endsInterval (s : State) (c w : Nat) (s1 : State) : Bool :=
  let slot := s.warpTeam c w
  match s.team c slot, s1.team c slot with
  | some { recov := some r, .. }, some { recov := some r1, .. } => r.retry && !r.held.isEmpty && !r1.retry
  | _, _ => false

/-- The bytes of local LEASE memory that a load of a lane reads. -/
def State.loadSpan (s : State) (c : Cur) (l : Nat) (i : Instr) : Option (Nat × Nat) :=
  match i with
  | .ldg _ _ _ ty _ a ofs =>
    let (ctx, inc) := s.tagOf c.core c.warp
    let va := s.ea c l a ofs
    match s.pageFor c.core ctx inc va with
    | .ok _ at_ => if at_.leased then some (at_.phys va, ty.bytes) else none
    | _ => none
  | _ => none

/-- Whether a request is a store to a LEASE line of a core. -/
def Req.leaseStore (r : Req) (core : Nat) : Bool :=
  r.core == core && r.attr.leased
    && match r.act with
      | .store _ => true
      | _ => false

/-- Stores of the core that agents of it know of from now on: those that a CORE release of a lane released, and those whose bytes a load of it
may find in the L1 (R226, R235). s is the state at the issue, s1 that after it. -/
def State.markSeen (s1 s : State) (c : Cur) (i : Instr) : State :=
  let lanes := lanesOf c.mask
  let s := s.countIssue c
  let from_ := (s.releasers c lanes i).filter fun l => match s.covers c l i with
    | some k => k.scope == .core && !k.readsOnly
    | none => false
  let spans := lanes.filterMap fun l => s.loadSpan c l i
  let freed (r : Req) : Bool := r.leaseStore c.core && from_.any fun l => s.inOrder c.core c.warp l r
  let found (r : Req) : Bool := r.leaseStore c.core && spans.any fun p => meets p.1 p.2 r.pa r.size
  if from_.isEmpty && spans.isEmpty then s1
  else
    { s1 with
      reqs := replaceIf found (fun r => { r with seen := true }) (replaceIf freed (fun r => { r with seen := true, freed := true }) s1.reqs) }

/-- One issue of a warp at an address. -/
def issueAt (ex : Instr → State → Out) (c w : Nat) (pc : DWord) (s : State) : Out :=
  if (s.warp c w).halted then .next (if s.coreRuns c then s.joinHalt c w (s.readyLanes c w) else s)
  else if !s.warpRuns c w then .next s
  else
    let ls := s.lanesAt c w pc
    let cur (ls : List Nat) : Cur := { core := c, warp := w, pc, mask := maskOf ls }
    if ls.isEmpty then .next s
    else match s.fetchInstr c w pc with
      | .fault va => thenNext (s.issueTrap (cur ls) ls (Trap.at_ cFetchPage va 0)) fun s => s.noteIssue c w
      | .page va =>
        let again := ls.filter fun l => (s.thread c w l).again.contains (cFetchPage, va / 4096)
        let first := ls.filter fun l => !again.contains l
        thenNext (s.issueTrap (cur again) again (Trap.at_ cFetchPage va 0)) fun s =>
          let wait := first.filter fun l => (s.thread c w l).st == .ready && (s.thread c w l).pc == pc && !((s.teamOf c w).any (·.stopped))
          (s.awaitPages (cur ls) cFetchPage 0 (wait.map fun l => (l, va))).noteIssue c w
      | .illegal => thenNext (s.issueTrap (cur ls) ls (Trap.plain cIllegal)) fun s => s.noteIssue c w
      | .instr i =>
        let go := s.convergent c w pc i
        if go.isEmpty then .next s
        else
          let (ctx, inc) := s.tagOf c w
          match ex i { s.takeCode c ctx inc pc.toNat 12 with cur := some (cur go) } with
          | .next s1 =>
            if s.endsInterval c w s1 then .next (s.endRetry c (s.warpTeam c w))
            else .next (({ s1 with cur := none }.markSeen s (cur go) i).noteIssue c w)
          | o => o

-- Bundles ----------------------------------------------------------------------------------------------------------

/-- One bundle of a core, where its sequencer has its clock and has issued none in this cycle. -/
def bundleAt (ex : Instr → State → Out) (c : Nat) (s : State) : Out :=
  if s.coreRuns c && (s.core c).cls.isNone then runBundle ex c s else .next s

-- The choice of a quadrant (R277, R278) ----------------------------------------------------------------------------

/-- The lanes at an address that could issue now. -/
def State.issuable (s : State) (c w : Nat) (pc : DWord) : List Nat :=
  match s.fetchInstr c w pc with
  | .instr i => s.convergent c w pc i
  | _ => s.lanesAt c w pc

/-- The address at which a warp would issue: that whose ready threads have waited longest, on a tie the lowest. -/
def State.pick (s : State) (c w : Nat) : Option DWord :=
  let pcs := ((s.readyLanes c w).map fun l => (s.thread c w l).pc).eraseDups
  let waits := pcs.filterMap fun pc =>
    (leastBy id ((s.issuable c w pc).map fun l => (s.thread c w l).since)).map fun t => (t, pc)
  (leastBy (fun (x : Nat × DWord) => x.1 * 2 ^ 64 + x.2.toNat) waits).map (·.2)

/-- The nudge of a warp's next instruction, and its effective priority. -/
def Instr.nudge (i : Instr) : Nat := ((encodeFields i).map fun f => f.head.pri.toNat).getD 0
def State.priority (s : State) (c w : Nat) (pc : DWord) : Nat :=
  let h := match s.fetchInstr c w pc with
    | .instr i => Instr.nudge i
    | _ => 0
  min 127 (((s.launchOf c w).map (·.pri)).getD 0 + (s.warp c w).waited / 4096 + h)

/-- The warps of a quadrant (R16). -/
def quadWarps (q : Nat) : List Nat := (List.range 16).map (16 * q + ·) ++ (if q = 3 then [64] else [])

/-- How a warp ranks: the least goes first. Urgent warps precede every other, then the handler warp, then priority; a tie
goes to the longest wait and the lower number. -/
def State.rank (s : State) (c w : Nat) (pc : DWord) : Nat :=
  let k := s.warp c w
  let wait := 2 ^ 32 - 1 - min k.waited (2 ^ 32 - 1)
  let cls := if k.urgent then 0 else if w = 64 then 1 else 2 + (127 - s.priority c w pc)
  (cls * 2 ^ 32 + wait) * 128 + w

/-- What a quadrant issues. -/
def State.choose (s : State) (c q : Nat) : Option (Nat × DWord) :=
  let all := (quadWarps q).filterMap fun w =>
    if s.warpRuns c w then (s.pick c w).map fun pc => (w, pc) else none
  leastBy (fun x => s.rank c x.1 x.2) all

/-- A core's own choice: a quadrant 0 to 3 issues, or (unit 4) its sequencer. -/
def ownMove (ex : Instr → State → Out) (c unit : Nat) (s : State) : Out :=
  if unit < 4 then
    match s.choose c unit with
    | some (w, pc) => issueAt ex c w pc s
    | none => .next s
  else
    let q := (s.core c).seq
    if q.stalled.isSome && !q.released then .next s else bundleAt ex c s

-- TIME and the clocks (R4, R277, R335, R366, R375-R377) --------------------------------------------------------------

/-- What one cycle does to a core's control state. -/
def Core.tick (k : Core) : Core :=
  let k1 := { k.countCycle with cls := none }
  { k1 with handler := if k.handler.serving.isSome then { k.handler with budget := k.handler.budget - 1 } else k.handler }

/-- A warp that could have issued and has not waits one cycle more. -/
def State.waitWarps (s : State) (c : Nat) : State :=
  (List.range 65).foldl (fun s w =>
    if s.warpMay c w && (s.pick c w).isSome then s.modWarp c w fun k => { k with waited := k.waited + 1 } else s) s

/-- One clock of the cores, of those whose clock runs. -/
def State.coreTick (s : State) : State :=
  let s1 := s.cores.foldl (fun s p => if s.coreRuns p.1 then (s.modCore p.1 Core.tick).waitWarps p.1 else s) s
  { s1 with clock := s1.clock + 1 }

/-- TIME moves on by one cycle of 1.25 GHz, in every power state but PS4 (R375). The cores' clock has as many edges as CLKCAP gives it (R376). -/
def State.tick (s : State) : State :=
  let s0 := if s.device.gate = 0 then s else s.gateClocks
  let s1 : State :=
    if !s0.coresRun then s0
    else
      let n := s0.phase + s0.device.clkcap.toNat
      if n < 1250 then { s0 with phase := n } else { s0.coreTick with phase := n - 1250 }
  if s1.device.pstate = 4 then s1 else { s1 with time := s1.time + 1 }

-- What has its clock (R375-R377) -----------------------------------------------------------------------------------

/-- The core whose clock an event needs. -/
def Instr.coreOf : Instr → Option Nat
  | .waitjComplete c _ | .spawnPlace c _ _ | .spawnBinLaunch c _ | .spawnBinTimer c _ | .yieldExpiry c _ | .bwaitComplete c _ _
  | .bwaitTimeout c _ _ | .takeComplete c _ | .handlerDispatch c | .handlerBudgetExpiry c | .warpUrgent c _ | .swaitTimeout c
  | .kTransferLanded c _ | .seqInterlockRelease c | .segmentExpansion c | .seqStop c | .commit c _ | .teamSliceExpiry c _
  | .quinceRequest c | .quinceHalt c _ | .quinceResume c _ _ | .rdreg c .. | .wrreg c .. | .rdmem c .. | .wrmem c .. | .debug c ..
  | .seqstop c _ | .seqdump c _ | .cycles c | .prof c .. | .profSample c => some c
  | _ => none

/-- Whether an event is one of the queue engines and the team loader, which consume nothing out of PS0. -/
def Instr.ofEngine : Instr → Bool
  | .queuePacketConsume _ | .launchPacket _ | .copyPacket _ | .reclaimFence _ | .weightStoreWrite _ | .weightStoreWriteDone _ | .queueSwitch _
  | .teamStart .. | .launchComplete _ | .gbarComplete .. => true
  | _ => false

/-- Whether an event is of the control window, the PCI Express port or the thermal trip, which always have their clock. -/
def Instr.ofPort : Instr → Bool
  | .registerWrite .. | .peerTableWrite .. | .create .. | .kill .. | .resume .. | .destroy .. | .translationInvalidation _ | .enable _ | .disable _
  | .pswap _ | .register .. | .unregister .. | .powerStateChange _ | .powerTransitionDone | .tripclr | .thermalTrip | .clkcap _ | .gate _
  | .keySlotLoad .. => true
  | _ => false

/-- The request that an event acts on. -/
def Instr.reqOf : Instr → Option Nat
  | .loadDataReturn id | .decideOnceHomeAction id | .genHoldExpiry id | .decideOnceResult id _ | .leaseGrant id _ | .leaseWritePerform id
  | .atomicPerform id | .fillArrival id | .remoteBarrierAction id | .targetAcknowledgement id => some id
  | _ => none

/-- Whether memory, caches, ports and copy engines have clocks: not after a trip, nor in PS4. -/
def State.memoryRuns (s : State) : Bool := !s.device.trip && s.device.pstate != 4

/-- Whether copies run: those accepted end before PS2 (Table 18.5). -/
def State.copiesRun (s : State) : Bool := s.memoryRuns && decide (s.device.pstate < 2)

/-- Whether what PS3 turns off, the bridge, the fabric and HBM, is not on the way of a request. -/
def State.wayOpen (s : State) (id : Nat) : Bool :=
  decide (s.device.pstate < 3) || match s.req id with
    | some r => r.exit == dieOf r.core && (match r.act with
      | .barrier .. | .rload .. | .rstore .. => true
      | _ => r.attr.tgt == .host)
    | none => true

/-- Whether an event has its clock. Firmware boots in PS4. -/
def State.clocked (s : State) (e : Instr) : Bool :=
  if Instr.ofPort e then true
  else if Instr.ofEngine e then s.coresRun
  else match Instr.coreOf e, Instr.reqOf e, e with
    | some c, _, _ => s.coreRuns c
    | none, some id, _ => s.memoryRuns && s.wayOpen id
    | none, none, .firmwareBoot _ => !s.device.trip
    | none, none, .fabricRequest .. | none, none, .hostMemoryRequest .. | none, none, .hostAtomicop .. =>
      s.memoryRuns && decide (s.device.pstate < 3)
    | none, none, .copyComplete _ | none, none, .copyPacketComplete _ => s.copiesRun
    | none, none, _ => s.memoryRuns

-- What no row of the opcode table names ----------------------------------------------------------------------------

/-- An uncorrectable error that a RECOV team consumes outside a load (R356). -/
def State.strike (s : State) (c slot : Nat) : State :=
  match s.team c slot with
  | some { recov := some _, .. } => s.rollback c slot
  | _ => s

/-- An uncorrectable sector or row appears. One of HBM is noted as struck as well: in a CMP or ENC block it poisons all 256 bytes (R194). -/
def State.mark (s : State) (space : MarkSpace) (key : Nat) : State :=
  match space with
  | .hbm => if key < 2 ^ 34 then { s with hbmPsn := (s.hbmPsn.set false key true).set false (struckKey key) true } else s
  | .scratch => { s with scrPsn := s.scrPsn.set false key true }
  | .opmem => { s with opPsn := s.opPsn.set false key true }
  | .weight => { s with wsPsn := s.wsPsn.set false key true }
  | .priv => { s with privPsn := s.privPsn.set false key true }
  | .save => { s with hprivPsn := s.hprivPsn.set false key true }

/-- The host sets the slice of a launch: 10 microseconds to 100 ms (R274). -/
def State.setSlice (s : State) (launch cycles : Nat) : State :=
  if 12500 ≤ cycles ∧ cycles ≤ 125000000 then s.modLaunch launch fun l => { l with slice := cycles } else s
/-- The host sets the timer of a core's bins (R276). -/
def State.setBinTimer (s : State) (c cycles : Nat) : State :=
  if 64 ≤ cycles ∧ cycles ≤ 65535 then s.modCore c fun k => { k with binTimer := cycles } else s

/-- A request passes one checkpoint of its path, or is dropped there (R310). -/
def State.passNext (s : State) (id : Nat) : State :=
  match s.req id with
  | none => s
  | some r =>
    if r.stage ≠ .sent ∨ r.path.length ≤ r.passed ∨ !s.memoryRuns ∨ !s.wayOpen id then s
    else if s.passes ((r.path.drop r.passed).take 1) r.ctx r.inc then s.setReq { r with passed := r.passed + 1 }
    else s.dropReq id

/-- The directives. -/
def perform (ex : Instr → State → Out) (d : Directive) (s : State) : Out :=
  match d with
  | .event e => if s.clocked e then ex e s else .next s
  | .issue c w pc => issueAt ex c w pc s
  | .bundle c => bundleAt ex c s
  | .own c unit => ownMove ex c unit s
  | .tick => .next s.tick
  | .learn ctx cp => .next (if s.memoryRuns then s.learn ctx cp else s)
  | .pass id => .next (s.passNext id)
  | .codeFill c w va len =>
    let (ctx, inc) := s.tagOf c w
    .next (if s.coreRuns c then s.codeFill c ctx inc va.toNat len else s)
  | .copyUnit id u => .next (if s.copiesRun then s.copyUnit id u else s)
  | .ats fn page res => .next { s with atsHost := s.atsHost.put (fn * 2 ^ 40 + page) res }
  | .remoteStore id => .next (if s.memoryRuns && s.wayOpen id then s.remoteStore id else s)
  | .upset c w => .next (s.modWarp c w fun k => { k with upsets := k.upsets + 1 })
  | .ecc c team => .next (if s.coreRuns c then s.strike c team else s)
  | .eccCommit c team => .next (if s.coreRuns c then s.strikeCommit c team else s)
  | .mark space key => .next (s.mark space key)
  | .temp t => .next { s with device := { s.device with temp := t } }
  | .slice launch cycles => .next (s.setSlice launch cycles)
  | .binTimer c cycles => .next (s.setBinTimer c cycles)
  | .readReg fn ofs => .next (match s.registerRead fn ofs with
    | some v => s.answer fn (leBytes 4 v.toNat)
    | none => s)
  | .peerBoot chip epoch => .next { s with peerEpoch := s.peerEpoch.set 0 chip epoch }
  | .peerError id => .next (if s.memoryRuns && s.wayOpen id then s.peerError id else s)

-- The machine's own moves (assumption 4) ---------------------------------------------------------------------------

/-- The events that requests in flight may bring about. One whose response was an orphan times out. -/
def Req.events (r : Req) : List Instr :=
  if r.stage = .lost then [.portTimeout r.id]
  else match r.act with
  | .load .. => [.leaseGrant r.id 64, .fillArrival r.id, .loadDataReturn r.id]
  | .store _ | .writeback .. => [.leaseWritePerform r.id, .targetAcknowledgement r.id]
  | .atom .. => [.atomicPerform r.id, .loadDataReturn r.id]
  | .cell .. => [.decideOnceHomeAction r.id, .decideOnceResult r.id true]
  | .barrier .. => [.remoteBarrierAction r.id]
  | .weight .. | .rload .. => [.loadDataReturn r.id]
  | .rstore .. => []
  | .unit .. => [.targetAcknowledgement r.id]

/-- The events of a core. -/
def State.coreEvents (s : State) (c : Nat) (k : Core) : List Instr :=
  let warps := (List.range 65).filter fun w => (s.warp c w).live
  (warps.flatMap fun w => [.waitjComplete c w, .takeComplete c w, .warpUrgent c w])
    ++ (warps.flatMap fun w => (List.range 32).flatMap fun l =>
      match (s.thread c w l).st with
      | .bwait .. => [.bwaitComplete c w l, .bwaitTimeout c w l]
      | .spawn .. => [.spawnPlace c w l]
      | _ => [])
    ++ (k.bins.flatMap fun b => [.spawnBinTimer c b.1, .spawnBinLaunch c b.1])
    ++ (k.seq.kq.map fun x => .kTransferLanded c x.kid)
    ++ [.segmentExpansion c, .seqInterlockRelease c, .swaitTimeout c, .seqStop c, .handlerBudgetExpiry c, .handlerDispatch c,
        .quinceRequest c, .profSample c]
    ++ (k.teams.flatMap fun t => [.commit c t.1, .teamSliceExpiry c t.1])

/-- The events that the engines may bring about. -/
def State.engineEvents (s : State) : List Instr :=
  (s.launches.flatMap fun l => (List.range l.2.groups.length).map (Instr.gbarComplete l.1) ++ [.teamStart l.1 [], .launchComplete l.1])
    ++ (s.copies.flatMap fun k => [.copyComplete k.id, .copyPacketComplete k.id])
    ++ (s.queues.flatMap fun q =>
      [.launchPacket q.1, .copyPacket q.1, .reclaimFence q.1, .weightStoreWrite q.1, .weightStoreWriteDone q.1, .queuePacketConsume q.1])
    ++ [.queueSwitch 0, .queueSwitch 1]
    ++ (s.ctxs.flatMap fun x => .killSequenceEnd x.1 :: x.2.unrec.map fun i => .reclaimComplete x.1 i.toNat)
    ++ (s.tinvs.map fun t => .invalidationComplete t.1)
    ++ (s.parts.map fun p => .pswapComplete p.1)
    ++ [.thermalTrip, .powerTransitionDone]

/-- What else goes on of itself: a checkpoint learns, a copy moves its next unit, threads of a halted warp stop. -/
def State.background (s : State) : List Directive :=
  ((s.ctxs.find? fun x => !x.2.lagging.isEmpty).map fun x => .learn x.1 (x.2.lagging.headD 0)).toList
    ++ ((s.copies.find? fun k => k.page.isNone && k.nextUnit.isSome && s.copyMay k).map fun k => .copyUnit k.id (k.nextUnit.getD 0)).toList
    ++ (s.reqs.filterMap fun r => match r.act with
      | .rstore .. => some (.remoteStore r.id)
      | _ => none)
    ++ s.cores.flatMap fun p => ((List.range 64).filter fun w => (s.warp p.1 w).halted).map fun w => .issue p.1 w 0

/-- The first move of a list that changes the state. -/
def firstMove (ex : Directive → State → Out) : List Directive → State → Option Out
  | [], _ => none
  | d :: ds, s =>
    match ex d s with
    | .next s1 => if s1 = s then firstMove ex ds s else some (.next s1)
    | o => some o

/-- The device's turn: the first event that has come due, or else TIME moves on. -/
def deviceMove (ex : Instr → State → Out) (s : State) : Out :=
  let evs := s.reqs.flatMap Req.events ++ (s.cores.flatMap fun p => s.coreEvents p.1 p.2) ++ s.engineEvents
  match firstMove (perform ex) (s.background ++ evs.map Directive.event) s with
  | some o => o
  | none => .next { s.tick with turn := 0 }

/-- The next own move: each core's quadrants and sequencer in turn, then the device. -/
def nextMove (ex : Instr → State → Out) (s : State) : Out :=
  if s.turn < 5 * s.cores.length then
    let c := ((s.cores[s.turn / 5]?).map (·.1)).getD 0
    ownMove ex c (s.turn % 5) { s with turn := s.turn + 1 }
  else deviceMove ex s

end Sys2Proof.Machine
end

