-- ==== Sys2Proof/Machine/Tiles.lean ====
section
/-!
DEFINITION. Sys2Proof/Machine/Tiles.lean: GIVE, TAKE and TOWN (R171-R173).
-/
namespace Sys2Proof.Machine

/-- The number of a tile operand. -/
def tileNum : Opd → Nat
  | .t n => n.toNat
  | _ => 0

/-- The lowest tile of a range that a code does not own. -/
def State.notOwned (s : State) (c base n : Nat) (code : Byte) : Option Nat :=
  ((List.range n).map (base + ·)).find? fun t => s.owner c t != code

def execGive (h : Head) (cnt : BitVec 5) (a : Opd) (owner : Word) (s : State) : Out :=
  let n := cnt.toNat + 1
  issue (.give h cnt a owner) h
    (fun s c _ => (s.notOwned c.core (tileNum a) n (ownerCode c.warp)).map fun t => { Trap.plain cTileOwn with info := t })
    (fun s c ls =>
      if ls.isEmpty then s
      else
        let s1 := s.giveTiles c.core (tileNum a) n (s.teamOf c.core c.warp) (s.tagOf c.core c.warp) (owner.setWidth 8)
        let s2 := s1.modSeq c.core fun q => { q with gave := q.gave.cut (tileNum a) (tileNum a + n) }
        s2.advance c.core c.warp ls) s

def execTake (h : Head) (cnt : BitVec 5) (a : Opd) (s : State) : Out :=
  issue (.take h cnt a) h (fun _ _ _ => none)
    (fun s c ls => ls.foldl (fun s l => s.modThread c.core c.warp l fun t => { t with st := .take (tileNum a) (cnt.toNat + 1) }) s) s

/-- Whether a tile may be taken: owned already or given, with every write pending on it landed (R140, R173, assumption 27), and every
KSTORE and read of scratchpad issued before an SGIVE of it (R151, R233). -/
def State.takeable (s : State) (c tile : Nat) (code : Byte) : Bool :=
  let o := s.owner c tile
  let q := (s.core c).seq
  (o == code || o == (0x80 ||| code)) && !s.tilePending c tile
    && match q.gave.find tile with
      | some k => q.kq.all fun x => decide (k ≤ x.kid) || (match x.move with
          | .storeSp _ | .storeTl .. | .fillSp _ => false
          | _ => true)
      | none => true

/-- The range of a thread that waits at a TAKE. -/
def State.takeRange (s : State) (c w l : Nat) : Option (Nat × Nat) :=
  match (s.thread c w l).st with
  | .take base n => some (base, n)
  | _ => none

/-- TAKE_COMPLETE: the waits of a warp whose ranges may be taken complete, one program counter after the other: the owners
change all at once, and the present threads go on together (R173). Each is a synchronisation (R367). -/
def execTakeComplete (core warp : Nat) (s : State) : Out :=
  let code := ownerCode warp
  let waits := (List.range 32).filterMap fun l => (s.takeRange core warp l).map fun _ => (s.thread core warp l).pc.toNat
  if s.teamStopped core (s.warpTeam core warp) then .next s
  else .next (waits.eraseDups.foldl (fun s pc =>
    let ls := (List.range 32).filter fun l => (s.takeRange core warp l).isSome && (s.thread core warp l).pc.toNat == pc
    match ls with
    | [] => s
    | l :: _ =>
      match s.takeRange core warp l with
      | none => s
      | some (base, n) =>
        if !(List.range n).all fun i => s.takeable core (base + i) code then s
        else
          let s1 := (s.setOwners core base n code).modSeq core fun q => { q with gave := q.gave.cut base (base + n) }
          (s1.advance core warp ls).synchronise core warp ls) s)

def execTown (h : Head) (d a : Opd) (s : State) : Out :=
  issue (.town h d a) h (fun _ _ _ => none)
    (fun s c ls =>
      (s.writeDst c d (ls.map fun l => (l, one .w32 ((s.owner c.core (tileNum a)).setWidth 32)))).advance c.core c.warp ls) s

end Sys2Proof.Machine
end

