-- ==== Sys2Proof/Machine/Dispatch.lean ====
section
/-!
DEFINITION. Sys2Proof/Machine/Dispatch.lean: the meaning of each step of the opcode table.
-/
namespace Sys2Proof.Machine

def exec (i : Instr) (s : State) : Host.Outcome State Fault Refusal :=
  match i with
  | .nop h => Sys2Proof.Machine.execNop h s
  | .bra h disp => Sys2Proof.Machine.execBra h disp s
  | .brx h a => Sys2Proof.Machine.execBrx h a s
  | .call h disp => Sys2Proof.Machine.execCall h disp s
  | .callx h a => Sys2Proof.Machine.execCallx h a s
  | .ret h a => Sys2Proof.Machine.execRet h a s
  | .exit h => Sys2Proof.Machine.execExit h s
  | .arj h d => Sys2Proof.Machine.execArj h d s
  | .jset h md d b => Sys2Proof.Machine.execJset h md d b s
  | .waitj h a => Sys2Proof.Machine.execWaitj h a s
  | .waitjComplete core warp => Sys2Proof.Machine.execWaitjComplete core warp s
  | .spawn h a b => Sys2Proof.Machine.execSpawn h a b s
  | .spawnPlace core warp lane => Sys2Proof.Machine.execSpawnPlace core warp lane s
  | .spawnBinLaunch core bin => Sys2Proof.Machine.execSpawnBinLaunch core bin s
  | .spawnBinTimer core bin => Sys2Proof.Machine.execSpawnBinTimer core bin s
  | .yield h n => Sys2Proof.Machine.execYield h n s
  | .yieldExpiry core warp => Sys2Proof.Machine.execYieldExpiry core warp s
  | .trap h code => Sys2Proof.Machine.execTrap h code s
  | .chk h a => Sys2Proof.Machine.execChk h a s
  | .bkpt h n => Sys2Proof.Machine.execBkpt h n s
  | .iadd h u sat d a b => Sys2Proof.Machine.execIadd h u sat d a b s
  | .isub h u sat d a b => Sys2Proof.Machine.execIsub h u sat d a b s
  | .imul h u sat d a b => Sys2Proof.Machine.execImul h u sat d a b s
  | .imulh h u d a b => Sys2Proof.Machine.execImulh h u d a b s
  | .imad h u sat d a b c => Sys2Proof.Machine.execImad h u sat d a b c s
  | .imin h u d a b => Sys2Proof.Machine.execImin h u d a b s
  | .imax h u d a b => Sys2Proof.Machine.execImax h u d a b s
  | .iabs h sat d a => Sys2Proof.Machine.execIabs h sat d a s
  | .ineg h sat d a => Sys2Proof.Machine.execIneg h sat d a s
  | .isetp h cc u bop d a b c => Sys2Proof.Machine.execIsetp h cc u bop d a b c s
  | .sel h u d a b c => Sys2Proof.Machine.execSel h u d a b c s
  | .lea h u sh d a b => Sys2Proof.Machine.execLea h u sh d a b s
  | .addw h u x32 d a b => Sys2Proof.Machine.execAddw h u x32 d a b s
  | .mulw h u d a b => Sys2Proof.Machine.execMulw h u d a b s
  | .isat h wd u d a => Sys2Proof.Machine.execIsat h wd u d a s
  | .and h d a b => Sys2Proof.Machine.execAnd h d a b s
  | .or h d a b => Sys2Proof.Machine.execOr h d a b s
  | .xor h d a b => Sys2Proof.Machine.execXor h d a b s
  | .not h d a => Sys2Proof.Machine.execNot h d a s
  | .shl h d a b => Sys2Proof.Machine.execShl h d a b s
  | .shr h d a b => Sys2Proof.Machine.execShr h d a b s
  | .sar h d a b => Sys2Proof.Machine.execSar h d a b s
  | .rotl h d a b => Sys2Proof.Machine.execRotl h d a b s
  | .popc h d a => Sys2Proof.Machine.execPopc h d a s
  | .clz h d a => Sys2Proof.Machine.execClz h d a s
  | .brev h d a => Sys2Proof.Machine.execBrev h d a s
  | .bfx h sx d a b => Sys2Proof.Machine.execBfx h sx d a b s
  | .bfi h d a b c => Sys2Proof.Machine.execBfi h d a b c s
  | .prmt h d a b c => Sys2Proof.Machine.execPrmt h d a b c s
  | .mov h d a => Sys2Proof.Machine.execMov h d a s
  | .movi h tg d imm => Sys2Proof.Machine.execMovi h tg d imm s
  | .fadd h rm d a b => Sys2Proof.Machine.execFadd h rm d a b s
  | .fsub h rm d a b => Sys2Proof.Machine.execFsub h rm d a b s
  | .fmul h rm d a b => Sys2Proof.Machine.execFmul h rm d a b s
  | .ffma h rm d a b c => Sys2Proof.Machine.execFfma h rm d a b c s
  | .fmin h d a b => Sys2Proof.Machine.execFmin h d a b s
  | .fmax h d a b => Sys2Proof.Machine.execFmax h d a b s
  | .fsetp h cc bop d a b c => Sys2Proof.Machine.execFsetp h cc bop d a b c s
  | .frnd h rm d a => Sys2Proof.Machine.execFrnd h rm d a s
  | .fclass h d a mask => Sys2Proof.Machine.execFclass h d a mask s
  | .fscalb h rm d a b => Sys2Proof.Machine.execFscalb h rm d a b s
  | .hadd2 h ty rm sat d a b => Sys2Proof.Machine.execHadd2 h ty rm sat d a b s
  | .hmul2 h ty rm sat d a b => Sys2Proof.Machine.execHmul2 h ty rm sat d a b s
  | .hfma2 h ty rm sat d a b c => Sys2Proof.Machine.execHfma2 h ty rm sat d a b c s
  | .hmin2 h ty d a b => Sys2Proof.Machine.execHmin2 h ty d a b s
  | .hmax2 h ty d a b => Sys2Proof.Machine.execHmax2 h ty d a b s
  | .hsetp2 h ty cc any d a b => Sys2Proof.Machine.execHsetp2 h ty cc any d a b s
  | .dot2 h rm sat d a b c => Sys2Proof.Machine.execDot2 h rm sat d a b c s
  | .dot4 h au bu sat d a b c => Sys2Proof.Machine.execDot4 h au bu sat d a b c s
  | .cvt h df sf rm sat d a => Sys2Proof.Machine.execCvt h df sf rm sat d a s
  | .pack2 h f16 rm sat d a b => Sys2Proof.Machine.execPack2 h f16 rm sat d a b s
  | .pack4 h fm si hi rm sat d a b c => Sys2Proof.Machine.execPack4 h fm si hi rm sat d a b c s
  | .unpk h fm n d a => Sys2Proof.Machine.execUnpk h fm n d a s
  | .plnget h d a b c => Sys2Proof.Machine.execPlnget h d a b c s
  | .plnput h d a b c => Sys2Proof.Machine.execPlnput h d a b c s
  | .tagset h tg d a => Sys2Proof.Machine.execTagset h tg d a s
  | .tagget h d a => Sys2Proof.Machine.execTagget h d a s
  | .rcp h d a => Sys2Proof.Machine.execRcp h d a s
  | .rsq h d a => Sys2Proof.Machine.execRsq h d a s
  | .sqrt h rm d a => Sys2Proof.Machine.execSqrt h rm d a s
  | .exp2 h d a => Sys2Proof.Machine.execExp2 h d a s
  | .log2 h d a => Sys2Proof.Machine.execLog2 h d a s
  | .sinpi h d a => Sys2Proof.Machine.execSinpi h d a s
  | .cospi h d a => Sys2Proof.Machine.execCospi h d a s
  | .tanh h d a => Sys2Proof.Machine.execTanh h d a s
  | .erf h d a => Sys2Proof.Machine.execErf h d a s
  | .shfl h md d a b => Sys2Proof.Machine.execShfl h md d a b s
  | .vote h md d a => Sys2Proof.Machine.execVote h md d a s
  | .matchLanes h d a => Sys2Proof.Machine.execMatchLanes h d a s
  | .wred h op ty rm sat d a => Sys2Proof.Machine.execWred h op ty rm sat d a s
  | .ldg h ord spec ty d a ofs => Sys2Proof.Machine.execLdg h ord spec ty d a ofs s
  | .stg h ord sz a b ofs => Sys2Proof.Machine.execStg h ord sz a b ofs s
  | .lds h ty d a ofs => Sys2Proof.Machine.execLds h ty d a ofs s
  | .sts h sz a b ofs => Sys2Proof.Machine.execSts h sz a b ofs s
  | .ldp h ty d a ofs => Sys2Proof.Machine.execLdp h ty d a ofs s
  | .stp h sz a b ofs => Sys2Proof.Machine.execStp h sz a b ofs s
  | .ldw h ty d a ofs => Sys2Proof.Machine.execLdw h ty d a ofs s
  | .ldsr h ty d a ofs => Sys2Proof.Machine.execLdsr h ty d a ofs s
  | .stsr h sz a b ofs => Sys2Proof.Machine.execStsr h sz a b ofs s
  | .loadDataReturn id => Sys2Proof.Machine.execLoadDataReturn id s
  | .atom h op w64 u ord d a b ofs => Sys2Proof.Machine.execAtom h op w64 u ord d a b ofs s
  | .atoms h op w64 u d a b ofs => Sys2Proof.Machine.execAtoms h op w64 u d a b ofs s
  | .sem h op d n => Sys2Proof.Machine.execSem h op d n s
  | .fence h kind sc => Sys2Proof.Machine.execFence h kind sc s
  | .wbr h sc a b ofs => Sys2Proof.Machine.execWbr h sc a b ofs s
  | .invr h sc a b ofs => Sys2Proof.Machine.execInvr h sc a b ofs s
  | .pref h l2 a ofs => Sys2Proof.Machine.execPref h l2 a ofs s
  | .cpy h dk sk post d a b c => Sys2Proof.Machine.execCpy h dk sk post d a b c s
  | .cpyt h post d a b c => Sys2Proof.Machine.execCpyt h post d a b c s
  | .copyComplete id => Sys2Proof.Machine.execCopyComplete id s
  | .binit h sc a b ofs => Sys2Proof.Machine.execBinit h sc a b ofs s
  | .expect h rem a b ofs => Sys2Proof.Machine.execExpect h rem a b ofs s
  | .arrive h rlx warp rem d a ofs => Sys2Proof.Machine.execArrive h rlx warp rem d a ofs s
  | .bwait h d a b ofs => Sys2Proof.Machine.execBwait h d a b ofs s
  | .bwaitComplete core warp lane => Sys2Proof.Machine.execBwaitComplete core warp lane s
  | .bwaitTimeout core warp lane => Sys2Proof.Machine.execBwaitTimeout core warp lane s
  | .btest h d a b ofs => Sys2Proof.Machine.execBtest h d a b ofs s
  | .gbar h k d => Sys2Proof.Machine.execGbar h k d s
  | .gbarComplete launch group => Sys2Proof.Machine.execGbarComplete launch group s
  | .dinit h ord d a b ofs => Sys2Proof.Machine.execDinit h ord d a b ofs s
  | .dprop h ord d a b ofs => Sys2Proof.Machine.execDprop h ord d a b ofs s
  | .dread h ord d a b ofs => Sys2Proof.Machine.execDread h ord d a b ofs s
  | .drecyc h ord d a b ofs => Sys2Proof.Machine.execDrecyc h ord d a b ofs s
  | .decideOnceHomeAction id => Sys2Proof.Machine.execDecideOnceHomeAction id s
  | .genHoldExpiry id => Sys2Proof.Machine.execGenHoldExpiry id s
  | .decideOnceResult id install => Sys2Proof.Machine.execDecideOnceResult id install s
  | .decidedCopyExpiry idx => Sys2Proof.Machine.execDecidedCopyExpiry idx s
  | .give h cnt a owner => Sys2Proof.Machine.execGive h cnt a owner s
  | .take h cnt a => Sys2Proof.Machine.execTake h cnt a s
  | .takeComplete core warp => Sys2Proof.Machine.execTakeComplete core warp s
  | .town h d a => Sys2Proof.Machine.execTown h d a s
  | .csrr h d csr => Sys2Proof.Machine.execCsrr h d csr s
  | .csrw h csr a => Sys2Proof.Machine.execCsrw h csr a s
  | .rte h => Sys2Proof.Machine.execRte h s
  | .hread h d sel => Sys2Proof.Machine.execHread h d sel s
  | .hwrite h sel a => Sys2Proof.Machine.execHwrite h sel a s
  | .mboxRd h d ofs => Sys2Proof.Machine.execMboxRd h d ofs s
  | .mboxWr h ofs a => Sys2Proof.Machine.execMboxWr h ofs a s
  | .mboxSig h => Sys2Proof.Machine.execMboxSig h s
  | .handlerDispatch core => Sys2Proof.Machine.execHandlerDispatch core s
  | .handlerBudgetExpiry core => Sys2Proof.Machine.execHandlerBudgetExpiry core s
  | .warpUrgent core warp => Sys2Proof.Machine.execWarpUrgent core warp s
  | .cnop => Sys2Proof.Machine.execCnop s
  | .sbr seg idx => Sys2Proof.Machine.execSbr seg idx s
  | .sbrc neg bp seg idx => Sys2Proof.Machine.execSbrc neg bp seg idx s
  | .yadd yd ya b => Sys2Proof.Machine.execYadd yd ya b s
  | .ysub yd ya b => Sys2Proof.Machine.execYsub yd ya b s
  | .ymov yd b => Sys2Proof.Machine.execYmov yd b s
  | .ycmp cc bd ya b => Sys2Proof.Machine.execYcmp cc bd ya b s
  | .yshl yd ya b => Sys2Proof.Machine.execYshl yd ya b s
  | .stake tn tb => Sys2Proof.Machine.execStake tn tb s
  | .sgive tn tb rc => Sys2Proof.Machine.execSgive tn tb rc s
  | .sarrive ya => Sys2Proof.Machine.execSarrive ya s
  | .swait yd ya yb iv => Sys2Proof.Machine.execSwait yd ya yb iv s
  | .swaitTimeout core => Sys2Proof.Machine.execSwaitTimeout core s
  | .retirept => Sys2Proof.Machine.execRetirept s
  | .shalt => Sys2Proof.Machine.execShalt s
  | .sfence => Sys2Proof.Machine.execSfence s
  | .mnop => Sys2Proof.Machine.execMnop s
  | .mbeat push feed acc drain swap => Sys2Proof.Machine.execMbeat push feed acc drain swap s
  | .mswap => Sys2Proof.Machine.execMswap s
  | .mcfg md af wf nk => Sys2Proof.Machine.execMcfg md af wf nk s
  | .mzero => Sys2Proof.Machine.execMzero s
  | .xnop => Sys2Proof.Machine.execXnop s
  | .xscale e bias clamp => Sys2Proof.Machine.execXscale e bias clamp s
  | .xbias bias clamp => Sys2Proof.Machine.execXbias bias clamp s
  | .xsat clamp => Sys2Proof.Machine.execXsat clamp s
  | .knop => Sys2Proof.Machine.execKnop s
  | .kclaim q => Sys2Proof.Machine.execKclaim q s
  | .krel q => Sys2Proof.Machine.execKrel q s
  | .kfill q row nr src => Sys2Proof.Machine.execKfill q row nr src s
  | .kstore q row nr dst => Sys2Proof.Machine.execKstore q row nr dst s
  | .kTransferLanded core kid => Sys2Proof.Machine.execKTransferLanded core kid s
  | .seqInterlockRelease core => Sys2Proof.Machine.execSeqInterlockRelease core s
  | .segmentExpansion core => Sys2Proof.Machine.execSegmentExpansion core s
  | .wsRefreshWindow => Sys2Proof.Machine.execWsRefreshWindow s
  | .seqStop core => Sys2Proof.Machine.execSeqStop core s
  | .leaseGrant id len => Sys2Proof.Machine.execLeaseGrant id len s
  | .leaseExpiry core idx => Sys2Proof.Machine.execLeaseExpiry core idx s
  | .leaseWritePerform id => Sys2Proof.Machine.execLeaseWritePerform id s
  | .atomicPerform id => Sys2Proof.Machine.execAtomicPerform id s
  | .fillArrival id => Sys2Proof.Machine.execFillArrival id s
  | .evictionWriteback core idx => Sys2Proof.Machine.execEvictionWriteback core idx s
  | .translationWalk die tag va => Sys2Proof.Machine.execTranslationWalk die tag va s
  | .pageRequestResponse id success => Sys2Proof.Machine.execPageRequestResponse id success s
  | .portTimeout id => Sys2Proof.Machine.execPortTimeout id s
  | .queuePacketConsume q => Sys2Proof.Machine.execQueuePacketConsume q s
  | .launchPacket q => Sys2Proof.Machine.execLaunchPacket q s
  | .copyPacket q => Sys2Proof.Machine.execCopyPacket q s
  | .copyPacketComplete id => Sys2Proof.Machine.execCopyPacketComplete id s
  | .reclaimFence q => Sys2Proof.Machine.execReclaimFence q s
  | .weightStoreWrite q => Sys2Proof.Machine.execWeightStoreWrite q s
  | .weightStoreWriteDone q => Sys2Proof.Machine.execWeightStoreWriteDone q s
  | .queueSwitch die => Sys2Proof.Machine.execQueueSwitch die s
  | .teamStart launch places => Sys2Proof.Machine.execTeamStart launch places s
  | .teamSliceExpiry core team => Sys2Proof.Machine.execTeamSliceExpiry core team s
  | .launchComplete launch => Sys2Proof.Machine.execLaunchComplete launch s
  | .commit core team => Sys2Proof.Machine.execCommit core team s
  | .create fn ctx inc => Sys2Proof.Machine.execCreate fn ctx inc s
  | .kill fn ctx => Sys2Proof.Machine.execKill fn ctx s
  | .killSequenceEnd ctx => Sys2Proof.Machine.execKillSequenceEnd ctx s
  | .resume fn ctx => Sys2Proof.Machine.execResume fn ctx s
  | .destroy fn ctx => Sys2Proof.Machine.execDestroy fn ctx s
  | .reclaimComplete ctx inc => Sys2Proof.Machine.execReclaimComplete ctx inc s
  | .translationInvalidation fn => Sys2Proof.Machine.execTranslationInvalidation fn s
  | .invalidationComplete fn => Sys2Proof.Machine.execInvalidationComplete fn s
  | .enable p => Sys2Proof.Machine.execEnable p s
  | .disable p => Sys2Proof.Machine.execDisable p s
  | .pswap p => Sys2Proof.Machine.execPswap p s
  | .pswapComplete p => Sys2Proof.Machine.execPswapComplete p s
  | .register fn q => Sys2Proof.Machine.execRegister fn q s
  | .unregister fn q => Sys2Proof.Machine.execUnregister fn q s
  | .powerStateChange target => Sys2Proof.Machine.execPowerStateChange target s
  | .powerTransitionDone => Sys2Proof.Machine.execPowerTransitionDone s
  | .tripclr => Sys2Proof.Machine.execTripclr s
  | .thermalTrip => Sys2Proof.Machine.execThermalTrip s
  | .clkcap v => Sys2Proof.Machine.execClkcap v s
  | .gate mask => Sys2Proof.Machine.execGate mask s
  | .peerTableWrite n v => Sys2Proof.Machine.execPeerTableWrite n v s
  | .registerWrite fn ofs v => Sys2Proof.Machine.execRegisterWrite fn ofs v s
  | .keySlotLoad fn slot ct wrap => Sys2Proof.Machine.execKeySlotLoad fn slot ct wrap s
  | .attestationReport fn nonce => Sys2Proof.Machine.execAttestationReport fn nonce s
  | .firmwareBoot image => Sys2Proof.Machine.execFirmwareBoot image s
  | .hostMemoryRequest fn addr write data => Sys2Proof.Machine.execHostMemoryRequest fn addr write data s
  | .hostAtomicop fn addr op w64 v cmp => Sys2Proof.Machine.execHostAtomicop fn addr op w64 v cmp s
  | .fabricRequest src epoch addr act => Sys2Proof.Machine.execFabricRequest src epoch addr act s
  | .quinceRequest core => Sys2Proof.Machine.execQuinceRequest core s
  | .quinceHalt core warp => Sys2Proof.Machine.execQuinceHalt core warp s
  | .quinceResume core target act => Sys2Proof.Machine.execQuinceResume core target act s
  | .rdreg core target lane sel => Sys2Proof.Machine.execRdreg core target lane sel s
  | .wrreg core target lane sel v => Sys2Proof.Machine.execWrreg core target lane sel v s
  | .rdmem core target va n => Sys2Proof.Machine.execRdmem core target va n s
  | .wrmem core target va data => Sys2Proof.Machine.execWrmem core target va data s
  | .debug core mask step frz catch_ => Sys2Proof.Machine.execDebug core mask step frz catch_ s
  | .seqstop core n => Sys2Proof.Machine.execSeqstop core n s
  | .seqdump core first => Sys2Proof.Machine.execSeqdump core first s
  | .cycles core => Sys2Proof.Machine.execCycles core s
  | .prof core ring period entries => Sys2Proof.Machine.execProf core ring period entries s
  | .profSample core => Sys2Proof.Machine.execProfSample core s
  | .unassignedOpcode h opc => Sys2Proof.Machine.execUnassignedOpcode h opc s
  | .unassignedSlotOpcode slot opc => Sys2Proof.Machine.execUnassignedSlotOpcode slot opc s
  | .atsInvalidation fn addr len => Sys2Proof.Machine.execAtsInvalidation fn addr len s
  | .remoteBarrierAction id => Sys2Proof.Machine.execRemoteBarrierAction id s
  | .targetAcknowledgement id => Sys2Proof.Machine.execTargetAcknowledgement id s

end Sys2Proof.Machine
end

