-- ==== Sys2Proof/Machine/Place.lean ====
section
/-!
DEFINITION. Sys2Proof/Machine/Place.lean: a state in which the very next step performs one given instruction: a thread of warp 0 of core
0 stands at it, or the sequencer of core 0 at a bundle that holds it. This stands for the launch that brings a program to run
(assumption 1).
-/
namespace Sys2Proof.Machine

/-- The address at which the instruction is placed, and the page that holds it: LEASE, local HBM, readable, writable and
executable, at the physical address of the same number. -/
def placeAt : Nat := 0x1000
def placePage : Attr :=
  { tgt := .hbm, ord := .rc, soft := false, cmp := false, doc := false, enc := false, r := true, w := true, x := true, base := placeAt,
    size := 4096 }

/-- A launch of context 0 of one team of one warp with 32 tiles; under seq its team holds the sequencer. -/
def placeLaunch (seq : Bool) : Launch :=
  { ctx := 0, inc := 0, queue := 0, order := 0, irq := false, pri := 0, gx := 1, gy := 1, gz := 1, warps := 1, tiles := 32, csize := 1,
    seq, recov := false, dmr := false, replay := false, scr := 384, priv := 256, entry := BitVec.ofNat 64 placeAt,
    first := BitVec.ofNat 64 placeAt, retdist := 255, args := 0, cmpl := 0, groups := [], gbars := [], next := 1, endedTeams := [],
    failures := [], failed := 0, slice := 250000, fate := none }
def placeTeam (seq : Bool) : Team :=
  { launch := 0, index := 0, rank := 0, warps := [0], scr := 0, scrLen := 384, sem := 0, share := 256, seq, began := 0, frozen := false,
    ended := false, recov := none }

/-- The launch, its team on core 0, and the page, with bytes at its start. -/
def State.placeTeamWith (s : State) (seq : Bool) (bs : List Byte) : State :=
  let s1 : State :=
    { s with
      launches := s.launches.put 0 (placeLaunch seq)
      tlb := { die := 0, ctx := 0, va := placeAt, oa := placeAt, attr := placePage, fn := 1 } :: s.tlb
      hbm := Memory.write s.hbm placeAt bs
      unitKey := s.unitKey.cut (placeAt / 16) ((placeAt + bs.length + 15) / 16)
      device := { s.device with pstate := 0, trip := false, gate := s.device.gate &&& ~~~1 }
      cur := none, bun := none }
  let s2 := s1.modCore 0 fun k => { k with icache := [], quads := [], cls := none }
  (s2.setTeam 0 0 (placeTeam seq)).setWarp 0 0 { Warp.idle with live := true, team := 0, tbase := 0, ntile := 32 }

/-- A SIMT word: lane 0 of warp 0, which owns its 32 tiles, is ready at it. -/
def State.placeWord (s : State) (bs : List Byte) : State :=
  let s1 := ((s.placeTeamWith false bs).setOwners 0 0 32 0).setThread 0 0 0 (Thread.start (BitVec.ofNat 64 placeAt) s.time)
  { s1 with script := [.issue 0 0 (BitVec.ofNat 64 placeAt)] }

/-- A bundle: the sequencer of core 0 has the segment that holds it in its loop buffer. -/
def State.placeBundle (s : State) (bs : List Byte) : State :=
  let seg : DWord := BitVec.ofNat 64 placeAt
  let s1 := (s.placeTeamWith true bs).modSeq 0 fun q =>
    { q with active := true, team := 0, halt := false, frozen := false, leaving := false, record := none, stop := none, stalled := none,
             retdist := 255, sinceRet := 0, pos := { seg, idx := 0, enter := true, branch := none, delays := 0 },
             halves := [{ seg, st := .good, nxt := 0, bundles := [bs] }] }
  { s1 with script := [.bundle 0] }

end Sys2Proof.Machine
end

