-- ==== Sys2Proof/Machine/Step.lean ====
section
/-!
DEFINITION. Sys2Proof/Machine/Step.lean: one step of the machine.
-/
namespace Sys2Proof.Machine

/-- One step: what the script says next, else the machine's own next move (assumption 4). -/
def step (s : State) : Host.Outcome State Fault Refusal :=
  match s.script with
  | d :: rest => perform exec d { s with script := rest }
  | [] => nextMove exec s

/-- The state whose next step fetches and performs the instruction of a table word: a SIMT word stands in memory before a
thread, a slot word in a bundle before a sequencer (assumption 1). -/
def State.withFetchWord (s : State) (nbits w : Nat) : State :=
  let bs := tableBytes nbits w
  if bs.length = 12 then s.placeWord bs else s.placeBundle bs

end Sys2Proof.Machine
end

