-- ==== Sys2Proof/Safety.lean ====
section
/-!
DEFINITION. Sys2Proof/Safety.lean: the words in which statements speak of a step. When an issue runs (R62), what it leaves of threads,
registers and the rest of the state, and the canonical form of every byte memory.
-/
namespace Sys2Proof.Machine

-- When an issue runs (R62) -----------------------------------------------------------------------------------------

/-- The threads of the convergent set whose guard holds, and those whose guard does not (R30, R62 step 4). -/
def State.onLanes (s : State) (c : Cur) (h : Head) : List Nat :=
  (lanesOf c.mask).filter fun l => guardOn h (s.thread c.core c.warp l)
def State.offLanes (s : State) (c : Cur) (h : Head) : List Nat :=
  (lanesOf c.mask).filter fun l => !guardOn h (s.thread c.core c.warp l)

/-- An issue as it begins its step 5: it is counted for every thread of the set (R59), and the threads whose guard does not
hold have moved on. -/
def State.begun (s : State) (c : Cur) (h : Head) : State := (s.countIssue c).pass c.core c.warp (s.offLanes c h)

/-- An issue that meets no check of R62 before the entry's own: the word is legal and the warp may execute it (step 2), every V
register named lies in the window (step 3) in a tile that the warp owns (step 5). No soft error meets it under DMR (R358), and
no STEP follows it (R364). -/
structure Issues (i : Instr) (s : State) (c : Cur) : Prop where
  cur : s.cur = some c
  legal : i.wf = true
  may : s.mayExecute c i = true
  window : ∀ n ∈ i.vregs, n / 8 < (s.warp c.core c.warp).ntile
  owned : ∀ n ∈ i.vregs, s.owner c.core (vTile (s.warp c.core c.warp).tbase n) = ownerCode c.warp
  sound : (s.warp c.core c.warp).upsets = 0
  steady : (s.warp c.core c.warp).step = false

/-- The sources of each lane whose guard holds take no trap: a tag that the entry accepts, or poison that propagates (R82, R83). -/
def State.accepts (s : State) (c : Cur) (h : Head) (srcs : List Src) : Prop :=
  ∀ l ∈ s.onLanes c h, (s.begun c h).srcTrap c l srcs = none

-- What an issue leaves ---------------------------------------------------------------------------------------------

/-- The threads of the issue have moved: those whose guard holds to an address each and with predicates of their own, the others
to the next instruction. Nothing else of a thread changes but its issue count, the latch of %timeh, and when it became ready. -/
structure Moved (s t : State) (c : Cur) (h : Head) (dest : Nat → DWord) (preds : Nat → BitVec 7) : Prop where
  on : ∀ l ∈ s.onLanes c h, (t.thread c.core c.warp l).pc = dest l ∧ (t.thread c.core c.warp l).preds = preds l
  off : ∀ l ∈ s.offLanes c h, (t.thread c.core c.warp l).pc = (s.thread c.core c.warp l).pc + 12
    ∧ (t.thread c.core c.warp l).preds = (s.thread c.core c.warp l).preds
  same : ∀ l ∈ lanesOf c.mask,
    { t.thread c.core c.warp l with
      st := (s.thread c.core c.warp l).st, pc := (s.thread c.core c.warp l).pc, preds := (s.thread c.core c.warp l).preds,
      issued := (s.thread c.core c.warp l).issued, since := (s.thread c.core c.warp l).since, again := (s.thread c.core c.warp l).again,
      timeh := (s.thread c.core c.warp l).timeh } = s.thread c.core c.warp l
  ready : ∀ l ∈ lanesOf c.mask, (t.thread c.core c.warp l).st = .ready
  issued : ∀ l ∈ lanesOf c.mask, (t.thread c.core c.warp l).issued =
    if (s.thread c.core c.warp l).again.any (fun p => p.1 == cDataPage) then (s.thread c.core c.warp l).issued else (s.thread c.core c.warp l).issued + 1
  others : ∀ key, (∀ l ∈ lanesOf c.mask, key ≠ thrKey c.core c.warp l) → t.threads.get Thread.absent key = s.threads.get Thread.absent key

/-- The warp of an issue keeps all but its count of retired instructions, and every other warp keeps everything. -/
structure Retired (s t : State) (c : Cur) : Prop where
  warp : t.warp c.core c.warp =
    { s.warp c.core c.warp with retired := (s.warp c.core c.warp).retired + BitVec.ofNat 64 (lanesOf c.mask).length }
  others : ∀ key, key ≠ warpKey c.core c.warp → t.warps.get Warp.idle key = s.warps.get Warp.idle key

/-- The threads of the issue stand at their next instructions, and their warp has only retired it. -/
structure Advanced (s t : State) (c : Cur) (h : Head) : Prop where
  moved : Moved s t c h (fun l => (s.thread c.core c.warp l).pc + 12) (fun l => (s.thread c.core c.warp l).preds)
  retired : Retired s t c

/-- The lane that stores a byte last, where lanes store n bytes each in ascending order (R199). -/
def lastAt (ls : List Nat) (place : Nat → Nat) (n key : Nat) : Option Nat :=
  ls.reverse.find? fun l => decide (place l ≤ key ∧ key < place l + n)

/-- Every byte of a memory after lanes have stored a little-endian value of n bytes each (R3): that of the lane that stores it
last, and every byte that no lane stores as before. -/
def Stored (m m' : Memory) (ls : List Nat) (place : Nat → Nat) (n : Nat) (val : Nat → DWord) : Prop :=
  ∀ key, Store.get (α := Byte) 0 m' key = match lastAt ls place n key with
    | some l => (val l).extractLsb' (8 * (key - place l)) 8
    | none => Store.get (α := Byte) 0 m key

/-- The place of a V register of a lane, and of an S register of the warp. -/
def State.vKey (s : State) (c : Cur) (l n : Nat) : Nat := regKey c.core (vTile (s.warp c.core c.warp).tbase n) (vWord l n)

/-- The destination holds the results: a V register that of its own lane, an S register that of the lowest (R96); VZ discards
them (R57). No other register changes. -/
structure Wrote (s t : State) (c : Cur) (ls : List Nat) (d : Opd) (res : Nat → List TWord) : Prop where
  vector : ∀ n, d = .v n → ∀ l ∈ ls, ∀ k x, (res l)[k]? = some x → t.opd c l (d.next k) = x
  scalar : ∀ n, d = .s n → ∀ l, ls.head? = some l → ∀ k x, (res l)[k]? = some x → t.opd c l (d.next k) = x
  regs : ∀ key,
    (∀ n, d = .v n → ∀ l ∈ ls, ∀ k, k < (res l).length → key ≠ s.vKey c l (n + BitVec.ofNat 8 k).toNat) →
      t.regs.get TWord.zero key = s.regs.get TWord.zero key
  sregs : ∀ key,
    (∀ n, d = .s n → ∀ l, ls.head? = some l → ∀ k, k < (res l).length → key ≠ sregKey c.core c.warp (n + BitVec.ofNat 6 k).toNat) →
      t.sregs.get TWord.zero key = s.sregs.get TWord.zero key

/-- The same where each lane has a destination of its own: VZ for a lane that writes nothing yet. -/
structure Placed (s t : State) (c : Cur) (ls : List Nat) (dst : Nat → Opd) (res : Nat → List TWord) : Prop where
  holds : ∀ l ∈ ls, (∃ n, dst l = .v n) ∨ (∃ n, dst l = .s n) → ∀ k x, (res l)[k]? = some x → t.opd c l ((dst l).next k) = x
  regs : ∀ key,
    (∀ l ∈ ls, ∀ n, dst l = .v n → ∀ k, k < (res l).length → key ≠ s.vKey c l (n + BitVec.ofNat 8 k).toNat) →
      t.regs.get TWord.zero key = s.regs.get TWord.zero key
  sregs : ∀ key,
    (∀ l ∈ ls, ∀ n, dst l = .s n → ∀ k, k < (res l).length → key ≠ sregKey c.core c.warp (n + BitVec.ofNat 6 k).toNat) →
      t.sregs.get TWord.zero key = s.sregs.get TWord.zero key

/-- An S destination takes the value of the lowest lane present, the others write nothing (R96, R199). -/
def lowestDst (d : Opd) (ls : List Nat) (l : Nat) : Opd :=
  match d with
  | .s n => if ls.head? = some l then .s n else .z
  | _ => d

/-- Nothing changes outside threads, warps and registers: no byte of any memory, no special or control state, no other agent. -/
def KeepsRest (s t : State) : Prop :=
  { t with regs := s.regs, sregs := s.sregs, threads := s.threads, warps := s.warps } = s

/-- A state with the bytes, marks and keys that another holds at their home; and that two hold the same there. -/
def State.atHome (t s : State) : State :=
  { t with hbm := s.hbm, hbmPsn := s.hbmPsn, unitKey := s.unitKey, hostMem := s.hostMem, peerMem := s.peerMem }
def KeepsHome (s t : State) : Prop := t.atHome s = t

/-- What a register instruction leaves: its results, and the threads at the next instruction. -/
structure Computed (s t : State) (c : Cur) (h : Head) (d : Opd) (res : Nat → List TWord) : Prop where
  wrote : Wrote s t c (s.onLanes c h) d res
  moved : Moved s t c h (fun l => (s.thread c.core c.warp l).pc + 12) (fun l => (s.thread c.core c.warp l).preds)
  retired : Retired s t c
  rest : KeepsRest s t

/-- A thread without what an issue counts and latches (R59, R204, R278). -/
def Thread.plain (t : Thread) : Thread := { t with issued := 0, since := 0, again := [], timeh := none, yld := none }

/-- The bytes of a load, its register words under the type (Table 9.3; little-endian, R3), and the words where its data is poisoned. -/
def loadSize : LdTy → Nat
  | .b64 => 8
  | .i8 | .w8 => 1
  | .i16 | .w16 => 2
  | _ => 4
def loadWords (ty : LdTy) (bs : List Byte) : List TWord :=
  let v : DWord := BitVec.ofNat 64 (bs.foldr (fun b n => b.toNat + 256 * n) 0)
  let w (t : Tag) : List TWord := [{ bits := v.setWidth 32, tag := t }]
  match ty with
  | .b64 => [{ bits := v.setWidth 32, tag := .raw }, { bits := v.extractLsb' 32 32, tag := .raw }]
  | .i8 => [{ bits := (v.setWidth 8).signExtend 32, tag := .i32 }]
  | .w8 => [{ bits := (v.setWidth 8).setWidth 32, tag := .w32 }]
  | .i16 => [{ bits := (v.setWidth 16).signExtend 32, tag := .i32 }]
  | .w16 => [{ bits := (v.setWidth 16).setWidth 32, tag := .w32 }]
  | .b32 => w .raw
  | .i32 => w .i32
  | .w32 => w .w32
  | .f32 => w .f32
  | .bf2 => w .bf2
  | .h2 => w .h2
  | .e4q => w .e4q
  | .e5q => w .e5q
  | .i8q => w .i8q
  | .w8q => w .w8q
  | .npl => w .npl
def loadPoison (ty : LdTy) : List TWord := List.replicate (if ty = .b64 then 2 else 1) TWord.poison

/-- What a load leaves whose data comes at once: its results, the threads at the next instruction, and a deferred fault in each
thread whose data is poisoned (R203, R339). The back-off count of a yield-hinted load may change (R204). -/
structure Loaded (s t : State) (c : Cur) (h : Head) (d : Opd) (res : Nat → List TWord) (bad : Nat → Option DWord) : Prop where
  wrote : Wrote s t c (s.onLanes c h) d res
  on : ∀ l ∈ s.onLanes c h, (t.thread c.core c.warp l).plain =
    let x := s.thread c.core c.warp l
    { (match bad l with
        | some a => x.defer cEcc a
        | none => x).plain with st := .ready, pc := x.pc + 12 }
  off : ∀ l ∈ s.offLanes c h, (t.thread c.core c.warp l).plain =
    { (s.thread c.core c.warp l).plain with st := .ready, pc := (s.thread c.core c.warp l).pc + 12 }
  others : ∀ key, (∀ l ∈ lanesOf c.mask, key ≠ thrKey c.core c.warp l) → t.threads.get Thread.absent key = s.threads.get Thread.absent key
  warp : { t.warp c.core c.warp with backoff := (s.warp c.core c.warp).backoff } =
    { s.warp c.core c.warp with retired := (s.warp c.core c.warp).retired + BitVec.ofNat 64 (lanesOf c.mask).length }
  backoff : h.yld = false → (t.warp c.core c.warp).backoff = (s.warp c.core c.warp).backoff
  warps : ∀ key, key ≠ warpKey c.core c.warp → t.warps.get Warp.idle key = s.warps.get Warp.idle key

/-- The threads and the warp after an issue that may defer a fault in a thread (R202, R203, R339) and change the back-off count of a
yield-hinted load (R204): every thread of the set stands at the next instruction. -/
structure Stepped (s t : State) (c : Cur) (h : Head) (fault : Nat → Option (Byte × DWord)) : Prop where
  on : ∀ l ∈ s.onLanes c h, (t.thread c.core c.warp l).plain =
    let x := s.thread c.core c.warp l
    { (match fault l with
        | some f => x.defer f.1 f.2
        | none => x).plain with st := .ready, pc := x.pc + 12 }
  off : ∀ l ∈ s.offLanes c h, (t.thread c.core c.warp l).plain =
    { (s.thread c.core c.warp l).plain with st := .ready, pc := (s.thread c.core c.warp l).pc + 12 }
  others : ∀ key, (∀ l ∈ lanesOf c.mask, key ≠ thrKey c.core c.warp l) → t.threads.get Thread.absent key = s.threads.get Thread.absent key
  warp : { t.warp c.core c.warp with backoff := (s.warp c.core c.warp).backoff } =
    { s.warp c.core c.warp with retired := (s.warp c.core c.warp).retired + BitVec.ofNat 64 (lanesOf c.mask).length }
  backoff : h.yld = false → (t.warp c.core c.warp).backoff = (s.warp c.core c.warp).backoff
  warps : ∀ key, key ≠ warpKey c.core c.warp → t.warps.get Warp.idle key = s.warps.get Warp.idle key

/-- The request that a lane leaves (R309): under the tag of its warp, for its team, at the page's attributes. -/
def requestOf (s : State) (c : Cur) (l id va : Nat) (a : Attr) (act : ReqAct) (acq : Bool) : Req :=
  { id, core := c.core, warp := c.warp, lane := l, launch := ((s.teamOf c.core c.warp).map (·.launch)).getD noLaunch,
    team := ((s.teamOf c.core c.warp).map (·.index)).getD 0, ctx := (s.tagOf c.core c.warp).1, inc := (s.tagOf c.core c.warp).2, attr := a, va,
    pa := a.base + va % a.size, act, stage := .sent, passed := 0, acq, noInstall := false, noL2 := false, orphan := false, seen := false,
    freed := false, window := none, sentAt := s.time, from_ := c.warp, laid := s.laidFor c.core c.warp a (a.base + va % a.size) act, turn := none }

/-- Requests have left, with numbers in the order of their lanes (R309), and nothing else has changed but registers, threads, warps. -/
structure Sent (s t : State) (new : Nat → Nat → Req) (ls : List Nat) : Prop where
  reqs : t.reqs = s.reqs ++ ls.zipIdx.map fun p => new p.1 (s.nextId + p.2)
  nextId : t.nextId = s.nextId + ls.length
  core : ∀ d, t.core d = s.core d
  rest : { t with regs := s.regs, sregs := s.sregs, threads := s.threads, warps := s.warps, cores := s.cores, reqs := s.reqs,
                  nextId := s.nextId } = s

/-- What a predicate instruction leaves: predicate Pn of each lane whose guard holds is its condition, P7 discards it (R57). -/
structure Judged (s t : State) (c : Cur) (h : Head) (d : Opd) (res : Nat → Bool) : Prop where
  moved : Moved s t c h (fun l => (s.thread c.core c.warp l).pc + 12)
    (fun l => match d with
      | .p n => if n = 7 then (s.thread c.core c.warp l).preds else ((s.thread c.core c.warp l).setPred n.toNat (res l)).preds
      | _ => (s.thread c.core c.warp l).preds)
  retired : Retired s t c
  regs : t.regs = s.regs ∧ t.sregs = s.sregs
  rest : KeepsRest s t

/-- What a branch leaves: each lane whose guard holds at a target of its own. -/
structure Jumped (s t : State) (c : Cur) (h : Head) (dest : Nat → DWord) : Prop where
  moved : Moved s t c h dest (fun l => (s.thread c.core c.warp l).preds)
  retired : Retired s t c
  regs : t.regs = s.regs ∧ t.sregs = s.sregs
  rest : KeepsRest s t

/-- What a trap leaves that all lanes of ls take, for one cause (R332, Table 16.1): each is parked with its record at the
instruction, and one event has joined the core's trap queue, or is held for the monitor (R363): at its end, where the queue holds no
event of the same issue. The lanes off have moved on. -/
structure Trapped (s t : State) (c : Cur) (ls off : List Nat) (trap : Nat → Trap) (cause : Byte) (defd : Bool) : Prop where
  parked : ∀ l ∈ ls, (t.thread c.core c.warp l).st = .parked ∧ (t.thread c.core c.warp l).pc = (s.thread c.core c.warp l).pc
    ∧ (t.thread c.core c.warp l).preds = (s.thread c.core c.warp l).preds
    ∧ (t.thread c.core c.warp l).record = some (s.trapRecord c.core c.warp l (trap l))
  moved : ∀ l ∈ off, (t.thread c.core c.warp l).st = .ready ∧ (t.thread c.core c.warp l).pc = (s.thread c.core c.warp l).pc + 12
    ∧ (t.thread c.core c.warp l).preds = (s.thread c.core c.warp l).preds
  others : ∀ key, (∀ l ∈ lanesOf c.mask, key ≠ thrKey c.core c.warp l) → t.threads.get Thread.absent key = s.threads.get Thread.absent key
  event : let e : Event := { warp := c.warp, lanes := maskOf ls, seq := false, cause, defd, team := s.warpTeam c.core c.warp,
                             ctx := (s.tagOf c.core c.warp).1, inc := (s.tagOf c.core c.warp).2,
                             frz := cause == cStep && (s.warp c.core c.warp).frz }
    t.core c.core = if cause = cBreak ∧ (s.warp c.core c.warp).catches = true then
      { s.core c.core with held := s.queueEvent c.core e (s.core c.core).held }
      else { s.core c.core with trapq := s.queueEvent c.core e (s.core c.core).trapq }
  last : ∀ (q : List Event) (e : Event), (∀ f ∈ q, s.ofIssue c.core f = false) → s.queueEvent c.core e q = q ++ [e]
  cores : ∀ d, d ≠ c.core → t.core d = s.core d
  warp : t.warp c.core c.warp =
    { s.warp c.core c.warp with retired := (s.warp c.core c.warp).retired + BitVec.ofNat 64 off.length }
  warps : ∀ key, key ≠ warpKey c.core c.warp → t.warps.get Warp.idle key = s.warps.get Warp.idle key
  rest : { t with threads := s.threads, warps := s.warps, cores := s.cores } = s

-- What an instruction does -----------------------------------------------------------------------------------------

/-- A register instruction: whenever no check stops it, it completes, with n words of results that f computes from its sources in
each lane whose guard holds; where a source holds poison, each word is poison (R83). -/
def Computes (i : Instr) (h : Head) (d : Opd) (n : Nat) (srcs : List Src) (f : State → Cur → Nat → List TWord) : Prop :=
  ∀ (s : State) (c : Cur), Issues i s c → s.accepts c h srcs →
    ∃ t, exec i s = .next t
      ∧ Computed s t c h d fun l => if (s.begun c h).psnIn c l srcs then List.replicate n TWord.poison else f (s.begun c h) c l

/-- A predicate instruction: it completes, and judges each lane whose guard holds. -/
def Judges (i : Instr) (h : Head) (d : Opd) (srcs : List Src) (f : State → Cur → Nat → Bool) : Prop :=
  ∀ (s : State) (c : Cur), Issues i s c → s.accepts c h srcs →
    ∃ t, exec i s = .next t ∧ Judged s t c h d (f (s.begun c h) c)

/-- A branch: it completes, with each lane whose guard holds at its target. -/
def Jumps (i : Instr) (h : Head) (srcs : List Src) (f : State → Cur → Nat → DWord) : Prop :=
  ∀ (s : State) (c : Cur), Issues i s c → s.accepts c h srcs → ∃ t, exec i s = .next t ∧ Jumped s t c h (f (s.begun c h) c)

-- What a slot word does (R66, R127, R128) --------------------------------------------------------------------------

/-- A word of a bundle: at the start it raises causes, marked with the bit of its slot, and may stall; then it has its effect. -/
structure Slots (i : Instr) (slot : Nat) (raises : State → BundleCtx → Byte → Prop) (waits : State → BundleCtx → Prop)
    (effect : State → BundleCtx → State) : Prop where
  check : ∀ s b, s.bun = some b → b.phase = .check →
    ∃ (fs : List Byte) (w : Bool), exec i s = .next { s with bun := some { b with faults := b.faults ++ fs.map fun f => (f, BitVec.ofNat 8 (2 ^ slot)), stall := b.stall || w } }
      ∧ (∀ f, f ∈ fs ↔ raises s b f) ∧ (w = true ↔ waits s b)
  perform : ∀ s b, s.bun = some b → b.phase = .perform → exec i s = .next (effect s b)

end Sys2Proof.Machine
end

