-- ==== Sys2Proof/Certificates/Slice0/Obligations.lean ====
section
/-!
DEFINITION. Sys2Proof/Certificates/Slice0/Obligations.lean: the statements about the machine, each a proposition to be proved.
-/
open Sys2Proof Sys2Proof.Machine

-- Register instructions (05) ---------------------------------------------------------------------------------------

/-- R99: IADD, ISUB, IMUL, IMULH, IMAD, IMIN, IMAX, IABS and INEG narrow an exact integer: wrapped, or clamped under SAT. -/
def Obligations.IntegerArithmetic : Prop :=
  let two (i : Instr) (h : Head) (u sat : Bool) (d a b : Opd) (e : Int → Int → Int) : Prop :=
    Computes i h d 1 [dataSrc 1 a notPsn, dataSrc 2 b notPsn] fun s k l =>
      [{ bits := narrow u sat (e (rdInt u (s.bits k l a)) (rdInt u (s.bits k l b))), tag := intTag u }]
  ∀ (h : Head) (u sat : Bool) (d a b c : Opd),
    two (.iadd h u sat d a b) h u sat d a b (fun x y => x + y)
    ∧ two (.isub h u sat d a b) h u sat d a b (fun x y => x - y)
    ∧ two (.imul h u sat d a b) h u sat d a b (fun x y => x * y)
    ∧ two (.imulh h u d a b) h u false d a b (fun x y => x * y / 2 ^ 32)
    ∧ Computes (.imad h u sat d a b c) h d 1 [dataSrc 1 a notPsn, dataSrc 2 b notPsn, dataSrc (cField b) c notPsn] (fun s k l =>
        [{ bits := narrow u sat (rdInt u (s.bits k l a) * rdInt u (s.bits k l b) + rdInt u (s.bits k l c)), tag := intTag u }])
    ∧ two (.imin h u d a b) h u false d a b min
    ∧ two (.imax h u d a b) h u false d a b max
    ∧ Computes (.iabs h sat d a) h d 1 [dataSrc 1 a notPsn] (fun s k l =>
        [{ bits := narrow false sat (if (s.bits k l a).toInt < 0 then -(s.bits k l a).toInt else (s.bits k l a).toInt), tag := .i32 }])
    ∧ Computes (.ineg h sat d a) h d 1 [dataSrc 1 a notPsn] (fun s k l =>
        [{ bits := narrow false sat (-(s.bits k l a).toInt), tag := .i32 }])

/-- R99: what narrowing gives: the value itself where it fits; under SAT the nearer end of the range; else the value modulo 2^32. -/
def Obligations.Narrowing : Prop :=
  ∀ (u sat : Bool) (e : Int),
    (intLo u ≤ e ∧ e ≤ intHi u → rdInt u (narrow u sat e) = e)
    ∧ (sat = true → e < intLo u → rdInt u (narrow u sat e) = intLo u)
    ∧ (sat = true → intHi u < e → rdInt u (narrow u sat e) = intHi u)
    ∧ (sat = false → ((narrow u sat e).toNat : Int) = e % 2 ^ 32)

/-- R100: ISETP joins a comparison with Pc, SEL selects bits by Pc, ISAT clamps. Poison traps in ISETP and propagates in SEL and
ISAT. -/
def Obligations.CompareSelectSaturate : Prop :=
  ∀ (h : Head) (cc : Cmp) (u bop : Bool) (wd : SatW) (d a b c : Opd),
    Judges (.isetp h cc u bop d a b c) h d [trapSrc 1 a notPsn, trapSrc 2 b notPsn] (fun s k l =>
      let x := rdInt u (s.bits k l a)
      let y := rdInt u (s.bits k l b)
      let holds := match cc with
        | .eq => decide (x = y) | .ne => decide (x ≠ y) | .lt => decide (x < y) | .le => decide (x ≤ y)
        | .gt => decide (y < x) | .ge => decide (y ≤ x) | .num => true | .nan => false
      if bop then holds || s.predOpd k l c else holds && s.predOpd k l c)
    ∧ Computes (.sel h u d a b c) h d 1 [dataSrc 1 a notPsn, dataSrc 2 b notPsn] (fun s k l =>
        [{ bits := if s.predOpd k l c then s.bits k l a else s.bits k l b, tag := if u then .w32 else .i32 }])
    ∧ Computes (.isat h wd u d a) h d 1 [dataSrc 1 a notPsn] (fun s k l =>
        let r : Int × Int × Tag := match wd with
          | .i8 => (-128, 127, .i32) | .w8 => (0, 255, .w32) | .i16 => (-32768, 32767, .i32) | .w16 => (0, 65535, .w32)
        [{ bits := BitVec.ofInt 32 (min (max (rdInt u (s.bits k l a)) r.1) r.2.1), tag := r.2.2 }])

/-- R101: LEA, ADDW and MULW form 64-bit results in a pair: the low word in D and the high word in the register after it. -/
def Obligations.WideArithmetic : Prop :=
  let pair (t : Tag) (v : DWord) : List TWord := [{ bits := v.setWidth 32, tag := t }, { bits := v.extractLsb' 32 32, tag := t }]
  let ext (u : Bool) (w : Word) : DWord := if u then w.setWidth 64 else w.signExtend 64
  let short (x32 : Bool) (b : Opd) : Bool := match b with | .imm _ => true | _ => x32
  ∀ (h : Head) (u x32 : Bool) (sh : BitVec 3) (d a b : Opd),
    Computes (.lea h u sh d a b) h d 2 (wideSrc dataSrc 1 a 2 notPsn ++ [dataSrc 2 b notPsn]) (fun s k l =>
      pair (intTag u) (s.pair k l a + (ext u (s.bits k l b)) * 2 ^ sh.toNat))
    ∧ Computes (.addw h u x32 d a b) h d 2
        (wideSrc dataSrc 1 a 2 notPsn ++ wideSrc dataSrc 2 b (if short x32 b then 1 else 2) notPsn) (fun s k l =>
        pair (intTag u) (s.pair k l a + (if short x32 b then ext u (s.bits k l b) else s.pair k l b)))
    ∧ Computes (.mulw h u d a b) h d 2 [dataSrc 1 a notPsn, dataSrc 2 b notPsn] (fun s k l =>
        pair (intTag u) (BitVec.ofInt 64 (rdInt u (s.bits k l a) * rdInt u (s.bits k l b))))

/-- R102 to R104: the logic, shift, bit-field and move instructions. Results are RAW; a shift by 32 or more leaves no bit, or the
sign; MOV copies the tag, poison included; MOVI writes its immediate under TG. -/
def Obligations.LogicShiftFieldMove : Prop :=
  let raw1 (i : Instr) (h : Head) (d a : Opd) (f : Word → Word) : Prop :=
    Computes i h d 1 [dataSrc 1 a notPsn] fun s k l => [{ bits := f (s.bits k l a), tag := .raw }]
  let raw2 (i : Instr) (h : Head) (d a b : Opd) (f : Word → Word → Word) : Prop :=
    Computes i h d 1 [dataSrc 1 a notPsn, dataSrc 2 b notPsn] fun s k l => [{ bits := f (s.bits k l a) (s.bits k l b), tag := .raw }]
  let raw3 (i : Instr) (h : Head) (d a b c : Opd) (f : Word → Word → Word → Word) : Prop :=
    Computes i h d 1 [dataSrc 1 a notPsn, dataSrc 2 b notPsn, dataSrc (cField b) c notPsn] fun s k l =>
      [{ bits := f (s.bits k l a) (s.bits k l b) (s.bits k l c), tag := .raw }]
  ∀ (h : Head) (sx : Bool) (tg : Tag) (imm : Word) (d a b c : Opd),
    raw2 (.and h d a b) h d a b (fun x y => x &&& y)
    ∧ raw2 (.or h d a b) h d a b (fun x y => x ||| y)
    ∧ raw2 (.xor h d a b) h d a b (fun x y => x ^^^ y)
    ∧ raw1 (.not h d a) h d a (fun x => ~~~x)
    ∧ raw2 (.shl h d a b) h d a b (fun x n => if n.toNat < 32 then x <<< n.toNat else 0)
    ∧ raw2 (.shr h d a b) h d a b (fun x n => if n.toNat < 32 then x >>> n.toNat else 0)
    ∧ raw2 (.sar h d a b) h d a b (fun x n => BitVec.ofInt 32 (x.toInt / 2 ^ min n.toNat 31))
    ∧ raw2 (.rotl h d a b) h d a b (fun x n => (x <<< (n.toNat % 32)) ||| (x >>> (32 - n.toNat % 32)))
    ∧ raw1 (.popc h d a) h d a (fun x => BitVec.ofNat 32 ((List.range 32).countP fun i => x.getLsbD i))
    ∧ raw1 (.clz h d a) h d a (fun x => BitVec.ofNat 32 (leadingZeros x))
    ∧ raw1 (.brev h d a) h d a (fun x => x.reverse)
    ∧ raw2 (.bfx h sx d a b) h d a b (fun x y =>
        let pos := y.toNat % 256
        let len := min (y.toNat / 256 % 256) (32 - pos)
        let f : Int := ((x.toNat / 2 ^ pos % 2 ^ len : Nat) : Int)
        if 32 ≤ pos ∨ len = 0 then 0 else BitVec.ofInt 32 (if sx ∧ 2 ^ (len - 1) ≤ f then f - 2 ^ len else f))
    ∧ raw3 (.bfi h d a b c) h d a b c (fun x y z =>
        let pos := y.toNat % 256
        let len := min (y.toNat / 256 % 256) (32 - pos)
        let mask := BitVec.ofNat 32 ((2 ^ len - 1) * 2 ^ pos)
        if 32 ≤ pos ∨ len = 0 then z else (z &&& ~~~mask) ||| ((x <<< pos) &&& mask))
    ∧ raw3 (.prmt h d a b c) h d a b c (fun x y z =>
        let byte (i : Nat) : Byte :=
          let sel := z.toNat / 2 ^ (4 * i) % 16
          let v := (y ++ x).extractLsb' (8 * (sel % 8)) 8
          if sel < 8 then v else if v.msb then 0xFF else 0
        byte 3 ++ byte 2 ++ byte 1 ++ byte 0)
    ∧ Computes (.mov h d a) h d 1 [dataSrc 1 a fun _ => true] (fun s k l => [s.opd k l a])
    ∧ Computes (.movi h tg d imm) h d 1 [] (fun _ _ _ => [{ bits := imm, tag := tg }])
    ∧ (∀ x : Word, leadingZeros x ≤ 32 ∧ (leadingZeros x < 32 → x.getLsbD (31 - leadingZeros x) = true)
        ∧ ∀ i, 32 - leadingZeros x ≤ i → x.getLsbD i = false)

/-- R105 and R106: the rounded FP32 instructions form an exact value from their operands' values and round it once. -/
def Obligations.FloatArithmetic : Prop :=
  let src (n : Nat) (o : Opd) : Src := dataSrc n o (isTag .f32)
  let val (s : State) (k : Cur) (l : Nat) (o : Opd) : FV := Fmt.f32.decode (s.bits k l o).toNat
  let rounds (i : Instr) (h : Head) (rm : RM) (d : Opd) (srcs : List Src) (e : State → Cur → Nat → FV) : Prop :=
    Computes i h d 1 srcs fun s k l => [{ bits := BitVec.ofNat 32 (Fmt.f32.ofFV rm false (e s k l)), tag := .f32 }]
  ∀ (h : Head) (rm : RM) (d a b c : Opd),
    rounds (.fadd h rm d a b) h rm d [src 1 a, src 2 b] (fun s k l => FV.add rm (val s k l a) (val s k l b))
    ∧ rounds (.fsub h rm d a b) h rm d [src 1 a, src 2 b] (fun s k l => FV.add rm (val s k l a) (val s k l b).neg)
    ∧ rounds (.fmul h rm d a b) h rm d [src 1 a, src 2 b] (fun s k l => FV.mul (val s k l a) (val s k l b))
    ∧ rounds (.ffma h rm d a b c) h rm d [src 1 a, src 2 b, src (cField b) c]
        (fun s k l => FV.add rm (FV.mul (val s k l a) (val s k l b)) (val s k l c))
    ∧ rounds (.fscalb h rm d a b) h rm d [src 1 a, dataSrc 2 b notPsn] (fun s k l => FV.scale (s.bits k l b).toInt (val s k l a))
    ∧ Computes (.frnd h rm d a) h d 1 [src 1 a] (fun s k l => [{ bits := BitVec.ofNat 32 (Fmt.f32.integral rm (s.bits k l a).toNat), tag := .f32 }])

/-- R74, R85, R86, R106: the canonical NaN of an invalid operation, the values that rounding leaves alone, and the sign of a zero
sum. -/
def Obligations.FloatRules : Prop :=
  (∀ (f : Fmt) (rm : RM) (sat : Bool) (c : Nat), c < 2 ^ f.bits → f.isNaN c = false → f.isInf c = false → f.ofFV rm sat (f.decode c) = c)
  ∧ (∀ (f : Fmt) (rm : RM) (c : Nat), c < 2 ^ f.bits → f.isInf c = true → f.ofFV rm false (f.decode c) = c)
  ∧ (∀ (f : Fmt) (rm : RM) (sat : Bool) (a b : Nat), f.isNaN a = true ∨ f.isNaN b = true →
      f.addC rm sat a b = f.nanCode ∧ f.subC rm sat a b = f.nanCode ∧ f.mulC rm sat a b = f.nanCode)
  ∧ (∀ (f : Fmt) (rm : RM) (sat : Bool) (a b c : Nat), f.isNaN a = true ∨ f.isNaN b = true ∨ f.isNaN c = true →
      f.fmaC rm sat a b c = f.nanCode)
  ∧ (∀ (f : Fmt) (rm : RM) (sat : Bool) (a b : Nat), f.isInf a = true → f.isInf b = true →
      (f.neg a ≠ f.neg b → f.addC rm sat a b = f.nanCode) ∧ (f.neg a = f.neg b → f.subC rm sat a b = f.nanCode))
  ∧ (∀ (f : Fmt) (rm : RM) (sat : Bool) (a b : Nat), f.isInf a = true → f.mag b = 0 →
      f.mulC rm sat a b = f.nanCode ∧ f.mulC rm sat b a = f.nanCode ∧ ∀ c, f.fmaC rm sat a b c = f.nanCode)
  ∧ (∀ (rm : RM) (m : Nat) (e : Int), FV.add rm (.fin false m e) (.fin true m e) = .fin (rm == .rd) 0 0)
  ∧ (∀ (f : Fmt) (rm : RM) (neg : Bool), f.overflow rm false neg =
      if rm = .rz ∨ (rm = .ru ∧ neg = true) ∨ (rm = .rd ∧ neg = false) then f.signBit neg + f.maxCode
      else if f = .e4m3 then f.nanCode else f.signBit neg + f.maxCode + 1)
  ∧ (∀ (f : Fmt) (rm : RM) (neg : Bool), f.overflow rm true neg = f.signBit neg + f.maxCode)

/-- R107 and R108: FMIN and FMAX order -0 below +0 and prefer a number to a NaN; FSETP compares by Table 5.2 and joins Pc; FCLASS
tests the one class of A. -/
def Obligations.FloatCompare : Prop :=
  let src (n : Nat) (o : Opd) : Src := dataSrc n o (isTag .f32)
  let tsrc (n : Nat) (o : Opd) : Src := trapSrc n o (isTag .f32)
  let isNaN (w : Word) : Bool := decide (0x7F800000 < w.toNat % 2 ^ 31)
  let below (x y : Word) : Bool := if x.msb then (if y.msb then decide (y.toNat ≤ x.toNat) else true) else !y.msb && decide (x.toNat ≤ y.toNat)
  let lesser (x y : Word) : Word := if isNaN x then (if isNaN y then 0x7FC00000 else y) else if isNaN y then x else if below x y then x else y
  let greater (x y : Word) : Word := if isNaN x then (if isNaN y then 0x7FC00000 else y) else if isNaN y then x else if below x y then y else x
  ∀ (h : Head) (cc : Cmp) (bop : Bool) (mask : Word) (d a b c : Opd),
    Computes (.fmin h d a b) h d 1 [src 1 a, src 2 b] (fun s k l => [{ bits := lesser (s.bits k l a) (s.bits k l b), tag := .f32 }])
    ∧ Computes (.fmax h d a b) h d 1 [src 1 a, src 2 b] (fun s k l => [{ bits := greater (s.bits k l a) (s.bits k l b), tag := .f32 }])
    ∧ Judges (.fsetp h cc bop d a b c) h d [tsrc 1 a, tsrc 2 b] (fun s k l =>
        let x := s.bits k l a
        let y := s.bits k l b
        let un := isNaN x || isNaN y
        let eq := x == y || x.toNat % 2 ^ 31 + y.toNat % 2 ^ 31 == 0
        let holds := match cc with
          | .eq => !un && eq | .ne => un || !eq | .lt => !un && !eq && below x y | .le => !un && (eq || below x y)
          | .gt => !un && !eq && below y x | .ge => !un && (eq || below y x) | .num => !un | .nan => un
        if bop then holds || s.predOpd k l c else holds && s.predOpd k l c)
    ∧ Judges (.fclass h d a mask) h d [tsrc 1 a] (fun s k l =>
        let m := (s.bits k l a).toNat % 2 ^ 31
        let neg := (s.bits k l a).msb
        let cls := if 0x7F800000 < m then 8 else if m = 0x7F800000 then (if neg then 0 else 7)
          else if 0x00800000 ≤ m then (if neg then 1 else 6) else if 0 < m then (if neg then 2 else 5) else (if neg then 3 else 4)
        mask.getLsbD cls)

/-- R109 and R110: the packed instructions do the same on both 16-bit elements, each by itself; HSETP2 joins the two conditions. -/
def Obligations.PackedPairs : Prop :=
  let fmt (ty : Bool) : Fmt := if ty then .f16 else .bf16
  let tag (ty : Bool) : Tag := if ty then .h2 else .bf2
  let el (w : Word) (n : Nat) : Nat := w.toNat / 2 ^ (16 * n) % 2 ^ 16
  let join (x y : Nat) : Word := BitVec.ofNat 32 (x % 2 ^ 16 + y % 2 ^ 16 * 2 ^ 16)
  let packed (i : Instr) (h : Head) (ty : Bool) (d a b : Opd) (f : Nat → Nat → Nat) : Prop :=
    Computes i h d 1 [dataSrc 1 a (isTag (tag ty)), dataSrc 2 b (isTag (tag ty))] fun s k l =>
      let x := s.bits k l a
      let y := s.bits k l b
      [{ bits := join (f (el x 0) (el y 0)) (f (el x 1) (el y 1)), tag := tag ty }]
  ∀ (h : Head) (ty : Bool) (rm : RM) (sat : Bool) (cc : Cmp) (any : Bool) (d a b c : Opd),
    packed (.hadd2 h ty rm sat d a b) h ty d a b ((fmt ty).addC rm sat)
    ∧ packed (.hmul2 h ty rm sat d a b) h ty d a b ((fmt ty).mulC rm sat)
    ∧ Computes (.hfma2 h ty rm sat d a b c) h d 1
        [dataSrc 1 a (isTag (tag ty)), dataSrc 2 b (isTag (tag ty)), dataSrc (cField b) c (isTag (tag ty))] (fun s k l =>
        let f (n : Nat) : Nat := (fmt ty).fmaC rm sat (el (s.bits k l a) n) (el (s.bits k l b) n) (el (s.bits k l c) n)
        [{ bits := join (f 0) (f 1), tag := tag ty }])
    ∧ packed (.hmin2 h ty d a b) h ty d a b ((fmt ty).minmax false)
    ∧ packed (.hmax2 h ty d a b) h ty d a b ((fmt ty).minmax true)
    ∧ Judges (.hsetp2 h ty cc any d a b) h d [trapSrc 1 a (isTag (tag ty)), trapSrc 2 b (isTag (tag ty))] (fun s k l =>
        let f (n : Nat) : Bool := cc.onFloat (fmt ty) (el (s.bits k l a) n) (el (s.bits k l b) n)
        if any then f 0 || f 1 else f 0 && f 1)

/-- R111: DOT2 sums C and two exact products of BF16 elements and rounds once; DOT4 sums C and four products of bytes exactly. -/
def Obligations.DotProducts : Prop :=
  let el (w : Word) (n : Nat) : FV := Fmt.bf16.decode (w.toNat / 2 ^ (16 * n) % 2 ^ 16)
  let byte (u : Bool) (w : Word) (n : Nat) : Int :=
    let x : Int := ((w.toNat / 2 ^ (8 * n) % 256 : Nat) : Int)
    if u ∨ x < 128 then x else x - 256
  ∀ (h : Head) (rm : RM) (sat au bu : Bool) (d a b c : Opd),
    Computes (.dot2 h rm sat d a b c) h d 1 [dataSrc 1 a (isTag .bf2), dataSrc 2 b (isTag .bf2), dataSrc (cField b) c (isTag .f32)] (fun s k l =>
      let x := s.bits k l a
      let y := s.bits k l b
      let e := FV.add rm (FV.add rm (Fmt.f32.decode (s.bits k l c).toNat) (FV.mul (el x 0) (el y 0))) (FV.mul (el x 1) (el y 1))
      [{ bits := BitVec.ofNat 32 (Fmt.f32.ofFV rm sat e), tag := .f32 }])
    ∧ Computes (.dot4 h au bu sat d a b c) h d 1
        [dataSrc 1 a (isTag (if au then .w8q else .i8q)), dataSrc 2 b (isTag (if bu then .w8q else .i8q)), dataSrc (cField b) c (isTag .i32)]
        (fun s k l =>
          let p (n : Nat) : Int := byte au (s.bits k l a) n * byte bu (s.bits k l b) n
          [{ bits := narrow false sat ((s.bits k l c).toInt + p 0 + p 1 + p 2 + p 3), tag := .i32 }])

/-- R112 to R115: CVT between F32, I32 and W32 (Table 4.7), and the packing and unpacking of elements. -/
def Obligations.Conversions : Prop :=
  let tag : SFmt → Tag := fun | .f32 => .f32 | .i32 => .i32 | .w32 => .w32
  let tag4 : Pk4 → Tag := fun | .e4m3 => .e4q | .e5m2 => .e5q | .i8 => .i8q | .w8 => .w8q
  let srcOf : UnFmt → Tag := fun | .bf16 => .bf2 | .f16 => .h2 | .e4m3 => .e4q | .e5m2 => .e5q | .i8 => .i8q | .w8 => .w8q
  let fmt (f16 : Bool) : Fmt := if f16 then .f16 else .bf16
  let byte (w : Word) (n : Nat) : Nat := w.toNat / 2 ^ (8 * n) % 256
  let el (w : Word) (n : Nat) : Nat := w.toNat / 2 ^ (16 * n) % 2 ^ 16
  let narrow8 (fm : Pk4) (si : Bool) (rm : RM) (sat : Bool) (w : Word) : Nat :=
    match fm with
    | .e4m3 => Fmt.f32.convert .e4m3 rm sat w.toNat % 256
    | .e5m2 => Fmt.f32.convert .e5m2 rm sat w.toNat % 256
    | .i8 => ((if si then (if sat then min (max w.toInt (-128)) 127 else w.toInt) else Fmt.f32.toInt rm (-128) 127 w.toNat) % 256).toNat
    | .w8 => ((if si then (if sat then min (max w.toInt 0) 255 else w.toInt) else Fmt.f32.toInt rm 0 255 w.toNat) % 256).toNat
  ∀ (h : Head) (df sf : SFmt) (rm : RM) (sat f16 si hi : Bool) (fm : Pk4) (um : UnFmt) (n : BitVec 2) (d a b c : Opd),
    Computes (.cvt h df sf rm sat d a) h d 1 [dataSrc 1 a (isTag (tag sf))] (fun s k l =>
      let w := s.bits k l a
      let r : Word := match sf, df with
        | .f32, .i32 => BitVec.ofInt 32 (Fmt.f32.toInt rm (-2147483648) 2147483647 w.toNat)
        | .f32, .w32 => BitVec.ofInt 32 (Fmt.f32.toInt rm 0 4294967295 w.toNat)
        | .i32, .f32 => BitVec.ofNat 32 (Fmt.f32.ofInt rm false w.toInt)
        | .w32, .f32 => BitVec.ofNat 32 (Fmt.f32.ofInt rm false w.toNat)
        | .i32, .w32 => if sat ∧ w.toInt < 0 then 0 else w
        | .w32, .i32 => if sat ∧ w.toInt < 0 then 2147483647 else w
        | _, _ => w
      [{ bits := r, tag := tag df }])
    ∧ Computes (.pack2 h f16 rm sat d a b) h d 1 [dataSrc 1 a (isTag .f32), dataSrc 2 b (isTag .f32)] (fun s k l =>
        let e (o : Opd) : Nat := Fmt.f32.convert (fmt f16) rm sat (s.bits k l o).toNat % 2 ^ 16
        [{ bits := BitVec.ofNat 32 (e a + e b * 2 ^ 16), tag := if f16 then .h2 else .bf2 }])
    ∧ Computes (.pack4 h fm si hi rm sat d a b c) h d 1
        [dataSrc 1 a (isTag (if si then .i32 else .f32)), dataSrc 2 b (isTag (if si then .i32 else .f32)), dataSrc (cField b) c (isTag (tag4 fm))]
        (fun s k l =>
          let new := narrow8 fm si rm sat (s.bits k l a) + narrow8 fm si rm sat (s.bits k l b) * 256
          let old := s.bits k l c
          [{ bits := BitVec.ofNat 32 (if hi then el old 0 + new * 2 ^ 16 else new + el old 1 * 2 ^ 16), tag := tag4 fm }])
    ∧ Computes (.unpk h um n d a) h d 1 [dataSrc 1 a (isTag (srcOf um))] (fun s k l =>
        let w := s.bits k l a
        let r : Word × Tag := match um with
          | .bf16 => (BitVec.ofNat 32 (Fmt.bf16.convert .f32 .rne false (el w n.toNat)), .f32)
          | .f16 => (BitVec.ofNat 32 (Fmt.f16.convert .f32 .rne false (el w n.toNat)), .f32)
          | .e4m3 => (BitVec.ofNat 32 (Fmt.e4m3.convert .f32 .rne false (byte w n.toNat)), .f32)
          | .e5m2 => (BitVec.ofNat 32 (Fmt.e5m2.convert .f32 .rne false (byte w n.toNat)), .f32)
          | .i8 => (BitVec.ofInt 32 (if byte w n.toNat < 128 then byte w n.toNat else (byte w n.toNat : Int) - 256), .i32)
          | .w8 => (BitVec.ofNat 32 (byte w n.toNat), .w32)
        [{ bits := r.1, tag := r.2 }])

/-- R116 and R117: PLNGET and PLNPUT move one plane, bit by bit; TAGSET sets a tag but never removes poison; TAGGET reads the tag,
poison's too. -/
def Obligations.PlanesAndTags : Prop :=
  let plane (w : Word) : Nat := w.toNat % 8
  let nibble (w : Word) : Nat := w.toNat / 16 % 8
  ∀ (h : Head) (tg : Tag) (d a b c : Opd),
    (∃ g : Word → Word → Word → Word,
      Computes (.plnget h d a b c) h d 1 [dataSrc 1 a (isTag .i8q), dataSrc 2 b notPsn, dataSrc (cField b) c (isTag .npl)]
        (fun s k l => [{ bits := g (s.bits k l a) (s.bits k l b) (s.bits k l c), tag := .npl }])
      ∧ ∀ x y z n, (g x y z).getLsbD n =
          if n / 4 = nibble y ∧ n < 32 then x.getLsbD (8 * (n % 4) + plane y) else z.getLsbD n)
    ∧ (∃ g : Word → Word → Word → Word,
      Computes (.plnput h d a b c) h d 1 [dataSrc 1 a (isTag .npl), dataSrc 2 b notPsn, dataSrc (cField b) c (isTag .i8q)]
        (fun s k l => [{ bits := g (s.bits k l a) (s.bits k l b) (s.bits k l c), tag := .i8q }])
      ∧ ∀ x y z n, (g x y z).getLsbD n =
          if n % 8 = plane y ∧ n < 32 then x.getLsbD (4 * nibble y + n / 8) else z.getLsbD n)
    ∧ Computes (.tagset h tg d a) h d 1 [dataSrc 1 a fun _ => true]
        (fun s k l => [{ bits := if tg = .psn then 0 else s.bits k l a, tag := tg }])
    ∧ (∀ (s : State) (k : Cur), Issues (.tagget h d a) s k → ∃ t, exec (.tagget h d a) s = .next t
        ∧ Computed s t k h d fun l => [{ bits := ((s.begun k h).opd k l a).tag.code.setWidth 32, tag := .w32 }])

/-- R118: each special function completes with one F32 word that depends on its source alone, and these special values of Table 5.8 hold:
NaN, zeros, infinities, negative operands, and the integers, powers and squares of the ranges below. Which value within the bound results elsewhere is free (assumption 7). -/
def Obligations.SpecialFunctions : Prop :=
  let fn (i : Instr) (h : Head) (d a : Opd) (f : Nat → Nat) : Prop :=
    Computes i h d 1 [dataSrc 1 a (isTag .f32)] fun s k l => [{ bits := BitVec.ofNat 32 (f (s.bits k l a).toNat), tag := .f32 }]
  let inf : Nat := 0x7F800000
  let minus : Nat := 0x80000000
  let one : Nat := 0x3F800000
  let nan : Nat := 0x7FC00000
  (∀ (h : Head) (rm : RM) (d a : Opd),
    fn (.rcp h d a) h d a (specialC 0x60) ∧ fn (.rsq h d a) h d a (specialC 0x61) ∧ fn (.sqrt h rm d a) h d a (sqrtC rm)
    ∧ fn (.exp2 h d a) h d a (specialC 0x63) ∧ fn (.log2 h d a) h d a (specialC 0x64) ∧ fn (.sinpi h d a) h d a (specialC 0x65)
    ∧ fn (.cospi h d a) h d a (specialC 0x66) ∧ fn (.tanh h d a) h d a (specialC 0x67) ∧ fn (.erf h d a) h d a (specialC 0x68))
  ∧ (∀ op x, Fmt.f32.isNaN x = true → specialC op x = nan ∧ ∀ rm, sqrtC rm x = nan)
  ∧ (specialC 0x60 0 = inf ∧ specialC 0x60 minus = minus + inf ∧ specialC 0x60 inf = 0 ∧ specialC 0x60 (minus + inf) = minus)
  ∧ (specialC 0x61 0 = inf ∧ specialC 0x61 minus = minus + inf ∧ specialC 0x61 inf = 0)
  ∧ (∀ x, x < 2 ^ 32 → Fmt.f32.isNaN x = false → minus < x → specialC 0x61 x = nan ∧ specialC 0x64 x = nan ∧ ∀ rm, sqrtC rm x = nan)
  ∧ (∀ rm, sqrtC rm 0 = 0 ∧ sqrtC rm minus = minus ∧ sqrtC rm inf = inf)
  ∧ (∀ x, 0x43000000 ≤ x → x ≤ inf → specialC 0x63 x = inf)
  ∧ (∀ x, minus + 0x43160000 ≤ x → x ≤ minus + inf → specialC 0x63 x = 0)
  ∧ (∀ k : Nat, k < 32 → specialC 0x63 (Fmt.f32.ofInt .rne false (k : Int)) = (k + 127) * 2 ^ 23)
  ∧ (∀ k : Nat, 112 ≤ k → k < 144 → specialC 0x64 (k * 2 ^ 23) = Fmt.f32.ofInt .rne false ((k : Int) - 127))
  ∧ (∀ (k : Nat) (rm : RM), k < 4 → sqrtC rm (Fmt.f32.ofInt .rne false ((k * k : Nat) : Int)) = Fmt.f32.ofInt .rne false (k : Int))
  ∧ (specialC 0x64 one = 0 ∧ specialC 0x64 0 = minus + inf ∧ specialC 0x64 minus = minus + inf ∧ specialC 0x64 inf = inf)
  ∧ (∀ op, op = 0x65 ∨ op = 0x66 → specialC op inf = nan ∧ specialC op (minus + inf) = nan)
  ∧ (∀ x, 0x4B000000 ≤ x → x < inf → specialC 0x65 x = 0 ∧ specialC 0x65 (minus + x) = minus)
  ∧ (∀ k : Nat, k < 16 → specialC 0x66 (Fmt.f32.ofInt .rne false ((2 * k : Nat) : Int)) = one
      ∧ specialC 0x66 (Fmt.f32.ofInt .rne false ((2 * k + 1 : Nat) : Int)) = minus + one
      ∧ specialC 0x66 (Fmt.f32.round .rne false false (2 * k + 1) (-1)) = 0)
  ∧ (∀ op, op = 0x67 ∨ op = 0x68 → specialC op 0 = 0 ∧ specialC op minus = minus ∧ specialC op inf = one
      ∧ specialC op (minus + inf) = minus + one)

/-- R119 to R122: the cross-lane instructions read the lanes whose guard holds and no others; every lane reads before any writes. -/
def Obligations.CrossLane : Prop :=
  (∀ (h : Head) (md : ShflMode) (d a b : Opd) (s : State) (c : Cur), Issues (.shfl h md d a b) s c →
    ∃ t, exec (.shfl h md d a b) s = .next t ∧ Computed s t c h d fun l =>
      let n : Int := ((s.begun c h).bits c l b).toNat
      let from_ : Int := match md with
        | .idx => n % 32 | .up => (l : Int) - n | .down => (l : Int) + n | .xor => ((l ^^^ (n.toNat % 32) : Nat) : Int)
      [if ((s.begun c h).opd c l b).tag = .psn then TWord.poison
       else (s.begun c h).opd c (if 0 ≤ from_ ∧ from_.toNat ∈ s.onLanes c h then from_.toNat else l) a])
  ∧ (∀ (h : Head) (md : VoteMode) (d a : Opd) (s : State) (c : Cur), Issues (.vote h md d a) s c → s.accepts c h [trapSrc 1 a notPsn] →
    let yes (l : Nat) : Bool := (s.begun c h).bits c l a != 0
    ∃ t, exec (.vote h md d a) s = .next t ∧ match md with
      | .all => Judged s t c h d fun _ => (s.onLanes c h).all yes
      | .any => Judged s t c h d fun _ => (s.onLanes c h).any yes
      | .eq => Judged s t c h d fun _ => (s.onLanes c h).all fun l => (s.onLanes c h).all fun k => (s.begun c h).bits c l a == (s.begun c h).bits c k a
      | .bal => Computed s t c h d fun _ => [{ bits := maskOf ((s.onLanes c h).filter yes), tag := .w32 }])
  ∧ (∀ (h : Head) (d a : Opd) (s : State) (c : Cur), Issues (.matchLanes h d a) s c →
    ∃ t, exec (.matchLanes h d a) s = .next t ∧ Computed s t c h d fun l =>
      [if ((s.begun c h).opd c l a).tag = .psn then TWord.poison
       else { bits := maskOf ((s.onLanes c h).filter fun k =>
                ((s.begun c h).opd c k a).tag ≠ .psn ∧ (s.begun c h).bits c k a = (s.begun c h).bits c l a), tag := .w32 }])
  ∧ (∀ (h : Head) (op : WredOp) (ty : SFmt) (rm : RM) (sat : Bool) (d a : Opd) (s : State) (c : Cur),
    Issues (.wred h op ty rm sat d a) s c → s.accepts c h [dataSrc 1 a (isTag (wredTag ty))] →
    ∃ t, exec (.wred h op ty rm sat d a) s = .next t ∧ Computed s t c h d fun _ =>
      [if ∃ l ∈ s.onLanes c h, ((s.begun c h).opd c l a).tag = .psn then TWord.poison
       else { bits := (treeRoot (wredNode op ty rm sat)
                ((List.range 32).map fun l => if l ∈ s.onLanes c h then some ((s.begun c h).bits c l a) else none)).getD 0,
              tag := wredTag ty }])
  ∧ (∀ l, l < 32 → (maskOf (List.range 32)).getLsbD l = true ∧ ∀ ls : List Nat, (∀ k ∈ ls, k < 32) → (maskOf ls).getLsbD l = decide (l ∈ ls))

-- Control (13) -----------------------------------------------------------------------------------------------------

/-- R287 to R289: NOP advances; BRA adds four times its displacement; BRX goes to an aligned address; CALL and CALLX write V1 and stay in the
4 GiB region of the return address; RET joins its own high half to A. -/
def Obligations.Branches : Prop :=
  let pc (s : State) (c : Cur) (l : Nat) : DWord := (s.thread c.core c.warp l).pc
  let same (x y : DWord) : Prop := x.extractLsb' 32 32 = y.extractLsb' 32 32
  let links (i : Instr) (h : Head) (s : State) (c : Cur) (dest : Nat → DWord) : Prop :=
    ∃ t, exec i s = .next t ∧ Wrote s t c (s.onLanes c h) (.v 1) (fun l => [{ bits := (pc s c l + 12).setWidth 32, tag := .w32 }])
      ∧ Moved s t c h dest (fun l => (s.thread c.core c.warp l).preds) ∧ Retired s t c ∧ KeepsRest s t
  ∀ (h : Head) (disp : BitVec 36) (a : Opd) (s : State) (c : Cur),
    (Issues (.nop h) s c → ∃ t, exec (.nop h) s = .next t ∧ Jumped s t c h fun l => pc s c l + 12)
    ∧ (Issues (.bra h disp) s c → ∃ t, exec (.bra h disp) s = .next t ∧ Jumped s t c h fun l => pc s c l + 4 * disp.signExtend 64)
    ∧ (Issues (.brx h a) s c → s.accepts c h (wideSrc trapSrc 1 a 2 isAddr) →
        (∀ l ∈ s.onLanes c h, ((s.begun c h).pair c l a).toNat % 4 = 0) →
        ∃ t, exec (.brx h a) s = .next t ∧ Jumped s t c h fun l => (s.begun c h).pair c l a)
    ∧ (Issues (.call h disp) s c → (∀ l ∈ s.onLanes c h, same (pc s c l + 4 * disp.signExtend 64) (pc s c l + 12)) →
        links (.call h disp) h s c fun l => pc s c l + 4 * disp.signExtend 64)
    ∧ (Issues (.callx h a) s c → s.accepts c h (wideSrc trapSrc 1 a 2 isAddr) →
        (∀ l ∈ s.onLanes c h, ((s.begun c h).pair c l a).toNat % 4 = 0 ∧ same ((s.begun c h).pair c l a) (pc s c l + 12)) →
        links (.callx h a) h s c fun l => (s.begun c h).pair c l a)
    ∧ (Issues (.ret h a) s c → s.accepts c h [trapSrc 1 a isAddr] →
        (∀ l ∈ s.onLanes c h, ((s.begun c h).bits c l a).toNat % 4 = 0) →
        ∃ t, exec (.ret h a) s = .next t ∧ Jumped s t c h fun l => (pc s c l).extractLsb' 32 32 ++ (s.begun c h).bits c l a)

/-- R291, R279, R140, R383: EXIT ends its threads: none of them has a bit in a J register, and copy status words and decide-once quads still
outstanding for them are discarded; every other result still lands, after the last thread in the tiles of the warp's window. The warp exits
with its last thread. -/
def Obligations.ExitEndsThreads : Prop :=
  ∀ (h : Head) (s : State) (c : Cur), Issues (.exit h) s c → s.onLanes c h ≠ [] → (s.warp c.core c.warp).live = true →
    (∀ tm, s.teamOf c.core c.warp = some tm → c.warp ∈ tm.warps) →
    let mine (core warp lane : Nat) : Bool := core == c.core && warp == c.warp && (s.onLanes c h).contains lane
    let quad (r : Req) : Bool := match r.act with | .cell .. => true | _ => false
    ∃ t, exec (.exit h) s = .next t
      ∧ (∀ l ∈ s.onLanes c h, (t.thread c.core c.warp l).st = .exited)
      ∧ (∀ l ∈ s.offLanes c h, (t.thread c.core c.warp l).st = .ready ∧ (t.thread c.core c.warp l).pc = (s.thread c.core c.warp l).pc + 12)
      ∧ (∀ key, (∀ l ∈ lanesOf c.mask, key ≠ thrKey c.core c.warp l) → t.threads.get Thread.absent key = s.threads.get Thread.absent key)
      ∧ (∀ j l, l ∈ s.onLanes c h → (t.jreg c.core c.warp j).getLsbD l = false)
      ∧ (∀ j l, l < 32 → l ∉ s.onLanes c h → (t.jreg c.core c.warp j).getLsbD l = (s.jreg c.core c.warp j).getLsbD l)
      ∧ t.regs = s.regs ∧ t.sregs = s.sregs
      ∧ (∀ key, key ≠ warpKey c.core c.warp → t.warps.get Warp.idle key = s.warps.get Warp.idle key)
      ∧ ((∃ l, l < 32 ∧ l ∉ s.onLanes c h ∧ (s.thread c.core c.warp l).st.alive = true) →
          { t.warp c.core c.warp with jregs := (s.warp c.core c.warp).jregs } =
            { s.warp c.core c.warp with retired := (s.warp c.core c.warp).retired + BitVec.ofNat 64 (lanesOf c.mask).length }
          ∧ { t with threads := s.threads, warps := s.warps, reqs := s.reqs, copies := s.copies } = s
          ∧ t.reqs = s.reqs.map (fun r => if mine r.core r.warp r.lane && quad r then { r with orphan := true } else r)
          ∧ t.copies = s.copies.map fun k => if mine k.core k.warp k.lane then { k with orphan := true } else k)
      ∧ (∀ r ∈ s.reqs, r.core = c.core → r.warp = c.warp → r.orphan = false → r.window = none → quad r = false →
          (∀ l, l < 32 → l ∉ s.onLanes c h → (s.thread c.core c.warp l).st.alive = false) →
          ∃ q ∈ t.reqs, q.id = r.id ∧ q.act = r.act ∧ q.orphan = false ∧ q.window = some (s.warp c.core c.warp).tbase)
      ∧ (s.offLanes c h = [] → (∀ l, l < 32 → l ∉ s.onLanes c h → (s.thread c.core c.warp l).st.alive = false) →
          (t.warp c.core c.warp).live = false ∧ ∀ n, n < 504 → s.owner c.core n = ownerCode c.warp → t.owner c.core n = 0x7F)

/-- R292 to R294, R279, R280: JSET writes its J register once, ARJ clears the bits of its lanes, WAITJ holds its lanes, and WAITJ_COMPLETE
moves on exactly the waiting threads whose J register has no bit outside the waiting and the exited lanes, unless a commit or a rollback
stops the team (R352, R356). Nothing else of any thread, warp or register changes. -/
def Obligations.Rejoin : Prop :=
  let keeps (s t : State) : Prop := { t with threads := s.threads, warps := s.warps } = s
  let sets (i : Instr) (h : Head) (s : State) (c : Cur) (j : BitVec 3) (m : Word) : Prop :=
    ∃ t, exec i s = .next t ∧ Moved s t c h (fun l => (s.thread c.core c.warp l).pc + 12) (fun l => (s.thread c.core c.warp l).preds)
      ∧ keeps s t ∧ t.jreg c.core c.warp j.toNat = m ∧ (∀ k, k ≠ j.toNat → t.jreg c.core c.warp k = s.jreg c.core c.warp k)
      ∧ { t.warp c.core c.warp with jregs := (s.warp c.core c.warp).jregs } =
          { s.warp c.core c.warp with retired := (s.warp c.core c.warp).retired + BitVec.ofNat 64 (lanesOf c.mask).length }
      ∧ ∀ key, key ≠ warpKey c.core c.warp → t.warps.get Warp.idle key = s.warps.get Warp.idle key
  (∀ (h : Head) (md : JMode) (j : BitVec 3) (b : Option Opd) (s : State) (c : Cur) (l : Nat) (ls : List Nat),
    Issues (.jset h md (.j j) b) s c → s.onLanes c h = l :: ls → (∀ o, b = some o → s.accepts c h [trapSrc 2 o notPsn]) →
    let m := (s.begun c h).bits c l (b.getD .z)
    let old := s.jreg c.core c.warp j.toNat
    sets (.jset h md (.j j) b) h s c j (match md with | .set => m | .or => old ||| m | .andn => old &&& ~~~m | .pres => maskOf (l :: ls)))
  ∧ (∀ (h : Head) (j : BitVec 3) (s : State) (c : Cur), Issues (.arj h (.j j)) s c →
    sets (.arj h (.j j)) h s c j (s.jreg c.core c.warp j.toNat &&& ~~~(maskOf (s.onLanes c h))))
  ∧ (∀ (h : Head) (j : BitVec 3) (s : State) (c : Cur), Issues (.waitj h (.j j)) s c →
    ∃ t, exec (.waitj h (.j j)) s = .next t ∧ keeps s t
      ∧ (∀ l ∈ s.onLanes c h, (t.thread c.core c.warp l).plain = { (s.thread c.core c.warp l).plain with st := .waitj j })
      ∧ (∀ l ∈ s.offLanes c h, (t.thread c.core c.warp l).plain =
          { (s.thread c.core c.warp l).plain with st := .ready, pc := (s.thread c.core c.warp l).pc + 12 })
      ∧ t.warp c.core c.warp =
          { s.warp c.core c.warp with retired := (s.warp c.core c.warp).retired + BitVec.ofNat 64 (s.offLanes c h).length }
      ∧ (∀ key, key ≠ warpKey c.core c.warp → t.warps.get Warp.idle key = s.warps.get Warp.idle key)
      ∧ ∀ key, (∀ l ∈ lanesOf c.mask, key ≠ thrKey c.core c.warp l) → t.threads.get Thread.absent key = s.threads.get Thread.absent key)
  ∧ (∀ (core warp : Nat) (s : State), (s.warp core warp).step = false → s.teamStopped core (s.warpTeam core warp) = false →
    let holds (l : Nat) : Prop := (∃ j, (s.thread core warp l).st = .waitj j) ∨ (s.thread core warp l).st = .exited ∨ (s.thread core warp l).st = .absent
    let goes (l : Nat) : Prop := l < 32 ∧ ∃ j, (s.thread core warp l).st = .waitj j
      ∧ ∀ k, k < 32 → (s.jreg core warp j.toNat).getLsbD k = true → holds k
    ∃ t, exec (.waitjComplete core warp) s = .next t ∧ keeps s t
      ∧ (∀ l, goes l → (t.thread core warp l).plain = { (s.thread core warp l).plain with st := .ready, pc := (s.thread core warp l).pc + 12 })
      ∧ (∀ key, (∀ l, goes l → key ≠ thrKey core warp l) → t.threads.get Thread.absent key = s.threads.get Thread.absent key)
      ∧ { t.warp core warp with retired := (s.warp core warp).retired } = s.warp core warp
      ∧ ∀ key, key ≠ warpKey core warp → t.warps.get Warp.idle key = s.warps.get Warp.idle key)
  ∧ (∀ (core warp : Nat) (s : State), s.teamStopped core (s.warpTeam core warp) = true → exec (.waitjComplete core warp) s = .next s)

-- Memory (08, 09) --------------------------------------------------------------------------------------------------

/-- R10, R174 to R177, R197, R199, R201, R214, R355: STS, STP and STSR store each lane's datum little-endian at its own offset, in ascending
lane order, into the window of the team, the private bytes of the thread, and the window of a team of the cluster. Poison stays. An STSR
leaves a request per lane, which crosses the bridge where it must and acts at the bank in its turn; a stale one, and one whose window its
launch no longer has, is dropped. It ends the retryability of its team, whose held stores leave before it, and of the team that it reaches. -/
def Obligations.LocalStores : Prop :=
  ∀ (h : Head) (sz : StSz) (a b : Opd) (ofs : BitVec 24) (s : State) (c : Cur),
    let ls := s.onLanes c h
    let place (l : Nat) : Nat := ((s.begun c h).bits c l a + ofs.signExtend 32).toNat
    let val (l : Nat) : DWord := if sz = .b64 then (s.begun c h).pair c l b else ((s.begun c h).bits c l b).setWidth 64
    let ok : Prop := s.accepts c h (trapSrc 1 a isAddr :: wideSrc trapSrc 2 b (if sz = .b64 then 2 else 1) notPsn)
    (∀ tm, Issues (.sts h sz a b ofs) s c → ok → s.teamOf c.core c.warp = some tm →
      (∀ l ∈ ls, place l % sz.bytes = 0 ∧ place l + sz.bytes ≤ tm.scrLen) →
      ∃ t, exec (.sts h sz a b ofs) s = .next t ∧ Advanced s t c h
        ∧ Stored s.scratch t.scratch ls (fun l => scrKey c.core (tm.scr + place l)) sz.bytes val
        ∧ { t with scratch := s.scratch, threads := s.threads, warps := s.warps } = s)
    ∧ (∀ tm, Issues (.stp h sz a b ofs) s c → ok → c.warp ≠ 64 → s.teamOf c.core c.warp = some tm →
      (∀ l ∈ ls, place l % sz.bytes = 0 ∧ place l + sz.bytes ≤ tm.share) →
      ∃ t, exec (.stp h sz a b ofs) s = .next t ∧ Advanced s t c h
        ∧ Stored s.priv t.priv ls (fun l => privKey c.core c.warp l (place l)) sz.bytes val
        ∧ { t with priv := s.priv, threads := s.threads, warps := s.warps } = s)
    ∧ (Issues (.stp h sz a b ofs) s c → ok → c.warp = 64 → (∀ l ∈ ls, place l % sz.bytes = 0 ∧ place l + sz.bytes ≤ 256) →
      ∃ t, exec (.stp h sz a b ofs) s = .next t ∧ Advanced s t c h
        ∧ Stored s.hpriv t.hpriv ls (fun l => hprivKey c.core (s.tagOf c.core 64).1 l (place l)) sz.bytes val
        ∧ { t with hpriv := s.hpriv, threads := s.threads, warps := s.warps } = s)
    ∧ (∀ at_ : Nat → Nat × Nat × Team, Issues (.stsr h sz a b ofs) s c → ok →
      (∀ l ∈ ls, s.remote c (place l) = some (at_ l) ∧ place l % sz.bytes = 0 ∧ place l % 2 ^ 20 + sz.bytes ≤ (at_ l).2.2.scrLen) →
      let new (l id : Nat) : Req :=
        { requestOf s c l id (place l) plainAttr (.rstore (at_ l).1 (at_ l).2.2.scr (valBytes sz.bytes (val l))) false with pa := place l % 2 ^ 20 }
      (∃ t n pre, exec (.stsr h sz a b ofs) s = .next t ∧ Advanced s t c h
        ∧ t.reqs = pre ++ ls.zipIdx.map (fun p => new p.1 (n + p.2)) ∧ t.nextId = n + ls.length
        ∧ { t with threads := s.threads, warps := s.warps, cores := s.cores, reqs := s.reqs, nextId := s.nextId } = s)
      ∧ (s.retryable c.core c.warp = false → ∃ t, exec (.stsr h sz a b ofs) s = .next t ∧ Advanced s t c h ∧ t.regs = s.regs ∧ t.sregs = s.sregs
        ∧ Sent s t new ls))
    ∧ (∀ (id : Nat) (r : Req) (home win : Nat) (data : List Byte), s.req id = some r → r.act = .rstore home win data → r.stage = .sent →
      data.length ≤ 8 → s.memoryRuns = true → s.wayOpen id = true →
      let arrives (t : State) : Prop := perform exec (.remoteStore id) s = .next t
      let gone : State := { s with reqs := s.reqs.filter fun x => x.id != r.id }
      let here : Prop := s.passes r.ahead r.ctx r.inc = true ∧ s.windowAway r.launch home win = false ∧ s.firstAtBank r = true
      (s.passes r.ahead r.ctx r.inc = false → arrives gone)
      ∧ (s.passes r.ahead r.ctx r.inc = true → (s.windowAway r.launch home win = true ∨ s.firstAtBank r = false) → arrives s)
      ∧ (here → s.windowTeam r.launch home win = none → arrives gone)
      ∧ ∀ m, here → s.windowTeam r.launch home win = some m →
          (m.2.index = r.team ∨ ∀ q, (s.team home m.1).bind (·.recov) = some q → q.retry = false) →
          arrives { gone with scratch := Memory.write s.scratch (scrKey home (m.2.scr + r.pa)) data })

/-- R10, R174 to R177, R181, R197, R201 to R204: LDS, LDP and LDW read the bytes at each lane's own offset, little-endian, widened under the
type; LDSR leaves a request per lane, which LOAD_DATA_RETURN answers. Poisoned data give PSN and a deferred fault, or roll a RECOV team back
(R356). LDW of a group in refresh is another form. -/
def Obligations.LocalLoads : Prop :=
  ∀ (h : Head) (ty : LdTy) (d a : Opd) (ofs : BitVec 24) (s : State) (c : Cur),
    let ls := s.onLanes c h
    let place (l : Nat) : Nat := ((s.begun c h).bits c l a + ofs.signExtend 32).toNat
    let aligned : Prop := ∀ l ∈ ls, place l % loadSize ty = 0
    let ok (i : Instr) : Prop := Issues i s c ∧ s.accepts c h [trapSrc 1 a isAddr] ∧ aligned
    let loads (i : Instr) (bytes : Nat → List Byte) (bad : Nat → Bool) (t : State) : Prop := exec i s = .next t
      ∧ Loaded s t c h d (fun l => if bad l then loadPoison ty else loadWords ty (bytes l)) (fun l => if bad l then some (BitVec.ofNat 64 (place l)) else none)
    let sectors (core : Nat) (tm : Team) (ofs : Nat) : Bool := s.scrPsn.get false (scrSector core (tm.scr + ofs))
    let priv (l : Nat) : Bool := s.privPsn.get false (privSector c.core c.warp l (place l))
    let hpriv (l : Nat) : Bool := s.hprivPsn.get false (hprivSector c.core (s.tagOf c.core 64).1 l (place l))
    (∀ tm, ok (.lds h ty d a ofs) → s.teamOf c.core c.warp = some tm → (∀ l ∈ ls, place l + loadSize ty ≤ tm.scrLen) →
      (tm.recov = none ∨ ∀ l ∈ ls, sectors c.core tm (place l) = false) →
      ∃ t, loads (.lds h ty d a ofs) (fun l => Memory.read s.scratch (scrKey c.core (tm.scr + place l)) (loadSize ty))
        (fun l => sectors c.core tm (place l)) t ∧ KeepsRest s t)
    ∧ (∀ tm, ok (.ldp h ty d a ofs) → c.warp ≠ 64 → s.teamOf c.core c.warp = some tm → (∀ l ∈ ls, place l + loadSize ty ≤ tm.share) →
      (tm.recov = none ∨ ∀ l ∈ ls, priv l = false) →
      ∃ t, loads (.ldp h ty d a ofs) (fun l => Memory.read s.priv (privKey c.core c.warp l (place l)) (loadSize ty)) priv t ∧ KeepsRest s t)
    ∧ (ok (.ldp h ty d a ofs) → c.warp = 64 → (s.recovering c.core 64 = false ∨ ∀ l ∈ ls, hpriv l = false) → (∀ l ∈ ls, place l + loadSize ty ≤ 256) →
      ∃ t, loads (.ldp h ty d a ofs) (fun l => Memory.read s.hpriv (hprivKey c.core (s.tagOf c.core 64).1 l (place l)) (loadSize ty)) hpriv t
        ∧ KeepsRest s t)
    ∧ (∀ tm, ok (.ldw h ty d a ofs) → s.teamOf c.core c.warp = some tm →
      (∀ l ∈ ls, place l + loadSize ty ≤ (s.ctx (s.tagOf c.core c.warp).1).wslen.toNat * 65536 ∧ wsBusy s.time (place l) (loadSize ty) = false) →
      let at_ (l : Nat) : Nat := (s.ctx (s.tagOf c.core c.warp).1).wsbase.toNat * 65536 + place l
      (tm.recov = none ∨ ∀ l ∈ ls, s.wsPsn.get false (wsRow c.core (at_ l)) = false) →
      ∃ t, loads (.ldw h ty d a ofs) (fun l => Memory.read s.wstore (wsKey c.core (at_ l)) (loadSize ty))
        (fun l => s.wsPsn.get false (wsRow c.core (at_ l))) t ∧ KeepsRest s t)
    ∧ (∀ (at_ : Nat → Nat × Nat × Team), ok (.ldsr h ty d a ofs) →
      (∀ l ∈ ls, s.remote c (place l) = some (at_ l) ∧ place l % 2 ^ 20 + loadSize ty ≤ (at_ l).2.2.scrLen) →
      let new (l id : Nat) : Req :=
        { requestOf s c l id (place l) plainAttr (.rload (at_ l).1 (at_ l).2.2.scr ty (lowestDst d ls l) h.yld) false with pa := place l % 2 ^ 20 }
      (∃ t n pre, exec (.ldsr h ty d a ofs) s = .next t ∧ Stepped s t c h (fun _ => none)
        ∧ t.reqs = pre ++ ls.zipIdx.map (fun p => new p.1 (n + p.2)) ∧ t.nextId = n + ls.length
        ∧ { t with threads := s.threads, warps := s.warps, cores := s.cores, reqs := s.reqs, nextId := s.nextId } = s)
      ∧ (s.retryable c.core c.warp = false → ∃ t, exec (.ldsr h ty d a ofs) s = .next t ∧ Stepped s t c h (fun _ => none)
        ∧ t.regs = s.regs ∧ t.sregs = s.sregs ∧ Sent s t new ls))

/-- R183, R188, R197, R201 to R204, R210: a lane of LDG whose line its L1 holds takes its bytes at once; any other leaves a request, which holds
its destination; LDG.S turns a fault of its address or page into PSN and a deferred record. Where a context maps the page twice, once SOFT, the
bytes are free (R191, assumption 14). A line of a STRONG page does not serve while a store of the core to it waits at its home (R230). PREF
changes no register and no byte of memory: each lane that may leaves a request whose data nobody takes, for the L2 only that of a SOFT line
which the die's L2 can hold. -/
def Obligations.GlobalLoads : Prop :=
  ∀ (h : Head) (ord : Option Scope) (spec : Bool) (ty : LdTy) (d a : Opd) (ofs : BitVec 24) (s : State) (c : Cur),
    let ls := s.onLanes c h
    let va (l : Nat) : Nat := ((s.begun c h).pair c l a + ofs.signExtend 64).toNat
    let tag := s.tagOf c.core c.warp
    let page (l : Nat) : Xlat := s.pageFor c.core tag.1 tag.2 (va l)
    let fault (l : Nat) : Option (Byte × DWord) :=
      if !spec then none
      else if (s.begun c h).psnIn c l (wideSrc trapSrc 1 a 2 isAddr) then some (cPoison, 0)
      else if va l % loadSize ty ≠ 0 then some (cMisalign, BitVec.ofNat 64 (va l))
      else match page l with
        | .ok _ p => if p.r then none else some (cProtection, BitVec.ofNat 64 (va l))
        | _ => some (cDataPage, BitVec.ofNat 64 (va l))
    let hit (l : Nat) : Option L1Line :=
      (s.l1Hit c.core tag.1 tag.2 (va l)).filter fun x => !(x.attr.ord == .strong && s.ownStoreWaits c.core x.pa)
    let sector (x : L1Line) (l : Nat) : Bool := x.psn.getD (va l % 128 / 32) false
    let raw (l : Nat) : List Byte := match hit l with
      | some x => (x.data.drop (va l % 128)).take (loadSize ty)
      | none => []
    let open_ (p : Attr) (l : Nat) : Bool := s.twiceMapped tag.1 p (p.base + va l % p.size)
    let draws (attr : Nat → Attr) (l : Nat) : Nat := if (fault l).isNone && open_ (attr l) l then (raw l).length else 0
    let drawn (attr : Nat → Attr) (l : Nat) : Nat := ((ls.takeWhile fun k => k != l).map (draws attr)).sum
    let bytes (attr : Nat → Attr) (l : Nat) : List Byte :=
      s.heldOver c.core c.warp (attr l) ((attr l).base + va l % (attr l).size)
        (if open_ (attr l) l then (List.range (raw l).length).map fun i => Config.freeByte (s.freeCtr + drawn attr l + i) else raw l)
    let misses (l : Nat) : Bool := (hit l).isNone && (fault l).isNone
    (∀ (attr : Nat → Attr), Issues (.ldg h ord spec ty d a ofs) s c →
      (∀ l ∈ ls, ∀ e, (s.begun c h).srcTrap c l (wideSrc trapSrc 1 a 2 isAddr) = some e → spec = true ∧ e.cause = cPoison) →
      (∀ l ∈ ls, fault l = none → va l % loadSize ty = 0 ∧ (attr l).r = true ∧ ∃ oa, page l = .ok oa (attr l)) →
      (∀ x ∈ (s.core c.core).l1, x.stripped = false) →
      (s.recovering c.core c.warp = false ∨ ∀ l ∈ ls, fault l = none → ∀ x, hit l = some x → sector x l = false) →
      ∃ t, exec (.ldg h ord spec ty d a ofs) s = .next t
        ∧ Placed s t c ls (fun l => if misses l then .z else lowestDst d ls l)
            (fun l => match fault l, hit l with
              | some _, _ => loadPoison ty
              | none, some x => if sector x l then loadPoison ty else loadWords ty (bytes attr l)
              | none, none => [])
        ∧ Stepped s t c h (fun l => match fault l, hit l with
              | some f, _ => some f
              | none, some x => if sector x l then some (cEcc, BitVec.ofNat 64 (va l)) else none
              | none, none => none)
        ∧ t.freeCtr = s.freeCtr + (ls.map (draws attr)).sum
        ∧ Sent s { t with freeCtr := s.freeCtr } (fun l id => requestOf s c l id (va l) (attr l) (.load ty (lowestDst d ls l) h.yld) ord.isSome)
            (ls.filter misses))
    ∧ (∀ l2 : Bool, Issues (.pref h l2 a ofs) s c → s.accepts c h (wideSrc trapSrc 1 a 2 isAddr) →
      let wanted (l : Nat) : Option Attr := match page l with
        | .ok _ p =>
          if p.r ∧ (s.l1Hit c.core tag.1 tag.2 (va l)).isNone ∧ (p.tgt = .hbm ∨ p.soft = true)
            ∧ (l2 = true → p.soft = true ∧ softCopied (dieOf c.core) p (p.base + va l % p.size) = true) then some p else none
        | _ => none
      ∃ t, exec (.pref h l2 a ofs) s = .next t ∧ Advanced s t c h ∧ t.regs = s.regs ∧ t.sregs = s.sregs
        ∧ Sent s t (fun l id =>
            { requestOf s c l id (va l) ((wanted l).getD plainAttr) (.load .b32 .z false) false with orphan := true, noInstall := l2 })
          (ls.filter fun l => (wanted l).isSome))

/-- R3, R189, R197, R199, R201, R226, R228, R230, R354: each lane of STG leaves a store request of its bytes, in ascending lane order; the core's
leased copies of the line take them, at whatever address and of whatever context they are, but one under another key leaves; and a fill already
granted to the line installs no older one. In a retryable interval the stores are held. It completes on pages of every kind that it may write,
SOFT ones among them. -/
def Obligations.GlobalStores : Prop :=
  ∀ (h : Head) (ord : Option Scope) (sz : StSz) (a b : Opd) (ofs : BitVec 24) (s : State) (c : Cur) (attr : Nat → Attr),
    let ls := s.onLanes c h
    let va (l : Nat) : Nat := ((s.begun c h).pair c l a + ofs.signExtend 64).toNat
    let tag := s.tagOf c.core c.warp
    let data (l : Nat) : List Byte := valBytes sz.bytes (if sz = .b64 then (s.begun c h).pair c l b else ((s.begun c h).bits c l b).setWidth 64)
    let pa (l : Nat) : Nat := (attr l).base + va l % (attr l).size
    let leased := ls.filter fun l => (attr l).leased
    let granted (r : Req) : Bool := r.core == c.core && r.attr.leased && leased.any (fun l => r.pa / 128 == pa l / 128)
      && (match r.act, r.stage with | .load .., .granted .. => true | _, _ => false)
    let patched (l : Nat) (x : L1Line) : Option L1Line :=
      if x.attr.leased && x.pa == pa l / 128 * 128 then
        if s.pageKey x.ctx x.attr / 2 = s.pageKey tag.1 (attr l) / 2 then some { x with data := patch x.data (pa l % 128) (data l) } else none
      else some x
    Issues (.stg h ord sz a b ofs) s c →
    s.accepts c h (wideSrc trapSrc 1 a 2 isAddr ++ wideSrc trapSrc 2 b (if sz = .b64 then 2 else 1) notPsn) →
    (∀ l ∈ ls, va l % sz.bytes = 0 ∧ (∃ oa, s.pageFor c.core tag.1 tag.2 (va l) = .ok oa (attr l)) ∧ (attr l).w = true ∧ (attr l).doc = false) →
    (∃ t, exec (.stg h ord sz a b ofs) s = .next t ∧ Advanced s t c h ∧ t.regs = s.regs ∧ t.sregs = s.sregs ∧ t.scratch = s.scratch ∧ t.priv = s.priv)
    ∧ ((∀ l ∈ ls, (attr l).soft = false) →
    (∀ x ∈ (s.core c.core).l1, x.stripped = false) →
    ((s.recovering c.core c.warp = false →
      ∃ t, exec (.stg h ord sz a b ofs) s = .next t ∧ Advanced s t c h ∧ t.nextId = s.nextId + ls.length
        ∧ t.reqs = (s.reqs.map fun r => if granted r then { r with noInstall := true } else r)
            ++ ls.zipIdx.map (fun p => requestOf s c p.1 (s.nextId + p.2) (va p.1) (attr p.1) (.store (data p.1)) false)
        ∧ (t.core c.core).l1 = leased.foldl (fun xs l => xs.filterMap (patched l)) (s.core c.core).l1
        ∧ { t.core c.core with l1 := (s.core c.core).l1 } = s.core c.core ∧ (∀ d, d ≠ c.core → t.core d = s.core d)
        ∧ { t with threads := s.threads, warps := s.warps, cores := s.cores, reqs := s.reqs, nextId := s.nextId } = s)
    ∧ (∀ (tm : Team) (r : Recov), s.teamOf c.core c.warp = some tm → tm.recov = some r → r.retry = true →
      (ord = none ∨ ord = some .core) → (∀ l ∈ ls, (attr l).tgt = .hbm) → r.held.length + ls.length ≤ 2048 →
      ∃ t, exec (.stg h ord sz a b ofs) s = .next t ∧ Advanced s t c h
        ∧ t.teamOf c.core c.warp = some { tm with recov := some { r with held := r.held ++ ls.map fun l =>
              { born := s.nextId, warp := c.warp, lane := l, va := va l, pa := pa l, attr := attr l, data := data l } } }
        ∧ { t with threads := s.threads, warps := s.warps, cores := s.cores } = s)))

/-- R201, R203, R291, R311, R181: LOAD_DATA_RETURN writes the words of an outstanding load under their tags, of an atomic its old value, of an
LDSR the bytes of the window in its turn, of a held LDW the row once its group is not in refresh. The bytes that its RECOV team held when a load
left stand over those read (R229, R354). Poisoned data give PSN and a deferred record. A stale or discarded result is dropped. The bytes of a
page that is mapped twice, once SOFT, are free (R191, assumption 14). The words of a result that was outstanding at a commit are written into
the checkpoint as well, in the tiles that it holds (R344, R353). -/
def Obligations.LoadDataReturn : Prop :=
  ∀ (s : State) (id : Nat) (r : Req) (c : Cur), s.req id = some r → c.core = r.core → c.warp = r.warp →
    let ret (bs : List Byte) : List Byte :=
      if s.twiceMapped r.ctx r.attr r.pa then (List.range bs.length).map fun i => Config.freeByte (s.freeCtr + i) else bs
    let lay (bs : List Byte) : List Byte := bs.zipIdx.map fun p => ((r.laid.find? fun x => x.1 == r.pa + p.2).map (·.2)).getD p.1
    let tile (n : BitVec 8) : Nat := vTile (s.warp r.core r.warp).tbase n.toNat
    let poisoned (psn : Bool) (t : State) : Prop := t.thread r.core r.warp r.lane =
      if psn then { (s.thread r.core r.warp r.lane).defer cEcc (BitVec.ofNat 64 r.va) with yld := (t.thread r.core r.warp r.lane).yld }
      else { s.thread r.core r.warp r.lane with yld := (t.thread r.core r.warp r.lane).yld }
    let gives (d : Opd) (ws : List TWord) (t : State) : Prop := exec (.loadDataReturn id) s = .next t
      ∧ Placed s t c [r.lane] (fun _ => d) (fun _ => ws) ∧ t.reqs = s.reqs.filter (fun x => x.id != id)
      ∧ (∀ key, key ≠ thrKey r.core r.warp r.lane → t.threads.get Thread.absent key = s.threads.get Thread.absent key)
      ∧ { t.warp r.core r.warp with backoff := (s.warp r.core r.warp).backoff, retired := (s.warp r.core r.warp).retired } = s.warp r.core r.warp
      ∧ (∀ key, key ≠ warpKey r.core r.warp → t.warps.get Warp.idle key = s.warps.get Warp.idle key)
      ∧ (∃ joined : TeamImage → TeamImage,
          t.ckpts = s.ckpts.map (fun i => if i.launch = r.launch ∧ i.index = r.team ∧ r.id < i.since then joined i else i)
          ∧ ∀ i ∈ s.ckpts, i.launch = r.launch → i.index = r.team → r.id < i.since → ∀ k x, ws[k]? = some x →
              (∀ n, d.next k = .v n → i.tiles.contains (tile n) = true →
                (joined i).img.regs.get TWord.zero (regKey r.core (tile n) (vWord r.lane n.toNat)) = x)
              ∧ (∀ n, d.next k = .s n → (joined i).img.sregs.get TWord.zero (sregKey r.core r.warp n.toNat) = x))
      ∧ { t with regs := s.regs, sregs := s.sregs, threads := s.threads, warps := s.warps, reqs := s.reqs, ckpts := s.ckpts,
                 freeCtr := s.freeCtr } = s
    let fresh (d : Opd) : Prop := r.orphan = false ∧ r.window = none ∧ s.staleAt r = false ∧ s.isResident r.core r.warp r.launch r.team = true
      ∧ r.lane < 32 ∧ s.recovering r.core r.warp = false
      ∧ ∀ k, k < 2 → ∀ n, d.next k = .v n → s.owner r.core (tile n) = ownerCode r.warp
          ∨ ((∀ i ∈ s.images, i.core = r.core → i.tiles.contains (tile n) = false) ∧ s.shadowed r.ctx = false)
    (∀ ty d y line psn, r.act = .load ty d y → r.stage = .filled line psn → fresh d →
      let bad := psn.getD (r.va % 128 / 32) false
      ∃ t, gives d (if bad then loadPoison ty else loadWords ty (lay (ret ((line.drop (r.va % 128)).take (loadSize ty))))) t ∧ poisoned bad t)
    ∧ (∀ ty d y, r.act = .load ty d y → r.stage = .sent → fresh d → (r.attr.tgt ≠ .hbm ∧ r.attr.soft = false) →
      s.passes r.ahead r.ctx r.inc = true → s.peerKnown r.attr = true →
      ∃ t, gives d (loadWords ty (lay (ret (s.readHome (s.pageKey r.ctx r.attr) r.attr r.pa (loadSize ty))))) t ∧ poisoned false t)
    ∧ (∀ op w64 u d v cmp old psn, r.act = .atom op w64 u d v cmp → r.stage = .result old psn → fresh d →
      let tag : Tag := if u then .w32 else .i32
      let val : DWord := BitVec.ofNat 64 ((ret (valBytes (if w64 then 8 else 4) old)).foldr (fun b n => b.toNat + 256 * n) 0)
      let low : TWord := { bits := val.setWidth 32, tag }
      ∃ t, gives d (if psn then List.replicate (if w64 then 2 else 1) TWord.poison
          else if w64 then [low, { bits := val.extractLsb' 32 32, tag }] else [low]) t ∧ poisoned psn t)
    ∧ (∀ ty d ofs y, r.act = .weight ty d ofs y → r.stage = .sent → fresh d → wsBusy s.time ofs (loadSize ty) = false →
      (s.warp r.core r.warp).step = false → (s.wsRead r.core r.ctx ofs (loadSize ty)).2 = false →
      ∃ t, gives d (loadWords ty (s.wsRead r.core r.ctx ofs (loadSize ty)).1) t
        ∧ (t.thread r.core r.warp r.lane).st = .ready ∧ (t.thread r.core r.warp r.lane).pc = (s.thread r.core r.warp r.lane).pc + 12)
    ∧ (∀ home win ty d y m, r.act = .rload home win ty d y → r.stage = .sent → fresh d → r.pa % loadSize ty = 0 →
      s.passes r.ahead r.ctx r.inc = true → s.windowAway r.launch home win = false → s.firstAtBank r = true →
      s.windowTeam r.launch home win = some m →
      let bad := s.scrPsn.get false (scrSector home (m.2.scr + r.pa))
      ∃ t, gives d (if bad then loadPoison ty else loadWords ty (Memory.read s.scratch (scrKey home (m.2.scr + r.pa)) (loadSize ty))) t
        ∧ poisoned bad t)
    ∧ ((r.orphan = true ∨ s.staleAt r = true) → (∃ ty d y line psn, r.act = .load ty d y ∧ r.stage = .filled line psn) →
      ∃ n, exec (.loadDataReturn id) s = .next { s with reqs := s.reqs.filter (fun x => x.id != id), freeCtr := n })

/-- R190, R205 to R207: ATOM leaves one request per lane; ATOMIC_PERFORM acts at the home by Table 9.4, indivisibly; ATOMS and SEM act at
issue, lane by lane, and each returns the value before its action. -/
def Obligations.AtomicsAndSemaphores : Prop :=
  let new (op : AtOp) (w64 u : Bool) (old v cmp : DWord) : DWord :=
    let m : Nat := if w64 then 2 ^ 64 else 2 ^ 32
    let o := old.toNat % m
    let x := v.toNat % m
    let num (n : Nat) : Int := if u ∨ 2 * n < m then (n : Int) else n - m
    BitVec.ofNat 64 (match op with
      | .add => (o + x) % m
      | .min => if num x < num o then x else o
      | .max => if num o < num x then x else o
      | .and => o &&& x
      | .or => o ||| x
      | .xor => o ^^^ x
      | .exch => x
      | .cas => if o = cmp.toNat % m then x else o
      | .inc => if o ≥ x then 0 else (o + 1) % m
      | .dec => if o = 0 ∨ o > x then x else o - 1)
  let words (w64 u : Bool) (v : DWord) : List TWord :=
    let tag : Tag := if u then .w32 else .i32
    if w64 then [{ bits := v.setWidth 32, tag }, { bits := v.extractLsb' 32 32, tag }] else [{ bits := v.setWidth 32, tag }]
  ∀ (h : Head) (op : AtOp) (w64 u : Bool) (d a b : Opd) (ofs : BitVec 24) (s : State),
    let n : Nat := if w64 then 8 else 4
    let count : Nat := if op = .cas then 2 * (n / 4) else n / 4
    (∀ (c : Cur) (ord : Option (Role × Scope)) (attr : Nat → Attr),
      let ls := s.onLanes c h
      let value (l k : Nat) : DWord := if w64 then (s.begun c h).pair c l (b.next k) else ((s.begun c h).bits c l (b.next k)).setWidth 64
      let va (l : Nat) : Nat := ((s.begun c h).pair c l a + ofs.signExtend 64).toNat
      Issues (.atom h op w64 u ord d a b ofs) s c → s.accepts c h (wideSrc trapSrc 1 a 2 isAddr ++ wideSrc trapSrc 2 b count notPsn) →
      s.recovering c.core c.warp = false →
      (∀ l ∈ ls, va l % n = 0 ∧ (∃ oa, s.pageFor c.core (s.tagOf c.core c.warp).1 (s.tagOf c.core c.warp).2 (va l) = .ok oa (attr l))
        ∧ (attr l).r = true ∧ (attr l).w = true ∧ (attr l).cmp = false ∧ (attr l).doc = false
        ∧ ((attr l).tgt = .host → op = .add ∨ op = .exch ∨ op = .cas)) →
      ∃ t, exec (.atom h op w64 u ord d a b ofs) s = .next t ∧ Advanced s t c h ∧ t.regs = s.regs ∧ t.sregs = s.sregs
        ∧ Sent s t (fun l id => requestOf s c l id (va l) (attr l)
            (.atom op w64 u (lowestDst d ls l) (value l (if op = .cas then n / 4 else 0)) (if op = .cas then value l 0 else 0))
            (match ord with | some (.rel, _) | none => false | _ => true)) ls)
    ∧ (∀ (id : Nat) (r : Req) (v cmp : DWord), s.req id = some r → r.act = .atom op w64 u d v cmp → r.stage = .sent →
      s.passes r.ahead r.ctx r.inc = true →
      let key := s.pageKey r.ctx r.attr
      let old := BitVec.ofNat 64 (leNat (s.readHome key r.attr r.pa n))
      let answer (v : DWord) (psn : Bool) : ReqStage := if s.peerKnown r.attr then .result v psn else .lost
      (s.mayPerform r = false → exec (.atomicPerform id) s = .next s)
      ∧ (s.mayPerform r = true → s.homePsn r.attr r.pa n = true →
        exec (.atomicPerform id) s = .next { s with reqs := s.reqs.map fun x => if x.id = r.id then { r with stage := answer 0 true } else x })
      ∧ (s.mayPerform r = true → s.homePsn r.attr r.pa n = false →
        let w := s.writeHome key r.attr r.pa (valBytes n (new op w64 u old v cmp))
        exec (.atomicPerform id) s = .next { w with reqs := w.reqs.map fun x => if x.id = r.id then { r with stage := answer old false } else x }))
    ∧ (∀ (c : Cur) (tm : Team),
      let ls := s.onLanes c h
      let value (l k : Nat) : DWord := if w64 then (s.begun c h).pair c l (b.next k) else ((s.begun c h).bits c l (b.next k)).setWidth 64
      let place (l : Nat) : Nat := ((s.begun c h).bits c l a + ofs.signExtend 32).toNat
      let key (l : Nat) : Nat := scrKey c.core (tm.scr + place l)
      let old (m : Memory) (l : Nat) : DWord := BitVec.ofNat 64 (leNat (Memory.read m (key l) n))
      let after (m : Memory) (l : Nat) : Memory := Memory.write m (key l)
        (valBytes n (new op w64 u (old m l) (value l (if op = .cas then n / 4 else 0)) (value l 0)))
      Issues (.atoms h op w64 u d a b ofs) s c → s.accepts c h (trapSrc 1 a isAddr :: wideSrc trapSrc 2 b count notPsn) →
      s.teamOf c.core c.warp = some tm →
      (∀ l ∈ ls, place l % n = 0 ∧ place l + n ≤ tm.scrLen ∧ s.scrPsn.get false (scrSector c.core (tm.scr + place l)) = false) →
      ∃ t, exec (.atoms h op w64 u d a b ofs) s = .next t ∧ Advanced s t c h
        ∧ Placed s t c ls (lowestDst d ls) (fun l => words w64 u (old ((ls.takeWhile (· ≠ l)).foldl after s.scratch) l))
        ∧ t.scratch = ls.foldl after s.scratch
        ∧ { t with regs := s.regs, sregs := s.sregs, scratch := s.scratch, threads := s.threads, warps := s.warps } = s)
    ∧ (∀ (c : Cur) (sop : SemOp) (num : Word),
      let ls := s.onLanes c h
      let key := semKey c.core (((s.teamOf c.core c.warp).map (·.sem)).getD 0) num.toNat
      let step (x : Word) (l : Nat) : Word := match sop with
        | .add v => x + (s.begun c h).bits c l v
        | .rd => x
        | .cas e v => if x = (s.begun c h).bits c l e then (s.begun c h).bits c l v else x
      Issues (.sem h sop d num) s c →
      s.accepts c h (match sop with | .add v => [trapSrc 1 v notPsn] | .rd => [] | .cas e v => [trapSrc 1 e notPsn, trapSrc 2 v notPsn]) →
      ∃ t, exec (.sem h sop d num) s = .next t ∧ Advanced s t c h
        ∧ Placed s t c ls (lowestDst d ls) (fun l => [{ bits := (ls.takeWhile (· ≠ l)).foldl step (s.sems.get 0 key), tag := .w32 }])
        ∧ t.sems.get 0 key = ls.foldl step (s.sems.get 0 key) ∧ (∀ k, k ≠ key → t.sems.get 0 k = s.sems.get 0 k)
        ∧ { t with regs := s.regs, sregs := s.sregs, sems := s.sems, threads := s.threads, warps := s.warps } = s)

/-- R192, R208, R209, R341, R355: every FENCE and WBR writes the dirty SOFT bytes that it covers back as deep as its scope goes, a wide one after
it has ended the interval of its RECOV team; its threads then go on, wait for the acknowledgements of bytes that left for a target, or take
WB_FAULT where a page may no longer be written. With no byte dirty nothing else changes; over one line of the L1 the home takes its bytes.
INVR drops the SOFT sectors of each lane's range, dirty ones with them. -/
def Obligations.Fences : Prop :=
  ∀ (h : Head) (s : State) (c : Cur),
    let ls := s.onLanes c h
    let tag := s.tagOf c.core c.warp
    let clean (range : Nat → Bool) : Prop :=
      (∀ x ∈ (s.core c.core).l1, x.ctx = tag.1 → x.inc = tag.2 → x.attr.soft = true → ∀ i, x.dirty[i]? = some true → range (x.va + i) = false)
      ∧ (∀ x ∈ s.l2, x.die = dieOf c.core → x.ctx = tag.1 → x.inc = tag.2 → ∀ i, x.dirty[i]? = some true → range (x.va + i) = false)
      ∧ (∀ r ∈ s.reqs, dieOf r.core = dieOf c.core → r.ctx = tag.1 → r.inc = tag.2 → ∀ data mask by_, r.act = .writeback data mask by_ →
          ∀ i, mask[i]? = some true → range (r.va + i) = false)
    let within (ea n va : Nat) : Bool := n != 0 && decide (ea / 32 * 32 ≤ va ∧ va < (ea + n + 31) / 32 * 32)
    let quiet (i : Instr) : Prop := ∃ t, exec i s = .next t ∧ Advanced s t c h ∧ { t with threads := s.threads, warps := s.warps } = s
    let depth (sc : Scope) : Depth := match sc with | .core => .stay | .die => .die | _ => .home
    let ended : State := (s.begun c h).endRetry c.core (s.warpTeam c.core c.warp)
    let waits (ids : List Nat) (l : Nat) (t : State) : Prop :=
      (t.thread c.core c.warp l).plain = { (s.thread c.core c.warp l).plain with st := .acks ids }
    (∀ sc, Issues (.fence h .acq sc) s c → quiet (.fence h .acq sc))
    ∧ (∀ kind sc l rest, kind ≠ .acq → Issues (.fence h kind sc) s c → ls = l :: rest →
      let x := (if sc = .pkg ∨ sc = .system then ended else s.begun c h).flush c.core c.warp l tag.1 tag.2 (depth sc) fun _ => true
      let ids := x.s.unacked c.core tag.1 tag.2 fun _ => true
      (x.failed = none → ids = [] → ∃ t, exec (.fence h kind sc) s = .next t ∧ Advanced s t c h
        ∧ t = { x.s with threads := t.threads, warps := t.warps })
      ∧ (x.failed = none → ids ≠ [] → ∃ t, exec (.fence h kind sc) s = .next t ∧ (∀ l ∈ ls, waits ids l t)
        ∧ t = { x.s with threads := t.threads })
      ∧ (∀ va, x.failed = some va → ∃ t, exec (.fence h kind sc) s = .next t
        ∧ t = x.s.takeTraps c.core c.warp (ls.map fun l => (l, Trap.at_ cWbFault va 0))))
    ∧ (∀ sc a b ofs, Issues (.wbr h sc a b ofs) s c → s.accepts c h (wideSrc trapSrc 1 a 2 isAddr ++ [trapSrc 2 b isAddr]) → ls ≠ [] →
      let range (l : Nat) : Nat → Bool := within ((s.begun c h).pair c l a + ofs.signExtend 64).toNat ((s.begun c h).bits c l b).toNat
      let run (y : State) (l : Nat) : Written := y.flush c.core c.warp l tag.1 tag.2 (if sc = .die then .die else .home) (range l)
      let before (l : Nat) : State := (ls.takeWhile (· ≠ l)).foldl (fun y l => (run y l).s) ended
      let ids (l : Nat) : List Nat := (run (before l) l).s.unacked c.core tag.1 tag.2 (range l)
      let all := ls.foldl (fun y l => (run y l).s) ended
      ((∀ l ∈ ls, (run (before l) l).failed = none) →
        ∃ t, exec (.wbr h sc a b ofs) s = .next t ∧ t = { all with threads := t.threads, warps := t.warps }
          ∧ (∀ l ∈ ls, ids l = [] → (t.thread c.core c.warp l).plain =
              { (s.thread c.core c.warp l).plain with st := .ready, pc := (s.thread c.core c.warp l).pc + 12 })
          ∧ (∀ l ∈ ls, ids l ≠ [] → waits (ids l) l t)
          ∧ ((∀ l ∈ ls, ids l = []) → Advanced s t c h))
      ∧ ((∃ l ∈ ls, (run (before l) l).failed ≠ none) → c.warp ≠ 64 →
        ∃ t, exec (.wbr h sc a b ofs) s = .next t
          ∧ ∀ l ∈ ls, ∀ va, (run (before l) l).failed = some va → (t.thread c.core c.warp l).st = .parked
            ∧ (t.thread c.core c.warp l).pc = (s.thread c.core c.warp l).pc
            ∧ (t.thread c.core c.warp l).record = some (s.trapRecord c.core c.warp l (Trap.at_ cWbFault va 0))))
    ∧ (∀ kind sc, kind ≠ .acq → Issues (.fence h kind sc) s c → s.recovering c.core c.warp = false → clean (fun _ => true) →
      quiet (.fence h kind sc))
    ∧ (∀ kind (x : L1Line), kind ≠ .acq → Issues (.fence h kind .die) s c → s.recovering c.core c.warp = false → ls ≠ [] →
      (s.core c.core).l1 = [x] → x.ctx = tag.1 → x.inc = tag.2 → x.attr.soft = true → x.va % 128 = 0 → x.stripped = false →
      x.attr.tgt = .hbm → homeDie x.pa = dieOf c.core → x.dirty.contains true = true →
      s.passes (dieCps (dieOf c.core) x.attr x.pa) tag.1 tag.2 = true →
      (∀ r ∈ s.reqs, ∀ data mask by_, r.act ≠ .writeback data mask by_) →
      (x.attr.w = true →
        let w := s.writeMasked (s.pageKey tag.1 x.attr) x.attr (x.pa / 128 * 128) x.dirty x.data
        ∃ t, exec (.fence h kind .die) s = .next t ∧ Advanced s t c h
          ∧ (t.core c.core).l1 = [{ x with dirty := x.dirty.map (fun _ => false), by_ := [] }] ∧ (∀ d, d ≠ c.core → t.core d = s.core d)
          ∧ { t with threads := s.threads, warps := s.warps, cores := s.cores } = { w with threads := s.threads, warps := s.warps, cores := s.cores })
      ∧ (x.attr.w = false → c.warp ≠ 64 →
        ∃ t, exec (.fence h kind .die) s = .next t
          ∧ Trapped s t c ls (s.offLanes c h) (fun _ => Trap.at_ cWbFault (x.va + x.dirty.findIdx (· == true)) 0) cWbFault false))
    ∧ (∀ sc a b ofs, Issues (.wbr h sc a b ofs) s c → s.accepts c h (wideSrc trapSrc 1 a 2 isAddr ++ [trapSrc 2 b isAddr]) →
      s.recovering c.core c.warp = false →
      (∀ l ∈ ls, clean (within ((s.begun c h).pair c l a + ofs.signExtend 64).toNat ((s.begun c h).bits c l b).toNat)) →
      quiet (.wbr h sc a b ofs))
    ∧ (∀ sc a b ofs, Issues (.invr h sc a b ofs) s c → s.accepts c h (wideSrc trapSrc 1 a 2 isAddr ++ [trapSrc 2 b isAddr]) →
      let range (l : Nat) : Nat → Bool := within ((s.begun c h).pair c l a + ofs.signExtend 64).toNat ((s.begun c h).bits c l b).toNat
      let hits (r : Req) (l : Nat) : Bool := (List.range 4).any fun i => range l (r.va / 128 * 128 + 32 * i)
      ∃ t, exec (.invr h sc a b ofs) s = .next t ∧ Advanced s t c h
        ∧ (t.core c.core).l1 = ls.foldl (fun k l => (k.map fun x =>
            if x.ctx == tag.1 && x.inc == tag.2 && x.attr.soft then x.invalidate (range l) else x).filter fun x => x.valid.contains true || x.dirty.contains true) (s.core c.core).l1
        ∧ t.l2 = (if sc = .die then s.l2 else ls.foldl (fun k l => (k.map fun x =>
            if x.die == dieOf c.core && x.ctx == tag.1 && x.inc == tag.2 then x.invalidate (range l) else x).filter fun x => x.valid.contains true || x.dirty.contains true) s.l2)
        ∧ t.reqs = (s.reqs.map fun r =>
            if r.core == c.core && r.ctx == tag.1 && r.inc == tag.2 && r.attr.soft && ls.any (hits r) && (match r.act with | .load .. => true | _ => false)
            then { r with noInstall := true, noL2 := r.noL2 || sc != .die } else r)
        ∧ { t.core c.core with l1 := (s.core c.core).l1 } = s.core c.core ∧ (∀ d, d ≠ c.core → t.core d = s.core d)
        ∧ { t with threads := s.threads, warps := s.warps, cores := s.cores, l2 := s.l2, reqs := s.reqs } = s)
    ∧ (∀ (x : L1Line) (range : Nat → Bool), x.valid.length = 4 → ∀ i, i < 4 →
      (x.invalidate range).valid[i]? = x.valid[i]?.map (fun v => v && !range (x.va + 32 * i)))

/-- R211 to R217, R226, R236: CPY and CPYT start one copy per lane between the places that its operands name, with its posting; it waits for what
its thread accessed before, and for the stores of its core that others have been ordered after. A copy to global memory or to a remote window
first ends the interval of its RECOV team; the stores that the team still holds stand before what it reads (R388). COPY_COMPLETE moves the
units that are left, between windows and global memory, writes the status word (OK, POISON, FAULT or PARTIAL with the units moved) and posts to
the barrier; a unit for an address outside the package leaves as a request, for which the copy waits; across the bridge a unit passes the
checkpoint there (R10). Which tags a length and a posting offset accept, and that the offset is checked under POST alone, are the model's
choices (assumption 23). -/
def Obligations.Copies : Prop :=
  ∀ (h : Head) (post : Bool) (d a b cc : Opd) (s : State),
    let laid (y : State) (c : Cur) : List Held := match y.teamOf c.core c.warp with
      | some { recov := some r, .. } => r.held
      | _ => []
    let after (y : State) (c : Cur) (l : Nat) : List Nat :=
      ((y.earlier c.core c.warp l) ++ y.reqs.filter fun r => r.core == c.core && r.seen && r.unfixed).map (·.id)
    (∀ (c : Cur) (tm : Team) (dk sk : CKind),
      let ls := s.onLanes c h
      let addr (kd : CKind) (o : Opd) (l : Nat) : Nat := if kd = .gm then ((s.begun c h).pair c l o).toNat else ((s.begun c h).bits c l o).toNat
      let len (l : Nat) : Nat := ((s.begun c h).bits c l cc).toNat
      let bar (l : Nat) : Nat := ((s.begun c h).bits c l (cc.next 1)).toNat
      let place (kd : CKind) (o : Opd) (l : Nat) : CopyEnd := match kd with
        | .gm => .gm (addr kd o l)
        | .sp => .sp c.core tm.scr (addr kd o l)
        | .ws => .ws (addr kd o l)
        | .rs => match s.remote c (addr kd o l) with
          | some m => .sp m.1 m.2.2.scr (addr kd o l % 2 ^ 20)
          | none => .gm 0
      let fits (kd : CKind) (o : Opd) (l : Nat) : Prop := addr kd o l % 16 = 0 ∧ match kd with
        | .gm => True
        | .sp => addr kd o l + len l ≤ tm.scrLen
        | .ws => addr kd o l + len l ≤ (s.ctx (s.tagOf c.core c.warp).1).wslen.toNat * 65536
        | .rs => ∃ m, s.remote c (addr kd o l) = some m ∧ addr kd o l % 2 ^ 20 + len l ≤ m.2.2.scrLen
      let y : State := if (dk = .gm ∨ dk = .rs) ∧ ls ≠ [] then (s.begun c h).endRetry c.core (s.warpTeam c.core c.warp) else s.begun c h
      Issues (.cpy h dk sk post d a b cc) s c → s.teamOf c.core c.warp = some tm →
      (dk = .rs → (∀ d i x, s.team d i = some x → x.recov = none)) →
      s.accepts c h (wideSrc trapSrc 1 a (if dk = .gm then 2 else 1) isAddr ++ wideSrc trapSrc 2 b (if sk = .gm then 2 else 1) isAddr
        ++ trapSrc (cField b) cc notPsn :: (if post then [trapSrc (cField b) (cc.next 1) isAddr] else [])) →
      (∀ l ∈ ls, fits dk a l ∧ fits sk b l ∧ len l % 16 = 0
        ∧ (post = true → bar l % 32 = 0 ∧ bar l + 32 ≤ (s.postPlace c (place dk a l)).2.2)) →
      ∃ t, exec (.cpy h dk sk post d a b cc) s = .next t ∧ Advanced s t c h ∧ t.nextId = y.nextId + ls.length
        ∧ t.copies = s.copies ++ ls.zipIdx.map (fun p =>
            { id := y.nextId + p.2, core := c.core, warp := c.warp, lane := p.1, d := some d, queue := none, order := 0, cmpl := 0, irq := false,
              launch := tm.launch, team := tm.index, ctx := (s.tagOf c.core c.warp).1, inc := (s.tagOf c.core c.warp).2,
              job := .span (place dk a p.1) (place sk b p.1) (len p.1), moved := [], bad := [],
              post := if post then some ((s.postPlace c (place dk a p.1)).1, (s.postPlace c (place dk a p.1)).2.1, bar p.1) else none,
              page := none, denied := [], orphan := false, pages := [], after := after y c p.1, laid := laid y c })
        ∧ { t with threads := y.threads, warps := y.warps, copies := y.copies, nextId := y.nextId } = y)
    ∧ (∀ (c : Cur) (tm : Team),
      let ls := s.onLanes c h
      let desc (l : Nat) : Nat := ((s.begun c h).pair c l a).toNat
      let o (l : Nat) : Nat := ((s.begun c h).bits c l b).toNat
      let bar (l : Nat) : Nat := ((s.begun c h).bits c l cc).toNat
      Issues (.cpyt h post d a b cc) s c → s.teamOf c.core c.warp = some tm →
      s.accepts c h (wideSrc trapSrc 1 a 2 isAddr ++ trapSrc 2 b isAddr :: (if post then [trapSrc (cField b) cc isAddr] else [])) →
      (∀ l ∈ ls, desc l % 64 = 0 ∧ o l % 16 = 0 ∧ (post = true → bar l % 32 = 0 ∧ bar l + 32 ≤ tm.scrLen)) →
      ∃ t, exec (.cpyt h post d a b cc) s = .next t ∧ Advanced s t c h ∧ t.nextId = s.nextId + ls.length
        ∧ t.copies = s.copies ++ ls.zipIdx.map (fun p =>
            { id := s.nextId + p.2, core := c.core, warp := c.warp, lane := p.1, d := some d, queue := none, order := 0, cmpl := 0, irq := false,
              launch := tm.launch, team := tm.index, ctx := (s.tagOf c.core c.warp).1, inc := (s.tagOf c.core c.warp).2,
              job := .tensor (desc p.1) (.sp c.core tm.scr (o p.1)) [], moved := [], bad := [],
              post := if post then some (c.core, tm.scr, bar p.1) else none, page := none, denied := [], orphan := false,
              pages := [], after := after s c p.1, laid := laid s c })
        ∧ { t with threads := s.threads, warps := s.warps, copies := s.copies, nextId := s.nextId } = s)
    ∧ (∀ (k : Copy), s.copies.find? (fun x => x.id == k.id) = some k → k.queue = none → k.page = none → s.copyMay k = true →
      k.d = some d → k.orphan = false → k.pages = [] → k.laid = [] → s.isResident k.core k.warp k.launch k.team = true →
      (∀ r ∈ s.reqs, ∀ u bs, r.act ≠ .unit k.id u bs) →
      (∀ d i x, s.team d i = some x → x.recov = none) → (∀ home win ofs, k.post = some (home, win, ofs) → ∀ m, s.windowTeam k.launch home win = some m → m.2.recov = none) →
      (∀ i ∈ s.ckpts, ¬ (i.launch = k.launch ∧ i.index = k.team ∧ k.id < i.since)) →
      (∀ n, d = .v n → let tile := vTile (s.warp k.core k.warp).tbase n.toNat
        s.owner k.core tile = ownerCode k.warp ∨ ((∀ i ∈ s.images, i.core = k.core → i.tiles.contains tile = false) ∧ s.shadowed k.ctx = false)) →
      let gone (y : State) : State := { y with copies := y.copies.filter fun x => x.id != k.id }
      let leave (y : State) (a : Attr) (va pa : Nat) (act : ReqAct) : State :=
        { y with
          nextId := y.nextId + 1
          reqs := y.reqs ++
            [{ id := y.nextId, core := k.core, warp := k.warp, lane := k.lane, launch := k.launch, team := k.team, ctx := k.ctx, inc := k.inc,
               attr := a, va, pa, act, stage := .sent, passed := 0, acq := false, noInstall := false, noL2 := false, orphan := false, seen := false,
               freed := false, window := none, sentAt := y.time, from_ := k.warp, laid := [], turn := none }] }
      let posted (y : State) (n : Nat) (err : Bool) : State := match k.post with
        | none => y
        | some (home, win, ofs) =>
          if home = k.core then
            if (s.windowTeam k.launch home win).isNone then y
            else
              let obj := Bar.ofBytes (Memory.read y.scratch (scrKey home (win + ofs)) 24)
              { y with scratch := Memory.write y.scratch (scrKey home (win + ofs)) (obj.act (.post n err)).bytes }
          else leave y plainAttr ofs ofs (.barrier home win ofs (.post n err) none)
      let ends (y : State) (code n : Nat) : Prop := exec (.copyComplete k.id) s =
        .next ((posted (gone y) (16 * n) (code == 1 || code == 3)).setOpd k.core k.warp k.lane d { bits := BitVec.ofNat 32 (code + 16 * n), tag := .w32 })
      let ok (va : Nat) (at_ : Attr) : Prop := (∃ oa, s.translate (dieOf k.core) k.ctx va = .ok oa at_) ∧ k.denied.contains (2 * (va / 4096) + 1) = false
        ∧ s.peerKnown at_ = true ∧ s.twiceMapped k.ctx at_ (at_.base + va % at_.size) = false
      (s.passes [cpCopy (dieOf k.core)] k.ctx k.inc = false → exec (.copyComplete k.id) s = .next (gone s))
      ∧ (s.passes [cpCopy (dieOf k.core)] k.ctx k.inc = true →
        (∀ dst src len, k.job = .span dst src len → (∀ u, u < len / 16 → k.moved.contains u = true) → ends s (if k.bad = [] then 0 else 2) (len / 16))
        ∧ (∀ dst src len u, k.job = .span dst (.gm src) len → u < len / 16 → (∀ i, i < u → k.moved.contains i = true) → k.moved.contains u = false →
          s.translate (dieOf k.core) k.ctx (src + 16 * u) = .fail → ends s (if u = 0 then 1 else 3) u)
        ∧ (∀ dst src len u oa at_, k.job = .span (.gm dst) src len → u < len / 16 → (∀ i, i < u → k.moved.contains i = true) →
          k.moved.contains u = false → s.translate (dieOf k.core) k.ctx (dst + 16 * u) = .ok oa at_ → (at_.w = false ∨ at_.doc = true) →
          ends s (if u = 0 then 1 else 3) u)
        ∧ (∀ c1 w1 o1 c2 w2 o2 n, k.job = .span (.sp c1 w1 o1) (.sp c2 w2 o2) (16 * n) → k.moved = [] → k.bad = [] →
          let x := scrKey c1 (w1 + o1)
          let z := scrKey c2 (w2 + o2)
          (x = z ∨ x + 16 * n ≤ z ∨ z + 16 * n ≤ x) → (c1 ≠ c2 ∨ w1 ≠ w2 ∨ o1 = o2 ∨ o1 + 16 * n ≤ o2 ∨ o2 + 16 * n ≤ o1) →
          s.passes (bridgeCps (dieOf k.core) (dieOf c1) ++ bridgeCps (dieOf k.core) (dieOf c2)) k.ctx k.inc = true →
          (∀ u, u < n → s.scrPsn.get false (scrSector c2 (w2 + (o2 + 16 * u))) = false) →
          ends { s with scratch := Memory.write s.scratch x (Memory.read s.scratch z (16 * n)) } 0 n)
        ∧ (∀ (c1 w1 o1 src n : Nat) (at_ : Nat → Attr), k.job = .span (.sp c1 w1 o1) (.gm src) (16 * n) → k.moved = [] → k.bad = [] →
          let pa (u : Nat) : Nat := (at_ u).base + (src + 16 * u) % (at_ u).size
          (∀ u, u < n → ok (src + 16 * u) (at_ u) ∧ (at_ u).r = true ∧ s.homePsn (at_ u) (pa u) 16 = false
            ∧ s.passes (bridgeCps (dieOf k.core) (dieOf c1) ++ dieCps (dieOf k.core) (at_ u) (pa u)) k.ctx k.inc = true) →
          let bs := (List.range n).flatMap fun u => s.readHome (s.pageKey k.ctx (at_ u)) (at_ u) (pa u) 16
          ends { s with scratch := Memory.write s.scratch (scrKey c1 (w1 + o1)) bs } 0 n)
        ∧ (∀ (dst c2 w2 o2 n : Nat) (at_ : Nat → Attr), k.job = .span (.gm dst) (.sp c2 w2 o2) (16 * n) → k.moved = [] → k.bad = [] →
          let pa (u : Nat) : Nat := (at_ u).base + (dst + 16 * u) % (at_ u).size
          let bs (u : Nat) : List Byte := Memory.read s.scratch (scrKey c2 (w2 + (o2 + 16 * u))) 16
          let sent (u : Nat) : State := (List.range u).foldl (fun y u => y.writeHome (s.pageKey k.ctx (at_ u)) (at_ u) (pa u) (bs u)) s
          (∀ u, u < n → ok (dst + 16 * u) (at_ u) ∧ (at_ u).w = true ∧ (at_ u).doc = false
            ∧ (∃ oa, (sent u).translate (dieOf k.core) k.ctx (dst + 16 * u) = .ok oa (at_ u))
            ∧ s.scrPsn.get false (scrSector c2 (w2 + (o2 + 16 * u))) = false
            ∧ s.passes (dieCps (dieOf k.core) (at_ u) (pa u) ++ bridgeCps (dieOf k.core) (dieOf c2)) k.ctx k.inc = true) →
          ((∀ u, u < n → (at_ u).tgt = .hbm ∧ s.lease (pa u) ≤ s.time) →
            ends (sent n) 0 n)
          ∧ (0 < n → (at_ 0).tgt ≠ .hbm → exec (.copyComplete k.id) s = .next (leave s (at_ 0) dst (pa 0) (.unit k.id 0 (bs 0)))))))
    ∧ (∀ (id u copy : Nat) (r : Req) (bs : List Byte), s.req id = some r → r.act = .unit copy u bs → r.stage = .sent → r.attr.tgt ≠ .hbm →
      s.passes r.ahead r.ctx r.inc = true → s.peerKnown r.attr = true → (∀ p ∈ s.threads, ∀ ids, p.2.st ≠ .acks ids) →
      let w := s.writeHome 0 r.attr r.pa bs
      exec (.targetAcknowledgement id) s = .next { w with
        reqs := w.reqs.filter fun x => x.id != r.id
        copies := w.copies.map fun x => if x.id = copy then { x with moved := u :: x.moved } else x })

-- Synchronisation (10) ---------------------------------------------------------------------------------------------

/-- R219, R215: what each action does to a barrier object: it counts, completes the phase when arrivals and bytes are there, carries
early arrivals over, and sets ERR where the rule says so. -/
def Obligations.BarrierActions : Prop :=
  ∀ b : Bar, b.err = false → b.land < 2 ^ 48 → b.tgt < 2 ^ 48 → 0 < b.expa →
    let next (b : Bar) : Bar := { b with phase := (b.phase + 1) % 2 ^ 32, arrd := b.nxta, nxta := 0, land := 0, tgt := 0 }
    (b.arrd + 1 < b.expa → b.act .arrive = { b with arrd := b.arrd + 1 })
    ∧ (b.arrd + 1 = b.expa → b.land < b.tgt → b.act .arrive = { b with arrd := b.expa })
    ∧ (b.arrd + 1 = b.expa → b.land = b.tgt → b.nxta < b.expa → b.act .arrive = next b)
    ∧ (b.arrd + 1 = b.expa → b.land = b.tgt → b.nxta = b.expa → b.act .arrive = { next (next b) with nxta := 0, arrd := 0 })
    ∧ (b.arrd + 1 = b.expa → b.tgt < b.land → (b.act .arrive).err = true)
    ∧ (b.arrd = b.expa → b.land < b.tgt → b.nxta < b.expa → b.act .arrive = { b with nxta := b.nxta + 1, flags := b.flags ||| 2 })
    ∧ (b.arrd = b.expa → b.nxta = b.expa → (b.act .arrive).err = true)
    ∧ (∀ n, b.arrd < b.expa → b.tgt + n < 2 ^ 48 → b.act (.expect n) = { b with tgt := b.tgt + n })
    ∧ (∀ n, 2 ^ 48 ≤ b.tgt + n → (b.act (.expect n)).err = true)
    ∧ (∀ n, b.arrd < b.expa → b.land + n < 2 ^ 48 → b.act (.post n false) = { b with land := b.land + n })
    ∧ (∀ n, b.arrd = b.expa → b.land + n = b.tgt → b.nxta < b.expa → b.act (.post n false) = next b)
    ∧ (∀ n, b.arrd = b.expa → b.tgt < b.land + n → (b.act (.post n false)).err = true)
    ∧ (∀ n, 2 ^ 48 ≤ b.land + n → (b.act (.post n false)).err = true)
    ∧ (∀ n, (b.act (.post n true)).err = true ∧ (b.act (.post n true)).land = b.land)

/-- R96, R177, R214, R218 to R222, R224: BINIT writes the object; EXPECT and ARRIVE act on the object of their own window in lane order, or leave
one action for each lane's remote object; BTEST reads the phase; BWAIT holds its threads until BWAIT_COMPLETE or BWAIT_TIMEOUT writes D. No
other thread, register or warp changes. A RECOV team whose object lies in a marked sector rolls back, which is another form (R356). Which tags
the counts, phases, deadlines and lengths accept (assumption 23), that a BINIT out of range sets ERR and writes the whole object (assumption
24), that a BWAIT_COMPLETE moves all lanes that wait at one PC and whose phase has changed (assumption 25), and that only the remote forms end a
RECOV interval's retryability (assumption 31) are the model's choices. -/
def Obligations.Barriers : Prop :=
  ∀ (h : Head) (d a b : Opd) (ofs : BitVec 24) (s : State),
    let goOn (core warp : Nat) (ls : List Nat) (t : State) : Prop :=
      (∀ l ∈ ls, (t.thread core warp l).plain = { (s.thread core warp l).plain with st := .ready, pc := (s.thread core warp l).pc + 12 })
      ∧ (∀ key, (∀ l ∈ ls, key ≠ thrKey core warp l) → t.threads.get Thread.absent key = s.threads.get Thread.absent key)
      ∧ t.warp core warp = { s.warp core warp with retired := (s.warp core warp).retired + BitVec.ofNat 64 ls.length }
      ∧ ∀ key, key ≠ warpKey core warp → t.warps.get Warp.idle key = s.warps.get Warp.idle key
    (∀ (c : Cur) (tm : Team), s.teamOf c.core c.warp = some tm →
      let ls := s.onLanes c h
      let holds (t : State) (st : Nat → Status) : Prop :=
        (∀ l ∈ ls, (t.thread c.core c.warp l).plain = { (s.thread c.core c.warp l).plain with st := st l })
        ∧ (∀ l ∈ s.offLanes c h, (t.thread c.core c.warp l).plain =
            { (s.thread c.core c.warp l).plain with st := .ready, pc := (s.thread c.core c.warp l).pc + 12 })
        ∧ (∀ key, (∀ l ∈ lanesOf c.mask, key ≠ thrKey c.core c.warp l) → t.threads.get Thread.absent key = s.threads.get Thread.absent key)
        ∧ t.warp c.core c.warp = { s.warp c.core c.warp with retired := (s.warp c.core c.warp).retired + BitVec.ofNat 64 (s.offLanes c h).length }
        ∧ ∀ key, key ≠ warpKey c.core c.warp → t.warps.get Warp.idle key = s.warps.get Warp.idle key
      let place (l : Nat) : Nat := ((s.begun c h).bits c l a + ofs.signExtend 32).toNat
      let key (l : Nat) : Nat := scrKey c.core (tm.scr + place l)
      let inside : Prop := ∀ l ∈ ls, place l % 32 = 0 ∧ place l + 32 ≤ tm.scrLen
      let sound : Prop := tm.recov = none ∨ ∀ l ∈ ls, s.scrPsn.get false (scrSector c.core (tm.scr + place l)) = false
      let num (l : Nat) : Nat := ((s.begun c h).bits c l b).toNat
      let obj (m : Memory) (l : Nat) : Bar := Bar.ofBytes (Memory.read m (key l) 24)
      let does (act : BarAct) (m : Memory) (l : Nat) : Memory := Memory.write m (key l) (((obj m l).act act).bytes)
      let before (act : Nat → BarAct) (l : Nat) : Memory := (ls.takeWhile (· ≠ l)).foldl (fun m l => does (act l) m l) s.scratch
      (∀ sc, Issues (.binit h sc a b ofs) s c → s.accepts c h [trapSrc 1 a isAddr, trapSrc 2 b notPsn] → inside →
        ∃ t, exec (.binit h sc a b ofs) s = .next t ∧ Advanced s t c h
          ∧ t.scratch = ls.foldl (fun m l => Memory.write m (key l)
              (leBytes 4 0 ++ leBytes 2 (num l) ++ leBytes 2 0 ++ leBytes 6 0
                ++ [if num l = 0 ∨ num l > 65535 then 1 else 0, if sc = .core then 0 else 1] ++ leBytes 6 0 ++ leBytes 2 0
                ++ List.replicate 8 0)) s.scratch
          ∧ (tm.scr % 32 = 0 → ∀ l ∈ ls, t.scrPsn.get false (scrSector c.core (tm.scr + place l)) = false)
          ∧ (∀ k, (∀ l ∈ ls, k ≠ scrSector c.core (tm.scr + place l)) → t.scrPsn.get false k = s.scrPsn.get false k)
          ∧ { t with threads := s.threads, warps := s.warps, scratch := s.scratch, scrPsn := s.scrPsn } = s)
      ∧ (Issues (.expect h false a b ofs) s c → s.accepts c h [trapSrc 1 a isAddr, trapSrc 2 b notPsn] → inside → sound →
        (∀ l ∈ ls, (obj (before (fun l => .expect (num l)) l) l).err = false) →
        ∃ t, exec (.expect h false a b ofs) s = .next t ∧ Advanced s t c h
          ∧ t.scratch = ls.foldl (fun m l => does (.expect (num l)) m l) s.scratch
          ∧ { t with threads := s.threads, warps := s.warps, scratch := s.scratch } = s)
      ∧ (∀ rlx, Issues (.arrive h rlx false false d a ofs) s c → s.accepts c h [trapSrc 1 a isAddr] → inside → sound →
        (∀ l ∈ ls, (obj (before (fun _ => .arrive) l) l).err = false) →
        ∃ t, exec (.arrive h rlx false false d a ofs) s = .next t ∧ Advanced s t c h
          ∧ t.scratch = ls.foldl (fun m l => does .arrive m l) s.scratch
          ∧ Placed s t c ls (lowestDst d ls) (fun l => [{ bits := BitVec.ofNat 32 (obj (before (fun _ => .arrive) l) l).phase, tag := .w32 }])
          ∧ { t with regs := s.regs, sregs := s.sregs, threads := s.threads, warps := s.warps, scratch := s.scratch } = s)
      ∧ (∀ rlx l rest, Issues (.arrive h rlx true false d a ofs) s c → s.accepts c h [trapSrc 1 a isAddr] → inside → sound → ls = l :: rest →
        (obj s.scratch l).err = false →
        ∃ t, exec (.arrive h rlx true false d a ofs) s = .next t ∧ Advanced s t c h ∧ t.scratch = does .arrive s.scratch l
          ∧ Placed s t c ls (lowestDst d ls) (fun _ => [{ bits := BitVec.ofNat 32 (obj s.scratch l).phase, tag := .w32 }])
          ∧ { t with regs := s.regs, sregs := s.sregs, threads := s.threads, warps := s.warps, scratch := s.scratch } = s)
      ∧ (Issues (.btest h d a b ofs) s c → s.accepts c h [trapSrc 1 a isAddr, trapSrc 2 b notPsn] → inside → sound →
        (∀ l ∈ ls, (obj s.scratch l).err = false) →
        ∃ t, exec (.btest h d a b ofs) s = .next t
          ∧ Computed s t c h d fun l => [{ bits := if (obj s.scratch l).phase = num l then 0 else 1, tag := .w32 }])
      ∧ (Issues (.bwait h d a b ofs) s c → s.accepts c h (trapSrc 1 a isAddr :: wideSrc trapSrc 2 b 2 notPsn) → inside → sound →
        (∀ l ∈ ls, (obj s.scratch l).err = false) →
        ∃ t, exec (.bwait h d a b ofs) s = .next t
          ∧ holds t (fun l => .bwait (lowestDst d ls l) (place l) ((s.begun c h).bits c l b) ((s.begun c h).bits c l (b.next 1)) s.time)
          ∧ { t with threads := s.threads, warps := s.warps } = s)
      ∧ (∀ at_ : Nat → Nat × Nat × Team, s.accepts c h [trapSrc 1 a isAddr] → tm.recov = none →
        (∀ l ∈ ls, place l % 32 = 0 ∧ s.remote c (place l) = some (at_ l) ∧ place l % 2 ^ 20 + 32 ≤ (at_ l).2.2.scrLen) →
        let o (l : Nat) : Nat := place l % 2 ^ 20
        let net : Attr := { tgt := .hbm, ord := .rc, soft := false, cmp := false, doc := false, enc := false, r := true, w := true, x := false,
                            base := 0, size := 4096 }
        let leaves (i : Instr) (who : List Nat) (act : Nat → BarAct) (x : Option Opd) (answer : Nat → Nat) : Prop := ∃ t, exec i s = .next t
          ∧ t.reqs = s.reqs ++ who.zipIdx.map (fun p =>
              { requestOf s c p.1 (s.nextId + p.2) (o p.1) net (.barrier (at_ p.1).1 (at_ p.1).2.2.scr (o p.1) (act p.1) x) false with pa := o p.1 })
          ∧ t.nextId = s.nextId + who.length ∧ holds t (fun l => .answer (answer l))
          ∧ { t with threads := s.threads, warps := s.warps, reqs := s.reqs, nextId := s.nextId } = s
        (∀ rlx, Issues (.arrive h rlx false true d a ofs) s c →
          leaves (.arrive h rlx false true d a ofs) ls (fun _ => .arrive) (some d) (fun l => s.nextId + ls.idxOf l))
        ∧ (∀ rlx, Issues (.arrive h rlx true true d a ofs) s c →
          leaves (.arrive h rlx true true d a ofs) (ls.take 1) (fun _ => .arrive) (some d) (fun _ => s.nextId))
        ∧ (Issues (.expect h true a b ofs) s c → s.accepts c h [trapSrc 1 a isAddr, trapSrc 2 b notPsn] →
          leaves (.expect h true a b ofs) ls (fun l => .expect (num l)) none (fun l => s.nextId + ls.idxOf l))))
    ∧ (∀ (id : Nat) (r : Req) (home win o : Nat) (act : BarAct) (x : Option Opd) (c : Cur), s.req id = some r → r.act = .barrier home win o act x →
      r.window = none → s.passes r.ahead r.ctx r.inc = true → s.windowAway r.launch home win = false → c.core = r.core → c.warp = r.warp →
      s.firstAtBank r = true → (∃ m, s.windowTeam r.launch home win = some m ∧ m.2.recov = none) →
      (∀ n, x = some (.v n) → let tile := vTile (s.warp r.core r.warp).tbase n.toNat
        s.owner r.core tile = ownerCode r.warp ∨ ((∀ i ∈ s.images, i.core = r.core → i.tiles.contains tile = false) ∧ s.shadowed r.ctx = false)) →
      (∀ q ∈ s.reqs, q.core = r.core → q.warp = r.warp → (∃ h w o a x, q.act = .barrier h w o a x) → id ≤ q.id) →
      (∀ d i x, s.team d i = some x → x.recov = none) → (∀ i ∈ s.ckpts, ¬ (i.launch = r.launch ∧ i.index = r.team ∧ id < i.since)) →
      let obj := Bar.ofBytes (Memory.read s.scratch (scrKey home (win + o)) 24)
      obj.err = false → (home = r.core ∨ obj.flags / 256 ≠ 0) → s.isResident r.core r.warp r.launch r.team = true →
      (s.warp r.core r.warp).step = false →
      let ls := (List.range 32).filter fun l => (s.thread r.core r.warp l).st == .answer id
      let same (q : Req) : Bool := x.isSome && q.core == r.core && q.warp == r.warp && q.sentAt == r.sentAt
      ∃ t, exec (.remoteBarrierAction id) s = .next t
        ∧ t.scratch = Memory.write s.scratch (scrKey home (win + o)) (obj.act act).bytes
        ∧ t.reqs = ((s.reqs.filter fun q => q.id != id).map fun q => match q.act with
            | .barrier h w o a (some (.s _)) => if same q then { q with act := .barrier h w o a (some .z) } else q
            | _ => q)
        ∧ Placed s t c ls (lowestDst (x.getD .z) ls) (fun _ => [{ bits := BitVec.ofNat 32 obj.phase, tag := .w32 }])
        ∧ goOn r.core r.warp ls t
        ∧ { t with regs := s.regs, sregs := s.sregs, threads := s.threads, warps := s.warps, scratch := s.scratch, reqs := s.reqs } = s)
    ∧ (∀ (core warp lane : Nat) (tm : Team) (x : Opd) (o issue : Nat) (phase lim : Word) (c : Cur),
      (s.thread core warp lane).st = .bwait x o phase lim issue → c.core = core → c.warp = warp →
      s.teamOf core warp = some tm → tm.recov = none → (∀ l, s.launchOf core warp = some l → l.replay = false) → lane < 32 →
      (s.warp core warp).step = false →
      let obj (o : Nat) : Bar := Bar.ofBytes (Memory.read s.scratch (scrKey core (tm.scr + o)) 24)
      let ends (v : Word) (i : Instr) (ls : List Nat) : Prop := ∃ t, exec i s = .next t
        ∧ Placed s t c ls (fun l => match (s.thread core warp l).st with | .bwait d .. => d | _ => .z) (fun _ => [{ bits := v, tag := .w32 }])
        ∧ goOn core warp ls t
        ∧ { t with regs := s.regs, sregs := s.sregs, threads := s.threads, warps := s.warps } = s
      ((obj o).err = false → (obj o).phase ≠ phase.toNat → ends 0 (.bwaitComplete core warp lane)
        ((List.range 32).filter fun l => match (s.thread core warp l).st with
          | .bwait _ o p _ _ => (s.thread core warp l).pc == (s.thread core warp lane).pc && !(obj o).err && (obj o).phase != p.toNat
          | _ => false))
      ∧ ((obj o).err = false → (obj o).phase = phase.toNat → lim ≠ 0 → issue + lim.toNat ≤ s.time → ends 1 (.bwaitTimeout core warp lane) [lane])
      ∧ ((obj o).err = false → (obj o).phase = phase.toNat → exec (.bwaitComplete core warp lane) s = .next s)
      ∧ (lim = 0 ∨ s.time < issue + lim.toNat → exec (.bwaitTimeout core warp lane) s = .next s))

/-- R223, R293: GBAR holds its threads and records the arrival of a team each of whose warps waits; GBAR_COMPLETE resumes the waiting threads of
every team of the group with D the earlier completions, once every team has arrived, and counts one more. A team that is off its core, or has no
thread there, is owed the completion, and takes it when it waits again. That the held stores of a RECOV team are performed first is assumption 70. -/
def Obligations.GroupBarriers : Prop :=
  ∀ (s : State),
    (∀ (h : Head) (k : BitVec 2) (d : Opd) (c : Cur) (tm : Team) (l : Launch), Issues (.gbar h k d) s c → s.teamOf c.core c.warp = some tm →
      s.launch tm.launch = some l → l.gid tm.index k.toNat ≠ 0xFF → (∀ g2 ∈ l.gidsOf tm.index, tm.index ∉ (l.gbars.get GBar.start g2).owed) →
      let g := l.gid tm.index k.toNat
      let waits (t : State) (w : Nat) : Prop := ∃ x, x < 32 ∧ ∃ o j, (t.thread c.core w x).st = .gbar o j ∧ l.gid tm.index j.toNat = g
      ∃ t, exec (.gbar h k d) s = .next t
        ∧ (∀ x ∈ s.onLanes c h, (t.thread c.core c.warp x).plain =
            { (s.thread c.core c.warp x).plain with st := .gbar (lowestDst d (s.onLanes c h) x) k })
        ∧ (∀ x ∈ s.offLanes c h, (t.thread c.core c.warp x).plain =
            { (s.thread c.core c.warp x).plain with st := .ready, pc := (s.thread c.core c.warp x).pc + 12 })
        ∧ (∀ key, (∀ x ∈ lanesOf c.mask, key ≠ thrKey c.core c.warp x) → t.threads.get Thread.absent key = s.threads.get Thread.absent key)
        ∧ t.warp c.core c.warp = { s.warp c.core c.warp with retired := (s.warp c.core c.warp).retired + BitVec.ofNat 64 (s.offLanes c h).length }
        ∧ (∀ key, key ≠ warpKey c.core c.warp → t.warps.get Warp.idle key = s.warps.get Warp.idle key)
        ∧ (∃ l2, t.launch tm.launch = some l2 ∧ { l2 with gbars := l.gbars } = l) ∧ (∀ n, n ≠ tm.launch → t.launch n = s.launch n)
        ∧ ((∃ w ∈ tm.warps, (s.warp c.core w).live = true) → (∀ w ∈ tm.warps, (s.warp c.core w).live = true → waits t w) →
          ∃ l2, t.launch tm.launch = some l2 ∧ tm.index ∈ (l2.gbars.get GBar.start g).arrived
            ∧ (l2.gbars.get GBar.start g).count = (l.gbars.get GBar.start g).count)
        ∧ { t with threads := s.threads, warps := s.warps, launches := s.launches } = s)
    ∧ (∀ (launch group : Nat) (l : Launch) (g : Group), s.launch launch = some l → l.groups[group]? = some g →
      let out (i : Nat) : Bool := l.endedTeams.contains i || l.failures.any fun f => f.team == i
      (∀ i ∈ g.members, s.memberIn launch l group i = true) → (∃ i ∈ g.members, out i = false) →
      (∀ d x tm, s.team d x = some tm → tm.recov = none) → (∀ p ∈ s.launches, p.2.replay = false) → (∀ d w, (s.warp d w).step = false) →
      (∀ i m, s.teamAt launch i = some m → s.team m.1 m.2.1 = some m.2.2) → (∀ i ∈ s.images, i.team.recov = none) → (∀ r ∈ s.reqs, r.turn = none) →
      (∀ i j m n, s.teamAt launch i = some m → s.teamAt launch j = some n → i ≠ j → m.1 = n.1 → ∀ w ∈ m.2.2.warps, w ∉ n.2.2.warps) →
      (∀ g2 i, g2 ≠ group → i ∉ (l.gbars.get GBar.start g2).owed) →
      let here (i : Nat) : Bool := match s.teamAt launch i with
        | some m => gbarArrived s.threads s.warps m.1 m.2.2 l group
        | none => false
      let waiter (d w x : Nat) : Prop := x < 32 ∧ ∃ i ∈ g.members, out i = false ∧ ∃ m, s.teamAt launch i = some m ∧ m.1 = d ∧ w ∈ m.2.2.warps
        ∧ ∃ o j, (s.thread d w x).st = .gbar o j ∧ l.gid i j.toNat = group
      let count := (l.gbars.get GBar.start group).count
      ∃ t, exec (.gbarComplete launch group) s = .next t
        ∧ (∃ l2, t.launch launch = some l2 ∧ (l2.gbars.get GBar.start group).arrived = [] ∧ (l2.gbars.get GBar.start group).count = count + 1
          ∧ (l2.gbars.get GBar.start group).owed = g.members.filter (fun i => !out i && !here i)
          ∧ (∀ g2, g2 ≠ group → l2.gbars.get GBar.start g2 = l.gbars.get GBar.start g2) ∧ { l2 with gbars := l.gbars } = l)
        ∧ (∀ n, n ≠ launch → t.launch n = s.launch n)
        ∧ (∀ key, (∀ d w x, waiter d w x → key ≠ thrKey d w x) → t.threads.get Thread.absent key = s.threads.get Thread.absent key)
        ∧ (∀ i ∈ g.members, out i = false → here i = true → ∀ m, s.teamAt launch i = some m → ∀ w ∈ m.2.2.warps, ∀ x, x < 32 → ∀ o j,
          (s.thread m.1 w x).st = .gbar o j → l.gid i j.toNat = group → m.2.2.index = i →
          (t.thread m.1 w x).st = .ready ∧ (t.thread m.1 w x).pc = (s.thread m.1 w x).pc + 12
          ∧ (∀ n, o = .v n → t.vreg m.1 w x n.toNat = { bits := BitVec.ofNat 32 count, tag := .w32 }))
        ∧ { t with regs := s.regs, sregs := s.sregs, threads := s.threads, warps := s.warps, launches := s.launches } = s)
    ∧ (∀ (launch group : Nat) (l : Launch) (g : Group), s.launch launch = some l → l.groups[group]? = some g →
      (∃ i ∈ g.members, s.memberIn launch l group i = false) → exec (.gbarComplete launch group) s = .next s)

-- Decide-once cells (11) -------------------------------------------------------------------------------------------

/-- R246, R248, R249, R251: the action of each decide-once instruction on a cell, by STATE and by how far GEN is from the generation named. -/
def Obligations.CellActions : Prop :=
  let res (val : DWord) (code : Nat) (noprev : Bool) (info : Word) : CellRes := { val, code, noprev, info }
  ∀ (g : Word) (v : DWord) (ident : Word) (c : Cell),
    let run (op : CellOp) : Cell × CellRes := cellAct op g v ident c
    let empty : Cell := { value := 0, prev := 0, gen := g, winner := 0, state := 0, flags := 0, rest := [0, 0, 0, 0, 0, 0] }
    (c.malformed = true → run .init = (empty, res 0 8 false g) ∧ run .prop = (c, res 0 5 false 0) ∧ run .read = (c, res 0 5 false 0)
      ∧ run .recyc = (c, res 0 5 false 0))
    ∧ (c.malformed = false → c.state = 0 → run .init = (empty, res 0 8 false g))
    ∧ (c.malformed = false → c.state = 1 → run .init = (c, res 0 7 false c.gen))
    ∧ (c.malformed = false → c.gen = g → c.state = 0 →
        run .prop = ({ c with value := v, winner := ident, state := 1 }, res v 0 false ident) ∧ run .read = (c, res 0 6 false g))
    ∧ (c.malformed = false → c.gen = g → c.state = 1 →
        run .prop = (c, res c.value 1 false c.winner) ∧ run .read = (c, res c.value 1 false c.winner))
    ∧ (∀ op, op = .prop ∨ op = .read → c.malformed = false →
        (c.gen = g + 1 → run op = (c, res c.prev 2 (!c.flags.getLsbD 0) c.gen))
        ∧ (2 ≤ (c.gen - g).toNat → (c.gen - g).toNat < 2 ^ 31 → run op = (c, res 0 3 false c.gen))
        ∧ (2 ^ 31 ≤ (c.gen - g).toNat → run op = (c, res 0 4 false c.gen)))
    ∧ (c.malformed = false → c.gen ≠ g → run .recyc = (c, res 0 7 false c.gen))
    ∧ (c.malformed = false → c.gen = g → c.state = 0 →
        run .recyc = ({ c with prev := 0, flags := 0, value := 0, winner := 0, gen := g + 1 }, res 0 8 false (g + 1)))
    ∧ (c.malformed = false → c.gen = g → c.state = 1 →
        run .recyc = ({ c with prev := c.value, flags := 1, value := 0, winner := 0, state := 0, gen := g + 1 }, res 0 8 false (g + 1)))

/-- R249 to R256: DINIT, DPROP, DREAD and DRECYC each leave one action per lane; the home performs it, not before the GEN hold and the leases
allow; its result or a young decided copy gives the quad of Table 11.4, whose words are free where the page is mapped twice, once SOFT (R191,
assumption 14). -/
def Obligations.DecideOnce : Prop :=
  ∀ (s : State),
    (∀ (h : Head) (ord : Option Scope) (d a b : Opd) (ofs : BitVec 24) (c : Cur) (attr : Nat → Attr),
      let ls := s.onLanes c h
      let va (l : Nat) : Nat := ((s.begun c h).pair c l a + ofs.signExtend 64).toNat
      let sends (i : Instr) (op : CellOp) (srcs : List Src) (g : Nat → Word) (v : Nat → DWord) : Prop :=
        Issues i s c → s.accepts c h (wideSrc trapSrc 1 a 2 isAddr ++ srcs) → (op = .read ∨ s.recovering c.core c.warp = false) →
        (∀ l ∈ ls, va l % 32 = 0 ∧ (∃ oa, s.pageFor c.core (s.tagOf c.core c.warp).1 (s.tagOf c.core c.warp).2 (va l) = .ok oa (attr l))
          ∧ (attr l).r = true ∧ (op = .read ∨ (attr l).w = true) ∧ (attr l).cmp = false ∧ (attr l).doc = true) →
        ∃ t, exec i s = .next t ∧ Advanced s t c h ∧ t.regs = s.regs ∧ t.sregs = s.sregs
          ∧ Sent s t (fun l id => requestOf s c l id (va l) (attr l) (.cell op d (g l) (v l)) ord.isSome) ls
      let gen (l : Nat) : Word := (s.begun c h).bits c l b
      sends (.dinit h ord d a b ofs) .init [trapSrc 2 b isAddr] gen (fun _ => 0)
      ∧ sends (.dread h ord d a b ofs) .read [trapSrc 2 b isAddr] gen (fun _ => 0)
      ∧ sends (.drecyc h ord d a b ofs) .recyc [trapSrc 2 b isAddr] gen (fun _ => 0)
      ∧ sends (.dprop h ord d a b ofs) .prop (wideSrc trapSrc 2 b 2 notPsn ++ [trapSrc 2 (b.next 2) isAddr])
          (fun l => (s.begun c h).bits c l (b.next 2)) (fun l => (s.begun c h).pair c l b))
    ∧ (∀ (id : Nat) (r : Req) (op : CellOp) (d : Opd) (g : Word) (v : DWord), s.req id = some r → r.act = .cell op d g v → r.stage = .sent →
      s.passes r.ahead r.ctx r.inc = true →
      let key := s.pageKey r.ctx r.attr
      let c0 := Cell.ofBytes (s.readHome key r.attr r.pa 32)
      let x := cellAct op g v (identWord s r.core r.from_ r.lane) c0
      let due (t0 : Nat) : Prop := s.genTime.find (cellKey r.attr r.pa) = some t0 ∧ s.time < t0 + 16
      (x.1.gen ≠ c0.gen → (∃ t0, due t0) → exec (.decideOnceHomeAction id) s = .next s ∧ exec (.genHoldExpiry id) s = .next s)
      ∧ (s.firstOfIssue r = true → (op = .read ∨ s.mayPerform r = true) → (x.1.gen = c0.gen ∨ ∀ t0, ¬ due t0) →
        ∃ t, exec (.decideOnceHomeAction id) s = .next t
          ∧ t.reqs = s.reqs.map (fun q => if q.id = r.id then { r with stage := if s.peerKnown r.attr then .cell x.2 else .lost, sentAt := s.time } else q)
          ∧ t.genTime = (if x.1.gen = c0.gen then s.genTime else s.genTime.put (cellKey r.attr r.pa) s.time)
          ∧ { t with reqs := s.reqs, genTime := s.genTime } = (if x.1 = c0 then s else s.writeHome key r.attr r.pa x.1.bytes)
          ∧ ((∃ t0, s.genTime.find (cellKey r.attr r.pa) = some t0 ∧ t0 + 16 ≤ s.time) → exec (.genHoldExpiry id) s = .next t)))
    ∧ (∀ (id : Nat) (r : Req) (op : CellOp) (d : Opd) (g : Word) (v : DWord) (c : Cur), s.req id = some r → r.act = .cell op d g v →
      r.orphan = false → s.staleAt r = false → r.window = none → c.core = r.core → c.warp = r.warp → r.lane < 32 →
      s.isResident r.core r.warp r.launch r.team = true → (∀ i ∈ s.ckpts, ¬ (i.launch = r.launch ∧ i.index = r.team ∧ id < i.since)) →
      (∀ k, k < 4 → ∀ n, d.next k = .v n → let tile := vTile (s.warp r.core r.warp).tbase n.toNat
        s.owner r.core tile = ownerCode r.warp ∨ ((∀ i ∈ s.images, i.core = r.core → i.tiles.contains tile = false) ∧ s.shadowed r.ctx = false)) →
      let loose (x : CellRes) : Prop := x.code ≠ 5 ∧ s.twiceMapped r.ctx r.attr r.pa = true
      let free (k : Nat) : Word := BitVec.ofNat 32 (leNat ((List.range 4).map fun i => Config.freeByte (s.freeCtr + 4 * k + i)))
      let gives (install : Bool) (x : CellRes) : Prop := ∃ t, exec (.decideOnceResult id install) s = .next t
        ∧ (¬ loose x → t.freeCtr = s.freeCtr
          ∧ Placed s t c [r.lane] (fun _ => d) (fun _ => [{ bits := x.val.setWidth 32, tag := .raw }, { bits := x.val.extractLsb' 32 32, tag := .raw },
            { bits := BitVec.ofNat 32 (x.code + if x.noprev then 16 else 0), tag := .w32 }, { bits := x.info, tag := .w32 }]))
        ∧ (loose x → t.freeCtr = s.freeCtr + 16
          ∧ Placed s t c [r.lane] (fun _ => d) (fun _ => [{ bits := free 0, tag := .raw }, { bits := free 1, tag := .raw },
            { bits := free 2, tag := .w32 }, { bits := free 3, tag := .w32 }]))
        ∧ t.reqs = s.reqs.filter (fun q => q.id != r.id)
        ∧ (install = false → t.decided = s.decided)
        ∧ { t with regs := s.regs, sregs := s.sregs, reqs := s.reqs, decided := s.decided, freeCtr := s.freeCtr } = s
      (∀ x install, r.stage = .cell x → gives install x)
      ∧ (∀ x install, r.stage = .sent → (op = .read ∨ op = .prop) → s.decidedFor r g = some x →
        gives install { val := x.value, code := 1, noprev := false, info := x.winner } ∧ s.time < x.born + 2 ^ 33 ∧ x.gen = g ∧ x.va = r.va))
    ∧ (∀ n, exec (.decidedCopyExpiry n) s = .next { s with decided := s.decided.eraseIdx n })

-- Tiles, spawning, control (06, 07, 13) ----------------------------------------------------------------------------

/-- R140, R171 to R173: GIVE marks its tiles for a live recipient and frees them otherwise; TAKE waits, and TAKE_COMPLETE makes the warp the owner
of all tiles at once; TOWN reads the owner. -/
def Obligations.Tiles : Prop :=
  ∀ (h : Head) (cnt : BitVec 5) (n : BitVec 9) (s : State),
    (∀ (c : Cur) (owner : Word), Issues (.give h cnt (.t n) owner) s c → s.onLanes c h ≠ [] →
      let code : Byte := owner.setWidth 8
      let live : Prop := code = 0x41 ∨ (code = 0x40 ∧ ∃ tm, s.teamOf c.core c.warp = some tm ∧ tm.seq = true)
        ∨ (code ≠ 0x40 ∧ code ≠ 0x41 ∧ (s.warp c.core code.toNat).live = true ∧ s.tagOf c.core code.toNat = s.tagOf c.core c.warp)
      (∀ i, i ≤ cnt.toNat → s.owner c.core (n.toNat + i) = ownerCode c.warp) →
      ∃ t, exec (.give h cnt (.t n) owner) s = .next t ∧ Advanced s t c h
        ∧ (∀ i, i ≤ cnt.toNat → (live → t.owner c.core (n.toNat + i) = 0x80 ||| code) ∧ (¬ live → t.owner c.core (n.toNat + i) = 0x7F))
        ∧ (∀ d i, i < 512 → (d ≠ c.core ∨ i < n.toNat ∨ n.toNat + cnt.toNat < i) → t.owner d i = s.owner d i)
        ∧ (∀ d, d ≠ c.core → t.core d = s.core d)
        ∧ (t.core c.core).seq.gave = (s.core c.core).seq.gave.cut n.toNat (n.toNat + cnt.toNat + 1)
        ∧ { t.core c.core with seq := { (t.core c.core).seq with gave := (s.core c.core).seq.gave } } = s.core c.core
        ∧ { t with owners := s.owners, threads := s.threads, warps := s.warps, cores := s.cores } = s)
    ∧ (∀ (c : Cur), Issues (.take h cnt (.t n)) s c →
      ∃ t, exec (.take h cnt (.t n)) s = .next t
        ∧ (∀ l ∈ s.onLanes c h, (t.thread c.core c.warp l).plain = { (s.thread c.core c.warp l).plain with st := .take n.toNat (cnt.toNat + 1) })
        ∧ (∀ l ∈ s.offLanes c h, (t.thread c.core c.warp l).plain =
            { (s.thread c.core c.warp l).plain with st := .ready, pc := (s.thread c.core c.warp l).pc + 12 })
        ∧ (∀ key, (∀ l ∈ lanesOf c.mask, key ≠ thrKey c.core c.warp l) → t.threads.get Thread.absent key = s.threads.get Thread.absent key)
        ∧ t.warp c.core c.warp = { s.warp c.core c.warp with retired := (s.warp c.core c.warp).retired + BitVec.ofNat 64 (s.offLanes c h).length }
        ∧ (∀ key, key ≠ warpKey c.core c.warp → t.warps.get Warp.idle key = s.warps.get Warp.idle key)
        ∧ { t with threads := s.threads, warps := s.warps } = s)
    ∧ (∀ (core warp base k : Nat) (pc : DWord), (s.warp core warp).step = false → (∀ l, s.launchOf core warp = some l → l.replay = false) →
      s.teamStopped core (s.warpTeam core warp) = false →
      base + k ≤ 512 → (∃ l, l < 32 ∧ (s.thread core warp l).st = .take base k) →
      (∀ l, l < 32 → ∀ b m, (s.thread core warp l).st = .take b m → b = base ∧ m = k ∧ (s.thread core warp l).pc = pc) →
      let code := ownerCode warp
      let ls := (List.range 32).filter fun l => (s.thread core warp l).st == .take base k
      let ready (i : Nat) : Prop :=
        (s.owner core i = code ∨ s.owner core i = (0x80 ||| code)) ∧ s.tilePending core i = false ∧ (s.core core).seq.gave.find i = none
      ((∀ i, base ≤ i → i < base + k → ready i) →
        ∃ t, exec (.takeComplete core warp) s = .next t
          ∧ (∀ i, base ≤ i → i < base + k → t.owner core i = code)
          ∧ (∀ d i, i < 512 → (d ≠ core ∨ i < base ∨ base + k ≤ i) → t.owner d i = s.owner d i)
          ∧ (∀ l ∈ ls, (t.thread core warp l).plain = { (s.thread core warp l).plain with st := .ready, pc := pc + 12 })
          ∧ (∀ key, (∀ l ∈ ls, key ≠ thrKey core warp l) → t.threads.get Thread.absent key = s.threads.get Thread.absent key)
          ∧ t.warp core warp = { s.warp core warp with retired := (s.warp core warp).retired + BitVec.ofNat 64 ls.length }
          ∧ (∀ key, key ≠ warpKey core warp → t.warps.get Warp.idle key = s.warps.get Warp.idle key)
          ∧ (∀ d, d ≠ core → t.core d = s.core d)
          ∧ t.core core = { s.core core with seq := { (s.core core).seq with gave := (s.core core).seq.gave.cut base (base + k) } }
          ∧ { t with owners := s.owners, threads := s.threads, warps := s.warps, cores := s.cores } = s)
      ∧ (∀ i, base ≤ i → i < base + k → (s.tilePending core i = true ∨ (s.owner core i ≠ code ∧ s.owner core i ≠ (0x80 ||| code))) →
        exec (.takeComplete core warp) s = .next s))
    ∧ (∀ (d : Opd) (c : Cur), Issues (.town h d (.t n)) s c →
      ∃ t, exec (.town h d (.t n)) s = .next t
        ∧ Computed s t c h d fun _ => [{ bits := (s.owner c.core n.toNat).setWidth 32, tag := .w32 }])

/-- R81, R275, R276, R284, R295: SPAWN places its threads one after the other in bins of their team and entry, a thread that no bin takes waits;
a bin that is full or late launches into an exited warp slot, whose threads start at the entry with their arguments. -/
def Obligations.Spawning : Prop :=
  let place (k : Core) (slot time : Nat) (entry arg : DWord) : Option Core :=
    (k.binFor slot entry).map fun n =>
      let b := (k.bins.find n).getD { team := slot, entry, args := [], first := time, full := none }
      if b.args.length = 31 then { k with bins := k.bins.put n { b with args := b.args ++ [arg], full := some k.binSeq }, binSeq := k.binSeq + 1 }
      else { k with bins := k.bins.put n { b with args := b.args ++ [arg] } }
  ∀ (s : State),
    (∀ (h : Head) (a b : Opd) (c : Cur), Issues (.spawn h a b) s c →
      s.accepts c h (wideSrc trapSrc 1 a 2 isAddr ++ wideSrc trapSrc 2 b 2 notPsn) → s.recovering c.core c.warp = false →
      let ls := s.onLanes c h
      let th (l : Nat) : Thread := (s.thread c.core c.warp l).plain
      let entry (l : Nat) : DWord := (s.begun c h).pair c l a
      let lane (k : Core) (l : Nat) : Option Core := place k (s.warpTeam c.core c.warp) s.time (entry l) ((s.begun c h).pair c l b)
      let core (ls : List Nat) : Core := ls.foldl (fun k l => (lane k l).getD k) (s.core c.core)
      (∀ l ∈ ls, (entry l).toNat % 4 = 0) →
      ∃ t, exec (.spawn h a b) s = .next t ∧ t.core c.core = core ls ∧ (∀ d, d ≠ c.core → t.core d = s.core d)
        ∧ (∀ l ∈ ls, if (lane (core (ls.takeWhile (· ≠ l))) l).isSome
            then (t.thread c.core c.warp l).plain = { th l with st := .ready, pc := (th l).pc + 12 }
            else (t.thread c.core c.warp l).plain = { th l with st := .spawn (entry l) ((s.begun c h).pair c l b) })
        ∧ (∀ l ∈ s.offLanes c h, (t.thread c.core c.warp l).plain = { th l with st := .ready, pc := (th l).pc + 12 })
        ∧ (∀ key, (∀ l ∈ lanesOf c.mask, key ≠ thrKey c.core c.warp l) → t.threads.get Thread.absent key = s.threads.get Thread.absent key)
        ∧ (∀ key, key ≠ warpKey c.core c.warp → t.warps.get Warp.idle key = s.warps.get Warp.idle key)
        ∧ { t.warp c.core c.warp with retired := (s.warp c.core c.warp).retired } = s.warp c.core c.warp
        ∧ { t with threads := s.threads, warps := s.warps, cores := s.cores } = s)
    ∧ (∀ (core warp lane : Nat) (entry arg : DWord), (s.thread core warp lane).st = .spawn entry arg → (s.warp core warp).step = false →
      s.teamStopped core (s.warpTeam core warp) = false →
      let at_ (l : Nat) (e a : DWord) : Option Core :=
        if (s.thread core warp l).st = .spawn e a then place (s.core core) (s.warpTeam core warp) s.time e a else none
      let first : Prop := ∀ l, l < lane → (s.thread core warp l).pc = (s.thread core warp lane).pc → ∀ e a, at_ l e a = none
      (at_ lane entry arg = none ∨ ¬ first → exec (.spawnPlace core warp lane) s = .next s)
      ∧ (∀ x, at_ lane entry arg = some x → first → ∃ t, exec (.spawnPlace core warp lane) s = .next t ∧ t.core core = x
        ∧ (∀ d, d ≠ core → t.core d = s.core d)
        ∧ (t.thread core warp lane).plain = { (s.thread core warp lane).plain with st := .ready, pc := (s.thread core warp lane).pc + 12 }
        ∧ (∀ key, key ≠ thrKey core warp lane → t.threads.get Thread.absent key = s.threads.get Thread.absent key)
        ∧ t.warp core warp = { s.warp core warp with retired := (s.warp core warp).retired + 1 }
        ∧ (∀ key, key ≠ warpKey core warp → t.warps.get Warp.idle key = s.warps.get Warp.idle key)
        ∧ { t with threads := s.threads, warps := s.warps, cores := s.cores } = s))
    ∧ (∀ (core bin w : Nat) (b : Bin) (tm : Team), (s.core core).bins.find bin = some b → s.team core b.team = some tm →
      s.nextBin core bin = true → s.binWarp core b = some w →
      let tb := (s.warp core w).tbase
      let nt := (s.warp core w).ntile
      1 ≤ nt → tb + nt ≤ 504 → w < 64 →
      ∃ t, exec (.spawnBinLaunch core bin) s = .next t
        ∧ t.core core = { s.core core with bins := (s.core core).bins.erase bin } ∧ (∀ d, d ≠ core → t.core d = s.core d)
        ∧ (t.warp core w).live = true ∧ (t.warp core w).team = b.team ∧ (t.warp core w).tbase = tb ∧ (t.warp core w).ntile = nt
        ∧ (∀ i, i < nt → t.owner core (tb + i) = if s.owner core (tb + i) = 0x7F then ownerCode w else s.owner core (tb + i))
        ∧ (∀ l, l < 32 → ∀ arg, b.args[l]? = some arg → t.thread core w l = Thread.start b.entry s.time
          ∧ t.vreg core w l 4 = { bits := arg.setWidth 32, tag := .raw } ∧ t.vreg core w l 5 = { bits := arg.extractLsb' 32 32, tag := .raw }
          ∧ t.vreg core w l 2 = { bits := BitVec.ofNat 32 tm.share, tag := .w32 })
        ∧ (∀ l, l < 32 → b.args[l]? = none → (t.thread core w l).st = .exited)
        ∧ (∀ n, n < 64 → t.sreg core w n = TWord.zero)
        ∧ (∀ key, (∀ l, l < 32 → key ≠ thrKey core w l) → t.threads.get Thread.absent key = s.threads.get Thread.absent key)
        ∧ (∀ key, key ≠ warpKey core w → t.warps.get Warp.idle key = s.warps.get Warp.idle key)
        ∧ { t with regs := s.regs, sregs := s.sregs, owners := s.owners, threads := s.threads, warps := s.warps, cores := s.cores } = s)
    ∧ (∀ (core bin : Nat) (b : Bin), (s.core core).bins.find bin = some b → b.full = none →
      (s.time < b.first + (s.core core).binTimer → exec (.spawnBinTimer core bin) s = .next s)
      ∧ (b.first + (s.core core).binTimer ≤ s.time →
        exec (.spawnBinTimer core bin) s = .next (s.setCore core { s.core core with
          bins := (s.core core).bins.put bin { b with full := some (s.core core).binSeq }, binSeq := (s.core core).binSeq + 1 })))

/-- R277, R297 to R300, R340: YIELD makes its warp ineligible; TRAP, BKPT and a CHK of poison take their traps in each thread whose guard holds;
a CHK of any other word completes. -/
def Obligations.YieldsAndTraps : Prop :=
  ∀ (h : Head) (x : Word) (a : Opd) (s : State) (c : Cur),
    let ls := s.onLanes c h
    (Issues (.yield h x) s c → ls ≠ [] →
      ∃ t, exec (.yield h x) s = .next t
        ∧ Moved s t c h (fun l => (s.thread c.core c.warp l).pc + 12) (fun l => (s.thread c.core c.warp l).preds)
        ∧ t.warp c.core c.warp =
          { s.warp c.core c.warp with
            inelig := s.clock + max x.toNat 1 + 1
            waited := 0
            retired := (s.warp c.core c.warp).retired + BitVec.ofNat 64 (lanesOf c.mask).length }
        ∧ (∀ key, key ≠ warpKey c.core c.warp → t.warps.get Warp.idle key = s.warps.get Warp.idle key)
        ∧ { t with threads := s.threads, warps := s.warps } = s)
    ∧ (∀ core warp, (s.warp core warp).inelig ≤ s.clock →
      exec (.yieldExpiry core warp) s = .next (s.setWarp core warp { s.warp core warp with inelig := 0 }))
    ∧ (∀ core warp, s.clock < (s.warp core warp).inelig → exec (.yieldExpiry core warp) s = .next s)
    ∧ (Issues (.trap h x) s c → ls ≠ [] → c.warp ≠ 64 →
      ∃ t, exec (.trap h x) s = .next t
        ∧ Trapped s t c ls (s.offLanes c h) (fun _ => { cause := x.setWidth 8, info := 0, addr := 0, aux := 0, defd := false }) (x.setWidth 8) false)
    ∧ (Issues (.bkpt h x) s c → ls ≠ [] → c.warp ≠ 64 →
      ∃ t, exec (.bkpt h x) s = .next t
        ∧ Trapped s t c ls (s.offLanes c h) (fun _ => { cause := 0x0D, info := x.toNat, addr := 0, aux := 0, defd := false }) 0x0D false)
    ∧ (Issues (.chk h a) s c → (∀ l ∈ ls, ((s.begun c h).opd c l a).tag ≠ .psn) →
      ∃ t, exec (.chk h a) s = .next t ∧ Advanced s t c h ∧ { t with threads := s.threads, warps := s.warps } = s)
    ∧ (Issues (.chk h a) s c → ls ≠ [] → c.warp ≠ 64 → (∀ l ∈ ls, ((s.begun c h).opd c l a).tag = .psn) →
      (∀ l ∈ ls, (s.thread c.core c.warp l).dfV = false) →
      ∃ t, exec (.chk h a) s = .next t
        ∧ Trapped s t c ls (s.offLanes c h) (fun _ => { cause := 0x04, info := 0x1F, addr := 0, aux := 0, defd := false }) 0x04 false)
    ∧ (∀ cause : Byte, Issues (.chk h a) s c → ls ≠ [] → c.warp ≠ 64 → (∀ l ∈ ls, ((s.begun c h).opd c l a).tag = .psn) → cause.toNat < 64 →
      (∀ l ∈ ls, (s.thread c.core c.warp l).dfV = true ∧ (s.thread c.core c.warp l).dfCause = cause) →
      ∃ t, exec (.chk h a) s = .next t
        ∧ Trapped s t c ls (s.offLanes c h)
            (fun l => { cause, info := 0, addr := (s.thread c.core c.warp l).dfAddr, aux := 0, defd := true }) cause true)

-- Traps (16) -------------------------------------------------------------------------------------------------------

/-- R332, Table 16.1 and Table 16.2: what the record of a trapping thread holds, word by word, and which action it names at first. -/
def Obligations.TrapRecordFields : Prop :=
  ∀ (s : State) (core warp lane : Nat) (t : Trap),
    let r := s.trapRecord core warp lane t
    r.cause = t.cause ∧ r.addr = t.addr ∧ r.aux = t.aux ∧ r.defd = t.defd ∧ r.kind = false ∧ r.pc = (s.thread core warp lane).pc
    ∧ r.info = BitVec.ofNat 16 t.info
    ∧ r.ctxt = BitVec.ofNat 32 ((s.tagOf core warp).1 * 256 + (s.tagOf core warp).2.toNat)
    ∧ (warp < 64 → r.ident = BitVec.ofNat 32 (s.device.chipno.toNat + core * 2 ^ 10 + warp * 2 ^ 18 + lane * 2 ^ 24))
    ∧ (t.cause = 0x0C ∨ t.cause = 0x0E → r.act = 0)
    ∧ (t.cause = 0x0D ∨ (0x30 ≤ t.cause.toNat ∧ t.cause.toNat ≤ 0x3F) → r.act = 1)
    ∧ (t.cause.toNat < 0x24 → t.cause ≠ 0x0C → t.cause ≠ 0x0D → t.cause ≠ 0x0E → r.act = 3)
    ∧ r.word 0 = BitVec.ofNat 32 (r.cause.toNat + r.act.toNat * 2 ^ 8 + r.defd.toNat * 2 ^ 10 + r.kind.toNat * 2 ^ 11 + r.info.toNat * 2 ^ 16)
    ∧ r.word 1 = r.ident ∧ r.word 2 = r.pc.setWidth 32 ∧ r.word 3 = r.pc.extractLsb' 32 32 ∧ r.word 4 = r.addr.setWidth 32
    ∧ r.word 5 = r.addr.extractLsb' 32 32 ∧ r.word 6 = r.aux ∧ r.word 7 = r.ctxt

/-- R60 to R62, R64, R82, R83, R87, R140, R286, R384: a word that is illegal, unassigned, or that its warp may not execute, and a register outside the
window, trap the whole convergent set; a register in a tile of another owner traps the threads whose guard holds; a tag that the entry does not
accept traps FORMAT, poison where it may not propagate POISON_USE; an unassigned slot opcode raises SEQ_SLOT. -/
def Obligations.IssueTraps : Prop :=
  (∀ (i : Instr) (h : Head) (d a b : Opd) (s : State) (c : Cur), i = .iadd h false false d a b ∨ i = .lds h .b32 d a 0 ∨ i = .rte h →
    s.cur = some c → c.warp ≠ 64 → lanesOf c.mask ≠ [] → (s.warp c.core c.warp).upsets = 0 →
    let plain (cause : Byte) (info : Nat) : Trap := { cause, info, addr := 0, aux := 0, defd := false }
    ((i.wf = false ∨ s.mayExecute c i = false) →
      ∃ t, exec i s = .next t ∧ Trapped s t c (lanesOf c.mask) [] (fun _ => plain 0x01 0) 0x01 false)
    ∧ (i.wf = true → s.mayExecute c i = true → (∃ n ∈ i.vregs, (s.warp c.core c.warp).ntile ≤ n / 8) →
      ∃ t, exec i s = .next t ∧ Trapped s t c (lanesOf c.mask) [] (fun _ => plain 0x02 0xFFFF) 0x02 false)
    ∧ (∀ n, i.wf = true → s.mayExecute c i = true → (∀ n ∈ i.vregs, n / 8 < (s.warp c.core c.warp).ntile) → n ∈ i.vregs →
      let tile (n : Nat) : Nat := (s.warp c.core c.warp).tbase + n / 8
      s.owner c.core (tile n) ≠ ownerCode c.warp → (∀ m ∈ i.vregs, s.owner c.core (tile m) ≠ ownerCode c.warp → tile n ≤ tile m) →
      (s.warp c.core c.warp).step = false → s.onLanes c h ≠ [] →
      ∃ t, exec i s = .next t ∧ Trapped s t c (s.onLanes c h) (s.offLanes c h) (fun _ => plain 0x02 (tile n)) 0x02 false)
    ∧ (∀ opc : Byte, ∃ t, exec (.unassignedOpcode h opc) s = .next t ∧ Trapped s t c (lanesOf c.mask) [] (fun _ => plain 0x01 0) 0x01 false)
    ∧ (∀ (slot : BitVec 2) (opc : Byte),
      Slots (.unassignedSlotOpcode slot opc) slot.toNat (fun _ _ f => f = 0x21) (fun _ _ => False) (fun s _ => s)))
  ∧ (∀ (h : Head) (d a b : Opd) (s : State) (c : Cur), c.warp ≠ 64 →
    let ls := s.onLanes c h
    let plain (cause : Byte) (info : Nat) : Trap := { cause, info, addr := 0, aux := 0, defd := false }
    ls ≠ [] →
    (∀ (rm : RM) (n : BitVec 8), a = .v n → Issues (.fadd h rm d a b) s c →
      (∀ l ∈ ls, ((s.begun c h).opd c l a).tag ≠ .f32 ∧ ((s.begun c h).opd c l a).tag ≠ .psn ∧ ((s.begun c h).opd c l b).tag ≠ .psn) →
      ∃ t, exec (.fadd h rm d a b) s = .next t
        ∧ Trapped s t c ls (s.offLanes c h) (fun l => plain 0x03 (16 + ((s.begun c h).opd c l a).tag.code.toNat)) 0x03 false)
    ∧ (∀ (ty : LdTy) (ofs : BitVec 24), Issues (.lds h ty d a ofs) s c → (∀ l ∈ ls, ((s.begun c h).opd c l a).tag = .psn) →
      ∃ t, exec (.lds h ty d a ofs) s = .next t ∧ Trapped s t c ls (s.offLanes c h) (fun _ => plain 0x04 0x1F) 0x04 false))

/-- R346 to R348, Table 16.3: CSRR reads each control register, the sequencer's only where its warp sees them; CSRW clears the deferred-fault record
and, from the handler warp, ISAT. Neither changes anything else but, at a read of SEQBCL, the latch that SEQBCH reads. -/
def Obligations.ControlRegisters : Prop :=
  ∀ (h : Head) (csr : Word) (s : State) (c : Cur),
    let ls := s.onLanes c h
    let q := (s.core c.core).seq
    let th (l : Nat) : Thread := (s.thread c.core c.warp l).plain
    let next (x : Thread) : Thread := { x with st := .ready, pc := x.pc + 12 }
    let sees : Bool := c.warp == 64 || match s.teamOf c.core c.warp with
      | some tm => tm.seq
      | none => false
    let high : Word := if sees then q.bcount.extractLsb' 32 32 else 0
    let moves (t : State) (f : Thread → Thread) : Prop :=
      (∀ l ∈ ls, (t.thread c.core c.warp l).plain = f (next (th l)))
      ∧ (∀ l ∈ s.offLanes c h, (t.thread c.core c.warp l).plain = next (th l))
      ∧ ∀ key, (∀ l ∈ lanesOf c.mask, key ≠ thrKey c.core c.warp l) → t.threads.get Thread.absent key = s.threads.get Thread.absent key
    let latch (x : Thread) : Thread := if csr = 0x11 then { x with bch := some high } else x
    let stopped : Bool := q.halt || (q.leaving && q.atRetire)
    let status : Word := BitVec.ofNat 32 (q.isat.toNat + stopped.toNat * 2 + q.plane.toNat * 4 + q.intlk.toNat * 8 + q.fcause.toNat * 2 ^ 16)
    let reads (l : Nat) (v : Word) : Prop :=
      let t := s.thread c.core c.warp l
      (csr = 0 → v = BitVec.ofNat 32 (t.dfCause.toNat + t.dfV.toNat * 2 ^ 8 + t.dfOvf.toNat * 2 ^ 9))
      ∧ (csr = 1 → v = t.dfAddr.setWidth 32) ∧ (csr = 2 → v = t.dfAddr.extractLsb' 32 32)
      ∧ (csr = 0x10 → sees → v = status) ∧ (csr = 0x11 → sees → v = q.bcount.setWidth 32)
      ∧ (csr = 0x12 → sees → v = t.bch.getD (q.bcount.extractLsb' 32 32))
      ∧ (csr = 0x10 ∨ csr = 0x11 ∨ csr = 0x12 → ¬ sees → v = 0)
      ∧ (csr = 0x20 → v = match s.served c.core with
          | some e => if e.seq then BitVec.ofNat 32 (64 + e.cause.toNat * 256) else BitVec.ofNat 32 (e.warp % 64 + e.cause.toNat * 256)
          | none => 0x80)
      ∧ (csr = 0x21 → v = match s.served c.core with
          | some e => if e.seq then 1 else e.lanes
          | none => 0)
      ∧ (csr = 0x22 → v = BitVec.ofNat 32 (s.core c.core).handler.budget)
    (∀ d, (∀ n, d ≠ .j n) → Issues (.csrr h d csr) s c →
      ∃ (v : Nat → Word) (t : State), exec (.csrr h d csr) s = .next t ∧ (∀ l ∈ ls, reads l (v l))
        ∧ Wrote s t c ls d (fun l => [{ bits := v l, tag := .w32 }]) ∧ Retired s t c ∧ KeepsRest s t ∧ moves t latch)
    ∧ (∀ n l rest, Issues (.csrr h (.j n) csr) s c → ls = l :: rest →
      ∃ (v : Word) (t : State), exec (.csrr h (.j n) csr) s = .next t ∧ reads l v ∧ t.jreg c.core c.warp n.toNat = v
        ∧ (∀ k, k ≠ n.toNat → t.jreg c.core c.warp k = s.jreg c.core c.warp k)
        ∧ { t.warp c.core c.warp with jregs := (s.warp c.core c.warp).jregs } =
            { s.warp c.core c.warp with retired := (s.warp c.core c.warp).retired + BitVec.ofNat 64 (lanesOf c.mask).length }
        ∧ (∀ key, key ≠ warpKey c.core c.warp → t.warps.get Warp.idle key = s.warps.get Warp.idle key)
        ∧ moves t latch ∧ { t with threads := s.threads, warps := s.warps } = s)
    ∧ (∀ a, Issues (.csrw h csr a) s c → s.accepts c h [trapSrc 1 a notPsn] →
      ∃ t, exec (.csrw h csr a) s = .next t ∧ Retired s t c
        ∧ moves t (fun x => if csr = 0 then { x with dfV := false, dfOvf := false, dfCause := 0, dfAddr := 0 } else x)
        ∧ (∀ d, t.core d = if d = c.core ∧ csr = 0x10 ∧ c.warp = 64 ∧ ls.any (fun l => ((s.begun c h).bits c l a).getLsbD 0) = true then
            { s.core d with seq := { (s.core d).seq with isat := false } } else s.core d)
        ∧ { t with threads := s.threads, warps := s.warps, cores := s.cores } = s)

/-- R349, R351, Table 3.3: HREAD reads, and HWRITE writes, a register, the trap record or a control register of each lane's own thread, or of the
sequencer served; the monitor reads and writes words of its core's page of the mailbox, and MBOX.SIG signals vector 1 of function 0. -/
def Obligations.HandlerAndMailbox : Prop :=
  (∀ (h : Head) (d x a : Opd) (s : State) (c : Cur) (e : Event), s.served c.core = some e →
    let ls := s.onLanes c h
    let num (l : Nat) : Nat := ((s.begun c h).bits c l x).toNat
    let k := s.warp c.core e.warp
    let owned (n : Nat) : Prop := n / 8 < k.ntile ∧ s.owner c.core (k.tbase + n / 8) = ownerCode e.warp
    let w32 (v : Word) : TWord := { bits := v, tag := .w32 }
    let record (l : Nat) : Option TrapRec := if e.seq then (s.core c.core).seq.record else (s.thread c.core e.warp l).record
    let reads (l : Nat) (v : TWord) : Prop :=
      (∀ n, num l = n → n < 256 → v = s.vreg c.core e.warp l n) ∧ (∀ n, num l = 0x100 + n → n < 64 → v = s.sreg c.core e.warp n)
      ∧ (∀ n, num l = 0x140 + n → n < 8 → v = w32 (if (s.thread c.core e.warp l).pred n then 1 else 0))
      ∧ (∀ n, num l = 0x148 + n → n < 8 → v = w32 (s.jreg c.core e.warp n))
      ∧ (∀ n r, num l = 0x1000 + n → n < 8 → record l = some r → v = w32 (r.word n))
      ∧ (num l = 0x2000 → v = w32 (s.thread c.core e.warp l).dfault)
      ∧ (∀ n, num l = 0x3000 + n → n < 32 → v = w32 ((s.core c.core).seq.yreg n))
      ∧ (∀ n, num l = 0x3020 + n → n < 4 → v = w32 (if bPred (s.core c.core).seq.b n then 1 else 0))
    (Issues (.hread h d x) s c → s.accepts c h [trapSrc 2 x notPsn] → c.warp ≠ e.warp →
      (∀ l ∈ ls, (e.seq = false ∧ ((num l < 256 ∧ owned (num l)) ∨ (256 ≤ num l ∧ num l ≤ 0x16A) ∨ (0x2000 ≤ num l ∧ num l ≤ 0x2002)))
        ∨ (0x1000 ≤ num l ∧ num l ≤ 0x1007) ∨ (e.seq = true ∧ 0x3000 ≤ num l ∧ num l ≤ 0x3023)) →
      ∃ (v : Nat → TWord) (t : State), exec (.hread h d x) s = .next t ∧ (∀ l ∈ ls, reads l (v l)) ∧ Computed s t c h d fun l => [v l])
    ∧ (∀ l, Issues (.hwrite h x a) s c → s.accepts c h [trapSrc 2 x notPsn] → c.warp ≠ e.warp → e.warp < 64 → ls = [l] → l < 32 →
      let v := (s.begun c h).opd c l a
      let old := s.thread c.core e.warp l
      let pass (served : Thread) (i : State → Prop) : Prop := ∃ t, exec (.hwrite h x a) s = .next t
        ∧ (t.thread c.core c.warp l).plain = { (s.thread c.core c.warp l).plain with st := .ready, pc := (s.thread c.core c.warp l).pc + 12 }
        ∧ t.thread c.core e.warp l = served
        ∧ (∀ key, key ≠ thrKey c.core e.warp l → (∀ m ∈ lanesOf c.mask, key ≠ thrKey c.core c.warp m) →
          t.threads.get Thread.absent key = s.threads.get Thread.absent key)
        ∧ (∀ key, key ≠ warpKey c.core c.warp → key ≠ warpKey c.core e.warp → t.warps.get Warp.idle key = s.warps.get Warp.idle key)
        ∧ { t.warp c.core e.warp with jregs := k.jregs } = k ∧ i t
      (∀ n, e.seq = false → num l = n → n < 256 → owned n → pass old fun t => t.vreg c.core e.warp l n = v
        ∧ (∀ key, key ≠ regKey c.core (vTile k.tbase n) (vWord l n) → t.regs.get TWord.zero key = s.regs.get TWord.zero key)
        ∧ (∀ m, t.jreg c.core e.warp m = s.jreg c.core e.warp m) ∧ { t with regs := s.regs, threads := s.threads, warps := s.warps } = s)
      ∧ (∀ n, e.seq = false → num l = 0x100 + n → n < 64 → pass old fun t => t.sreg c.core e.warp n = v
        ∧ (∀ key, key ≠ sregKey c.core e.warp n → t.sregs.get TWord.zero key = s.sregs.get TWord.zero key)
        ∧ (∀ m, t.jreg c.core e.warp m = s.jreg c.core e.warp m) ∧ { t with sregs := s.sregs, threads := s.threads, warps := s.warps } = s)
      ∧ (∀ n, e.seq = false → num l = 0x140 + n → n < 7 → pass (old.setPred n (v.bits != 0)) fun t => (t.thread c.core e.warp l).pred n = (v.bits != 0)
        ∧ (∀ m, t.jreg c.core e.warp m = s.jreg c.core e.warp m) ∧ { t with threads := s.threads, warps := s.warps } = s)
      ∧ (∀ n, e.seq = false → num l = 0x148 + n → n < 8 → pass old fun t => t.jreg c.core e.warp n = v.bits
        ∧ (∀ m, m ≠ n → t.jreg c.core e.warp m = s.jreg c.core e.warp m) ∧ { t with threads := s.threads, warps := s.warps } = s)
      ∧ (∀ r, e.seq = false → num l = 0x1000 → v.tag ≠ .psn → (s.thread c.core e.warp l).record = some r →
        pass { old with record := some { r with act := v.bits.extractLsb' 8 2 } } fun t => (∀ m, t.jreg c.core e.warp m = s.jreg c.core e.warp m) ∧ { t with threads := s.threads, warps := s.warps } = s)
      ∧ (∀ r, e.seq = false → num l = 0x1002 → v.tag ≠ .psn → (s.thread c.core e.warp l).record = some r →
        pass { old with record := some { r with pc := (r.pc.extractLsb' 32 32 ++ v.bits) &&& ~~~3 } } fun t => (∀ m, t.jreg c.core e.warp m = s.jreg c.core e.warp m) ∧ { t with threads := s.threads, warps := s.warps } = s)
      ∧ (∀ n r, e.seq = false → num l = 0x1000 + n → n < 8 → n ≠ 0 → n ≠ 2 → n ≠ 3 → v.tag ≠ .psn → (s.thread c.core e.warp l).record = some r →
        pass old fun t => (∀ m, t.jreg c.core e.warp m = s.jreg c.core e.warp m) ∧ { t with threads := s.threads, warps := s.warps } = s)
      ∧ (e.seq = false → num l = 0x2000 → v.tag ≠ .psn → pass { old with dfOvf := false, dfV := false, dfCause := 0, dfAddr := 0 } fun t => (∀ m, t.jreg c.core e.warp m = s.jreg c.core e.warp m) ∧ { t with threads := s.threads, warps := s.warps } = s)
      ∧ (∀ n, e.seq = true → num l = 0x3000 + n → n < 32 → v.tag ≠ .psn → pass old fun t => (t.core c.core).seq.yreg n = v.bits
        ∧ (∀ m, m ≠ n → (t.core c.core).seq.yreg m = (s.core c.core).seq.yreg m)
        ∧ { t with threads := s.threads, warps := s.warps, cores := s.cores } = s)))
  ∧ (∀ (h : Head) (d o a : Opd) (s : State) (c : Cur),
    let ls := s.onLanes c h
    let ofs (l : Nat) : Nat := ((s.begun c h).bits c l o).toNat
    let place (l : Nat) : Nat := c.core % 96 / 4 * 4096 + ofs l
    let inside : Prop := ∀ l ∈ ls, ofs l % 4 = 0 ∧ ofs l < 4096
    (Issues (.mboxRd h d o) s c → s.accepts c h [trapSrc 2 o notPsn] → inside →
      ∃ t, exec (.mboxRd h d o) s = .next t
        ∧ Computed s t c h d fun l => [{ bits := BitVec.ofNat 32 (leNat (Memory.read s.mailbox (place l) 4)), tag := .w32 }])
    ∧ (Issues (.mboxWr h o a) s c → s.accepts c h [trapSrc 1 a notPsn, trapSrc 2 o notPsn] → inside →
      ∃ t, exec (.mboxWr h o a) s = .next t ∧ Advanced s t c h
        ∧ Stored s.mailbox t.mailbox ls place 4 (fun l => ((s.begun c h).bits c l a).setWidth 64)
        ∧ { t with mailbox := s.mailbox, threads := s.threads, warps := s.warps } = s)
    ∧ (Issues (.mboxSig h) s c → ls ≠ [] →
      ∃ t, exec (.mboxSig h) s = .next t ∧ Advanced s t c h ∧ t.irqs = (0, 1) :: s.irqs
        ∧ { t with irqs := s.irqs, threads := s.threads, warps := s.warps } = s))

/-- R350: RTE ends its handler lanes, and each thread served goes on as its record's action says: RETRY at its PC, SKIP at the next
instruction, EXIT ended, FAULT with its launch; when the last lane ends, the handler warp is free. -/
def Obligations.ReturnFromTrap : Prop :=
  ∀ (h : Head) (s : State) (c : Cur) (e : Event), Issues (.rte h) s c → c.warp = 64 → s.served c.core = some e →
    e.seq = false → e.warp < 64 → e.cause ≠ 0x0E → (∀ l ∈ lanesOf c.mask, (s.thread c.core 64 l).st = .ready) →
    let ls := s.onLanes c h
    (∀ (r : Nat → TrapRec), ls ≠ [] → (∀ l ∈ ls, (s.thread c.core e.warp l).record = some (r l) ∧ ((r l).act = 0 ∨ (r l).act = 1)) →
      ∃ t, exec (.rte h) s = .next t
        ∧ (∀ l ∈ ls, (t.thread c.core e.warp l).st = .ready ∧ (t.thread c.core e.warp l).record = none
          ∧ (t.thread c.core e.warp l).pc = (if (r l).act = 0 then (r l).pc else (r l).pc + 12)
          ∧ (t.thread c.core e.warp l).preds = (s.thread c.core e.warp l).preds)
        ∧ (∀ l, l < 32 → l ∉ ls → t.thread c.core e.warp l = s.thread c.core e.warp l)
        ∧ ((∀ l, l < 32 → l ∉ ls → (s.thread c.core 64 l).st.alive = false) →
          t.served c.core = none ∧ (t.warp c.core 64).live = false ∧ ∀ n, 504 ≤ n → n < 512 → t.owner c.core n = 0x41)
        ∧ ((∃ l, l < 32 ∧ l ∉ ls ∧ (s.thread c.core 64 l).st.alive = true) →
          t.served c.core = some e ∧ ∀ l ∈ ls, (t.thread c.core 64 l).st = .exited)
        ∧ (∀ key, (∀ l, l < 32 → key ≠ thrKey c.core 64 l ∧ key ≠ thrKey c.core e.warp l) →
          t.threads.get Thread.absent key = s.threads.get Thread.absent key)
        ∧ (∀ key, key ≠ warpKey c.core 64 → t.warps.get Warp.idle key = s.warps.get Warp.idle key)
        ∧ (∀ d, d ≠ c.core → t.core d = s.core d) ∧ t.launches = s.launches
        ∧ t.regs = s.regs ∧ t.sregs = s.sregs ∧ t.scratch = s.scratch ∧ t.hbm = s.hbm)
    ∧ (∀ l r n x, ls = [l] → (s.thread c.core e.warp l).record = some r → r.act = 3 → (s.teamOf c.core e.warp).map (·.launch) = some n →
      s.launch n = some x → x.fate = none →
      ∃ t y, exec (.rte h) s = .next t ∧ t.launch n = some y ∧ y.fate = some (3, r.cause.toNat))

/-- R332 to R336: HANDLER_DISPATCH takes the oldest event, reads its vector as an ordinary LEASE load would, and starts the handler's lanes there,
with HEVT and HMASK in V4 and V5; without a vector the event ends as by FAULT, and an absent page is asked for first. That the lease of such a
read is 64 cycles, and that a stopped team's event waits, are the model's choices (assumptions 26 and 6). On a page that is mapped twice, once
SOFT, the entry is free (R191, assumption 14), which is another form. A budget of zero is a context machine
check; WARP_URGENT marks a warp that has waited 64,000 cycles. -/
def Obligations.HandlerWarp : Prop :=
  ∀ (core warp : Nat) (s : State) (e : Event) (rest : List Event),
    let k := s.core core
    let va (n : Nat) : Nat := (s.ctx e.ctx).traptab.toNat / 64 * 64 + 8 * n
    let word (n : Nat) (line : List Byte) : Nat := leNat ((line.drop (va n % 128)).take 8)
    let hit (n : Nat) : Option L1Line :=
      (s.l1Hit core e.ctx e.inc (va n)).filter fun x => !(x.attr.ord == .strong && s.ownStoreWaits core x.pa)
    let gives (n : Nat) (v : Option Nat) : Prop := match hit n, s.translate (dieOf core) e.ctx (va n) with
      | some x, _ => v = if x.attr.r && !x.bad (va n) then some (word n x.data) else none
      | none, .fail => v = none
      | none, .request => v = none ∧ k.handler.asked.contains (e.ctx, va n / 4096) = true
      | none, .ok _ a =>
        let pa := a.base + va n % a.size
        (a.r = false ∧ v = none) ∨ (a.r = true ∧ a.soft = false ∧ s.passes (pathCps core a pa) e.ctx e.inc = true ∧ s.ownStoreWaits core pa = false
          ∧ v = if (s.homeSectors a (pa / 128 * 128)).getD (va n % 128 / 32) false then none
            else some (word n (s.readHome (s.pageKey e.ctx a) a (pa / 128 * 128) 128)))
    let first : Nat := if e.defd then 5 else e.cause.toNat
    let reads (v : Option Nat) : Prop := gives first v ∧ (e.defd = true → v ≠ some 0)
    let due : Prop := k.handler.serving = none ∧ k.trapq = e :: rest ∧ (e.seq = false ∨ k.seq.kq = []) ∧ s.teamStopped core e.team = false
      ∧ s.handlerAsks core e = false
      ∧ (∀ x, hit first = some x → s.twiceMapped e.ctx x.attr (x.attr.base + va first % x.attr.size) = false)
      ∧ ∀ oa a, s.translate (dieOf core) e.ctx (va first) = .ok oa a → s.twiceMapped e.ctx a (a.base + va first % a.size) = false
    let leased (t : State) : Prop := { t with leases := s.leases, cores := s.cores } = s ∧ (∀ d, d ≠ core → t.core d = s.core d)
      ∧ { t.core core with l1 := k.l1 } = k
    (∀ vec, due → reads (some vec) → vec ≠ 0 → vec % 4 = 0 →
      let hevt : Word := BitVec.ofNat 32 (if e.seq then 64 + e.cause.toNat * 256 else e.warp % 64 + e.cause.toNat * 256)
      let hmask : Word := if e.seq then 1 else e.lanes
      ∃ t, exec (.handlerDispatch core) s = .next t
        ∧ t.core core =
            { k with trapq := rest, l1 := (t.core core).l1, handler := { serving := some e, budget := 1048576, pageWait := none, asked := [] } }
        ∧ (t.warp core 64).live = true ∧ (t.warp core 64).tbase = 504 ∧ (t.warp core 64).ntile = 8
        ∧ (∀ l, l < 32 → hmask.getLsbD l = true →
          (t.thread core 64 l).st = .ready ∧ (t.thread core 64 l).pc = BitVec.ofNat 64 vec
          ∧ t.vreg core 64 l 4 = { bits := hevt, tag := .w32 } ∧ t.vreg core 64 l 5 = { bits := hmask, tag := .w32 })
        ∧ (∀ l, l < 32 → hmask.getLsbD l = false → (t.thread core 64 l).st = .absent)
        ∧ (∀ n, 504 ≤ n → n < 512 → t.owner core n = 0x41)
        ∧ (∀ key, (∀ l, l < 32 → key ≠ thrKey core 64 l) → t.threads.get Thread.absent key = s.threads.get Thread.absent key)
        ∧ (∀ key, key ≠ warpKey core 64 → t.warps.get Warp.idle key = s.warps.get Warp.idle key)
        ∧ (∀ d, d ≠ core → t.core d = s.core d)
        ∧ t.scratch = s.scratch ∧ t.hbm = s.hbm ∧ t.launches = s.launches)
    ∧ (∀ v, due → reads v → (v = none ∨ v = some 0 ∨ ∃ n, v = some n ∧ n % 4 ≠ 0) →
      ∃ t, leased t ∧ exec (.handlerDispatch core) s =
        .next ((t.setCore core { t.core core with trapq := rest, handler := { k.handler with asked := [] } }).endEvent core e (some 3)))
    ∧ (due → hit first = none → s.translate (dieOf core) e.ctx (va first) = .request →
      k.handler.asked.contains (e.ctx, va first / 4096) = false →
      ∃ t, exec (.handlerDispatch core) s = .next t ∧ t.nextId = s.nextId + 1 ∧ t.core core = { k with handler := { k.handler with pageWait := some s.nextId } }
        ∧ t.pageReqs = s.pageReqs ++
          [{ id := s.nextId, ctx := e.ctx, inc := e.inc, va := va first, who := .handler core, cause := 0x07, aux := 0, launch := noLaunch }]
        ∧ (∀ d, d ≠ core → t.core d = s.core d)
        ∧ { t with nextId := s.nextId, cores := s.cores, pageReqs := s.pageReqs } = s)
    ∧ (k.handler.serving = none → k.trapq = e :: rest → s.teamStopped core e.team = true ∨ s.handlerAsks core e = true →
      exec (.handlerDispatch core) s = .next s)
    ∧ ((k.handler.serving ≠ none ∨ k.trapq = []) → exec (.handlerDispatch core) s = .next s)
    ∧ (k.handler.serving = some e → k.handler.budget = 0 →
      exec (.handlerBudgetExpiry core) s = .next (((s.handlerFree core).freeHandlerTiles core).machineCheck e.ctx e.inc))
    ∧ (k.handler.serving = none ∨ k.handler.budget ≠ 0 → exec (.handlerBudgetExpiry core) s = .next s)
    ∧ (64000 ≤ (s.warp core warp).waited →
      exec (.warpUrgent core warp) s = .next (s.setWarp core warp { s.warp core warp with urgent := true }))
    ∧ ((s.warp core warp).waited < 64000 → exec (.warpUrgent core warp) s = .next s)

-- The sequencer (06, 07) -------------------------------------------------------------------------------------------

/-- R128, R146 to R149: the scalar words write Y and B registers from the values at the start of their bundle, and a branch sets where control goes
after its two delay bundles. None of them raises a fault or stalls. -/
def Obligations.SequencerScalar : Prop :=
  let word (i : Instr) (effect : State → BundleCtx → State) : Prop := Slots i 0 (fun _ _ _ => False) (fun _ _ => False) effect
  let y (b : BundleCtx) (n : BitVec 5) : Word := b.y.get 0 n.toNat
  let src (b : BundleCtx) (x : YSrc) : Word := match x with
    | .y n => y b n
    | .imm w => w
  let sets (i : Instr) (yd : BitVec 5) (f : BundleCtx → Word) : Prop :=
    word i fun s b => s.modSeq b.core fun q => { q with y := q.y.set 0 yd.toNat (f b) }
  ∀ (yd ya : BitVec 5) (x : YSrc) (cc : YCmp) (bd bp : BitVec 2) (neg : Bool) (seg : BitVec 53) (idx : BitVec 8),
    let target : DWord × Nat := (BitVec.ofNat 64 (16 * seg.toNat), idx.toNat)
    word .cnop (fun s _ => s)
    ∧ sets (.yadd yd ya x) yd (fun b => y b ya + src b x)
    ∧ sets (.ysub yd ya x) yd (fun b => y b ya - src b x)
    ∧ sets (.ymov yd x) yd (fun b => src b x)
    ∧ sets (.yshl yd ya x) yd (fun b =>
        let n := (src b x).toInt
        BitVec.ofNat 32 (if 0 ≤ n then (y b ya).toNat * 2 ^ n.toNat else (y b ya).toNat / 2 ^ (-n).toNat))
    ∧ word (.ycmp cc bd ya x) (fun s b =>
        let u := y b ya
        let v := src b x
        let holds : Bool := match cc with
          | .eq => u == v | .ne => u != v | .lt => decide (u.toInt < v.toInt) | .le => decide (u.toInt ≤ v.toInt)
          | .gt => decide (v.toInt < u.toInt) | .ge => decide (v.toInt ≤ u.toInt) | .ltu => decide (u.toNat < v.toNat)
          | .geu => decide (v.toNat ≤ u.toNat)
        s.modSeq b.core fun q => if bd = 3 then q else q.setB bd.toNat holds)
    ∧ word (.sbr seg idx) (fun s b => { s with bun := some { b with jump := some target } })
    ∧ word (.sbrc neg bp seg idx) (fun s b =>
        if (bp = 3 ∨ b.b.getLsbD bp.toNat = true) = (neg = false) then { s with bun := some { b with jump := some target } } else s)
    ∧ (∀ (q : Seq) (t : DWord × Nat), q.pos.delays = 1 → q.pos.branch = some t →
        q.nextPos.pos = { seg := t.1, idx := t.2, enter := true, branch := none, delays := 0 })
    ∧ (∀ (s : State) (b : BundleCtx) (t : DWord × Nat), s.bun = some b → b.jump = some t → b.halt = false →
        (s.closeBundle.core b.core).seq.pos.branch = some t ∧ (s.closeBundle.core b.core).seq.pos.delays = 2)

/-- R126, R140 to R145, R150 to R157: STAKE takes tiles given to it and SGIVE gives them on; SARRIVE enters the K pipeline, SWAIT writes the lowest code
whose condition holds, or raises the code of a marked row where its RECOV team cannot read the object (R356); SFENCE counts; RETIREPT and SHALT
need an empty pipeline. -/
def Obligations.SequencerControl : Prop :=
  ∀ (tn : BitVec 5) (tb : BitVec 9) (rc : Byte) (yd ya yb : BitVec 5) (iv : Word),
    let n := tn.toNat + 1
    let ofs (b : BundleCtx) : Nat := (b.y.get 0 ya.toNat).toNat
    let barrier (s : State) (b : BundleCtx) : Prop := ∃ tm, s.seqTeam b.core = some tm ∧ ofs b % 32 = 0 ∧ ofs b + 32 ≤ tm.scrLen
    let marked (s : State) (b : BundleCtx) : Prop := ∃ tm, s.seqTeam b.core = some tm ∧ tm.recov.isSome = true
      ∧ s.scrPsn.get false (scrSector b.core (tm.scr + ofs b)) = true
    let owned (s : State) (b : BundleCtx) (t : Nat) : Prop := t < 512 ∧ (s.owner b.core t = 0x40 ∨ t ∈ b.taken)
    let code (s : State) (b : BundleCtx) : Option Word :=
      let x := s.seqBar b.core (ofs b)
      let late : Bool := match (s.core b.core).seq.stalled with
        | some t => iv != 0 && decide (t + iv.toNat ≤ s.time)
        | none => false
      if x.phase ≠ (b.y.get 0 yb.toNat).toNat then some 0 else if late then some 1 else if x.err then some 2 else none
    let retires (i : Instr) (act : BundleCtx → BundleCtx) : Prop :=
      (∀ s b, s.bun = some b → b.phase = .check →
        ∃ t b1, exec i s = .next { s with bun := some b1 } ∧ t = b1.faults ∧ b1.stall = b.stall ∧
          (((s.core b.core).seq.pipeEmpty = true ∧ (s.core b.core).seq.feeds = false) → b1 = b)
          ∧ (((s.core b.core).seq.pipeEmpty = false ∨ (s.core b.core).seq.feeds = true) → (0x21, 1) ∈ t)
          ∧ ((s.core b.core).seq.feeds = true → (0x21, 2) ∈ t))
      ∧ ∀ s b, s.bun = some b → b.phase = .perform → exec i s = .next { s with bun := some (act b) }
    (∀ s b, s.bun = some b → b.phase = .check →
      ∃ (fs : List (Byte × Byte)) (w : Bool), exec (.stake tn tb) s = .next { s with bun := some { b with
          taken := (List.range n).map (tb.toNat + ·), faults := b.faults ++ fs, stall := b.stall || w } }
        ∧ (fs = if 512 < tb.toNat + n then [(0x22, 1)] else [])
        ∧ (w = true ↔ tb.toNat + n ≤ 512 ∧ ∃ i, i < n ∧ (s.tilePending b.core (tb.toNat + i) = true
            ∨ (s.owner b.core (tb.toNat + i) ≠ 0x40 ∧ s.owner b.core (tb.toNat + i) ≠ 0xC0))))
    ∧ (∀ s b, s.bun = some b → b.phase = .perform → tb.toNat + n ≤ 512 →
      ∃ t, exec (.stake tn tb) s = .next t ∧ (∀ i, i < n → t.owner b.core (tb.toNat + i) = 0x40)
        ∧ (∀ d i, i < 512 → (d ≠ b.core ∨ i < tb.toNat ∨ tb.toNat + n ≤ i) → t.owner d i = s.owner d i)
        ∧ (∀ d, d ≠ b.core → t.core d = s.core d)
        ∧ t.core b.core = { s.core b.core with seq :=
            { (s.core b.core).seq with gave := (s.core b.core).seq.gave.cut tb.toNat (tb.toNat + n) } }
        ∧ { t with owners := s.owners, cores := s.cores } = s)
    ∧ Slots (.sgive tn tb rc) 0
        (fun s b f => (f = 0x22 ∧ ∃ i, i < n ∧ ¬ owned s b (tb.toNat + i)) ∨ (f = 0x21 ∧ 0x3F < rc.toNat ∧ rc ≠ 0x41))
        (fun _ _ => False) (fun s b => (s.giveTiles b.core tb.toNat n (s.seqTeam b.core) (s.seqTag b.core) rc).modSeq b.core fun q =>
          { q with gave := (List.range n).foldl (fun m i => m.put (tb.toNat + i) q.nextK) q.gave })
    ∧ Slots (.sarrive ya) 0 (fun s b f => f = 0x21 ∧ ¬ barrier s b) (fun _ _ => False) (fun s b => s.modSeq b.core fun q =>
        { q with
          kq := q.kq ++ [{ kid := q.nextK, bundle := q.bcount.toNat, fences := q.fences, slot := 0, row := 0, rows := 0,
                           move := .arrive (ofs b), data := none, later := [] }]
          nextK := q.nextK + 1 })
    ∧ Slots (.swait yd ya yb iv) 0 (fun s b f => (f = 0x21 ∧ ¬ barrier s b) ∨ (f = cSeqMarked ∧ barrier s b ∧ marked s b))
        (fun s b => barrier s b ∧ ¬ marked s b ∧ code s b = none)
        (fun s b => s.modSeq b.core fun q => { q with y := q.y.set 0 yd.toNat ((code s b).getD 0) })
    ∧ Slots .sfence 0 (fun _ _ _ => False) (fun _ _ => False) (fun s b => s.modSeq b.core fun q => { q with fences := q.fences + 1 })
    ∧ retires .retirept (fun b => { b with retire := true })
    ∧ retires .shalt (fun b => { b with halt := true })
    ∧ (∀ (core : Nat) (s : State), (s.core core).seq.stalled ≠ none → (s.core core).seq.released = false →
      (s.swaitLate core = true →
        exec (.swaitTimeout core) s = .next (s.modSeq core fun q => { q with released := true }))
      ∧ (s.swaitLate core = false → exec (.swaitTimeout core) s = .next s))

/-- R131 to R134, R158 to R165: MBEAT feeds rows, takes the sums at the bottom for ACC and DRAIN, and pushes weights; MSWAP, MZERO and MCFG act at the end of
their bundle. Which checks each makes, and what stalls it. A marked row raises a code of its own, which its bundle reports as SEQ_FORMAT (R356
has a RECOV team roll back there). -/
def Obligations.ArrayWords : Prop :=
  let marked : Byte := 0xEC
  faultCause marked = 0x23 ∧ (∀ f : Byte, f ≠ marked → faultCause f = f.toNat) ∧
  let q (s : State) (b : BundleCtx) : Seq := (s.core b.core).seq
  let free (s : State) (b : BundleCtx) (n : Nat) : Prop := ¬ (n < 96 ∧ ((q s b).slot n).claimed = true)
  let lost (s : State) (b : BundleCtx) (base n : Nat) : Prop :=
    ∃ i, i < n ∧ ¬ (base + i < 512 ∧ (s.owner b.core (base + i) = 0x40 ∨ base + i ∈ b.taken))
  let span (f : DFmt) : Nat := match f with | .d32 => 4 | .bf16 | .f16 => 2 | _ => 1
  ∀ (push : Option PushF) (feed : Option FeedF) (acc : Option AccF) (drain : Option DrainF) (swap : Bool) (md : AMode) (af wf : Bool)
    (nk : BitVec 4),
    let quiet (i : Instr) (effect : BundleCtx → BundleCtx) : Prop :=
      Slots i 1 (fun _ _ _ => False) (fun _ _ => False) fun s b => { s with bun := some (effect b) }
    let odd (s : State) (b : BundleCtx) (row : BitVec 4) : Prop := row.toNat % (q s b).beatRows ≠ 0
    quiet .mnop (fun b => b) ∧ quiet .mswap (fun b => { b with swap := true }) ∧ quiet .mzero (fun b => { b with zero := true })
    ∧ Slots (.mcfg md af wf nk) 1 (fun s b f => f = 0x21 ∧ (mcfgWf md af wf nk = false ∨ (q s b).pipeEmpty = false)) (fun _ _ => False)
        (fun s b => { s with bun := some { b with cfg := some (md, af, wf, nk) } })
    ∧ Slots (.mbeat push feed acc drain swap) 1
        (fun s b f =>
          (f = 0x21 ∧ ((acc.isSome = true ∧ drain.isSome = true)
            ∨ (∃ p, push = some p ∧ (free s b p.slot.toNat ∨ 2048 < 8 * p.ofs8.toNat + (q s b).pushLen))
            ∨ (∃ x, feed = some x ∧ (odd s b x.row ∨ (x.fromSlot = true ∧ free s b x.base.toNat)))
            ∨ (∃ x, acc = some x ∧ odd s b x.row)
            ∨ (∃ x, drain = some x ∧ (odd s b x.row ∨ (x.toSlot = true ∧ free s b x.base.toNat)))))
          ∨ (f = 0x22 ∧ ((∃ x, feed = some x ∧ x.fromSlot = false ∧ lost s b x.base.toNat 2)
            ∨ (∃ x, acc = some x ∧ lost s b x.base.toNat 4)
            ∨ (∃ x, drain = some x ∧ x.toSlot = false ∧ lost s b x.base.toNat (span x.fmt))))
          ∨ (f = marked ∧ ((∃ p, push = some p ∧ s.slotMarked b.core p.slot.toNat (8 * p.ofs8.toNat / 64)
                  ((8 * p.ofs8.toNat + (q s b).pushLen + 63) / 64 - 8 * p.ofs8.toNat / 64) = true)
            ∨ (∃ x, feed = some x ∧ x.fromSlot = true ∧ s.slotMarked b.core x.base.toNat (2 * x.row.toNat) (2 * (q s b).beatRows) = true)))
          ∨ (f = 0x23 ∧ ((∃ x, feed = some x ∧ x.fromSlot = false
                ∧ s.rowsTagged b.core x.base.toNat 2 x.row.toNat (q s b).beatRows (· == (q s b).actTag) = false)
            ∨ (∃ x, acc = some x ∧ x.anew = false
                ∧ s.rowsTagged b.core x.base.toNat 4 x.row.toNat (q s b).beatRows (fun t => t == (q s b).sumTag || t == .raw) = false)
            ∨ (∃ x, drain = some x ∧ ((x.toSlot = true ∧ x.fmt = .d32) ∨ (x.fmt = .i8 ∧ (q s b).intMode = false)
                ∨ (x.fmt ≠ .d32 ∧ x.fmt ≠ .i8 ∧ (q s b).intMode = true))))))
        (fun s b => (∃ p, push = some p ∧ p.slot.toNat < 96 ∧ ((q s b).slot p.slot.toNat).fills ≠ 0)
          ∨ (∃ x, feed = some x ∧ x.fromSlot = true ∧ x.base.toNat < 96 ∧ ((q s b).slot x.base.toNat).fills ≠ 0))
        (fun s b =>
          let q0 := q s b
          let fed := match feed with | some x => q0.feed (s.feedRows b.core q0 x) q0.bundleAddr | none => q0
          let summed := match acc with
            | some x => fed.pending (.acc (!x.anew) x.base.toNat x.row.toNat) (fed.rowsAt 68)
            | none => fed
          let drained := match drain with | some x => summed.drain x | none => summed
          { s.modSeq b.core (fun _ => drained) with
            bun := some { b with
              fed := feed.isSome, swap := swap,
              push := push.map fun p => (p.krow.toNat, s.slotBytes b.core p.slot.toNat (8 * p.ofs8.toNat) q0.pushLen) } })
    ∧ (∀ (s : State) (b : BundleCtx), s.bun = some b → b.halt = false →
      let x := s.closeBundle
      let active : Bool := (q s b).plane != b.swap
      x.bun = none ∧ (q x b).plane = active ∧ (q x b).bcount = (q s b).bcount + 1
      ∧ (∀ md af wf nk, b.cfg = some (md, af, wf, nk) → (q x b).md = md ∧ (q x b).af = af ∧ (q x b).wf = wf ∧ (q x b).nk = nk)
      ∧ (b.cfg = none → (q x b).md = (q s b).md ∧ (q x b).nk = (q s b).nk)
      ∧ (b.zero = true → (if active then (q x b).planeA else (q x b).planeB) = [])
      ∧ (∀ i bs, b.push = some (i, bs) → b.zero = false →
        Memory.read (if active then (q x b).planeA else (q x b).planeB) (128 * i) bs.length = bs)
      ∧ (if active then (q x b).planeB else (q x b).planeA) = (if active then (q s b).planeB else (q s b).planeA))

/-- R88, R132 to R134, R159, R160: 68 bundles after a FEED the rows at the bottom hold, for each feed row, the sums of all 64 PE rows of the plane that was
active, added in the order of the rows; W16 rounds after each product, INT clamps. -/
def Obligations.ColumnSums : Prop :=
  (∀ (q : Seq) (rows : List (List Byte)) (addr : DWord), q.md ≠ .lut → q.beats = [] → q.bcount.toNat + 68 < 2 ^ 64 → rows.length = q.beatRows →
    let later : Seq := (List.range 68).foldl (fun (q : Seq) _ => { q with bcount := q.bcount + 1 }.advance) (q.feed rows addr)
    later.rowsAt 68 = rows.map fun row =>
      (List.range 64).foldl (fun sums k => (q.meetRow k (Memory.read (if q.plane then q.planeB else q.planeA) (128 * k) 128) row sums).1)
        (List.replicate 64 0))
  ∧ (∀ (q : Seq) (k : Nat) (w row : List Byte) (sums : List Word) (n : Nat) (x : Word), sums[n]? = some x →
    (q.md = .w16 → q.af = false →
      let a := Fmt.bf16.decode (halfAt row k)
      let b := Fmt.bf16.decode (halfAt w n)
      (q.meetRow k w row sums).1[n]? = some (BitVec.ofNat 32 (Fmt.f32.ofFV .rne false (FV.add .rne (Fmt.f32.decode x.toNat) (FV.mul a b)))))
    ∧ (q.md = .int →
      let p (i : Nat) : Int := (byteAt row (2 * k + i)).toInt * (byteAt w (64 * i + n)).toInt
      let e := x.toInt + (p 0 + p 1)
      (q.meetRow k w row sums).1[n]? = some (BitVec.ofInt 32 (max (-2147483648) (min e 2147483647)))))

/-- R90, R135, R166, R167, R170: the stages of an X word act in order on the rows at the scale port: scale by a power of two, add a bias, clamp. A
marked row raises the code EC, which its bundle reports as SEQ_FORMAT. -/
def Obligations.Scaling : Prop :=
  let free (s : State) (b : BundleCtx) (n : Nat) : Prop := ¬ (n < 96 ∧ ((s.core b.core).seq.slot n).claimed = true)
  let round (x : FV) : Word := BitVec.ofNat 32 (Fmt.f32.ofFV .rne false x)
  let expBad (s : State) (b : BundleCtx) (e : XExp) (f : Byte) : Prop := match e with
    | .imm _ => False
    | .row n r => (f = 0x21 ∧ free s b n.toNat) ∨ (f = 0xEC ∧ s.slotMarked b.core n.toNat r.toNat 1 = true)
  let biasBad (s : State) (b : BundleCtx) (x : XBiasF) (f : Byte) : Prop :=
    (f = 0x21 ∧ (free s b x.slot.toNat ∨ 28 < x.row.toNat)) ∨ (f = 0xEC ∧ s.slotMarked b.core x.slot.toNat x.row.toNat 4 = true)
  let clampBad (b : BundleCtx) (x : XClampF) (f : Byte) : Prop :=
    let lo := (b.y.get 0 x.lo.toNat).toNat
    let hi := (b.y.get 0 x.hi.toNat).toNat
    f = 0x23 ∧ (Fmt.f32.isNaN lo = true ∨ Fmt.f32.isNaN hi = true ∨ Cmp.gt.onFloat .f32 lo hi = true)
  let stages (e : Option XExp) (bias : Option XBiasF) (clamp : Option XClampF) (i : Instr) : Prop :=
    Slots i 2
      (fun s b f => (f = 0x23 ∧ (s.core b.core).seq.intMode = true) ∨ (∃ x, e = some x ∧ expBad s b x f) ∨ (∃ x, bias = some x ∧ biasBad s b x f)
        ∨ (∃ x, clamp = some x ∧ clampBad b x f))
      (fun _ _ => False)
      (fun s b =>
        let exp (n : Nat) : Int := match e with
          | some (.imm v) => if n < 64 then v.toInt else 0
          | some (.row q r) => (byteAt (s.slotBytes b.core q.toNat (64 * r.toNat) 64) n).toInt
          | none => 0
        let addend (n : Nat) : Word := match bias with
          | some x => (rowWords 64 (s.slotBytes b.core x.slot.toNat (64 * x.row.toNat) 256)).getD n 0
          | none => 0
        let stage (n : Nat) (w : Word) : Word :=
          let w1 := if e = none then w else round ((Fmt.f32.decode w.toNat).scale (exp n))
          let w2 := if bias = none then w1 else round (FV.add .rne (Fmt.f32.decode w1.toNat) (Fmt.f32.decode (addend n).toNat))
          match clamp with
          | some x =>
            let lo := b.y.get 0 x.lo.toNat
            let hi := b.y.get 0 x.hi.toNat
            if Cmp.lt.onFloat .f32 w2.toNat lo.toNat then lo else if Cmp.gt.onFloat .f32 w2.toNat hi.toNat then hi else w2
          | none => w2
        s.modSeq b.core fun q => q.setRowsAt 66 ((q.rowsAt 66).map fun r => r.zipIdx.map fun p => stage p.2 p.1))
  ∀ (e : XExp) (bias : Option XBiasF) (clamp : Option XClampF) (x : XBiasF) (y : XClampF),
    Slots .xnop 2 (fun _ _ _ => False) (fun _ _ => False) (fun s _ => s)
    ∧ stages (some e) bias clamp (.xscale e bias clamp) ∧ stages none (some x) clamp (.xbias x clamp) ∧ stages none none (some y) (.xsat y)
    ∧ (∀ (q : Seq) (d : Nat) (rows : List (List Word)), (q.setRowsAt d rows).rowsAt d = rows)

/-- R126, R137, R138, R168 to R170: KCLAIM and KREL change a slot; KFILL and KSTORE enter the K pipeline; a transfer lands row by row, and an arrival acts
on its barrier. A KSTORE of a marked row raises the code EC, which its bundle reports as SEQ_FORMAT. -/
def Obligations.OperandMemory : Prop :=
  let q (s : State) (b : BundleCtx) : Seq := (s.core b.core).seq
  let free (s : State) (b : BundleCtx) (n : Nat) : Prop := ¬ (n < 96 ∧ ((q s b).slot n).claimed = true)
  let lost (s : State) (b : BundleCtx) (base n : Nat) : Prop :=
    ∃ i, i < n ∧ ¬ (base + i < 512 ∧ (s.owner b.core (base + i) = 0x40 ∨ base + i ∈ b.taken))
  let out (ofs rows extent : Nat) : Prop := ofs % 64 ≠ 0 ∨ extent < ofs + 64 * rows
  let put (q : Seq) (n row rows : Nat) (move : KMove) : Seq :=
    { q with
      kq := q.kq ++ [{ kid := q.nextK, bundle := q.bcount.toNat, fences := q.fences, slot := n, row, rows, move, data := none, later := [] }]
      nextK := q.nextK + 1 }
  ∀ (n : BitVec 7) (row nr : BitVec 5) (src : KFrom) (dst : KTo),
    let rows := nr.toNat + 1
    let y (b : BundleCtx) (ya : BitVec 5) : Nat := (b.y.get 0 ya.toNat).toNat
    Slots .knop 3 (fun _ _ _ => False) (fun _ _ => False) (fun s _ => s)
    ∧ Slots (.kclaim n) 3 (fun s b f => f = 0x21 ∧ (96 ≤ n.toNat ∨ ((q s b).slot n.toNat).claimed = true)) (fun _ _ => False)
        (fun s b => s.modSeq b.core fun q =>
          { q with slots := q.slots.set Slot.free n.toNat { claimed := true, fills := 0, drains := 0, releasing := false } })
    ∧ Slots (.krel n) 3 (fun s b f => f = 0x21 ∧ free s b n.toNat) (fun _ _ => False)
        (fun s b => s.modSeq b.core fun q =>
          let x := q.slot n.toNat
          { q with slots := q.slots.set Slot.free n.toNat (if x.fills = 0 ∧ x.drains = 0 then Slot.free else { x with releasing := true }) })
    ∧ Slots (.kfill n row nr src) 3
        (fun s b f =>
          (f = 0x21 ∧ (free s b n.toNat ∨ 31 < row.toNat + nr.toNat ∨ match src with
            | .sp ya => out (y b ya) rows (s.seqScr b.core)
            | .ws ya => out (y b ya) rows (s.seqWs b.core)
            | .tl _ => False))
          ∨ (∃ tb, src = .tl tb ∧ ((f = 0x22 ∧ lost s b tb.toNat ((rows + 15) / 16))
            ∨ (f = 0x23 ∧ ∃ i j, i < rows ∧ j < 16 ∧ (s.tileWord b.core (tb.toNat + i / 16) (16 * (i % 16) + j)).tag = .psn))))
        (fun s b => ∃ ya, src = .ws ya ∧ ¬ out (y b ya) rows (s.seqWs b.core) ∧ wsBusy s.time (y b ya) (64 * rows) = true)
        (fun s b => s.modSeq b.core fun q =>
          put (q.modSlot n.toNat fun x => { x with fills := x.fills + 1 }) n.toNat row.toNat rows (match src with
            | .sp ya => .fillSp (y b ya)
            | .ws ya => .fillWs (y b ya)
            | .tl tb => .fillTl ((s.stripRows b.core tb.toNat rows).flatMap fun r => rowBytes (r.map (·.bits)))))
    ∧ Slots (.kstore n row nr dst) 3
        (fun s b f =>
          (f = 0x21 ∧ (free s b n.toNat ∨ 31 < row.toNat + nr.toNat ∨ match dst with
            | .sp ya => out (y b ya) rows (s.seqScr b.core)
            | .tl _ tg => Tag.ofCode tg = none ∨ Tag.ofCode tg = some .psn))
          ∨ (f = 0xEC ∧ s.slotMarked b.core n.toNat row.toNat rows = true)
          ∨ (∃ tb tg, dst = .tl tb tg ∧ f = 0x22 ∧ lost s b tb.toNat ((rows + 15) / 16)))
        (fun _ _ => False)
        (fun s b => s.modSeq b.core fun q => put q n.toNat row.toNat rows (match dst with
          | .sp ya => .storeSp (y b ya)
          | .tl tb tg => .storeTl tb.toNat ((Tag.ofCode tg).getD .raw)))
    ∧ (∀ (s : State) (core kid : Nat) (k : KXfer) (tm : Team), (s.core core).seq.kq.find? (fun k => k.kid == kid) = some k →
      s.seqTeam core = some tm → tm.seq = true → (s.core core).seq.halt = false →
      ((s.core core).seq.mayLand k = false → exec (.kTransferLanded core kid) s = .next s)
      ∧ ((s.core core).seq.mayLand k = true → k.later = [] →
        (∀ ofs, k.move = .fillSp ofs → k.rows = 1 → tm.recov = none →
          s.scrRead core tm ofs 64 = (Memory.read s.scratch (scrKey core (tm.scr + ofs)) 64, false) →
          ∃ t, exec (.kTransferLanded core kid) s = .next t
            ∧ t.opmem = Memory.write s.opmem (opKey core (2048 * k.slot + 64 * k.row)) (Memory.read s.scratch (scrKey core (tm.scr + ofs)) 64)
            ∧ t.opPsn = Store.set false s.opPsn (opRow core (2048 * k.slot + 64 * k.row)) false
            ∧ { t with opmem := s.opmem, opPsn := s.opPsn, cores := s.cores } = s)
        ∧ (∀ ofs data, k.move = .storeSp ofs → k.rows = 1 → k.data = some data →
          ∃ t, exec (.kTransferLanded core kid) s = .next t
            ∧ t.scratch = Memory.write s.scratch (scrKey core (tm.scr + ofs)) (data.take 64)
            ∧ { t with scratch := s.scratch, scrPsn := s.scrPsn, cores := s.cores } = s)
        ∧ (∀ ofs, k.move = .arrive ofs →
          let x := Bar.ofBytes (Memory.read s.scratch (scrKey core (tm.scr + ofs)) 24)
          (x.flags / 256 = 0 ∨ s.seenStores core = []) → tm.recov = none ∨ Store.get false s.scrPsn (scrSector core (tm.scr + ofs)) = false →
          ∃ t, exec (.kTransferLanded core kid) s = .next t
            ∧ t.scratch = Memory.write s.scratch (scrKey core (tm.scr + ofs)) (if x.err then x else x.act .arrive).bytes
            ∧ (t.core core).seq.kq = (s.core core).seq.kq.filter (fun k => k.kid != kid)
            ∧ { t with scratch := s.scratch, cores := s.cores } = s)))

/-- R66 to R68, R127, R129, R153, R181, R365: a stalled bundle is released once nothing holds it; the engine expands the segment that comes next, or asks for
its page; SEQ_STOP stops the sequencer in place of the bundle it names. -/
def Obligations.SequencerEvents : Prop :=
  ∀ (core : Nat) (s : State),
    let q := (s.core core).seq
    let released : State := s.modSeq core fun q => { q with released := true }
    (q.stalled ≠ none → q.released = false → s.bundleWaits core = false → exec (.seqInterlockRelease core) s = .next released)
    ∧ (q.stalled = none ∨ q.released = true ∨ s.bundleWaits core = true → exec (.seqInterlockRelease core) s = .next s)
    ∧ (s.cores = [(core, s.core core)] → q.stalled ≠ none → q.released = false → s.bundleWaits core = false →
      (∃ n row nr ya, Instr.kfill n row nr (.ws ya) ∈ q.instrs) → exec .wsRefreshWindow s = .next released)
    ∧ ((∀ p ∈ s.cores, p.2.seq.stalled = none) → exec .wsRefreshWindow s = .next s)
    ∧ (∀ seg h, q.wanted = some seg → q.active = true → q.pageWait = none → s.readSegment (dieOf core) (s.seqTag core).1 seg = .inl h →
      exec (.segmentExpansion core) s = .next (s.modSeq core fun q => { q with halves := q.halves.take 1 ++ [h], denied := [] }))
    ∧ (∀ seg va, q.wanted = some seg → q.active = true → q.pageWait = none → s.readSegment (dieOf core) (s.seqTag core).1 seg = .inr va →
      q.denied = [] → ∃ t r, exec (.segmentExpansion core) s = .next t ∧ t.pageReqs = s.pageReqs ++ [r] ∧ r.va = va ∧ r.who = .seq core
        ∧ (t.core core).seq.pageWait = some r.id ∧ { t with pageReqs := s.pageReqs, cores := s.cores, nextId := s.nextId } = s)
    ∧ (q.wanted = none → exec (.segmentExpansion core) s = .next s)
    ∧ (∀ h, s.seqRuns core = true → q.stop = some q.bcount → q.supply = .ready h →
      ∃ t r, exec (.seqStop core) s = .next t ∧ (t.core core).seq.halt = true ∧ (t.core core).seq.fcause = 0x24 ∧ (t.core core).seq.record = some r
        ∧ r.cause = 0x24 ∧ r.pc = q.bcount ∧ r.addr = q.pos.seg ∧ r.kind = true ∧ r.act = 0
        ∧ (t.core core).trapq = (s.core core).trapq ∧ (t.core core).held.length = (s.core core).held.length + 1
        ∧ (t.core core).seq.stop = none ∧ { t with cores := s.cores } = s)
    ∧ (q.stop ≠ some q.bcount → exec (.seqStop core) s = .next s)

/-- R188, R189, R191, R192, R310, R311, R354: a miss is granted the line and an expiry, once the core's own stores to the line are performed (assumption
30); a copy serves only before its expiry; a waiting store is performed only after every expiry granted; a fill carries the bytes of the home under
those of the die's L2 and the core's own, and installs where its tag is live; evictions carry dirty bytes to the home or to the die's L2, or lose them with
a machine check. -/
def Obligations.Leases : Prop :=
  ∀ (s : State),
    (∀ (id : Nat) (r : Req), s.req id = some r →
      let fresh : Bool := s.passes r.ahead r.ctx r.inc
      let known : Bool := s.peerKnown r.attr
      let lpa := r.pa / 128 * 128
      let key := s.pageKey r.ctx r.attr
      let dropped (t : State) : State := { t with reqs := t.reqs.filter fun q => q.id != id }
      let staged (x : ReqStage) (t : State) : State := { t with reqs := replaceIf (fun q => q.id == r.id) (fun _ => { r with stage := x }) t.reqs }
      (∀ ty d hint len, r.act = .load ty d hint → r.stage = .sent → r.attr.leased = true → 64 ≤ len → len ≤ 4096 →
        (fresh = false → exec (.leaseGrant id len) s = .next (dropped s))
        ∧ (fresh = true → s.ownStoreWaits r.core r.pa = false →
          let e := if s.writeWaits r.pa then min (s.time + len) (s.lease r.pa) else s.time + len
          exec (.leaseGrant id len) s = .next (staged (.granted e s.time (s.readHome key r.attr lpa 128) (s.homeSectors r.attr lpa))
            { s with leases := s.leases.set 0 (r.pa / 128) (max (s.lease r.pa) e) }))
        ∧ (s.ownStoreWaits r.core r.pa = true → fresh = true → exec (.leaseGrant id len) s = .next s))
      ∧ (∀ ty d hint exp now line psn, r.act = .load ty d hint → r.stage = .granted exp now line psn →
        (s.passes [cpL1 r.core] r.ctx r.inc = false → exec (.fillArrival id) s = .next (dropped s))
        ∧ (s.passes [cpL1 r.core] r.ctx r.inc = true → r.noInstall = true ∨ exp ≤ now →
          exec (.fillArrival id) s = .next (staged (.filled line psn) s))
        ∧ (s.passes [cpL1 r.core] r.ctx r.inc = true → r.noInstall = false → now < exp →
          let x : L1Line := { ctx := r.ctx, inc := r.inc, va := r.va / 128 * 128, pa := lpa, attr := r.attr, exp := exp, data := line, psn := psn,
                              valid := List.replicate 4 true, dirty := List.replicate 128 false, by_ := [], stripped := false }
          ∃ t, exec (.fillArrival id) s = .next t ∧ t.reqs = (staged (.filled line psn) s).reqs
            ∧ (t.core r.core).l1 = x :: (s.core r.core).l1.filter (fun y => !(y.ctx == r.ctx && y.inc == r.inc && y.va == r.va / 128 * 128))
            ∧ { t with reqs := s.reqs, cores := s.cores } = s))
      ∧ (∀ ty d hint, r.act = .load ty d hint → r.stage = .sent → r.attr.soft = true → fresh = true →
        let die := dieOf r.core
        let copied : Bool := softCopied die r.attr r.pa
        let slice : Bool := !copied || s.passes [cpSlice die r.pa] r.ctx r.inc
        let l1 : Bool := s.passes [cpL1 r.core] r.ctx r.inc
        let at_ (y : L2Line) : Bool := y.die == die && y.ctx == r.ctx && y.inc == r.inc && y.attr.tgt == r.attr.tgt && y.pa == lpa
        let under (held : List Bool) (dirty : List Bool) (data d : List Byte) : List Byte :=
          (List.range 128).map fun i => if held.getD (i / 32) false || dirty.getD i false then data.getD i 0 else d.getD i 0
        let marks (held old new : List Bool) : List Bool := (List.range 4).map fun i => if held.getD i false then old.getD i false else new.getD i false
        let home := s.readHome key r.attr lpa 128
        let poison := (List.range 4).map fun i => s.homePsn r.attr (lpa + 32 * i) 32
        (known = false → exec (.fillArrival id) s = .next (staged .lost s))
        ∧ (known = true → slice = false → exec (.fillArrival id) s = .next (dropped s))
        ∧ (known = true → slice = true → l1 = false → ∃ t, exec (.fillArrival id) s = .next t ∧ t.reqs = (dropped s).reqs ∧ t.cores = s.cores)
        ∧ (known = true → slice = true → l1 = true →
          (∀ y ∈ s.l2, y.die = die → y.attr.tgt = r.attr.tgt → y.pa = lpa → y.key / 2 = key / 2) →
          (∀ q ∈ s.reqs, (∃ data mask by_, q.act = .writeback data mask by_) → dieOf q.core = die → q.pa ≠ lpa) →
          ∀ (own : Option L1Line) (below : Option L2Line),
            (s.core r.core).l1.find? (fun x => x.ctx == r.ctx && x.inc == r.inc && x.va == r.va / 128 * 128 && x.attr.soft) = own →
            (if copied then s.l2.find? at_ else none) = below →
            (∀ x, own = some x → x.data.length = 128 ∧ x.dirty.length = 128 ∧ x.valid.length = 4 ∧ x.psn.length = 4) →
            (∀ y, below = some y → y.data.length = 128 ∧ y.dirty.length = 128 ∧ y.valid.length = 4 ∧ y.psn.length = 4) →
            let d := match below with | some y => under y.valid y.dirty y.data home | none => home
            let p := match below with | some y => marks y.valid y.psn poison | none => poison
            let line := match own with | some x => under x.valid x.dirty x.data d | none => d
            let psn := match own with | some x => marks x.valid x.psn p | none => p
            ∃ t, exec (.fillArrival id) s = .next t ∧ t.reqs = (staged (.filled line psn) s).reqs
              ∧ (r.noInstall = true → t.cores = s.cores)
              ∧ (r.noInstall = false → ∃ x, (t.core r.core).l1
                  = x :: (s.core r.core).l1.filter (fun y => !(y.ctx == r.ctx && y.inc == r.inc && y.va == r.va / 128 * 128))
                ∧ x.data = line ∧ x.psn = psn ∧ x.valid = [true, true, true, true] ∧ x.ctx = r.ctx ∧ x.inc = r.inc ∧ x.va = r.va / 128 * 128
                ∧ x.dirty = (own.map (·.dirty)).getD (List.replicate 128 false))
              ∧ (copied = false ∨ r.noL2 = true → t.l2 = s.l2)
              ∧ (copied = true → r.noL2 = false → ∃ y, t.l2.find? at_ = some y ∧ y.data = d ∧ y.psn = p ∧ y.valid = [true, true, true, true]
                ∧ y.dirty = (below.map (·.dirty)).getD (List.replicate 128 false))
              ∧ { t with reqs := s.reqs, cores := s.cores, l2 := s.l2 } = s))
      ∧ (∀ data, r.act = .store data → r.attr.leased = true → fresh = true →
        (s.lease r.pa ≤ s.time → s.firstOfIssue r = true → (∀ q ∈ s.reqs, q.writesLine r.pa = true → q.core = r.core → r.id ≤ q.id) →
          (r.turn = none ∨ ∀ q ∈ s.reqs, q.turn ≠ none → q.unfixed = true → q.core = r.core → q.lane = r.lane → q.from_ = r.from_ → q.launch = r.launch →
            q.team = r.team → r.id ≤ q.id) →
          exec (.leaseWritePerform id) s = .next (dropped (s.writeHome key r.attr r.pa data)))
        ∧ (s.time < s.lease r.pa → exec (.leaseWritePerform id) s = .next s))
      ∧ (∀ data, r.act = .store data → r.attr.leased = true → fresh = false → exec (.leaseWritePerform id) s = .next (dropped s))
      ∧ (∀ go : State → State, (∃ data, r.act = .store data ∧ go = fun s => s.writeHome 0 r.attr r.pa data)
          ∨ (∃ data mask by_, r.act = .writeback data mask by_ ∧ go = fun s => s.writeMasked 0 r.attr r.pa mask data) →
        r.attr.tgt ≠ .hbm → r.stage = .sent → s.firstOfIssue r = true →
        exec (.targetAcknowledgement id) s = .next
          (if fresh then (if known then (dropped (go s)).settleAcks else staged .lost (go s)) else (dropped s).settleAcks)))
    ∧ (∀ core ctx inc va x, s.l1Hit core ctx inc va = some x → x ∈ (s.core core).l1 ∧ x.ctx = ctx ∧ x.inc = inc ∧ (x.attr.soft = true ∨ s.time < x.exp))
    ∧ (∀ core idx (x : L1Line), (s.core core).l1[idx]? = some x →
      let gone : State := s.modCore core fun k => { k with l1 := k.l1.eraseIdx idx }
      (x.attr.soft = false → x.exp ≤ s.time → exec (.leaseExpiry core idx) s = .next gone)
      ∧ (x.attr.soft = true ∨ s.time < x.exp → exec (.leaseExpiry core idx) s = .next s)
      ∧ (core < 192 → x.dirty.contains true = false → exec (.evictionWriteback core idx) s = .next gone)
      ∧ (core < 192 → x.dirty.contains true = true → s.lineWritable core x = false →
        exec (.evictionWriteback core idx) s = .next (gone.machineCheck x.ctx x.inc))
      ∧ (core < 192 → x.dirty.contains true = true → s.lineWritable core x = true → x.attr.tgt = .hbm → dieOf core = homeDie x.pa →
        exec (.evictionWriteback core idx) s = .next (if s.passes (dieCps (dieOf core) x.attr x.pa) x.ctx x.inc then
          gone.writeMasked (s.pageKey x.ctx x.attr) x.attr (x.pa / 128 * 128) x.dirty x.data else gone))
      ∧ (core < 192 → x.dirty.contains true = true → s.lineWritable core x = true → softCopied (dieOf core) x.attr x.pa = true →
        let at_ (y : L2Line) : Bool := y.die == dieOf core && y.ctx == x.ctx && y.inc == x.inc && y.attr.tgt == x.attr.tgt && y.pa == x.pa / 128 * 128
        (s.passes [cpSlice (dieOf core) x.pa] x.ctx x.inc = false → exec (.evictionWriteback core idx) s = .next gone)
        ∧ (s.passes [cpSlice (dieOf core) x.pa] x.ctx x.inc = true → x.dirty.length = 128 → x.data.length = 128 →
          (∀ y ∈ s.l2, y.die = dieOf core → y.attr.tgt = x.attr.tgt → y.pa = x.pa / 128 * 128 → y.key / 2 = s.pageKey x.ctx x.attr / 2) →
          (∀ y ∈ s.l2, y.data.length = 128 ∧ y.dirty.length = 128) →
          ∃ t y, exec (.evictionWriteback core idx) s = .next t ∧ t.l2.find? at_ = some y
            ∧ (∀ i < 128, y.dirty.getD i false = (x.dirty.getD i false || ((s.l2.find? at_).map (·.dirty.getD i false)).getD false)
              ∧ (x.dirty.getD i false = true → y.data.getD i 0 = x.data.getD i 0)
              ∧ (x.dirty.getD i false = false → ∀ z, s.l2.find? at_ = some z → y.data.getD i 0 = z.data.getD i 0))
            ∧ { t with l2 := s.l2 } = gone)))
    ∧ (∀ die idx (x : L2Line), s.l2[idx]? = some x → x.die = die →
      let gone : State := { s with l2 := s.l2.eraseIdx idx }
      (x.dirty.contains true = false → exec (.evictionWriteback (192 + die) idx) s = .next gone)
      ∧ (x.dirty.contains true = true → s.l2Writable x = false → exec (.evictionWriteback (192 + die) idx) s = .next (gone.machineCheck x.ctx x.inc))
      ∧ (x.dirty.contains true = true → s.l2Writable x = true → x.attr.tgt = .hbm →
        exec (.evictionWriteback (192 + die) idx) s = .next (if s.passes (dieCps die x.attr x.pa) x.ctx x.inc then
          gone.writeMasked x.key x.attr x.pa x.dirty x.data else gone))
      ∧ (x.dirty.contains true = true → s.l2Writable x = true → x.attr.tgt ≠ .hbm →
        ∃ r, exec (.evictionWriteback (192 + die) idx) s = .next { gone with reqs := s.reqs ++ [r], nextId := s.nextId + 1 }
          ∧ r.act = .writeback x.data x.dirty x.by_ ∧ r.id = s.nextId ∧ r.attr = x.attr ∧ r.pa = x.pa ∧ r.ctx = x.ctx ∧ r.inc = x.inc
          ∧ r.stage = .sent))

/-- R204, R213, R302, R311, R324 to R328, R374: a walk fills the translation cache; the host's answer to a page request sends its waiter on or refuses it,
and a timeout of one is a refusal (assumption 33); a request that leaves the package may time out; invalidations drop what they name, keep stripped dirty
SOFT lines, keep the fills and results on their way out of the caches (assumption 48), and complete once earlier accesses are performed. -/
def Obligations.Translation : Prop :=
  ∀ (s : State),
    (∀ (die ctx : Nat) (inc : Byte) (va : DWord), ctx < 4096 →
      let tag := ctx * 256 + inc.toNat
      let fn := (s.ctx ctx).cfg.toNat % 8 + 1
      let hits : Bool := s.tlb.any fun e => e.die == die && e.ctx == ctx && decide (e.va ≤ va.toNat ∧ va.toNat < e.va + e.attr.size)
        && (e.attr.tgt != .host || e.fn == fn)
      (hits = true ∨ s.walkPasses die ctx inc va.toNat = false → exec (.translationWalk die tag va) s = .next s)
      ∧ (∀ oa a, hits = false → s.walkPasses die ctx inc va.toNat = true → s.walk ctx va.toNat = .ok oa a →
        exec (.translationWalk die tag va) s =
          .next { s with tlb := { die := die, ctx := ctx, va := va.toNat - va.toNat % a.size, oa := oa, attr := a, fn := fn } :: s.tlb })
      ∧ ((∀ oa a, s.walk ctx va.toNat ≠ .ok oa a) → exec (.translationWalk die tag va) s = .next s))
    ∧ (∀ (id : Nat) (p : PageReq), s.pageReqs.find? (fun q => q.id == id) = some p →
      let gone : State := { s with pageReqs := s.pageReqs.filter fun q => q.id != id }
      let mark (ok : Bool) : Nat := 2 * (p.va / 4096) + (if ok then 0 else 1)
      (s.passes [cpPcie] p.ctx p.inc = false → ∀ ok, exec (.pageRequestResponse id ok) s = .next gone)
      ∧ (s.passes [cpPcie] p.ctx p.inc = true →
        (∀ c w l va, p.who = .threads c w [(l, va)] → (s.thread c w l).st = .page id →
          (∃ t, exec (.pageRequestResponse id true) s = .next t
            ∧ t.thread c w l = { s.thread c w l with st := .ready, again := (p.cause, va / 4096) :: (s.thread c w l).again, since := s.time }
            ∧ (∀ key, key ≠ thrKey c w l → t.threads.get Thread.absent key = s.threads.get Thread.absent key)
            ∧ { t with threads := s.threads } = gone)
          ∧ exec (.pageRequestResponse id false) s = .next
            ((if p.cause = 0x08 then gone.setThread c w l { s.thread c w l with issued := (s.thread c w l).issued + 1 } else gone).takeTraps c w
              [(l, Trap.at_ p.cause va p.aux)]))
        ∧ (∀ c w lanes ok, p.who = .threads c w lanes → (∀ x ∈ lanes, (s.thread c w x.1).st ≠ .page id) →
          exec (.pageRequestResponse id ok) s = .next gone)
        ∧ (∀ core ok, p.who = .seq core → (s.core core).seq.pageWait = some id →
          exec (.pageRequestResponse id ok) s = .next (gone.modSeq core fun q => { q with pageWait := none, denied := mark ok :: q.denied }))
        ∧ (∀ q ok, p.who = .queue q → (s.queue q).pageWait = some id →
          exec (.pageRequestResponse id ok) s = .next (gone.setQueue q { s.queue q with pageWait := none, denied := mark ok :: (s.queue q).denied }))
        ∧ (∀ core ok, p.who = .handler core → (s.core core).handler.pageWait = some id →
          exec (.pageRequestResponse id ok) s = .next (gone.setCore core { s.core core with handler :=
            { (s.core core).handler with pageWait := none, asked := (p.ctx, p.va / 4096) :: (s.core core).handler.asked } }))
        ∧ (∀ k ok, p.who = .copy k → exec (.pageRequestResponse id ok) s = .next { gone with
            copies := replaceIf (fun x => x.id == k && x.page == some id) (fun x => { x with page := none, denied := mark ok :: x.denied }) s.copies }))
      ∧ (s.req id = none → s.copy id = none → s.passes [cpPcie] p.ctx p.inc = true →
        exec (.portTimeout id) s = exec (.pageRequestResponse id false) s))
    ∧ (∀ (id : Nat) (r : Req), s.req id = some r →
      (r.attr.tgt = .hbm → exec (.portTimeout id) s = .next s)
      ∧ (∀ n, r.attr.tgt = .peer n → s.time < r.sentAt + 5000000 → exec (.portTimeout id) s = .next s)
      ∧ (∀ exp now line psn, r.stage = .granted exp now line psn ∨ r.stage = .filled line psn → exec (.portTimeout id) s = .next s)
      ∧ ((∀ exp now line psn, r.stage ≠ .granted exp now line psn ∧ r.stage ≠ .filled line psn) →
        r.attr.tgt = .host ∨ ((∃ n, r.attr.tgt = .peer n) ∧ r.sentAt + 5000000 ≤ s.time) →
        let answer (d : Opd) (ws : List TWord) (th : Thread → Thread) : Prop :=
          ∀ c : Cur, c.core = r.core → c.warp = r.warp → r.orphan = false → s.staleAt r = false →
            s.isResident r.core r.warp r.launch r.team = true → r.lane < 32 → r.window = none →
            (∀ i ∈ s.ckpts, ¬ (i.launch = r.launch ∧ i.index = r.team ∧ id < i.since)) →
            (∀ k, k < 4 → ∀ n, d.next k = .v n → s.owner r.core (vTile (s.warp r.core r.warp).tbase n.toNat) = ownerCode r.warp
              ∨ ((∀ i ∈ s.images, i.core = r.core → i.tiles.contains (vTile (s.warp r.core r.warp).tbase n.toNat) = false) ∧ s.shadowed r.ctx = false)) →
            ∃ t, exec (.portTimeout id) s = .next t ∧ Placed s t c [r.lane] (fun _ => d) (fun _ => ws)
              ∧ t.thread r.core r.warp r.lane = th (s.thread r.core r.warp r.lane)
              ∧ (∀ key, key ≠ thrKey r.core r.warp r.lane → t.threads.get Thread.absent key = s.threads.get Thread.absent key)
              ∧ (∀ key, key ≠ warpKey r.core r.warp → t.warps.get Warp.idle key = s.warps.get Warp.idle key)
              ∧ { t.warp r.core r.warp with backoff := (s.warp r.core r.warp).backoff } = s.warp r.core r.warp
              ∧ { t with regs := s.regs, sregs := s.sregs, threads := s.threads, warps := s.warps } = { s with reqs := s.reqs.filter fun q => q.id != r.id }
        (∀ ty d hint, r.act = .load ty d hint → answer d (loadPoison ty) fun th =>
          { th.defer cDataPage (BitVec.ofNat 64 r.va) with yld := if hint then some (BitVec.ofNat 64 r.va, 0) else th.yld })
        ∧ (∀ op w64 u d v cmp, r.act = .atom op w64 u d v cmp →
          answer d (List.replicate (if w64 then 2 else 1) { bits := 0, tag := .psn }) fun th => th.defer cDataPage (BitVec.ofNat 64 r.va))
        ∧ (∀ op d g v, r.act = .cell op d g v → answer d
          [{ bits := 0, tag := .raw }, { bits := 0, tag := .raw }, { bits := 5, tag := .w32 }, { bits := 0, tag := .w32 }] fun th => th)
        ∧ (∀ copy u data, r.act = .unit copy u data → exec (.portTimeout id) s = .next { s with
          reqs := s.reqs.filter fun q => q.id != r.id
          copies := replaceIf (fun k => k.id == copy) (fun k => { k with denied := (2 * (r.va / 4096) + 1) :: k.denied }) s.copies })
        ∧ (((∃ data, r.act = .store data) ∨ ∃ data mask by_, r.act = .writeback data mask by_) →
          exec (.portTimeout id) s =
            .next (({ s with reqs := s.reqs.filter fun q => q.id != r.id }.settleAcks).machineCheck r.ctx r.inc))))
    ∧ (∀ fn addr len, exec (.atsInvalidation fn addr len) s = .next { s with
        tlb := s.tlb.filter fun e => !(e.attr.tgt == .host && e.fn == fn && decide (addr < e.oa + 4096 ∧ e.oa < addr + len)) })
    ∧ (∀ fn, fn ≤ 8 →
      let b := s.tinv fn
      let ctx := b.ctx.toNat % 4096
      let last := b.va.toNat + 4096 * b.cnt.toNat
      let reached : Prop := fn = 0 ∨ s.partOf ctx + 1 = fn
      let wellFormed : Prop := b.ctx.toNat < 4096 ∧ b.va.toNat % 4096 = 0 ∧ b.va.toNat < 2 ^ 57 ∧ last ≤ 2 ^ 57
      let inside (va : Nat) : Prop := b.cnt = 0 ∨ (b.va.toNat ≤ va ∧ va < last)
      (b.busy = true → exec (.translationInvalidation fn) s = .next s)
      ∧ (b.busy = false → ¬ reached → exec (.translationInvalidation fn) s = .next (s.setTinv fn { b with res := 1 }))
      ∧ (b.busy = false → reached → ¬ wellFormed → exec (.translationInvalidation fn) s = .next (s.setTinv fn { b with res := 2 }))
      ∧ (b.busy = false → reached → wellFormed →
        ∃ t, exec (.translationInvalidation fn) s = .next t ∧ t.tinv fn = { b with busy := true, res := 0, run := (ctx, b.va.toNat, b.cnt.toNat), since := s.nextId }
          ∧ (∀ e, e ∈ t.tlb ↔ e ∈ s.tlb ∧ ¬ (e.ctx = ctx ∧ (b.cnt = 0 ∨ (e.va < last ∧ b.va.toNat < e.va + e.attr.size))))
          ∧ (∀ x, x ∈ t.decided ↔ x ∈ s.decided ∧ ¬ (x.ctx = ctx ∧ inside x.va))
          ∧ (∀ core x, x ∈ (t.core core).l1 → x.ctx = ctx → inside x.va → x.stripped = true ∧ x.attr.soft = true ∧ x.dirty.contains true = true)
          ∧ (∀ core x, x ∈ (s.core core).l1 → ¬ (x.ctx = ctx ∧ inside x.va) → x ∈ (t.core core).l1)
          ∧ (∀ core x, x ∈ (s.core core).l1 → x.ctx = ctx → inside x.va → x.attr.soft = true → x.dirty.contains true = true →
            { x with stripped := true } ∈ (t.core core).l1)
          ∧ (∀ core x, x ∈ (t.core core).icache ↔ x ∈ (s.core core).icache ∧ ¬ (x.ctx = ctx ∧ inside x.va))
          ∧ (∀ r ∈ t.reqs, r.ctx = ctx → inside (r.va / 128 * 128) →
            ((∃ ty d o, r.act = .load ty d o) ∨ ∃ op d g v, r.act = .cell op d g v) → r.noInstall = true)
          ∧ { t with tlb := s.tlb, decided := s.decided, reqs := s.reqs, cores := s.cores, tinvs := s.tinvs } = s)
      ∧ (∀ no va cnt, b.busy = true → b.run = (no, va, cnt) →
        let runs (x : Nat) : Prop := cnt = 0 ∨ (va ≤ x ∧ x < va + 4096 * cnt)
        let old (x : Nat) (a : Attr) : Prop := runs x ∧ ∀ oa, s.walk no x ≠ .ok oa a
        let goes : Prop := (∀ r ∈ s.reqs, r.ctx = no → runs r.va → r.id < b.since ∨ (∃ n, r.turn = some n ∧ n < b.since) → r.stage = .sent →
            (∃ h w o a d, r.act = .barrier h w o a d) ∨ (∃ ty d o y, r.act = .weight ty d o y) ∨ (∃ h w ty d y, r.act = .rload h w ty d y)
              ∨ ∃ h w data, r.act = .rstore h w data)
          ∧ (∀ x ∈ s.heldStores no, ¬ old x.va x.attr) ∧ ∀ k ∈ s.copies, k.ctx = no → ∀ p ∈ k.pages, ¬ old (4096 * p.1) p.2
        (goes → exec (.invalidationComplete fn) s = .next (s.setTinv fn { b with busy := false }))
        ∧ (¬ goes → exec (.invalidationComplete fn) s = .next s)))

/-- R262 to R267, R270 to R272, R312, R316, R372, R392: the packet at a queue's head is refused with the lowest offset at which it offends, else acted on by
its type, and consumed; a record holds the status; copies (whole, poisoned, at fault or in part) and weight-store writes are recorded as they end, but no
copy of a killed context; queues take turns; the registry's commands answer by their rules. -/
def Obligations.QueuePackets : Prop :=
  ∀ (s : State) (q : Nat),
    let k := s.queue q
    let finish (slot ridx : Nat) (pk : List Byte) (status detail done : Nat) : State :=
      (s.writeRecord q (leNat ((pk.drop 56).take 8)) ((leNat (pk.take 4)).testBit 17) status detail done 0).consume q slot ridx
    (∀ (addr : Nat) (irq : Bool) (status detail done failed : Nat),
      (addr = 0 → s.writeRecord q addr irq status detail done failed = s)
      ∧ (addr ≠ 0 → addr % 32 ≠ 0 ∨ s.canWrite k.die k.ctx addr 32 = false → s.writeRecord q addr irq status detail done failed = s.countErr q)
      ∧ (addr ≠ 0 → addr % 32 = 0 → s.canWrite k.die k.ctx addr 32 = true →
        let w := s.writeVirt k.die k.ctx addr (leBytes 4 status ++ leBytes 4 detail ++ leBytes 8 s.time ++ leBytes 8 done ++ leBytes 8 failed)
        s.writeRecord q addr irq status detail done failed = if irq then { w with irqs := (q / 256 + 1, 0) :: w.irqs } else w))
    ∧ (∀ (slot ridx : Nat),
      let w := (s.writeVirt k.die k.ctx slot (leBytes 4 0)).writeVirt k.die k.ctx (k.qcb.toNat + 8) (leBytes 8 ((ridx + 1) % 2 ^ 64))
      s.consume q slot ridx = w.setQueue q { k with
        served := k.served + 1, order := k.order + 1, wsBegun := false, begun := none, denied := [], reg := k.reg && !k.leaving,
        inn := k.inn && !k.leaving, leaving := false })
    ∧ (∀ pk : List Byte,
      let f := field pk
      let h := f 0 4
      let type := h % 16
      let whole (lo hi o : Nat) : Prop := lo ≤ o ∧ o < hi ∧ pk.getD o 0 ≠ 0
      let total := f 4 4 * f 8 2 * f 10 2
      let csize := f 14 1
      let seq := f 15 1 % 2 = 1
      let scr := (f 16 4 + 383) / 384 * 384
      let lane := if f 20 2 = 0 then 16 else 2048 / min (f 20 2) 2048
      let bank (quad : Nat) : Nat := if quad = 3 then 120 else 128
      let slots (quad : Nat) : Nat := min (min 16 lane) (if f 13 1 = 0 then 16 else bank quad / f 13 1)
      let fits : Prop := (s.part (q / 256)).clmask.toNat % 2 ^ 24 ≠ 0 ∧ scr ≤ 393216
        ∧ if seq then ∀ j < f 12 1, j / 4 < 4 ∧ j % 4 < lane ∧ f 13 1 * (j % 4 + 1) ≤ bank (j / 4) else f 12 1 ≤ slots 0 + slots 1 + slots 2 + slots 3
      let saved := f 12 1 * (f 13 1 * 1024 + 32 * (56 + min (f 20 2) 2048) + 320) + scr + 256 + if seq then 16384 + 1024 + 196608 else 0
      let offends (o : Nat) : Prop :=
        (o = 0 ∧ (4 < type ∨ h / 16 % 16 ≠ 1)) ∨ (o = 1 ∧ (h.testBit 15 = true ∨ (type ≠ 1 ∧ h / 256 % 128 ≠ 0))) ∨ (o = 2 ∧ h / 2 ^ 18 % 64 ≠ 0)
        ∨ (o = 3 ∧ h / 2 ^ 24 ≠ 0) ∨ (o = 56 ∧ f 56 8 % 32 ≠ 0)
        ∨ (type = 1 ∧ ((o = 4 ∧ (f 4 4 = 0 ∨ f 4 4 % csize ≠ 0 ∨ 2 ^ 32 - 1 < total)) ∨ (o = 8 ∧ f 8 2 = 0) ∨ (o = 10 ∧ f 10 2 = 0)
          ∨ (o = 12 ∧ (f 12 1 = 0 ∨ 16 < f 12 1 ∨ ¬ fits)) ∨ (o = 13 ∧ (f 13 1 = 0 ∨ 32 < f 13 1))
          ∨ (o = 14 ∧ csize ≠ 1 ∧ csize ≠ 2 ∧ csize ≠ 4 ∧ csize ≠ 8)
          ∨ (o = 15 ∧ (15 < f 15 1 ∨ (fits ∧ (f 15 1).testBit 1 = true
            ∧ (if (s.part (q / 256)).pair.getLsbD 3 then 272 * 1024 else 544 * 1024) < saved)))
          ∨ (o = 16 ∧ 393216 < f 16 4) ∨ (o = 20 ∧ (f 20 2 < 64 ∨ 32768 < f 20 2 ∨ f 20 2 % 64 ≠ 0)) ∨ (o = 22 ∧ 255 < f 22 2)
          ∨ (o = 24 ∧ f 24 8 % 4 ≠ 0) ∨ (o = 32 ∧ (if seq then f 32 8 = 0 ∨ f 32 8 % 64 ≠ 0 else f 32 8 ≠ 0))
          ∨ (o = 48 ∧ (f 48 8 % 16 ≠ 0 ∨ (f 22 2 = 0 ∧ f 48 8 ≠ 0)))))
        ∨ (type = 2 ∧ (whole 4 8 o ∨ whole 32 56 o ∨ (o = 8 ∧ f 8 8 % 16 ≠ 0) ∨ (o = 16 ∧ f 16 8 % 16 ≠ 0)
          ∨ (o = 24 ∧ (f 24 8 % 16 ≠ 0 ∨ 2 ^ 40 < f 24 8))))
        ∨ (type = 3 ∧ (whole 7 56 o ∨ (o = 4 ∧ s.partOf (f 4 2 % 4096) ≠ q / 256) ∨ (o = 5 ∧ f 5 1 / 16 ≠ 0)))
        ∨ (type = 4 ∧ (whole 4 8 o ∨ whole 48 56 o ∨ (o = 8 ∧ f 8 8 % 64 ≠ 0)
          ∨ (o = 16 ∧ (f 16 4 % 64 ≠ 0 ∨ (s.ctx k.ctx).wslen.toNat * 65536 < f 16 4 + f 20 4)) ∨ (o = 20 ∧ (f 20 4 = 0 ∨ f 20 4 % 64 ≠ 0))
          ∨ (o = 24 ∧ (f 24 24 = 0 ∨ ∃ c < 192, (f 24 24).testBit c = true ∧ (s.part (q / 256)).clmask.getLsbD (clusOf c) = false))))
      (s.packetOffence q pk = none ↔ ∀ o, ¬ offends o)
      ∧ ∀ o, s.packetOffence q pk = some o ↔ offends o ∧ ∀ p < o, ¬ offends p)
    ∧ (s.queueServes q = true →
      (s.queueHead q = .idle → exec (.queuePacketConsume q) s = .next s)
      ∧ (s.queueHead q = .qerr → exec (.queuePacketConsume q) s = .next (s.setQueue q { k with qerr := true }))
      ∧ (∀ va, s.queueHead q = .ask va → exec (.queuePacketConsume q) s = .next (s.askQueue q va))
      ∧ (∀ slot ridx pk, s.queueHead q = .packet slot ridx pk → s.mayConsume q slot = true → s.recordReady q (packetRecord pk) = true →
        ((leNat (pk.take 4)).testBit 16 = true → s.earlierDone q = true) →
        (∀ o, s.packetOffence q pk = some o → exec (.queuePacketConsume q) s = .next (finish slot ridx pk 1 o 0))
        ∧ (s.packetOffence q pk = none →
          (packetType pk = 1 → s.weightBusy k.ctx = false →
            (∀ gs hdr, s.readGroups q pk = .ok gs → s.readHeader q pk = .ok hdr →
              let l := s.launchOf' q pk gs hdr
              let t : State := ({ s with nextId := s.nextId + 1, launches := s.launches.put s.nextId l } : State).consume q slot ridx
              exec (.launchPacket q) s = .next t ∧ exec (.queuePacketConsume q) s = .next t
                ∧ l.ctx = k.ctx ∧ l.inc = (s.ctx k.ctx).live ∧ l.gx = field pk 4 4 ∧ l.gy = field pk 8 2 ∧ l.gz = field pk 10 2
                ∧ l.warps = field pk 12 1 ∧ l.tiles = field pk 13 1 ∧ l.csize = field pk 14 1 ∧ l.scr = field pk 16 4 ∧ l.priv = field pk 20 2
                ∧ l.entry = BitVec.ofNat 64 (field pk 24 8) ∧ l.args = BitVec.ofNat 64 (field pk 40 8) ∧ l.cmpl = field pk 56 8
                ∧ l.pri = field pk 1 1 % 128 ∧ l.irq = (field pk 0 4).testBit 17 ∧ l.queue = q ∧ l.order = k.order
                ∧ l.seq = (field pk 15 1).testBit 0 ∧ l.recov = (field pk 15 1).testBit 1 ∧ l.dmr = (field pk 15 1).testBit 2
                ∧ l.replay = (field pk 15 1).testBit 3 ∧ l.groups = gs ∧ l.retdist = hdr.1 ∧ l.first = BitVec.ofNat 64 hdr.2
                ∧ l.next = 0 ∧ l.endedTeams = [] ∧ l.failed = 0 ∧ l.failures = [] ∧ l.fate = none)
            ∧ (s.readHeader q pk = .bad → ∀ gs, s.readGroups q pk = .ok gs → exec (.launchPacket q) s = .next (finish slot ridx pk 2 0 0))
            ∧ (s.readGroups q pk = .bad → exec (.launchPacket q) s = .next (finish slot ridx pk 1 48 0)))
          ∧ (packetType pk = 2 →
            ∃ (x : Copy) (t : State), exec (.copyPacket q) s = .next t ∧ exec (.queuePacketConsume q) s = .next t
              ∧ t = ({ s with nextId := s.nextId + 1, copies := s.copies ++ [x] } : State).consume q slot ridx
              ∧ x.id = s.nextId ∧ x.queue = some q ∧ x.job = .span (.gm (field pk 8 8)) (.gm (field pk 16 8)) (field pk 24 8)
              ∧ x.cmpl = field pk 56 8 ∧ x.ctx = k.ctx ∧ x.inc = (s.ctx k.ctx).live ∧ x.moved = [] ∧ x.post = none)
          ∧ (packetType pk = 3 →
            let c := s.ctx (field pk 4 2 % 4096)
            let inc : Byte := pk.getD 6 0
            (c.st = .free ∨ (inc ∉ c.unrec ∧ c.live ≠ inc) →
              exec (.reclaimFence q) s = .next (finish slot ridx pk 0 0 0) ∧ exec (.queuePacketConsume q) s = .next (finish slot ridx pk 0 0 0))
            ∧ (c.st ≠ .free → inc ∈ c.unrec ∨ c.live = inc → exec (.reclaimFence q) s = .next s))
          ∧ (packetType pk = 4 →
            (k.wsBegun = false → (∀ l ∈ s.launches, l.2.ctx ≠ k.ctx) → exec (.weightStoreWrite q) s = .next (s.setQueue q { k with wsBegun := true, begun := some (slot, ridx, pk) }))
            ∧ ((∃ l ∈ s.launches, l.2.ctx = k.ctx) → exec (.weightStoreWrite q) s = .next s)
            ∧ (k.wsBegun = false → exec (.weightStoreWriteDone q) s = .next s)
            ∧ (∀ rows, k.wsBegun = true → s.weightRows q (field pk 20 4 / 64) (field pk 8 8) = .inl rows →
              let base := (s.wsWindow k.ctx).1 + field pk 16 4
              let w := (coresOf (field pk 24 24)).foldl (fun s c => s.putWeights c base rows) s
              let status := if rows.isEmpty then 6 else if rows.length < field pk 20 4 / 64 then 8 else if rows.any (·.2) then 7 else 0
              exec (.weightStoreWriteDone q) s = .next (w.finishPacket q slot ridx pk status 0 (64 * rows.length)))))))
    ∧ (s.queueServes q = false → ∀ i ∈ [Instr.queuePacketConsume q, .launchPacket q, .copyPacket q, .reclaimFence q, .weightStoreWrite q,
        .weightStoreWriteDone q], exec i s = .next s)
    ∧ (∀ (id : Nat) (x : Copy), s.copy id = some x → x.queue = some q → x.page = none → x.orphan = false → s.passes [cpCopy x.die] x.ctx x.inc = true →
      (∀ r ∈ s.reqs, ∀ u bs, r.act ≠ .unit id u bs) →
      let ends (status n : Nat) : Prop :=
        (x.inc = (s.ctx x.ctx).live → s.recordReady q x.cmpl = true → exec (.copyPacketComplete id) s =
          .next (({ s with copies := s.copies.filter fun y => y.id != id } : State).writeRecord q x.cmpl x.irq status 0 (16 * n) 0))
        ∧ (x.inc ≠ (s.ctx x.ctx).live ∨ s.recordReady q x.cmpl = false → exec (.copyPacketComplete id) s = .next s)
      ((∀ u < x.units, u ∈ x.moved) → ends (if x.bad = [] then 0 else 7) x.units)
      ∧ (∀ u dst src len, x.job = .span (.gm dst) (.gm src) len → u < len / 16 → (∀ i < u, i ∈ x.moved) → u ∉ x.moved →
        (s.copyPage x (src + 16 * u) = .fail ∨ (∃ oa a, s.copyPage x (src + 16 * u) = .ok oa a ∧ a.r = false)
          ∨ ∃ oa a, s.copyPage x (dst + 16 * u) = .ok oa a ∧ (a.w = false ∨ a.doc = true)) →
        ends (if u = 0 then 6 else 8) u))
    ∧ (∀ die, (∀ p ∈ s.queues, p.2.reg = true → p.2.die = die → p.2.inn = true) → exec (.queueSwitch die) s = .next s)
    ∧ (∀ die, s.queues.find? (fun p => p.2.reg && p.2.die == die && !p.2.inn) = some (q, k) →
      (∀ p ∈ s.queues, p.2.reg = true → p.2.die = die → p.2.inn = false → p = (q, k)) →
      (s.queues.filter fun p => p.2.reg && p.2.die == die && p.2.inn).length < 64 →
      exec (.queueSwitch die) s = .next (s.setQueue q { k with inn := true, served := 0, since := s.time }))
    ∧ (∀ die i, let inside := s.queues.filter fun p => p.2.reg && p.2.die == die && p.2.inn
      let turned (p : Nat × Queue) : Prop := 256 ≤ p.2.served ∨ p.2.since + 125000 ≤ s.time
      s.queues.find? (fun p => p.2.reg && p.2.die == die && !p.2.inn) = some (q, k) →
      (∀ p ∈ s.queues, p.2.reg = true → p.2.die = die → p.2.inn = false → p = (q, k)) → 64 ≤ inside.length →
      ((∀ p ∈ inside, ¬ turned p) → exec (.queueSwitch die) s = .next s)
      ∧ (turned i → (∀ p ∈ inside, turned p → p = i) → i ∈ inside →
        exec (.queueSwitch die) s = .next ((s.setQueue i.1 { i.2 with inn := false, since := s.time }).setQueue q
          { k with inn := true, served := 0, since := s.time })))
    ∧ (∀ fn, q < 2048 → fn = 0 ∨ q / 256 + 1 = fn →
      (k.reg = true → exec (.register fn q) s = .next (s.setQueue q { k with res := 2 }))
      ∧ (k.reg = false → (s.ctx k.ctx).st ≠ .active ∨ s.partOf k.ctx ≠ q / 256 → exec (.register fn q) s = .next (s.setQueue q { k with res := 1 }))
      ∧ (k.reg = false → (s.ctx k.ctx).st = .active → s.partOf k.ctx = q / 256 → k.qcb.toNat % 64 = 0 →
        ∃ t, exec (.register fn q) s = .next t ∧ (t.queue q).reg = true ∧ (t.queue q).res = 0 ∧ (t.queue q).qerr = false
          ∧ (t.queue q).qcb = k.qcb ∧ (t.queue q).qcfg = k.qcfg ∧ { t with queues := s.queues } = s)
      ∧ (k.reg = false → (s.ctx k.ctx).st = .active → s.partOf k.ctx = q / 256 → k.qcb.toNat % 64 ≠ 0 →
        exec (.register fn q) s = .next (s.setQueue q { k with res := 2 }))
      ∧ (k.reg = true → k.wsBegun = true → exec (.unregister fn q) s = .next (s.setQueue q { k with leaving := true, res := 0 }))
      ∧ (k.reg = false → exec (.unregister fn q) s = .next (s.setQueue q { k with res := 2 }))
      ∧ (k.reg = true → k.wsBegun = false →
        exec (.unregister fn q) s = .next (s.setQueue q { k with reg := false, inn := false, pageWait := none, denied := [], res := 0 })))
    ∧ (∀ fn, ¬ (q < 2048 ∧ (fn = 0 ∨ q / 256 + 1 = fn)) → exec (.register fn q) s = .next s ∧ exec (.unregister fn q) s = .next s)

/-- R81, R260, R272 to R274, R284, R344, R352 to R354, R382, R387: a team starts where it fits, with its registers, scratchpad and tiles as the loader leaves
them; a team whose slice has ended leaves with its cluster; a launch that is over is recorded; a RECOV team commits. -/
def Obligations.Launches : Prop :=
  ∀ (s : State),
    (∀ (id : Nat) (l : Launch) (p : Place) (w tb : Nat), s.launch id = some l → l.fate = none → (s.ctx l.ctx).live = l.inc → l.csize = 1 →
      l.warps = 1 → 0 < l.tiles → l.next < l.total → p.warps = [(w, tb)] → l.seq = false → l.recov = false →
      s.coreOpen (l.queue / 256) p.core = true → s.warpRoom (l.need p) = true →
      s.teamRoom (l.queue / 256) (l.need p) (fun _ _ => false) = true →
      ∃ (t : State) (tm : Team), exec (.teamStart id [p]) s = .next t
        ∧ t.team p.core s.nextId = some tm ∧ tm.launch = id ∧ tm.index = l.next ∧ tm.warps = [w] ∧ tm.scr = p.scr ∧ tm.scrLen = l.scr
        ∧ tm.sem = p.sem ∧ tm.share = l.priv ∧ tm.began = s.time ∧ tm.ended = false ∧ tm.recov = none
        ∧ t.warp p.core w = { Warp.idle with live := true, team := s.nextId, tbase := tb, ntile := l.tiles }
        ∧ (∀ x < 32, (t.thread p.core w x) = { Thread.absent with st := .ready, pc := l.entry, since := s.time })
        ∧ (∀ i < l.tiles, t.owner p.core (tb + i) = ownerCode w)
        ∧ (∀ x < 32, ∀ n < 8 * l.tiles, t.regs.get TWord.zero (regKey p.core (vTile tb n) (vWord x n)) =
            if n = 2 then { bits := BitVec.ofNat 32 l.priv, tag := .w32 }
            else if n = 4 then { bits := l.args.setWidth 32, tag := .raw }
            else if n = 5 then { bits := l.args.extractLsb' 32 32, tag := .raw }
            else TWord.zero)
        ∧ (∀ n < 64, t.sregs.get TWord.zero (sregKey p.core w n) = TWord.zero)
        ∧ (∀ a < scrRounded l.scr, Store.get (α := Byte) 0 t.scratch (scrKey p.core (p.scr + a)) = 0)
        ∧ t.launch id = some { l with next := l.next + 1 }
        ∧ { t with nextId := s.nextId, cores := s.cores, launches := s.launches, regs := s.regs, sregs := s.sregs, priv := s.priv, privPsn := s.privPsn,
                   owners := s.owners, warps := s.warps, threads := s.threads, scratch := s.scratch, scrPsn := s.scrPsn, sems := s.sems } = s)
    ∧ (∀ (id : Nat) (l : Launch) (places : List Place), s.launch id = some l →
      ((l.fate.isSome = true ∨ (s.ctx l.ctx).live ≠ l.inc) → exec (.teamStart id places) s = .next s)
      ∧ (places ≠ [] → places.length ≠ l.csize ∨ l.total < l.next + l.csize
          ∨ (∃ p ∈ places, s.coreOpen (l.queue / 256) p.core = false ∨ s.warpRoom (l.need p) = false
            ∨ s.teamRoom (l.queue / 256) (l.need p) (fun _ _ => false) = false) →
        exec (.teamStart id places) s = .next s)
      ∧ (l.fate = none → (s.ctx l.ctx).live = l.inc → (∀ i ∈ s.images, i.launch ≠ id) → exec (.teamStart id []) s = .next s)
      ∧ (∀ i, l.fate = none → (s.ctx l.ctx).live = l.inc → s.images = [i] → i.launch = id → s.imageRoom l i = true →
        exec (.teamStart id []) s = .next (({ s with images := [] } : State).resumeTeam i)))
    ∧ (∀ (core slot : Nat) (tm : Team) (l : Launch), s.team core slot = some tm → s.launch tm.launch = some l →
      let gated := s.device.gate.getLsbD (clusOf core) = true
      let due : Prop := tm.began + l.slice ≤ s.time ∨ s.teamWaits core tm = true
      let q := (s.core core).seq
      (¬ gated → ¬ (due ∧ s.teamsWait (l.queue / 256) = true) →
        (∀ m ∈ s.clusterTeams tm.launch l.csize tm.index, (s.core m.1).seq.leaving = false) → exec (.teamSliceExpiry core slot) s = .next s)
      ∧ (s.mustLeave (l.queue / 256) core = false → ¬ (due ∧ s.teamsWait (l.queue / 256) = true) →
        s.clusterTeams tm.launch l.csize tm.index = [(core, slot, tm)] → tm.seq = true → tm.ended = false → q.leaving = true →
        exec (.teamSliceExpiry core slot) s = .next (s.setCore core { s.core core with seq := { q with leaving := false } }))
      ∧ ((gated ∨ (due ∧ s.teamsWait (l.queue / 256) = true)) → s.clusterTeams tm.launch l.csize tm.index = [(core, slot, tm)] → tm.seq = true →
        tm.ended = false → q.halt = false → q.record = none → q.leaving = false →
        exec (.teamSliceExpiry core slot) s = .next (s.setCore core { s.core core with seq := { q with leaving := true, atRetire := false } }))
      ∧ ((gated ∨ (due ∧ s.teamsWait (l.queue / 256) = true)) → s.clusterTeams tm.launch l.csize tm.index = [(core, slot, tm)] → tm.seq = false →
        tm.recov = none → exec (.teamSliceExpiry core slot) s = .next (({ s with images := s.images ++ [s.teamImage core slot tm []] } : State).removeTeam core slot)))
    ∧ (∀ (id : Nat) (l : Launch), s.launch id = some l →
      let finished : Prop := l.fate.isSome = true ∨ l.endedTeams.length + l.failed = l.total
      let status : Nat × Nat := match l.fate with
        | some f => f
        | none => (if l.failed = 0 then 0 else 5, 0)
      let here : Prop := (s.ctx l.ctx).live = l.inc ∧ (s.ctx l.ctx).st = .active
      (¬ finished ∨ ¬ here → exec (.launchComplete id) s = .next s)
      ∧ (finished → here → (∀ r ∈ s.reqs, r.unperformed id = false) → (∀ k ∈ s.copies, k.launch ≠ id) → s.softDirty id = false → l.recov = false → s.recordReady l.queue l.cmpl = true →
        let w := s.writeRecord l.queue l.cmpl l.irq status.1 status.2 l.endedTeams.length l.failed
        exec (.launchComplete id) s = .next { w with
          launches := w.launches.erase id
          images := w.images.filter fun i => i.launch != id
          ckpts := w.ckpts.filter fun i => i.launch != id })
      ∧ ((∃ r ∈ s.reqs, r.launch = id ∧ r.stage = .sent ∧ ∃ data, r.act = .store data) ∨ (∃ k ∈ s.copies, k.launch = id) →
        exec (.launchComplete id) s = .next s))
    ∧ (∀ (core slot : Nat) (tm : Team), s.team core slot = some tm →
      (tm.recov = none ∨ s.quiescent core tm = false ∨ (∀ w ∈ tm.warps, ∀ x < 32, s.bwaitDone core w x = false) →
        (∀ l, s.launch tm.launch = some l → l.owes tm.index = false) → exec (.commit core slot) s = .next s)
      ∧ (∀ r w, tm.recov = some r → r.held = [] → r.commit = none → r.rolling = false →
        (∀ l, s.launch tm.launch = some l → l.owes tm.index = false) → s.quiescent core tm = true → tm.warps = [w] → (s.warp core w).team = slot → w < 64 →
        (s.warp core w).step = false → (∀ l, s.launch tm.launch = some l → l.replay = false) → (∃ x < 32, s.bwaitDone core w x = true) →
        ∃ t i rest, exec (.commit core slot) s = .next t ∧ t.team core slot = some { tm with recov := some { retry := true, rolls := 0, held := [], commit := none, rolling := false } }
          ∧ t.ckpts = i :: rest ∧ i.launch = tm.launch ∧ i.index = tm.index ∧ i.core = core ∧ i.slot = slot
          ∧ (∀ x < 32, s.bwaitDone core w x = true → (t.thread core w x).st = .ready ∧ (t.thread core w x).pc = (s.thread core w x).pc + 12)
          ∧ (∀ x < 32, s.bwaitDone core w x = false → t.thread core w x = s.thread core w x)
          ∧ t.hbm = s.hbm ∧ t.scratch = s.scratch ∧ t.launches = s.launches ∧ t.reqs = s.reqs))

/-- R264, R307, R308, R310 to R317, R320, R372: the context commands and their results; a kill advances LIVE, discards the context's state (teams, tiles,
threads, bins, events, the sequencer) and halts its queues, once a weight-store write that has begun is consumed; the sequence ends once its records are
written, with nothing of a launch left to perform, and every checkpoint has learned; an incarnation is reclaimed once nothing under its tag remains, and a
DESTROY that found four of them goes on once the oldest is. That CREATE takes a window of length 0 is assumption 29; that a launch which had ended FAULTED
keeps that status at a kill is assumption 32. -/
def Obligations.Contexts : Prop :=
  ∀ (s : State) (fn ctx : Nat),
    let c := s.ctx ctx
    let reached : Prop := ctx < 4096 ∧ (fn = 0 ∨ s.partOf ctx + 1 = fn)
    let answers (i : Instr) (r : BitVec 3) : Prop := exec i s = .next (s.setCtx ctx { c with res := r })
    let part := s.part (c.cfg.toNat % 8)
    let good : Prop := (fn = 0 ∨ c.cfg.toNat % 8 + 1 = fn)
      ∧ (c.wslen = 0 ∨ (part.wsbase.toNat ≤ c.wsbase.toNat ∧ c.wsbase.toNat + c.wslen.toNat ≤ part.wsbase.toNat + part.wslen.toNat
          ∧ c.wsbase.toNat + c.wslen.toNat ≤ 64))
      ∧ (c.cfg.getLsbD 8 = true → (s.keys.find (c.cfg.toNat / 2 ^ 16 % 256)).isSome = true)
    (¬ reached ∨ c.res = 5 → ∀ inc, ∀ i ∈ [Instr.create fn ctx inc, .kill fn ctx, .resume fn ctx, .destroy fn ctx], exec i s = .next s)
    ∧ (reached → c.res ≠ 5 →
      (∀ inc, (c.st ≠ .free → answers (.create fn ctx inc) 2)
        ∧ (c.st = .free → ¬ good → answers (.create fn ctx inc) 3)
        ∧ (c.st = .free → good → c.unrec ≠ [] → answers (.create fn ctx inc) 2)
        ∧ (c.st = .free → good → c.unrec = [] → exec (.create fn ctx inc) s = .next (s.setCtx ctx { c with
            live := inc, st := .active, qhalt := false, res := 0, keyed := c.cfg.getLsbD 8, lagging := [], due := false })))
      ∧ (c.st ≠ .active → answers (.kill fn ctx) 2 ∧ answers (.resume fn ctx) 2 ∧ answers (.destroy fn ctx) 2)
      ∧ (c.st = .active → c.qhalt = false → answers (.resume fn ctx) 2)
      ∧ (c.st = .active → c.qhalt = true → exec (.resume fn ctx) s = .next (s.setCtx ctx { c with qhalt := false, res := 0 }))
      ∧ (c.st = .active → c.unrec.length = 4 → answers (.kill fn ctx) 1)
      ∧ (c.st = .active → c.unrec.length ≠ 4 → (∀ p ∈ s.launches, p.2.ctx ≠ ctx) → (∀ p ∈ s.queues, p.2.ctx = ctx → p.2.pageWait = none ∧ p.2.denied = []) →
        let stops (st : CtxState) : State := s.setCtx ctx { c with
          live := c.live + 1, unrec := c.unrec ++ [c.live], lagging := List.range cpCount, due := false,
          qhalt := c.qhalt || !(s.queues.any fun p => p.2.ctx == ctx && p.2.wsBegun), st := st, res := 5 }
        exec (.kill fn ctx) s = .next (stops .stopping) ∧ exec (.destroy fn ctx) s = .next (stops .destroying))
      ∧ (c.st = .active → c.unrec.length ≠ 4 → ∀ id l, s.launches = [(id, l)] → l.ctx = ctx →
        ∃ t l', exec (.kill fn ctx) s = .next t ∧ t.launches = [(id, l')] ∧ l'.fate = some (l.fate.getD (4, 0))
          ∧ (∀ core slot tm, t.team core slot = some tm → tm.launch ≠ id) ∧ (∀ i ∈ t.images, i.launch ≠ id)
          ∧ (∀ core slot tm, s.shadow = [] → s.cores = [(core, s.core core)] → (s.core core).teams = [(slot, tm)] → tm.launch = id → tm.ended = false →
            let free (o : Byte) : Prop := ∀ k < 504, s.owner core k = o ∨ s.owner core k = o ||| 0x80 → t.owner core k = 0x7F
            (t.core core).teams = [] ∧ (∀ b ∈ (t.core core).bins, b.2.team ≠ slot)
            ∧ (∀ e, e ∈ (t.core core).trapq ∨ e ∈ (t.core core).held → e.team ≠ slot)
            ∧ (∀ w ∈ tm.warps, w < 64 → (t.warp core w).live = false ∧ (∀ x < 32, t.thread core w x = Thread.absent) ∧ free (ownerCode w))
            ∧ (tm.seq = true → (t.core core).seq.active = false ∧ (t.core core).seq.halt = true ∧ free 0x40)))
      ∧ (c.st = .active → c.unrec.length = 4 →
        ∃ t, exec (.destroy fn ctx) s = .next t ∧ (t.ctx ctx).st = .destroying ∧ (t.ctx ctx).due = true ∧ (t.ctx ctx).live = c.live
          ∧ (t.ctx ctx).unrec = c.unrec ∧ (t.ctx ctx).res = 5))
    ∧ (c.st = .free ∨ c.st = .active → exec (.killSequenceEnd ctx) s = .next s)
    ∧ ((∀ p ∈ s.launches, p.2.ctx ≠ ctx) → (∀ k ∈ s.copies, k.ctx ≠ ctx) → (∀ p ∈ s.queues, p.2.ctx = ctx → p.2.wsBegun = false) →
      (c.st = .stopping → c.lagging = [] → exec (.killSequenceEnd ctx) s = .next (s.setCtx ctx { c with st := .active, qhalt := true, res := 0 }))
      ∧ (c.st = .stopping → c.lagging ≠ [] → exec (.killSequenceEnd ctx) s = .next (s.setCtx ctx { c with qhalt := true }))
      ∧ (c.st = .destroying → c.lagging ≠ [] → exec (.killSequenceEnd ctx) s = .next (s.setCtx ctx { c with qhalt := true }))
      ∧ (c.st = .destroying → c.lagging = [] → c.due = false → c.keyed = false → c.unrec = [] →
        let t := s.setCtx ctx { c with st := .free, qhalt := true, res := 0 }
        exec (.killSequenceEnd ctx) s = .next { t with
          queues := t.queues.map fun p => if p.2.ctx = ctx then (p.1, { p.2 with reg := false, inn := false }) else p }))
    ∧ (∀ id l, s.launches = [(id, l)] → l.ctx = ctx → (∀ k ∈ s.copies, k.ctx ≠ ctx) → (∀ p ∈ s.queues, p.2.ctx = ctx → p.2.wsBegun = false) →
      let ends (t : State) : State := (t.dropLaunch id).setCtx ctx { c with st := .active, qhalt := true, res := 0 }
      let waits : State := s.setCtx ctx { c with qhalt := true }
      let quiet : Prop := ∀ r ∈ s.reqs, r.unperformed id = false
      (c.st = .stopping → c.due = false →
        (c.lagging ≠ [] ∨ ¬ quiet → exec (.killSequenceEnd ctx) s = .next waits)
        ∧ (c.lagging = [] → quiet → (∀ d, l.fate ≠ some (3, d)) → s.recordReady l.queue l.cmpl = true →
          exec (.killSequenceEnd ctx) s = .next (ends (s.writeRecord l.queue l.cmpl l.irq 4 0 l.endedTeams.length 0)))
        ∧ (c.lagging = [] → (∀ d, l.fate ≠ some (3, d)) → s.recordReady l.queue l.cmpl = false → exec (.killSequenceEnd ctx) s = .next waits)
        ∧ (∀ d, c.lagging = [] → quiet → l.fate = some (3, d) → s.launchReady l = true →
          exec (.killSequenceEnd ctx) s = .next (ends ((s.writeFailures l).writeRecord l.queue l.cmpl l.irq 3 d l.endedTeams.length l.failed))))
      ∧ (c.st = .destroying → c.due = true → quiet → s.softDirty id = true → ∃ t, exec (.killSequenceEnd ctx) s = .next t
        ∧ { t with ctxs := (s.drainSoft id).ctxs } = s.drainSoft id ∧ (t.ctx ctx).qhalt = true ∧ (t.ctx ctx).st = .destroying))
    ∧ (∀ (q slot ridx : Nat) (pk : List Byte), (∀ p ∈ s.launches, p.2.ctx ≠ ctx) → (∀ k ∈ s.copies, k.ctx ≠ ctx) →
      s.queues = [(q, s.queue q)] → (s.queue q).ctx = ctx → (s.queue q).wsBegun = true → (s.queue q).begun = some (slot, ridx, pk) → c.st = .stopping →
      (s.mayConsume q slot = true → s.recordReady q (packetRecord pk) = true → ∃ t, exec (.killSequenceEnd ctx) s = .next t
        ∧ { t with ctxs := s.ctxs } = { s.finishPacket q slot ridx pk 4 0 0 with ctxs := s.ctxs }
        ∧ t.ctx ctx = { c with st := if c.lagging = [] then .active else .stopping, qhalt := true, res := if c.lagging = [] then 0 else c.res })
      ∧ (s.mayConsume q slot = false ∨ s.recordReady q (packetRecord pk) = false → exec (.killSequenceEnd ctx) s = .next s))
    ∧ (∀ inc : Nat,
      let i : Byte := BitVec.ofNat 8 inc
      (i ∉ c.unrec ∨ c.lagging ≠ [] ∨ s.tagGone ctx i = false → exec (.reclaimComplete ctx inc) s = .next s)
      ∧ (i ∈ c.unrec → c.lagging = [] → s.tagGone ctx i = true → c.due = false → c.st ≠ .destroying →
        exec (.reclaimComplete ctx inc) s = .next (s.setCtx ctx { c with unrec := c.unrec.filter (· != i) }))
      ∧ (c.lagging = [] → s.tagGone ctx i = true → c.due = true → c.st = .destroying →
        (∀ rest, c.unrec = i :: rest → i ∉ rest → exec (.reclaimComplete ctx inc) s = .next (s.setCtx ctx { c with
            live := c.live + 1, unrec := rest ++ [c.live], lagging := List.range cpCount, due := false }))
        ∧ (i ∈ c.unrec → c.unrec.head? ≠ some i →
          exec (.reclaimComplete ctx inc) s = .next (s.setCtx ctx { c with unrec := c.unrec.filter (· != i) })))
      ∧ (c.unrec = [i] → c.lagging = [] → s.tagGone ctx i = true → c.due = false → c.st = .destroying → c.keyed = false →
        (∀ p ∈ s.launches, p.2.ctx ≠ ctx) → (∀ k ∈ s.copies, k.ctx ≠ ctx) → (∀ p ∈ s.queues, p.2.ctx = ctx → p.2.wsBegun = false) →
        let t := s.setCtx ctx { c with unrec := [], st := .free, res := 0 }
        exec (.reclaimComplete ctx inc) s = .next { t with
          queues := t.queues.map fun p => if p.2.ctx = ctx then (p.1, { p.2 with reg := false, inn := false }) else p }))
    ∧ (∀ cp, cp ∈ c.lagging → (cp < 192 → ∀ x ∈ ((s.learn ctx cp).core cp).l1, x.ctx = ctx → x.inc = c.live) ∧ cp ∉ ((s.learn ctx cp).ctx ctx).lagging)

/-- R329 to R331, R366, R375 to R377, R387: the partition commands and their results, of a pair too; a swap begins, and at its end the cores and the shadow
slots have exchanged their states; power transitions, which end with vector 2 (assumption 43); the thermal trip stops the clocks until TRIPCLR; the clock
cap and the gate. That ENABLE of an enabled partition, PSWAP of a half enabled pair and power targets 5 to 7 are refused, and what DISABLE of a resident partner
does, are the model's choices (assumption 80). -/
def Obligations.PartitionsAndPower : Prop :=
  ∀ (s : State),
    (∀ p, p < 8 →
      let a := s.part p
      let answers (i : Instr) (r : BitVec 3) : Prop := exec i s = .next (s.setPart p { a with res := r })
      let active : Prop := ∃ c ∈ s.ctxs, c.2.st = .active ∧ c.2.cfg.toNat % 8 = p
      let meet (b : Partition) : Prop :=
        (a.hbmlen.toNat ≠ 0 ∧ b.hbmlen.toNat ≠ 0 ∧ a.hbmbase.toNat < b.hbmbase.toNat + b.hbmlen.toNat ∧ b.hbmbase.toNat < a.hbmbase.toNat + a.hbmlen.toNat)
        ∨ (a.wslen.toNat ≠ 0 ∧ b.wslen.toNat ≠ 0 ∧ a.wsbase.toNat < b.wsbase.toNat + b.wslen.toNat ∧ b.wsbase.toNat < a.wsbase.toNat + a.wslen.toNat)
      let clash (q : Nat) : Prop := q ≠ p ∧ (s.part q).en = true
        ∧ (meet (s.part q) ∨ (s.partner p ≠ some q ∧ a.clmask &&& (s.part q).clmask &&& 0xFFFFFF ≠ 0))
      let mine (core : Nat) : Prop := core < 192 ∧ a.clmask.getLsbD (clusOf core) = true
      let away : Bool := match s.partner p with
        | some q => (s.part q).en && ((s.part q).resident || (s.part q).swapping)
        | none => false
      let off : Partition := { a with en := false, resident := false, swapping := false, res := 0 }
      let portRuns : Prop := s.device.trip = false ∧ s.device.pstate < 2
      let exchanged (t : State) : Prop :=
        (∀ core, mine core → s.device.gate.getLsbD (clusOf core) = false ∧ ∀ x ∈ (s.core core).l1, x.attr.soft = true → x.dirty.contains true = false) →
        (∀ l ∈ s.launches, ∀ g, (l.2.gbars.get GBar.start g).owed = []) →
        (∀ p ∈ s.threads ++ s.shadow.flatMap (fun z => z.2.img.threads), ∀ ids, p.2.st ≠ .acks ids) →
        ∀ core, mine core →
          let slot := ((s.shadow.find core).map (·.core)).getD Core.reset
          (t.core core).teams = slot.teams ∧ (t.core core).bins = slot.bins ∧ (t.core core).trapq = slot.trapq ∧ (t.core core).held = slot.held
          ∧ (t.core core).cycles = (s.core core).cycles ∧ (t.core core).prof = (s.core core).prof
          ∧ ∃ z, t.shadow.find core = some z ∧ z.core.teams = (s.core core).teams ∧ z.core.bins = (s.core core).bins ∧ z.core.trapq = (s.core core).trapq
            ∧ z.core.held = (s.core core).held ∧ z.core.handler = (s.core core).handler ∧ z.core.seq = { (s.core core).seq with halves := [] }
            ∧ z.core.l1 = [] ∧ z.core.icache = []
      (a.en = true → answers (.enable p) 2)
      ∧ (a.en = false → (∃ q < 8, clash q) → answers (.enable p) 1)
      ∧ (a.en = false → (∀ q < 8, ¬ clash q) →
        ∃ t, exec (.enable p) s = .next t ∧ t.part p = { a with en := true, resident := !away, res := 0 } ∧ (∀ q, q ≠ p → t.part q = s.part q)
          ∧ (∀ core, core < 192 → a.clmask.getLsbD (clusOf core) = true → (t.core core).cycles.get 0 0 = BitVec.ofNat 64 s.clock
            ∧ (∀ n, 1 ≤ n → n ≤ 5 → (t.core core).cycles.get 0 n = 0) ∧ { t.core core with cycles := (s.core core).cycles } = s.core core)
          ∧ (∀ core, a.clmask.getLsbD (clusOf core) = false → t.core core = s.core core) ∧ { t with parts := s.parts, cores := s.cores } = s)
      ∧ (active → answers (.disable p) 2)
      ∧ (¬ active → (∀ q, s.partner p = some q → a.resident = false ∨ (s.part q).en = false) → exec (.disable p) s = .next (s.setPart p off))
      ∧ (∀ q, ¬ active → s.partner p = some q → a.resident = true → (s.part q).en = true →
        (¬ portRuns → exec (.disable p) s = .next ((s.setPart p off).setPart q { s.part q with swapping := true }))
        ∧ (portRuns → ∃ t, exec (.disable p) s = .next t ∧ t.part p = off ∧ t.part q = { s.part q with resident := true, swapping := false }
          ∧ exchanged t ∧ t.time = s.time ∧ t.ctxs = s.ctxs))
      ∧ (s.partner p = none → answers (.pswap p) 2 ∧ exec (.pswapComplete p) s = .next s)
      ∧ (∀ q, s.partner p = some q → a.en = false ∨ (s.part q).en = false ∨ a.swapping = true ∨ (s.part q).swapping = true → answers (.pswap p) 2)
      ∧ (∀ q, s.partner p = some q → a.en = true → (s.part q).en = true → a.swapping = false → (s.part q).swapping = false →
        ∃ t, exec (.pswap p) s = .next t ∧ t.part p = { a with swapping := true, res := 0 } ∧ t.part q = { s.part q with swapping := true }
          ∧ (∀ core, core < 192 → a.clmask.getLsbD (clusOf core) = true →
              (t.core core).seq = if (s.core core).seq.active ∧ (s.core core).seq.leaving = false then
                { (s.core core).seq with leaving := true, atRetire := false } else (s.core core).seq)
          ∧ { t with parts := s.parts, cores := s.cores } = s)
      ∧ (∀ q, s.partner p = some q →
        (a.swapping = false ∨ ¬ portRuns ∨ (∃ core, mine core ∧ (s.coreMayLeave core = false ∨ s.strays core = true)) →
          exec (.pswapComplete p) s = .next s)
        ∧ (a.swapping = true → portRuns → (∀ core, mine core → s.coreMayLeave core = true ∧ s.strays core = false) →
          ∃ t, exec (.pswapComplete p) s = .next t ∧ t.part p = { a with resident := !a.resident, swapping := false }
            ∧ t.part q = { s.part q with resident := a.resident, swapping := false } ∧ exchanged t ∧ t.time = s.time ∧ t.ctxs = s.ctxs)))
    ∧ (∀ p, 8 ≤ p → exec (.enable p) s = .next s ∧ exec (.disable p) s = .next s)
    ∧ (∀ (target : BitVec 3),
      let d := s.device
      (d.busy = true → exec (.powerStateChange target) s = .next s)
      ∧ (d.busy = false → 4 < target.toNat ∨ (target = 4 ∧ ∃ c ∈ s.ctxs, c.2.st ≠ .free) →
        exec (.powerStateChange target) s = .next { s with device := { d with res := 1 } })
      ∧ (d.busy = false → target.toNat ≤ 4 → (target = 4 → ∀ c ∈ s.ctxs, c.2.st = .free) →
        exec (.powerStateChange target) s = .next { s with device := { d with busy := true, going := target.toNat, res := 0 } }))
    ∧ (let d := s.device
      let arrives : State := { s with device := { d with pstate := d.going, busy := false }, irqs := (0, 2) :: s.irqs }
      (d.busy = false → exec .powerTransitionDone s = .next s)
      ∧ (d.busy = true → d.going ≠ 4 → d.pstate = 4 → s.fw.image = none → exec .powerTransitionDone s = .next s)
      ∧ (d.busy = true → d.going ≠ 4 → d.pstate ≠ 4 ∨ s.fw.image.isSome = true → d.going ≤ 1 ∨ 2 ≤ d.pstate →
        exec .powerTransitionDone s = .next arrives)
      ∧ (d.busy = true → d.going = 2 ∨ d.going = 3 → d.pstate < 2 → (∀ k ∈ s.cores, k.2.teams = []) →
        (s.copies ≠ [] ∨ d.trip = true → exec .powerTransitionDone s = .next s)
        ∧ (s.copies = [] → d.trip = false → ∃ t rest, exec .powerTransitionDone s = .next t ∧ t.device = { d with pstate := d.going, busy := false }
          ∧ t.irqs = (0, 2) :: rest ∧ (∀ core, (t.core core).l1 = []) ∧ t.time = s.time))
      ∧ (d.busy = true → d.going = 4 → ∃ t, exec .powerTransitionDone s = .next t ∧ t.hbm = [] ∧ t.cores = [] ∧ t.threads = [] ∧ t.regs = []
          ∧ t.fw.image = none ∧ t.device = { d with pstate := 4, busy := false } ∧ t.hostMem = s.hostMem ∧ t.time = s.time)
      ∧ (d.trip = true ∨ d.temp.toInt < Config.tripThreshold → exec .thermalTrip s = .next s)
      ∧ (d.trip = false → Config.tripThreshold ≤ d.temp.toInt →
        ∃ t, exec .thermalTrip s = .next t ∧ t = { s with device := { d with trip := true }, irqs := (0, 2) :: s.irqs } ∧ t.coresRun = false)
      ∧ (d.busy = true → exec .tripclr s = .next s)
      ∧ (d.busy = false → d.temp.toInt ≤ Config.tripThreshold - 10 → exec .tripclr s = .next { s with device := { d with trip := false, res := 0 } })
      ∧ (d.busy = false → Config.tripThreshold - 10 < d.temp.toInt → exec .tripclr s = .next { s with device := { d with res := 1 } })
      ∧ (∀ v : Word,
        let n := v.toNat % 2048
        exec (.clkcap v) s = .next (if 400 ≤ n ∧ n ≤ 1250 ∧ n % 25 = 0 then { s with device := { d with clkcap := BitVec.ofNat 32 n } } else s))
      ∧ (∀ mask : Word, (∀ k ∈ s.cores, k.2.teams ≠ [] → mask.getLsbD (clusOf k.1) = false) →
        ∃ t, exec (.gate mask) s = .next t ∧ { t with cores := s.cores } = { s with device := { d with gate := mask &&& 0xFFFFFF } }
          ∧ ∀ core, { t.core core with cycles := (s.core core).cycles } = s.core core
            ∧ ∀ n, 1 ≤ n → n ≤ 5 → (t.core core).cycles.get 0 n = (s.core core).cycles.get 0 n)
      ∧ (∀ mask : Word, d.trip = true → ∃ t, exec (.gate mask) s = .next t ∧ t.device = { d with gate := mask &&& 0xFFFFFF }
        ∧ t.images = s.images ∧ ∀ core, (t.core core).teams = (s.core core).teams))

/-- R206, R242, R247, R307, R319, R329, R369 to R374, R378 to R380: a register write reaches the block that its offset names, where the function reaches it and the
register may be written; a read answers the register, or zero where the function does not reach it; host, atomic and fabric requests are performed at the
home or refused, a write of a compressed block as one of the whole block; firmware runs where both signatures verify, both keys have their fused hashes and
its security version is no older than the fused one; attestation and key slots. The bytes of a report, the key wrap and what an image holds are assumption
17, the replies' senders and empty answers assumption 52, a command with an INC that it has not assumption 78. -/
def Obligations.HostOperations : Prop :=
  let outer (s : State) (pa : Nat) (data : List Byte) : State :=
    (List.range ((pa + data.length - 1) / 4096 - pa / 4096 + 1)).foldl (fun s i =>
      let lo := max pa ((pa / 4096 + i) * 4096)
      let cmp := s.ctxs.any fun x => (s.leaves x.1).any fun p => p.2.tgt == .hbm && p.2.cmp && decide (p.2.base ≤ lo ∧ lo < p.2.base + p.2.size)
      s.writeHome 0 { plainAttr with cmp := cmp } lo ((data.drop (lo - pa)).take ((pa / 4096 + i) * 4096 + 4096 - lo))) s
  ∀ (s : State),
    (∀ (fn ofs : Nat) (v : DWord), fn > 8 ∨ ofs % 4 ≠ 0 → exec (.registerWrite fn ofs v) s = .next s)
    ∧ (∀ (v : DWord), let w : Word := v.setWidth 32
      let d := s.device
      (∀ p, p < 8 → exec (.registerWrite 0 (0x10000 + 64 * p + 0x18) 1) s = exec (.enable p) s
        ∧ exec (.registerWrite 0 (0x10000 + 64 * p + 0x18) 2) s = exec (.disable p) s
        ∧ exec (.registerWrite 0 (0x10000 + 64 * p + 0x18) 3) s = exec (.pswap p) s
        ∧ ((s.part p).en = true → exec (.registerWrite 0 (0x10000 + 64 * p) v) s = .next s)
        ∧ ((s.part p).en = false → exec (.registerWrite 0 (0x10000 + 64 * p) v) s = .next (s.setPart p { s.part p with clmask := w &&& 0xFFFFFF })))
      ∧ (∀ q, q < 2048 → exec (.registerWrite 0 (0x80000 + 64 * q + 0x0C) 1) s = exec (.register 0 q) s
        ∧ exec (.registerWrite 0 (0x80000 + 64 * q + 0x0C) 2) s = exec (.unregister 0 q) s)
      ∧ (∀ ctx, ctx < 4096 → (s.ctx ctx).res ≠ 5 →
        exec (.registerWrite 0 (0x40000 + 64 * ctx + 0x1C) 0x301) s = exec (.create 0 ctx 3) s
        ∧ exec (.registerWrite 0 (0x40000 + 64 * ctx + 0x1C) 2) s = exec (.kill 0 ctx) s
        ∧ exec (.registerWrite 0 (0x40000 + 64 * ctx + 0x1C) 3) s = exec (.resume 0 ctx) s
        ∧ exec (.registerWrite 0 (0x40000 + 64 * ctx + 0x1C) 4) s = exec (.destroy 0 ctx) s
        ∧ exec (.registerWrite 0 (0x40000 + 64 * ctx + 0x1C) 5) s = .next (s.setCtx ctx { s.ctx ctx with res := 4 })
        ∧ exec (.registerWrite 0 (0x40000 + 64 * ctx + 0x1C) 0x102) s = .next (s.setCtx ctx { s.ctx ctx with res := 4 })
        ∧ ((s.ctx ctx).st ≠ .free → exec (.registerWrite 0 (0x40000 + 64 * ctx + 0x10) v) s = .next (s.setCtx ctx { s.ctx ctx with res := 2 }))
        ∧ ((s.ctx ctx).st = .free → exec (.registerWrite 0 (0x40000 + 64 * ctx + 0x10) v) s = .next (s.setCtx ctx { s.ctx ctx with wsbase := w })))
      ∧ exec (.registerWrite 0 0x20010 1) s = exec (.translationInvalidation 0) s
      ∧ exec (.registerWrite 0 0x18 v) s = exec (.clkcap w) s ∧ exec (.registerWrite 0 0x1C v) s = exec (.gate w) s
      ∧ (∀ fn, 0 < fn → fn ≤ 8 → ∀ ofs < 0x20000, exec (.registerWrite fn ofs v) s = .next s)
      ∧ (∀ ofs, ofs < 98304 → ofs % 4 = 0 →
        exec (.registerWrite 0 (0x100000 + ofs) v) s = .next { s with mailbox := Memory.write s.mailbox ofs (leBytes 4 w.toNat) })
      ∧ (∀ n, n < 1024 →
        let t : State := { s with peers := s.peers.set 0 n (w &&& 0x1FF) }
        exec (.peerTableWrite n w) s = exec (.registerWrite 0 (0x1000 + 4 * n) v) s
          ∧ (s.peers.get 0 n = w &&& 0x1FF → exec (.peerTableWrite n w) s = .next t)
          ∧ (s.peers.get 0 n ≠ w &&& 0x1FF → exec (.peerTableWrite n w) s = .next (t.timeoutAll fun x => x == .peer n)))
      ∧ (d.fabctl.getLsbD 0 = false → exec (.registerWrite 0 8 v) s = .next { s with device := { d with epoch := v.setWidth 8 } })
      ∧ (d.fabctl.getLsbD 0 = true → exec (.registerWrite 0 8 v) s = .next s))
    ∧ (∀ fn ofs, fn ≤ 8 →
      s.registerRead fn 0 = some 0x5D90A000 ∧ s.registerRead fn 0x14 = some s.device.pwrstat ∧ s.registerRead fn 0x20014 = some (s.tinv fn).stat
      ∧ (∀ ctx < 4096, s.registerRead fn (0x40000 + 64 * ctx + 0x20) = some (if fn = 0 ∨ s.partOf ctx + 1 = fn then (s.ctx ctx).stat else 0))
      ∧ (∀ p < 8, s.registerRead fn (0x10000 + 64 * p + 0x1C) = some (if fn = 0 then (s.part p).stat else 0))
      ∧ (∀ q < 256, 0 < fn → s.registerRead fn (0x80000 + 64 * q + 0x10) = some (s.queue (256 * (fn - 1) + q)).stat)
      ∧ (∀ v, s.registerRead fn ofs = some v →
        perform exec (.readReg fn ofs) s = .next { s with hostReplies := s.hostReplies ++ [(fn, leBytes 4 v.toNat)] }))
    ∧ (∀ (fn addr pa : Nat) (data : List Byte), fn ≤ 8 → data ≠ [] → s.memWindow fn addr data.length = some pa →
      (s.unsupported pa data.length true = true → exec (.hostMemoryRequest fn addr true data) s = .next s)
      ∧ (s.unsupported pa data.length true = false → s.spanFree pa data.length = true →
        exec (.hostMemoryRequest fn addr true data) s = .next (outer s pa data))
      ∧ (s.unsupported pa data.length true = false → s.spanFree pa data.length = false → exec (.hostMemoryRequest fn addr true data) s = .next s)
      ∧ (s.unsupported pa data.length false = false →
        exec (.hostMemoryRequest fn addr false data) s =
          .next { s with hostReplies := s.hostReplies ++ [(fn, s.readHome 0 plainAttr pa data.length)] })
      ∧ (s.unsupported pa data.length false = true →
        exec (.hostMemoryRequest fn addr false data) s = .next { s with hostReplies := s.hostReplies ++ [(fn, [])] }))
    ∧ (∀ (fn addr : Nat) (data : List Byte), fn ≤ 8 → data ≠ [] → s.memWindow fn addr data.length = none →
      exec (.hostMemoryRequest fn addr true data) s = .next s
      ∧ exec (.hostMemoryRequest fn addr false data) s = .next { s with hostReplies := s.hostReplies ++ [(fn, List.replicate data.length 0)] })
    ∧ (∀ (fn addr pa : Nat) (op : AtOp) (w64 : Bool) (v cmp : DWord), fn ≤ 8 →
      let n := if w64 then 8 else 4
      let old := s.readHome 0 plainAttr pa n
      let new := valBytes n (atomNew op w64 false (bytesVal old) v cmp)
      s.memWindow fn addr n = some pa →
      let refused : Prop := s.unsupported pa n true = true ∨ s.pageHas (pa / 4096 * 4096) (fun a => a.cmp) = true
      let answers (t : State) (bs : List Byte) : Prop :=
        exec (.hostAtomicop fn addr op w64 v cmp) s = .next { t with hostReplies := t.hostReplies ++ [(fn, bs)] }
      (op ≠ .add → op ≠ .exch → op ≠ .cas → exec (.hostAtomicop fn addr op w64 v cmp) s = .next s)
      ∧ (op = .add ∨ op = .exch ∨ op = .cas → pa % n = 0 →
        (refused → answers s [])
        ∧ (¬ refused → s.spanFree pa n = false → exec (.hostAtomicop fn addr op w64 v cmp) s = .next s)
        ∧ (¬ refused → s.spanFree pa n = true → s.homePsn plainAttr pa n = true → answers s (List.replicate n 0))
        ∧ (¬ refused → s.spanFree pa n = true → s.homePsn plainAttr pa n = false →
          answers (s.writeHome 0 plainAttr pa new) (valBytes n (bytesVal old)))))
    ∧ (∀ (src : Nat) (epoch : Byte) (addr n : Nat) (data : List Byte),
      let p := s.peers.get 0 src
      let ours (k : Nat) : Prop := ∃ p < 8, s.device.fabctl.getLsbD (8 + p) = true ∧ (s.part p).hbmbase.toNat * 2 ^ 30 ≤ addr
        ∧ addr + k ≤ ((s.part p).hbmbase.toNat + (s.part p).hbmlen.toNat) * 2 ^ 30
      let taken (k : Nat) : Prop := s.device.fabctl.getLsbD 0 = true ∧ p.getLsbD 8 = true ∧ p.setWidth 8 = epoch ∧ ours k
      (¬ taken n → exec (.fabricRequest src epoch addr (.read n)) s = .next s)
      ∧ (taken n → 0 < n → s.unsupported addr n false = false → exec (.fabricRequest src epoch addr (.read n)) s =
          .next { s with hostReplies := s.hostReplies ++ [(4096 + src, s.readHome 0 plainAttr addr n)] })
      ∧ (¬ taken data.length → exec (.fabricRequest src epoch addr (.write data)) s = .next s)
      ∧ (taken data.length → data ≠ [] → s.unsupported addr data.length true = false → s.spanFree addr data.length = true →
        exec (.fabricRequest src epoch addr (.write data)) s = .next (outer s addr data))
      ∧ (taken n → 0 < n → s.unsupported addr n false = true → exec (.fabricRequest src epoch addr (.read n)) s =
          .next { s with hostReplies := s.hostReplies ++ [(4096 + src, [])] })
      ∧ (∀ op w64 u v cmp, let k := if w64 then 8 else 4
        let old := s.readHome 0 plainAttr addr k
        (¬ taken k → exec (.fabricRequest src epoch addr (.atom op w64 u v cmp)) s = .next s)
        ∧ (taken k → addr % k = 0 → s.unsupported addr k true = false → s.pageHas (addr / 4096 * 4096) (fun a => a.cmp) = false →
          s.spanFree addr k = true → s.homePsn plainAttr addr k = false →
          exec (.fabricRequest src epoch addr (.atom op w64 u v cmp)) s = .next (
            let t := s.writeHome 0 plainAttr addr (valBytes k (atomNew op w64 u (bytesVal old) v cmp))
            { t with hostReplies := t.hostReplies ++ [(4096 + src, valBytes k (bytesVal old))] })))
      ∧ (∀ op g v ident, ¬ taken 32 ∨ s.pageHas (addr / 4096 * 4096) (fun a => a.doc) = false →
        exec (.fabricRequest src epoch addr (.cell op g v ident)) s = .next s)
      ∧ (∀ op g v ident, let c := Cell.ofBytes (s.readHome 0 plainAttr addr 32)
        let p := cellAct op g v ident c
        taken 32 → s.pageHas (addr / 4096 * 4096) (fun a => a.doc) = true → s.unsupported addr 32 false = false → addr % 32 = 0 →
        p.1.gen = c.gen → (op = .read ∨ s.spanFree addr 32 = true) →
        exec (.fabricRequest src epoch addr (.cell op g v ident)) s = .next (
          let t := if p.1 = c then s else s.writeHome 0 plainAttr addr p.1.bytes
          { t with hostReplies := t.hostReplies ++ [(4096 + src, valBytes 8 p.2.val ++ leBytes 4 (p.2.code + 16 * p.2.noprev.toNat)
            ++ leBytes 4 p.2.info.toNat)] })))
    ∧ (∀ image, (s.fw.image.isSome = true → exec (.firmwareBoot image) s = .next s)
      ∧ (s.fw.image = none →
        let runs : Prop := Config.edVerifies image = true ∧ Config.mlVerifies image = true ∧ Crypto.sha384 (Config.edKey image) = Config.fusedEdHash
          ∧ Crypto.sha384 (Config.mlKey image) = Config.fusedMlHash ∧ Config.fusedVersion ≤ Config.securityVersion image
        (runs → exec (.firmwareBoot image) s = .next { s with fw := { image := some image, cause := 0 } })
        ∧ (¬ runs → exec (.firmwareBoot image) s = .next { s with
            fw := { image := none, cause := Config.refusalCause image }, device := { s.device with pstate := 4 } })))
    ∧ (∀ fn nonce, (s.fw.image = none ∨ 8 < fn ∨ nonce.length ≠ 32 → exec (.attestationReport fn nonce) s = .next s)
      ∧ (∀ image, s.fw.image = some image → fn ≤ 8 → nonce.length = 32 →
        let body := Crypto.sha384 image ++ leBytes 4 (Config.securityVersion image) ++ leBytes 4 Config.devid.toNat
          ++ leBytes 4 s.device.chipno.toNat ++ leBytes 4 s.device.epoch.toNat ++ (if fn = 0 then [] else (s.part (fn - 1)).bytes)
          ++ nonce ++ Config.kemKey
        exec (.attestationReport fn nonce) s = .next { s with reports := s.reports ++ [(fn, body ++ Config.signatures body)] }))
    ∧ (∀ fn slot ct wrap,
      let reached : Prop := slot < 256 ∧ (fn = 0 ∨ slot / 32 + 1 = fn)
      (¬ reached ∨ ct.length ≠ 1088 ∨ wrap.length ≠ 104 → exec (.keySlotLoad fn slot ct wrap) s = .next s)
      ∧ (∀ k tr, reached → ct.length = 1088 → wrap.length = 104 → Crypto.unwrapKeys ct wrap = some (k, tr) →
        exec (.keySlotLoad fn slot ct wrap) s = .next { s with keys := s.keys.put slot { keys := k, trace := tr, seq := 0 } })
      ∧ (reached → ct.length = 1088 → wrap.length = 104 → Crypto.unwrapKeys ct wrap = none →
        exec (.keySlotLoad fn slot ct wrap) s = .next { s with keys := s.keys.erase slot }))

/-- R321, R336, R360 to R366: while the handler warp serves no event and none is queued the monitor performs an operation and writes its reply; HALT parks the
ready threads of a warp and RESUME ends a held event; registers, memory, flags, stops, dumps, cycle classes and sampling; a request is answered once; what
concerns a confidential context leaves sealed. That a byte of poison reads as 0, which warp a memory access is made as, what a sealed reply holds and that a
period outside 8 to 24 is BAD_OP are the model's choices (assumptions 44, 65, 79, 81). -/
def Obligations.Monitor : Prop :=
  ∀ (s : State) (core : Nat),
    let runs : Prop := core < 192 ∧ (s.core core).handler.serving = none ∧ (s.core core).trapq = []
    let put (m : Memory) (status : Nat) (data : List Byte) (info : Nat) : Memory :=
      Memory.write (Memory.write m (areaAt core + 244) (leBytes 2 status ++ leBytes 2 data.length ++ leBytes 8 info)) (areaAt core + 256) data
    let replies (t : State) (status : Nat) (data : List Byte) (info : Nat) : State := { t with mailbox := put t.mailbox status data info }
    let sealed (y : State) (ctx : Nat) (inc : Byte) (status : Nat) (data : List Byte) (info : Nat) (t : State) : Prop :=
      let slot := (s.ctx ctx).cfg.toNat / 2 ^ 16 % 256
      ∀ k, s.keys.find slot = some k →
        let body := leBytes 2 status ++ leBytes 2 data.length ++ leBytes 8 info ++ data
        let hdr := leBytes 2 ctx ++ [inc] ++ leBytes 1 0 ++ valBytes 8 k.seq ++ leBytes 4 body.length
        let bytes := hdr ++ Crypto.gcm (leBytes 32 k.trace) (hdr.take 12) hdr body
        t = { y with mailbox := put y.mailbox 0 bytes 0, keys := y.keys.put slot { k with seq := k.seq + 1 } }
    let held (target : Nat) : Option Event := (s.core core).held.find? fun e =>
      if target % 128 = 127 then e.seq else !e.seq && e.warp == target % 64
    (¬ runs → (∀ w, exec (.quinceHalt core w) s = .next s) ∧ (∀ x act, exec (.quinceResume core x act) s = .next s)
      ∧ (∀ x l sel, exec (.rdreg core x l sel) s = .next s) ∧ (∀ m a b d, exec (.debug core m a b d) s = .next s)
      ∧ exec (.cycles core) s = .next s ∧ exec (.quinceRequest core) s = .next s)
    ∧ (runs →
      (∀ w, 64 ≤ w ∨ (s.warp core w).live = false → exec (.quinceHalt core w) s = .next (replies s 2 [] 0))
      ∧ (∀ w, w < 64 → (s.warp core w).live = true → (s.ctx (s.tagOf core w).1).keyed = false →
        ((s.warp core w).halted = true → exec (.quinceHalt core w) s = .next (replies s 0 [] 0))
        ∧ ((s.warp core w).halted = false →
          let ready (x : Nat) : Prop := x < 32 ∧ (s.thread core w x).st = .ready
          ∃ t e, exec (.quinceHalt core w) s = .next t ∧ t.mailbox = put s.mailbox 0 [] 0 ∧ (t.warp core w) = { s.warp core w with halted := true }
            ∧ (∀ x, ready x → t.thread core w x = { s.thread core w x with
                st := .parked, record := some (s.trapRecord core w x { cause := 0x0D, info := 0xFFFF, addr := 0, aux := 0, defd := false }) })
            ∧ (∀ x < 32, ¬ ready x → t.thread core w x = s.thread core w x)
            ∧ (t.core core) = { s.core core with held := (s.core core).held.map (fun f => if f = { e with lanes := 0 } then e else f) ++ [e] } ∧ e.warp = w ∧ e.seq = false ∧ e.cause = 0x0D
            ∧ (∀ x < 32, e.lanes.getLsbD x = true ↔ ready x)
            ∧ { t with mailbox := s.mailbox, threads := s.threads, warps := s.warps, cores := s.cores } = s))
      ∧ (∀ x, held x = none → x % 128 ≠ 127 → (s.warp core (x % 64)).live = true → (s.ctx (s.tagOf core (x % 64)).1).keyed = true →
        let tag := s.tagOf core (x % 64)
        (∀ act, ∃ t, exec (.quinceResume core x act) s = .next t ∧ sealed s tag.1 tag.2 2 [] 0 t)
        ∧ (∀ l sel, ∃ t, exec (.rdreg core x l sel) s = .next t ∧ sealed s tag.1 tag.2 2 [] 0 t)
        ∧ (∀ l sel v, ∃ t, exec (.wrreg core x l sel v) s = .next t ∧ sealed s tag.1 tag.2 2 [] 0 t))
      ∧ (∀ x, held x = none →
        (if x % 128 = 127 then (s.core core).seq.active = true → (s.ctx (s.seqTag core).1).keyed = false
          else (s.warp core (x % 64)).live = true → (s.ctx (s.tagOf core (x % 64)).1).keyed = false) →
        (∀ act, exec (.quinceResume core x act) s = .next (replies s 2 [] 0)) ∧ (∀ l sel, exec (.rdreg core x l sel) s = .next (replies s 2 [] 0))
        ∧ (∀ l sel v, exec (.wrreg core x l sel v) s = .next (replies s 2 [] 0))
        ∧ (∀ va n, n ≤ 224 → exec (.rdmem core x va n) s = .next (replies s 2 [] 0)))
      ∧ (∀ x e, held x = some e → (s.ctx e.ctx).keyed = false → e.seq = false → (∀ k, (s.ctx k).keyed = false) →
        (∀ l r, l < 32 → lanesOf e.lanes = [l] → (s.thread core e.warp l).record = some r → e.cause ≠ cStep →
          ∃ t, exec (.quinceResume core x 0) s = .next t ∧ t.mailbox = put s.mailbox 0 [] 0
            ∧ t.thread core e.warp l = { s.thread core e.warp l with
                st := .ready, pc := r.pc, record := none, timeh := none, bch := none, since := s.time, again := [] }
            ∧ (let still := ((s.core core).held.erase e).any fun f => !f.seq && f.warp == e.warp && f.cause == 0x0D
              t.warp core e.warp = { s.warp core e.warp with halted := (s.warp core e.warp).halted && still })
            ∧ (t.core core) = { s.core core with held := (s.core core).held.erase e })
        ∧ (∀ l sel, l < 32 → e.lanes.getLsbD l = true →
          (s.heldSelTrap core e sel false = none →
            exec (.rdreg core x l sel) s = .next (replies s 0 (leBytes 4 (s.selRead core l e sel).bits.toNat ++ leBytes 1 (s.selRead core l e sel).tag.code.toNat) 0))
          ∧ (∀ tr, s.heldSelTrap core e sel false = some tr → exec (.rdreg core x l sel) s = .next (replies s 4 [] tr.cause.toNat))
          ∧ (∀ v : TWord, v.tag = .psn → selSpace sel ≠ 0 → exec (.wrreg core x l sel v) s = .next (replies s 4 [] 4))
          ∧ (∀ v : TWord, v.tag ≠ .psn ∨ selSpace sel = 0 → s.heldSelTrap core e sel true = none →
            exec (.wrreg core x l sel v) s = .next (replies (s.selWrite core l e sel v) 0 [] 0)))
        ∧ (∀ l sel, 32 ≤ l ∨ e.lanes.getLsbD l = false → exec (.rdreg core x l sel) s = .next (replies s 2 [] 0))
        ∧ (∀ va n bs, x % 128 ≠ 127 → n ≤ 224 → s.peekAll { core := core, warp := e.warp, pc := 0, mask := 1 } va.toNat n = .inl bs →
          let free (i : Nat) : Bool := s.peekFree { core := core, warp := e.warp, pc := 0, mask := 1 } (va.toNat + i)
          exec (.rdmem core x va n) s = .next (replies { s with freeCtr := if (List.range n).any free then s.freeCtr + n else s.freeCtr } 0
            (bs.zipIdx.map fun p => if free p.2 then Config.freeByte (s.freeCtr + p.2) else p.1) 0))
        ∧ (∀ va n k, x % 128 ≠ 127 → n ≤ 224 → s.peekAll { core := core, warp := e.warp, pc := 0, mask := 1 } va.toNat n = .inr k →
          exec (.rdmem core x va n) s = .next (replies s 4 [] k.toNat))
        ∧ (∀ va data k, x % 128 ≠ 127 → data.length ≤ 216 → s.pokeTrap { core := core, warp := e.warp, pc := 0, mask := 1 } va.toNat data.length = some k →
          exec (.wrmem core x va data) s = .next (replies s 4 [] k.toNat))
        ∧ (∀ va data, x % 128 ≠ 127 → data.length ≤ 216 → s.pokeTrap { core := core, warp := e.warp, pc := 0, mask := 1 } va.toNat data.length = none →
          exec (.wrmem core x va data) s = .next (replies (data.zipIdx.foldl (fun s p =>
            s.storeLane { core := core, warp := e.warp, pc := 0, mask := 1 } 0 (va.toNat + p.2) [p.1]) s) 0 [] 0)))
      ∧ (∀ mask step frz catch_, ∃ t, exec (.debug core mask step frz catch_) s = .next t
        ∧ ((∀ w < 64, mask.getLsbD w = true → (s.warp core w).live = true → (s.ctx (s.tagOf core w).1).keyed = false) →
          t.mailbox = put s.mailbox 0 [] 0 ∧ t.keys = s.keys)
        ∧ (∀ w < 64, t.warp core w = if (s.warp core w).live then
            { s.warp core w with step := mask.getLsbD w && step, frz := mask.getLsbD w && frz, catches := mask.getLsbD w && catch_ } else s.warp core w)
        ∧ { t with mailbox := s.mailbox, warps := s.warps, keys := s.keys } = s)
      ∧ ((s.core core).seq.active = false → ∀ n k, exec (.seqstop core n) s = .next (replies s 2 [] 0) ∧ exec (.seqdump core k) s = .next (replies s 2 [] 0))
      ∧ ((s.core core).seq.active = true → (s.ctx (s.seqTag core).1).keyed = true →
        ∀ k, ∃ t, exec (.seqdump core k) s = .next t ∧ sealed s (s.seqTag core).1 (s.seqTag core).2 3 [] 0 t)
      ∧ ((s.core core).seq.active = true → (s.ctx (s.seqTag core).1).keyed = false →
        (∀ n : DWord, exec (.seqstop core n) s =
          .next (replies (s.modSeq core fun q => { q with stop := if n = 0 then none else some n }) 0 [] 0))
        ∧ (∀ k, exec (.seqdump core k) s =
          .next (replies s 0 ((((s.core core).seq.inFlight.drop k).take 27).flatMap (s.core core).seq.dumpBeat) 0))
        ∧ (let n (i : Nat) : DWord := (s.core core).cycles.get 0 i
          let clocks : DWord := (if n 6 = 0 then BitVec.ofNat 64 s.clock else n 6 - 1) - n 0
          exec (.cycles core) s = .next (replies s 0 (valBytes 8 (n 1) ++ valBytes 8 (n 2) ++ valBytes 8 (n 3) ++ valBytes 8 (n 4)
            ++ valBytes 8 (clocks - (n 1 + n 2 + n 3 + n 4))) 0))
        ∧ (∀ ring entries, exec (.prof core ring 0 entries) s = .next (replies (s.modCore core fun k => { k with prof := none }) 0 [] 0))
        ∧ (∀ ring period entries, 8 ≤ period → period ≤ 24 → exec (.prof core ring period entries) s = .next (replies (s.modCore core fun k =>
            { k with prof := some { ring := ring, period := period, entries := entries, next := 0, last := s.time } }) 0 [] 0))
        ∧ (∀ ring period entries, period ≠ 0 → period < 8 ∨ 24 < period → exec (.prof core ring period entries) s = .next (replies s 1 [] 0)))
      ∧ (s.area core 0 4 = s.area core 240 4 → ∃ t, exec (.quinceRequest core) s = .next t ∧ { t with mailbox := s.mailbox } = s
        ∧ Memory.read t.mailbox (mboxAddr core 0) 4 = [1, 0, 0, 0]
        ∧ leNat (Memory.read t.mailbox (mboxAddr core 0 + 4) 4) = leNat (Memory.read s.mailbox (mboxAddr core 0 + 4) 4) ||| 2 ^ areaIndex core)
      ∧ (s.area core 0 4 ≠ s.area core 240 4 → leNat (s.area core 4 2) = 0 ∨ 11 < leNat (s.area core 4 2) →
        ∃ t, exec (.quinceRequest core) s = .next t ∧ t.area core 240 4 = s.area core 0 4 ∧ t.area core 244 2 = [1, 0] ∧ t.irqs = (0, 1) :: s.irqs
          ∧ { t with mailbox := s.mailbox, irqs := s.irqs } = s))
    ∧ ((s.core core).prof = none → exec (.profSample core) s = .next s)
    ∧ (∀ p, (s.core core).prof = some p →
      (s.time % 2 ^ p.period ≠ 0 ∨ s.time ≤ p.last ∨ (s.core core).seq.active = false → exec (.profSample core) s = .next s)
      ∧ (∀ oa a ob b, s.time % 2 ^ p.period = 0 → p.last < s.time → (s.core core).seq.active = true → (s.ctx (s.seqTag core).1).keyed = false →
        let va := p.ring.toNat + 16 * p.next
        let n := 128 - va % 128
        let t := s.setCore core { s.core core with prof := some { p with next := (p.next + 1) % 2 ^ p.entries, last := s.time } }
        let w := ((s.seqTeam core).map fun t => t.warps.headD 0).getD 0
        let bs := leBytes 6 s.time ++ leBytes 1 (s.core core).class_.1 ++ leBytes 1 0 ++ valBytes 8 (s.core core).class_.2
        s.pageFor core (s.seqTag core).1 (s.seqTag core).2 va = .ok oa a →
        (a.w = false ∨ a.doc = true → exec (.profSample core) s = .next t)
        ∧ (16 ≤ n → a.w = true → a.doc = false → exec (.profSample core) s = .next (t.sendStore core w 0 a va (a.phys va) bs))
        ∧ (n < 16 → s.pageFor core (s.seqTag core).1 (s.seqTag core).2 (va + n) = .ok ob b →
          (b.w = false ∨ b.doc = true → exec (.profSample core) s = .next t)
          ∧ (a.w = true → a.doc = false → b.w = true → b.doc = false →
            exec (.profSample core) s = .next ((t.sendStore core w 0 a va (a.phys va) (bs.take n)).sendStore core w 0 b (va + n) (b.phys (va + n)) (bs.drop n)))))
      ∧ (s.time % 2 ^ p.period = 0 → p.last < s.time → (s.core core).seq.active = true → (s.ctx (s.seqTag core).1).keyed = true →
        ∃ t bytes, exec (.profSample core) s = .next t ∧ t.trace = s.trace ++ [bytes] ∧ t.hbm = s.hbm ∧ t.hostMem = s.hostMem))

-- The machine as a whole -------------------------------------------------------------------------------------------

/-- R52 to R65, R91: encode and decode agree: every well-formed instruction that has an encoding decodes back to itself from the bytes of its encoding, and every
encoding is 12 bytes of a SIMT word or a bundle of one slot word, 13 bytes. -/
def Obligations.EncodeDecode : Prop :=
  ∀ (i : Instr) (bs : List Byte), i.wf = true → encode i = some bs → decodeBytes bs = some i ∧ (bs.length = 12 ∨ bs.length = 13)

/-- R52 to R65: words that the spec writes out, or that its tables give bit by bit, decode to the instructions they stand for. -/
def Obligations.DecodedWords : Prop :=
  let h : Head := { neg := false, pred := 7, pri := 0, last := false, rb := false, ra := false, yld := false }
  decodeTableWord 96 0x040000000028090220040733 = some (.ffma h .rz (.v 8) (.v 9) (.imm 0x40000000) (.v 10))
  ∧ decodeTableWord 96 0xFFFFFFFF7000000000000001 = some (.bra { h with pred := 0 } (BitVec.ofInt 36 (-9)))
  ∧ decodeTableWord 96 0x000000010024040036400781 = some (.stg h (some .pkg) .b32 (.v 4) (.v 9) 16)
  ∧ decodeTableWord 96 0x0000000400022800206007A0 = some (.give h 3 (.t 40) 0x40)
  ∧ decodeTableWord 96 0x0000000000000000000007C2 = some (.rte h)
  ∧ decodeTableWord 104 0x0000000010000000030041060F = none
  ∧ decodeTableWord 104 0x00000000100000000300410601 = some (.ycmp .lt 0 1 (.imm 3))
  ∧ decodeTableWord 104 0x00000000000000000000000004 = some .xnop

/-- Tables 6.1, 14.1 to 14.3, 15.2, 15.3, 18.3, 18.4: the state after reset holds the reset values that the spec states: sequencers halted, context, partition,
invalidation and queue blocks at zero, CLKCAP at its cap. That nothing else is under way, and no thread runs, is assumption 3. -/
def Obligations.ResetValues : Prop :=
  let s := State.reset
  (∀ core, (s.core core).seq.halt = true ∧ (s.core core).seq.isat = false ∧ (s.core core).seq.plane = false ∧ (s.core core).seq.intlk = false
    ∧ (s.core core).seq.fcause = 0 ∧ (s.core core).teams = [] ∧ (s.core core).handler.serving = none)
  ∧ (∀ n, (s.ctx n).stat = 0 ∧ (s.ctx n).unrecWord = 0 ∧ (s.ctx n).ptroot = 0 ∧ (s.ctx n).traptab = 0 ∧ (s.ctx n).wsbase = 0 ∧ (s.ctx n).wslen = 0
    ∧ (s.ctx n).cfg = 0 ∧ (s.ctx n).st = .free)
  ∧ (∀ p, (s.part p).stat = 0 ∧ (s.part p).clmask = 0 ∧ (s.part p).hbmbase = 0 ∧ (s.part p).hbmlen = 0 ∧ (s.part p).wsbase = 0 ∧ (s.part p).wslen = 0
    ∧ (s.part p).pair = 0)
  ∧ (∀ fn, (s.tinv fn).stat = 0 ∧ (s.tinv fn).va = 0 ∧ (s.tinv fn).cnt = 0 ∧ (s.tinv fn).ctx = 0)
  ∧ (∀ q, (s.queue q).stat = 0 ∧ (s.queue q).qcb = 0 ∧ (s.queue q).qcfg = 0)
  ∧ s.device.pwrstat = 0 ∧ s.device.clkcap = 0x4E2 ∧ s.device.gate = 0 ∧ s.device.chipno = 0 ∧ s.device.epoch = 0 ∧ s.device.fabctl = 0
  ∧ s.device.temp = 0 ∧ Config.devid = 0x5D90A000
  ∧ (∀ n, s.peers.get 0 n = 0) ∧ s.reqs = [] ∧ s.launches = [] ∧ s.keys = []
  ∧ (∀ core w l, (s.thread core w l).st = .absent) ∧ (∀ core w, (s.warp core w).live = false)

/-- R17, R62, R66, R277: a step that issues a warp at an address runs the instruction that the bytes there decode to, for the ready threads at that
address whose operands and order allow it; where it ends a retryable interval with stores held, the step releases these first; a step of a bundle checks its
words, and performs them all where none raises a cause or stalls, and stays where one stalls; a step of an event is that event's meaning, where its clock runs;
the steps of the script are taken in order (assumption 4). The lanes of a GIVE go together (R173); those of an arrival of the warp go once the lowest of them
may (R385). The order is that of the issue as it counts (R389). The step that releases held stores alone is assumption 6, the code line that a fetch takes 34. -/
def Obligations.StepRunsDecodedInstruction : Prop :=
  ∀ (s : State) (rest : List Directive),
    let u : State := { s with script := rest }
    (∀ (i : Instr), s.script = .event i :: rest → (u.clocked i = true → step s = exec i u) ∧ (u.clocked i = false → step s = .next u))
    ∧ (∀ (core w : Nat) (pc : DWord), s.script = .issue core w pc :: rest →
      let here := (List.range 32).filter fun l => decide ((u.thread core w l).st = .ready ∧ (u.thread core w l).pc = pc)
      let cur (ls : List Nat) : Cur := { core := core, warp := w, pc := pc, mask := maskOf ls }
      ((u.warp core w).halted = false → u.warpRuns core w = false ∨ here = [] → step s = .next u)
      ∧ (∀ (bs : List Byte) (i : Instr), u.warpRuns core w = true → here ≠ [] →
        u.fetchCode core (u.tagOf core w).1 (u.tagOf core w).2 3 pc.toNat 12 = .bytes bs → bs.length = 12 → decodeBytes bs = some i →
        let ready := here.filter fun l => u.operandsReady core w l i
        let counted := u.countIssue (cur here)
        let may := ready.filter fun l => counted.orderAllows (cur here) l i
        let go := match Instr.arrivesAsOne i with
          | some h =>
            if ((ready.filter fun l => guardOn h (counted.thread core w l)).take 1).all (fun l => counted.orderAllows (cur here) l i) then ready else []
          | none => if Instr.together i = true ∧ may ≠ ready then [] else may
        (go = [] → step s = .next u)
        ∧ (go ≠ [] → ∀ v, exec i { u.takeCode core (u.tagOf core w).1 (u.tagOf core w).2 pc.toNat 12 with cur := some (cur go) } = .next v →
          (u.endsInterval core w v = false → step s = .next ((({ v with cur := none } : State).markSeen u (cur go) i).noteIssue core w))
          ∧ (u.endsInterval core w v = true → step s = .next (u.endRetry core (u.warpTeam core w))))))
    ∧ (∀ (core : Nat) (h : Half) (i : Instr), s.script = .bundle core :: rest → u.coreRuns core = true → (u.core core).cls = none →
      u.seqRuns core = true → (u.core core).seq.supply = .ready h → (u.core core).seq.stop = none →
      let u1 := u.modSeq core fun q => q.settleHalf h
      let v := u1.landDue core
      let b := (v.core core).seq.context core
      (v.core core).seq.instrs = [i] →
      ∀ (v1 : State) (b1 : BundleCtx), exec i (v.setBun b) = .next v1 → v1.bun = some b1 →
      (b1.stall = true → step s = .next (u1.modSeq core fun q => { q with stalled := some (q.stalled.getD v.time), released := false }))
      ∧ (b1.stall = false → b1.faults = [] →
        ∀ v2, exec i ((v1.modSeq core Seq.advance).setBun { b1 with phase := .perform }) = .next v2 → step s = .next v2.closeBundle))
    ∧ (s.script = .tick :: rest → ∃ t, step s = .next t ∧ t.time = s.time + (if s.device.pstate = 4 then 0 else 1) ∧ t.script = rest)

/-- R61, R72, R334 to R338: no step of any state ends in a fault or a refusal: the effect of every instruction, and every trap and machine check, is a next
state. -/
def Obligations.StepAlwaysNext : Prop := (∀ (i : Instr) (s : State), ∃ t, exec i s = .next t) ∧ ∀ s : State, ∃ t, step s = .next t

/-- R3, R7: every step keeps the byte memories outside the cores in canonical form, so that equal contents are equal states: local HBM, host and peer memory,
the mailbox, the weight store; reset has that form. The form is the model's own. -/
def Obligations.MemoriesStayCanonical : Prop :=
  let inv (s : State) : Prop := Memory.wf s.hbm = true ∧ Memory.wf s.hostMem = true ∧ Memory.wf s.peerMem = true ∧ Memory.wf s.mailbox = true
    ∧ Memory.wf s.wstore = true
  inv State.reset ∧ ∀ s t : State, inv s → step s = .next t → inv t
end

