-- ==== Sys2Proof/Laws/Store.lean ====
section
/-!
SUPPORT. Sys2Proof/Laws/Store.lean: reads after writes of sparse storage, and that its operations keep the canonical form.
-/
namespace Sys2Proof.Machine

-- Reads after writes -----------------------------------------------------------------------------------------------

theorem Store.find_put_self {α : Type} (m : Store α) (k : Nat) (v : α) : (m.put k v).find k = some v := by
  induction m with
  | nil => simp [Store.put, Store.find]
  | cons p t ih =>
    obtain ⟨a, w⟩ := p
    simp only [Store.put]
    split
    · simp [Store.find]
    · split
      · simp [Store.find]
      · rename_i h1 h2
        simp [Store.find, Ne.symm h2, ih]

theorem Store.find_put_ne {α : Type} (m : Store α) {k j : Nat} (v : α) (h : j ≠ k) : (m.put k v).find j = m.find j := by
  induction m with
  | nil => simp [Store.put, Store.find, h.symm]
  | cons p t ih =>
    obtain ⟨a, w⟩ := p
    simp only [Store.put]
    split
    · simp [Store.find, h.symm]
    · split
      · rename_i h1 h2
        subst h2
        simp [Store.find, h.symm]
      · simp only [Store.find, ih]

theorem Store.find_erase_self {α : Type} (m : Store α) (k : Nat) : (m.erase k).find k = none := by
  induction m with
  | nil => rfl
  | cons p t ih =>
    obtain ⟨a, w⟩ := p
    simp only [Store.erase]
    split
    · exact ih
    · rename_i h
      simp [Store.find, h, ih]

theorem Store.find_erase_ne {α : Type} (m : Store α) {k j : Nat} (h : j ≠ k) : (m.erase k).find j = m.find j := by
  induction m with
  | nil => rfl
  | cons p t ih =>
    obtain ⟨a, w⟩ := p
    simp only [Store.erase]
    split
    · rename_i h1
      subst h1
      simp [Store.find, h.symm, ih]
    · simp only [Store.find, ih]

@[simp] theorem Store.get_set_self {α : Type} [DecidableEq α] (d : α) (m : Store α) (k : Nat) (v : α) :
    (m.set d k v).get d k = v := by
  unfold Store.set Store.get
  split
  · rename_i h
    simp [Store.find_erase_self, h]
  · simp [Store.find_put_self]

theorem Store.get_set_ne {α : Type} [DecidableEq α] (d : α) (m : Store α) {k j : Nat} (v : α) (h : j ≠ k) :
    (m.set d k v).get d j = m.get d j := by
  unfold Store.set Store.get
  split
  · rw [Store.find_erase_ne _ h]
  · rw [Store.find_put_ne _ _ h]

theorem Store.get_set {α : Type} [DecidableEq α] (d : α) (m : Store α) (k j : Nat) (v : α) :
    (m.set d k v).get d j = if j = k then v else m.get d j := by
  split
  · rename_i h
    subst h
    simp
  · rename_i h
    exact Store.get_set_ne d m v h

-- The canonical form -----------------------------------------------------------------------------------------------

/-- Every listed key is above a bound, and no listed value is the one that an unlisted key reads as: the canonical form, said
of the tail of a store. -/
def Store.above {α : Type} [DecidableEq α] (d : α) : Nat → Store α → Prop
  | _, [] => True
  | n, (a, v) :: t => n ≤ a ∧ v ≠ d ∧ Store.above d (a + 1) t

theorem Store.above_mono {α : Type} [DecidableEq α] {d : α} {m : Store α} {n k : Nat} (h : Store.above d n m) (hk : k ≤ n) :
    Store.above d k m := by
  cases m with
  | nil => trivial
  | cons p t => exact ⟨by have := h.1; omega, h.2⟩

theorem Store.wf_cons {α : Type} [DecidableEq α] (d : α) (a : Nat) (v : α) (t : Store α) :
    Store.wf d ((a, v) :: t) = true ↔ v ≠ d ∧ Store.above d (a + 1) t := by
  induction t generalizing a v with
  | nil => simp [Store.wf, Store.above]
  | cons p t ih =>
    obtain ⟨b, w⟩ := p
    simp only [Store.wf, Bool.and_eq_true, decide_eq_true_eq, ih, Store.above]
    constructor
    · rintro ⟨⟨h1, h2⟩, h3, h4⟩
      exact ⟨h1, by omega, h3, h4⟩
    · rintro ⟨h1, h2, h3, h4⟩
      exact ⟨⟨h1, by omega⟩, h3, h4⟩

theorem Store.wf_iff {α : Type} [DecidableEq α] (d : α) (m : Store α) : Store.wf d m = true ↔ Store.above d 0 m := by
  cases m with
  | nil => simp [Store.wf, Store.above]
  | cons p t =>
    obtain ⟨a, v⟩ := p
    rw [Store.wf_cons]
    simp [Store.above]

theorem Store.above_put {α : Type} [DecidableEq α] {d : α} {m : Store α} {n k : Nat} {v : α} (h : Store.above d n m) (hk : n ≤ k)
    (hv : v ≠ d) : Store.above d n (m.put k v) := by
  induction m generalizing n with
  | nil => exact ⟨hk, hv, trivial⟩
  | cons p t ih =>
    obtain ⟨a, w⟩ := p
    obtain ⟨h1, h2, h3⟩ := h
    simp only [Store.put]
    split
    · exact ⟨hk, hv, by omega, h2, h3⟩
    · split
      · rename_i _ e
        subst e
        exact ⟨hk, hv, h3⟩
      · exact ⟨h1, h2, ih h3 (by omega)⟩

theorem Store.above_filter {α : Type} [DecidableEq α] {d : α} {m : Store α} {n : Nat} (p : Nat × α → Bool)
    (h : Store.above d n m) : Store.above d n (m.filter p) := by
  induction m generalizing n with
  | nil => trivial
  | cons q t ih =>
    obtain ⟨a, w⟩ := q
    obtain ⟨h1, h2, h3⟩ := h
    have ht := ih h3
    simp only [List.filter]
    split
    · exact ⟨h1, h2, ht⟩
    · exact Store.above_mono ht (by omega)

theorem Store.above_erase {α : Type} [DecidableEq α] {d : α} {m : Store α} {n : Nat} (k : Nat) (h : Store.above d n m) :
    Store.above d n (m.erase k) := by
  induction m generalizing n with
  | nil => trivial
  | cons q t ih =>
    obtain ⟨a, w⟩ := q
    obtain ⟨h1, h2, h3⟩ := h
    have ht := ih h3
    simp only [Store.erase]
    split
    · exact Store.above_mono ht (by omega)
    · exact ⟨h1, h2, ht⟩

theorem Store.wf_nil {α : Type} [DecidableEq α] (d : α) : Store.wf d ([] : Store α) = true := rfl

theorem Store.wf_set {α : Type} [DecidableEq α] {d : α} {m : Store α} (k : Nat) (v : α) (h : Store.wf d m = true) :
    Store.wf d (m.set d k v) = true := by
  rw [Store.wf_iff] at h ⊢
  unfold Store.set
  split
  · exact Store.above_erase k h
  · exact Store.above_put h (Nat.zero_le _) (by assumption)

theorem Store.wf_filter {α : Type} [DecidableEq α] {d : α} {m : Store α} (p : Nat × α → Bool) (h : Store.wf d m = true) :
    Store.wf d (m.filter p) = true := by
  rw [Store.wf_iff] at h ⊢
  exact Store.above_filter p h

theorem Store.wf_slice {α : Type} [DecidableEq α] {d : α} {m : Store α} (lo hi : Nat) (h : Store.wf d m = true) :
    Store.wf d (m.slice lo hi) = true := Store.wf_filter _ h

theorem Store.wf_cut {α : Type} [DecidableEq α] {d : α} {m : Store α} (lo hi : Nat) (h : Store.wf d m = true) :
    Store.wf d (m.cut lo hi) = true := Store.wf_filter _ h

theorem Store.above_ne {α : Type} [DecidableEq α] {d : α} {m : Store α} {n : Nat} (h : Store.above d n m) {p : Nat × α}
    (hp : p ∈ m) : p.2 ≠ d := by
  induction m generalizing n with
  | nil => cases hp
  | cons q t ih =>
    obtain ⟨a, w⟩ := q
    cases hp with
    | head => exact h.2.1
    | tail _ hp => exact ih h.2.2 hp

theorem Store.above_foldl_put {α : Type} [DecidableEq α] {d : α} (n : Store α) :
    ∀ {m : Store α}, Store.above d 0 m → (∀ p ∈ n, p.2 ≠ d) →
      Store.above d 0 (n.foldl (fun acc p => acc.put p.1 p.2) m) := by
  induction n with
  | nil => intro m h _; exact h
  | cons p t ih =>
    intro m h hn
    exact ih (Store.above_put h (Nat.zero_le _) (hn p (List.mem_cons_self ..)))
      (fun q hq => hn q (List.mem_cons_of_mem _ hq))

theorem Store.wf_lay {α : Type} [DecidableEq α] {d : α} {m n : Store α} (h : Store.wf d m = true) (hn : Store.wf d n = true) :
    Store.wf d (m.lay n) = true := by
  rw [Store.wf_iff] at h hn ⊢
  exact Store.above_foldl_put n h fun p hp => Store.above_ne hn hp

-- Byte memory ------------------------------------------------------------------------------------------------------

theorem Memory.wf_nil : Memory.wf [] = true := rfl

theorem Memory.wf_write {m : Memory} (a : Nat) (bs : List Byte) (h : Memory.wf m = true) : Memory.wf (Memory.write m a bs) = true := by
  induction bs generalizing m a with
  | nil => exact h
  | cons b bs ih => exact ih (a + 1) (Store.wf_set a b h)

theorem Memory.write_outside (m : Memory) (a : Nat) (bs : List Byte) {x : Nat} (h : x < a ∨ a + bs.length ≤ x) :
    Store.get 0 (Memory.write m a bs) x = Store.get 0 m x := by
  induction bs generalizing m a with
  | nil => rfl
  | cons b bs ih =>
    simp only [List.length_cons] at h
    show Store.get 0 (Memory.write (Store.set 0 m a b) (a + 1) bs) x = _
    rw [ih _ _ (by omega), Store.get_set_ne]
    omega

theorem Memory.write_inside (m : Memory) (a : Nat) (bs : List Byte) {i : Nat} (h : i < bs.length) :
    Store.get 0 (Memory.write m a bs) (a + i) = bs[i] := by
  induction bs generalizing m a i with
  | nil => simp at h
  | cons b bs ih =>
    show Store.get 0 (Memory.write (Store.set 0 m a b) (a + 1) bs) (a + i) = _
    cases i with
    | zero => rw [Memory.write_outside _ _ _ (by omega)]; simp
    | succ i =>
      have := ih (Store.set 0 m a b) (a + 1) (i := i) (by simpa using h)
      rw [show a + (i + 1) = a + 1 + i by omega, this]
      rfl

theorem Memory.read_length (m : Memory) (a n : Nat) : (Memory.read m a n).length = n := by
  induction n generalizing a with
  | zero => rfl
  | succ n ih => simp [Memory.read, ih]

theorem Memory.read_getElem (m : Memory) (a n i : Nat) (h : i < (Memory.read m a n).length) :
    (Memory.read m a n)[i] = Store.get 0 m (a + i) := by
  induction n generalizing a i with
  | zero => simp [Memory.read] at h
  | succ n ih =>
    cases i with
    | zero => rfl
    | succ i =>
      simp only [Memory.read, List.getElem_cons_succ]
      rw [ih, show a + 1 + i = a + (i + 1) by omega]

/-- A read of the bytes just written. -/
theorem Memory.read_write (m : Memory) (a : Nat) (bs : List Byte) : Memory.read (Memory.write m a bs) a bs.length = bs := by
  apply List.ext_getElem (Memory.read_length _ _ _)
  intro i h1 h2
  rw [Memory.read_getElem, Memory.write_inside _ _ _ h2]

/-- A read that meets no byte of a write. -/
theorem Memory.read_write_apart (m : Memory) (a b n : Nat) (bs : List Byte) (h : b + n ≤ a ∨ a + bs.length ≤ b) :
    Memory.read (Memory.write m a bs) b n = Memory.read m b n := by
  apply List.ext_getElem (by simp [Memory.read_length])
  intro i h1 h2
  rw [Memory.read_length] at h2
  rw [Memory.read_getElem, Memory.read_getElem, Memory.write_outside _ _ _ (by omega)]

theorem Marks.wf_fill {m : Marks} (lo : Nat) (v : Bool) (n : Nat) (h : Store.wf false m = true) :
    Store.wf false (Marks.fill m lo v n) = true := by
  induction n generalizing m lo with
  | zero => exact h
  | succ n ih => exact ih _ (Store.wf_set lo v h)

end Sys2Proof.Machine
end

