-- ==== Sys2Proof/Laws/State.lean ====
section
/-!
SUPPORT. Sys2Proof/Laws/State.lean: for each accessor that writes one part of the state, what it leaves in every field, and what
the accessors read after it.
-/
namespace Sys2Proof.Machine

-- setCore --------------------------------------------------------------------------------------------------------------

@[simp] theorem State.setCore_time (s : State) (c : Nat) (x : Core) : (s.setCore c x).time = s.time := rfl
@[simp] theorem State.setCore_clock (s : State) (c : Nat) (x : Core) : (s.setCore c x).clock = s.clock := rfl
@[simp] theorem State.setCore_phase (s : State) (c : Nat) (x : Core) : (s.setCore c x).phase = s.phase := rfl
@[simp] theorem State.setCore_hbm (s : State) (c : Nat) (x : Core) : (s.setCore c x).hbm = s.hbm := rfl
@[simp] theorem State.setCore_hbmPsn (s : State) (c : Nat) (x : Core) : (s.setCore c x).hbmPsn = s.hbmPsn := rfl
@[simp] theorem State.setCore_unitKey (s : State) (c : Nat) (x : Core) : (s.setCore c x).unitKey = s.unitKey := rfl
@[simp] theorem State.setCore_hostMem (s : State) (c : Nat) (x : Core) : (s.setCore c x).hostMem = s.hostMem := rfl
@[simp] theorem State.setCore_peerMem (s : State) (c : Nat) (x : Core) : (s.setCore c x).peerMem = s.peerMem := rfl
@[simp] theorem State.setCore_mailbox (s : State) (c : Nat) (x : Core) : (s.setCore c x).mailbox = s.mailbox := rfl
@[simp] theorem State.setCore_leases (s : State) (c : Nat) (x : Core) : (s.setCore c x).leases = s.leases := rfl
@[simp] theorem State.setCore_genTime (s : State) (c : Nat) (x : Core) : (s.setCore c x).genTime = s.genTime := rfl
@[simp] theorem State.setCore_l2 (s : State) (c : Nat) (x : Core) : (s.setCore c x).l2 = s.l2 := rfl
@[simp] theorem State.setCore_tlb (s : State) (c : Nat) (x : Core) : (s.setCore c x).tlb = s.tlb := rfl
@[simp] theorem State.setCore_atsHost (s : State) (c : Nat) (x : Core) : (s.setCore c x).atsHost = s.atsHost := rfl
@[simp] theorem State.setCore_decided (s : State) (c : Nat) (x : Core) : (s.setCore c x).decided = s.decided := rfl
@[simp] theorem State.setCore_reqs (s : State) (c : Nat) (x : Core) : (s.setCore c x).reqs = s.reqs := rfl
@[simp] theorem State.setCore_copies (s : State) (c : Nat) (x : Core) : (s.setCore c x).copies = s.copies := rfl
@[simp] theorem State.setCore_pageReqs (s : State) (c : Nat) (x : Core) : (s.setCore c x).pageReqs = s.pageReqs := rfl
@[simp] theorem State.setCore_ctxs (s : State) (c : Nat) (x : Core) : (s.setCore c x).ctxs = s.ctxs := rfl
@[simp] theorem State.setCore_parts (s : State) (c : Nat) (x : Core) : (s.setCore c x).parts = s.parts := rfl
@[simp] theorem State.setCore_tinvs (s : State) (c : Nat) (x : Core) : (s.setCore c x).tinvs = s.tinvs := rfl
@[simp] theorem State.setCore_queues (s : State) (c : Nat) (x : Core) : (s.setCore c x).queues = s.queues := rfl
@[simp] theorem State.setCore_launches (s : State) (c : Nat) (x : Core) : (s.setCore c x).launches = s.launches := rfl
@[simp] theorem State.setCore_images (s : State) (c : Nat) (x : Core) : (s.setCore c x).images = s.images := rfl
@[simp] theorem State.setCore_ckpts (s : State) (c : Nat) (x : Core) : (s.setCore c x).ckpts = s.ckpts := rfl
@[simp] theorem State.setCore_shadow (s : State) (c : Nat) (x : Core) : (s.setCore c x).shadow = s.shadow := rfl
@[simp] theorem State.setCore_keys (s : State) (c : Nat) (x : Core) : (s.setCore c x).keys = s.keys := rfl
@[simp] theorem State.setCore_device (s : State) (c : Nat) (x : Core) : (s.setCore c x).device = s.device := rfl
@[simp] theorem State.setCore_peers (s : State) (c : Nat) (x : Core) : (s.setCore c x).peers = s.peers := rfl
@[simp] theorem State.setCore_peerEpoch (s : State) (c : Nat) (x : Core) : (s.setCore c x).peerEpoch = s.peerEpoch := rfl
@[simp] theorem State.setCore_fw (s : State) (c : Nat) (x : Core) : (s.setCore c x).fw = s.fw := rfl
@[simp] theorem State.setCore_irqs (s : State) (c : Nat) (x : Core) : (s.setCore c x).irqs = s.irqs := rfl
@[simp] theorem State.setCore_reports (s : State) (c : Nat) (x : Core) : (s.setCore c x).reports = s.reports := rfl
@[simp] theorem State.setCore_trace (s : State) (c : Nat) (x : Core) : (s.setCore c x).trace = s.trace := rfl
@[simp] theorem State.setCore_hostReplies (s : State) (c : Nat) (x : Core) : (s.setCore c x).hostReplies = s.hostReplies := rfl
@[simp] theorem State.setCore_regs (s : State) (c : Nat) (x : Core) : (s.setCore c x).regs = s.regs := rfl
@[simp] theorem State.setCore_sregs (s : State) (c : Nat) (x : Core) : (s.setCore c x).sregs = s.sregs := rfl
@[simp] theorem State.setCore_owners (s : State) (c : Nat) (x : Core) : (s.setCore c x).owners = s.owners := rfl
@[simp] theorem State.setCore_scratch (s : State) (c : Nat) (x : Core) : (s.setCore c x).scratch = s.scratch := rfl
@[simp] theorem State.setCore_scrPsn (s : State) (c : Nat) (x : Core) : (s.setCore c x).scrPsn = s.scrPsn := rfl
@[simp] theorem State.setCore_opmem (s : State) (c : Nat) (x : Core) : (s.setCore c x).opmem = s.opmem := rfl
@[simp] theorem State.setCore_opPsn (s : State) (c : Nat) (x : Core) : (s.setCore c x).opPsn = s.opPsn := rfl
@[simp] theorem State.setCore_priv (s : State) (c : Nat) (x : Core) : (s.setCore c x).priv = s.priv := rfl
@[simp] theorem State.setCore_privPsn (s : State) (c : Nat) (x : Core) : (s.setCore c x).privPsn = s.privPsn := rfl
@[simp] theorem State.setCore_hpriv (s : State) (c : Nat) (x : Core) : (s.setCore c x).hpriv = s.hpriv := rfl
@[simp] theorem State.setCore_hprivPsn (s : State) (c : Nat) (x : Core) : (s.setCore c x).hprivPsn = s.hprivPsn := rfl
@[simp] theorem State.setCore_sems (s : State) (c : Nat) (x : Core) : (s.setCore c x).sems = s.sems := rfl
@[simp] theorem State.setCore_wstore (s : State) (c : Nat) (x : Core) : (s.setCore c x).wstore = s.wstore := rfl
@[simp] theorem State.setCore_wsPsn (s : State) (c : Nat) (x : Core) : (s.setCore c x).wsPsn = s.wsPsn := rfl
@[simp] theorem State.setCore_threads (s : State) (c : Nat) (x : Core) : (s.setCore c x).threads = s.threads := rfl
@[simp] theorem State.setCore_warps (s : State) (c : Nat) (x : Core) : (s.setCore c x).warps = s.warps := rfl
@[simp] theorem State.setCore_script (s : State) (c : Nat) (x : Core) : (s.setCore c x).script = s.script := rfl
@[simp] theorem State.setCore_turn (s : State) (c : Nat) (x : Core) : (s.setCore c x).turn = s.turn := rfl
@[simp] theorem State.setCore_cur (s : State) (c : Nat) (x : Core) : (s.setCore c x).cur = s.cur := rfl
@[simp] theorem State.setCore_bun (s : State) (c : Nat) (x : Core) : (s.setCore c x).bun = s.bun := rfl
@[simp] theorem State.setCore_nextId (s : State) (c : Nat) (x : Core) : (s.setCore c x).nextId = s.nextId := rfl
@[simp] theorem State.setCore_freeCtr (s : State) (c : Nat) (x : Core) : (s.setCore c x).freeCtr = s.freeCtr := rfl

-- setWarp --------------------------------------------------------------------------------------------------------------

@[simp] theorem State.setWarp_time (s : State) (c w : Nat) (x : Warp) : (s.setWarp c w x).time = s.time := rfl
@[simp] theorem State.setWarp_clock (s : State) (c w : Nat) (x : Warp) : (s.setWarp c w x).clock = s.clock := rfl
@[simp] theorem State.setWarp_phase (s : State) (c w : Nat) (x : Warp) : (s.setWarp c w x).phase = s.phase := rfl
@[simp] theorem State.setWarp_hbm (s : State) (c w : Nat) (x : Warp) : (s.setWarp c w x).hbm = s.hbm := rfl
@[simp] theorem State.setWarp_hbmPsn (s : State) (c w : Nat) (x : Warp) : (s.setWarp c w x).hbmPsn = s.hbmPsn := rfl
@[simp] theorem State.setWarp_unitKey (s : State) (c w : Nat) (x : Warp) : (s.setWarp c w x).unitKey = s.unitKey := rfl
@[simp] theorem State.setWarp_hostMem (s : State) (c w : Nat) (x : Warp) : (s.setWarp c w x).hostMem = s.hostMem := rfl
@[simp] theorem State.setWarp_peerMem (s : State) (c w : Nat) (x : Warp) : (s.setWarp c w x).peerMem = s.peerMem := rfl
@[simp] theorem State.setWarp_mailbox (s : State) (c w : Nat) (x : Warp) : (s.setWarp c w x).mailbox = s.mailbox := rfl
@[simp] theorem State.setWarp_leases (s : State) (c w : Nat) (x : Warp) : (s.setWarp c w x).leases = s.leases := rfl
@[simp] theorem State.setWarp_genTime (s : State) (c w : Nat) (x : Warp) : (s.setWarp c w x).genTime = s.genTime := rfl
@[simp] theorem State.setWarp_l2 (s : State) (c w : Nat) (x : Warp) : (s.setWarp c w x).l2 = s.l2 := rfl
@[simp] theorem State.setWarp_tlb (s : State) (c w : Nat) (x : Warp) : (s.setWarp c w x).tlb = s.tlb := rfl
@[simp] theorem State.setWarp_atsHost (s : State) (c w : Nat) (x : Warp) : (s.setWarp c w x).atsHost = s.atsHost := rfl
@[simp] theorem State.setWarp_decided (s : State) (c w : Nat) (x : Warp) : (s.setWarp c w x).decided = s.decided := rfl
@[simp] theorem State.setWarp_reqs (s : State) (c w : Nat) (x : Warp) : (s.setWarp c w x).reqs = s.reqs := rfl
@[simp] theorem State.setWarp_copies (s : State) (c w : Nat) (x : Warp) : (s.setWarp c w x).copies = s.copies := rfl
@[simp] theorem State.setWarp_pageReqs (s : State) (c w : Nat) (x : Warp) : (s.setWarp c w x).pageReqs = s.pageReqs := rfl
@[simp] theorem State.setWarp_ctxs (s : State) (c w : Nat) (x : Warp) : (s.setWarp c w x).ctxs = s.ctxs := rfl
@[simp] theorem State.setWarp_parts (s : State) (c w : Nat) (x : Warp) : (s.setWarp c w x).parts = s.parts := rfl
@[simp] theorem State.setWarp_tinvs (s : State) (c w : Nat) (x : Warp) : (s.setWarp c w x).tinvs = s.tinvs := rfl
@[simp] theorem State.setWarp_queues (s : State) (c w : Nat) (x : Warp) : (s.setWarp c w x).queues = s.queues := rfl
@[simp] theorem State.setWarp_launches (s : State) (c w : Nat) (x : Warp) : (s.setWarp c w x).launches = s.launches := rfl
@[simp] theorem State.setWarp_images (s : State) (c w : Nat) (x : Warp) : (s.setWarp c w x).images = s.images := rfl
@[simp] theorem State.setWarp_ckpts (s : State) (c w : Nat) (x : Warp) : (s.setWarp c w x).ckpts = s.ckpts := rfl
@[simp] theorem State.setWarp_shadow (s : State) (c w : Nat) (x : Warp) : (s.setWarp c w x).shadow = s.shadow := rfl
@[simp] theorem State.setWarp_keys (s : State) (c w : Nat) (x : Warp) : (s.setWarp c w x).keys = s.keys := rfl
@[simp] theorem State.setWarp_device (s : State) (c w : Nat) (x : Warp) : (s.setWarp c w x).device = s.device := rfl
@[simp] theorem State.setWarp_peers (s : State) (c w : Nat) (x : Warp) : (s.setWarp c w x).peers = s.peers := rfl
@[simp] theorem State.setWarp_peerEpoch (s : State) (c w : Nat) (x : Warp) : (s.setWarp c w x).peerEpoch = s.peerEpoch := rfl
@[simp] theorem State.setWarp_fw (s : State) (c w : Nat) (x : Warp) : (s.setWarp c w x).fw = s.fw := rfl
@[simp] theorem State.setWarp_irqs (s : State) (c w : Nat) (x : Warp) : (s.setWarp c w x).irqs = s.irqs := rfl
@[simp] theorem State.setWarp_reports (s : State) (c w : Nat) (x : Warp) : (s.setWarp c w x).reports = s.reports := rfl
@[simp] theorem State.setWarp_trace (s : State) (c w : Nat) (x : Warp) : (s.setWarp c w x).trace = s.trace := rfl
@[simp] theorem State.setWarp_hostReplies (s : State) (c w : Nat) (x : Warp) : (s.setWarp c w x).hostReplies = s.hostReplies := rfl
@[simp] theorem State.setWarp_regs (s : State) (c w : Nat) (x : Warp) : (s.setWarp c w x).regs = s.regs := rfl
@[simp] theorem State.setWarp_sregs (s : State) (c w : Nat) (x : Warp) : (s.setWarp c w x).sregs = s.sregs := rfl
@[simp] theorem State.setWarp_owners (s : State) (c w : Nat) (x : Warp) : (s.setWarp c w x).owners = s.owners := rfl
@[simp] theorem State.setWarp_scratch (s : State) (c w : Nat) (x : Warp) : (s.setWarp c w x).scratch = s.scratch := rfl
@[simp] theorem State.setWarp_scrPsn (s : State) (c w : Nat) (x : Warp) : (s.setWarp c w x).scrPsn = s.scrPsn := rfl
@[simp] theorem State.setWarp_opmem (s : State) (c w : Nat) (x : Warp) : (s.setWarp c w x).opmem = s.opmem := rfl
@[simp] theorem State.setWarp_opPsn (s : State) (c w : Nat) (x : Warp) : (s.setWarp c w x).opPsn = s.opPsn := rfl
@[simp] theorem State.setWarp_priv (s : State) (c w : Nat) (x : Warp) : (s.setWarp c w x).priv = s.priv := rfl
@[simp] theorem State.setWarp_privPsn (s : State) (c w : Nat) (x : Warp) : (s.setWarp c w x).privPsn = s.privPsn := rfl
@[simp] theorem State.setWarp_hpriv (s : State) (c w : Nat) (x : Warp) : (s.setWarp c w x).hpriv = s.hpriv := rfl
@[simp] theorem State.setWarp_hprivPsn (s : State) (c w : Nat) (x : Warp) : (s.setWarp c w x).hprivPsn = s.hprivPsn := rfl
@[simp] theorem State.setWarp_sems (s : State) (c w : Nat) (x : Warp) : (s.setWarp c w x).sems = s.sems := rfl
@[simp] theorem State.setWarp_wstore (s : State) (c w : Nat) (x : Warp) : (s.setWarp c w x).wstore = s.wstore := rfl
@[simp] theorem State.setWarp_wsPsn (s : State) (c w : Nat) (x : Warp) : (s.setWarp c w x).wsPsn = s.wsPsn := rfl
@[simp] theorem State.setWarp_threads (s : State) (c w : Nat) (x : Warp) : (s.setWarp c w x).threads = s.threads := rfl
@[simp] theorem State.setWarp_cores (s : State) (c w : Nat) (x : Warp) : (s.setWarp c w x).cores = s.cores := rfl
@[simp] theorem State.setWarp_script (s : State) (c w : Nat) (x : Warp) : (s.setWarp c w x).script = s.script := rfl
@[simp] theorem State.setWarp_turn (s : State) (c w : Nat) (x : Warp) : (s.setWarp c w x).turn = s.turn := rfl
@[simp] theorem State.setWarp_cur (s : State) (c w : Nat) (x : Warp) : (s.setWarp c w x).cur = s.cur := rfl
@[simp] theorem State.setWarp_bun (s : State) (c w : Nat) (x : Warp) : (s.setWarp c w x).bun = s.bun := rfl
@[simp] theorem State.setWarp_nextId (s : State) (c w : Nat) (x : Warp) : (s.setWarp c w x).nextId = s.nextId := rfl
@[simp] theorem State.setWarp_freeCtr (s : State) (c w : Nat) (x : Warp) : (s.setWarp c w x).freeCtr = s.freeCtr := rfl

-- setThread ------------------------------------------------------------------------------------------------------------

@[simp] theorem State.setThread_time (s : State) (c w l : Nat) (x : Thread) : (s.setThread c w l x).time = s.time := rfl
@[simp] theorem State.setThread_clock (s : State) (c w l : Nat) (x : Thread) : (s.setThread c w l x).clock = s.clock := rfl
@[simp] theorem State.setThread_phase (s : State) (c w l : Nat) (x : Thread) : (s.setThread c w l x).phase = s.phase := rfl
@[simp] theorem State.setThread_hbm (s : State) (c w l : Nat) (x : Thread) : (s.setThread c w l x).hbm = s.hbm := rfl
@[simp] theorem State.setThread_hbmPsn (s : State) (c w l : Nat) (x : Thread) : (s.setThread c w l x).hbmPsn = s.hbmPsn := rfl
@[simp] theorem State.setThread_unitKey (s : State) (c w l : Nat) (x : Thread) : (s.setThread c w l x).unitKey = s.unitKey := rfl
@[simp] theorem State.setThread_hostMem (s : State) (c w l : Nat) (x : Thread) : (s.setThread c w l x).hostMem = s.hostMem := rfl
@[simp] theorem State.setThread_peerMem (s : State) (c w l : Nat) (x : Thread) : (s.setThread c w l x).peerMem = s.peerMem := rfl
@[simp] theorem State.setThread_mailbox (s : State) (c w l : Nat) (x : Thread) : (s.setThread c w l x).mailbox = s.mailbox := rfl
@[simp] theorem State.setThread_leases (s : State) (c w l : Nat) (x : Thread) : (s.setThread c w l x).leases = s.leases := rfl
@[simp] theorem State.setThread_genTime (s : State) (c w l : Nat) (x : Thread) : (s.setThread c w l x).genTime = s.genTime := rfl
@[simp] theorem State.setThread_l2 (s : State) (c w l : Nat) (x : Thread) : (s.setThread c w l x).l2 = s.l2 := rfl
@[simp] theorem State.setThread_tlb (s : State) (c w l : Nat) (x : Thread) : (s.setThread c w l x).tlb = s.tlb := rfl
@[simp] theorem State.setThread_atsHost (s : State) (c w l : Nat) (x : Thread) : (s.setThread c w l x).atsHost = s.atsHost := rfl
@[simp] theorem State.setThread_decided (s : State) (c w l : Nat) (x : Thread) : (s.setThread c w l x).decided = s.decided := rfl
@[simp] theorem State.setThread_reqs (s : State) (c w l : Nat) (x : Thread) : (s.setThread c w l x).reqs = s.reqs := rfl
@[simp] theorem State.setThread_copies (s : State) (c w l : Nat) (x : Thread) : (s.setThread c w l x).copies = s.copies := rfl
@[simp] theorem State.setThread_pageReqs (s : State) (c w l : Nat) (x : Thread) : (s.setThread c w l x).pageReqs = s.pageReqs := rfl
@[simp] theorem State.setThread_ctxs (s : State) (c w l : Nat) (x : Thread) : (s.setThread c w l x).ctxs = s.ctxs := rfl
@[simp] theorem State.setThread_parts (s : State) (c w l : Nat) (x : Thread) : (s.setThread c w l x).parts = s.parts := rfl
@[simp] theorem State.setThread_tinvs (s : State) (c w l : Nat) (x : Thread) : (s.setThread c w l x).tinvs = s.tinvs := rfl
@[simp] theorem State.setThread_queues (s : State) (c w l : Nat) (x : Thread) : (s.setThread c w l x).queues = s.queues := rfl
@[simp] theorem State.setThread_launches (s : State) (c w l : Nat) (x : Thread) : (s.setThread c w l x).launches = s.launches := rfl
@[simp] theorem State.setThread_images (s : State) (c w l : Nat) (x : Thread) : (s.setThread c w l x).images = s.images := rfl
@[simp] theorem State.setThread_ckpts (s : State) (c w l : Nat) (x : Thread) : (s.setThread c w l x).ckpts = s.ckpts := rfl
@[simp] theorem State.setThread_shadow (s : State) (c w l : Nat) (x : Thread) : (s.setThread c w l x).shadow = s.shadow := rfl
@[simp] theorem State.setThread_keys (s : State) (c w l : Nat) (x : Thread) : (s.setThread c w l x).keys = s.keys := rfl
@[simp] theorem State.setThread_device (s : State) (c w l : Nat) (x : Thread) : (s.setThread c w l x).device = s.device := rfl
@[simp] theorem State.setThread_peers (s : State) (c w l : Nat) (x : Thread) : (s.setThread c w l x).peers = s.peers := rfl
@[simp] theorem State.setThread_peerEpoch (s : State) (c w l : Nat) (x : Thread) : (s.setThread c w l x).peerEpoch = s.peerEpoch := rfl
@[simp] theorem State.setThread_fw (s : State) (c w l : Nat) (x : Thread) : (s.setThread c w l x).fw = s.fw := rfl
@[simp] theorem State.setThread_irqs (s : State) (c w l : Nat) (x : Thread) : (s.setThread c w l x).irqs = s.irqs := rfl
@[simp] theorem State.setThread_reports (s : State) (c w l : Nat) (x : Thread) : (s.setThread c w l x).reports = s.reports := rfl
@[simp] theorem State.setThread_trace (s : State) (c w l : Nat) (x : Thread) : (s.setThread c w l x).trace = s.trace := rfl
@[simp] theorem State.setThread_hostReplies (s : State) (c w l : Nat) (x : Thread) : (s.setThread c w l x).hostReplies = s.hostReplies := rfl
@[simp] theorem State.setThread_regs (s : State) (c w l : Nat) (x : Thread) : (s.setThread c w l x).regs = s.regs := rfl
@[simp] theorem State.setThread_sregs (s : State) (c w l : Nat) (x : Thread) : (s.setThread c w l x).sregs = s.sregs := rfl
@[simp] theorem State.setThread_owners (s : State) (c w l : Nat) (x : Thread) : (s.setThread c w l x).owners = s.owners := rfl
@[simp] theorem State.setThread_scratch (s : State) (c w l : Nat) (x : Thread) : (s.setThread c w l x).scratch = s.scratch := rfl
@[simp] theorem State.setThread_scrPsn (s : State) (c w l : Nat) (x : Thread) : (s.setThread c w l x).scrPsn = s.scrPsn := rfl
@[simp] theorem State.setThread_opmem (s : State) (c w l : Nat) (x : Thread) : (s.setThread c w l x).opmem = s.opmem := rfl
@[simp] theorem State.setThread_opPsn (s : State) (c w l : Nat) (x : Thread) : (s.setThread c w l x).opPsn = s.opPsn := rfl
@[simp] theorem State.setThread_priv (s : State) (c w l : Nat) (x : Thread) : (s.setThread c w l x).priv = s.priv := rfl
@[simp] theorem State.setThread_privPsn (s : State) (c w l : Nat) (x : Thread) : (s.setThread c w l x).privPsn = s.privPsn := rfl
@[simp] theorem State.setThread_hpriv (s : State) (c w l : Nat) (x : Thread) : (s.setThread c w l x).hpriv = s.hpriv := rfl
@[simp] theorem State.setThread_hprivPsn (s : State) (c w l : Nat) (x : Thread) : (s.setThread c w l x).hprivPsn = s.hprivPsn := rfl
@[simp] theorem State.setThread_sems (s : State) (c w l : Nat) (x : Thread) : (s.setThread c w l x).sems = s.sems := rfl
@[simp] theorem State.setThread_wstore (s : State) (c w l : Nat) (x : Thread) : (s.setThread c w l x).wstore = s.wstore := rfl
@[simp] theorem State.setThread_wsPsn (s : State) (c w l : Nat) (x : Thread) : (s.setThread c w l x).wsPsn = s.wsPsn := rfl
@[simp] theorem State.setThread_warps (s : State) (c w l : Nat) (x : Thread) : (s.setThread c w l x).warps = s.warps := rfl
@[simp] theorem State.setThread_cores (s : State) (c w l : Nat) (x : Thread) : (s.setThread c w l x).cores = s.cores := rfl
@[simp] theorem State.setThread_script (s : State) (c w l : Nat) (x : Thread) : (s.setThread c w l x).script = s.script := rfl
@[simp] theorem State.setThread_turn (s : State) (c w l : Nat) (x : Thread) : (s.setThread c w l x).turn = s.turn := rfl
@[simp] theorem State.setThread_cur (s : State) (c w l : Nat) (x : Thread) : (s.setThread c w l x).cur = s.cur := rfl
@[simp] theorem State.setThread_bun (s : State) (c w l : Nat) (x : Thread) : (s.setThread c w l x).bun = s.bun := rfl
@[simp] theorem State.setThread_nextId (s : State) (c w l : Nat) (x : Thread) : (s.setThread c w l x).nextId = s.nextId := rfl
@[simp] theorem State.setThread_freeCtr (s : State) (c w l : Nat) (x : Thread) : (s.setThread c w l x).freeCtr = s.freeCtr := rfl

-- setTileWord ----------------------------------------------------------------------------------------------------------

@[simp] theorem State.setTileWord_time (s : State) (c t k : Nat) (x : TWord) : (s.setTileWord c t k x).time = s.time := rfl
@[simp] theorem State.setTileWord_clock (s : State) (c t k : Nat) (x : TWord) : (s.setTileWord c t k x).clock = s.clock := rfl
@[simp] theorem State.setTileWord_phase (s : State) (c t k : Nat) (x : TWord) : (s.setTileWord c t k x).phase = s.phase := rfl
@[simp] theorem State.setTileWord_hbm (s : State) (c t k : Nat) (x : TWord) : (s.setTileWord c t k x).hbm = s.hbm := rfl
@[simp] theorem State.setTileWord_hbmPsn (s : State) (c t k : Nat) (x : TWord) : (s.setTileWord c t k x).hbmPsn = s.hbmPsn := rfl
@[simp] theorem State.setTileWord_unitKey (s : State) (c t k : Nat) (x : TWord) : (s.setTileWord c t k x).unitKey = s.unitKey := rfl
@[simp] theorem State.setTileWord_hostMem (s : State) (c t k : Nat) (x : TWord) : (s.setTileWord c t k x).hostMem = s.hostMem := rfl
@[simp] theorem State.setTileWord_peerMem (s : State) (c t k : Nat) (x : TWord) : (s.setTileWord c t k x).peerMem = s.peerMem := rfl
@[simp] theorem State.setTileWord_mailbox (s : State) (c t k : Nat) (x : TWord) : (s.setTileWord c t k x).mailbox = s.mailbox := rfl
@[simp] theorem State.setTileWord_leases (s : State) (c t k : Nat) (x : TWord) : (s.setTileWord c t k x).leases = s.leases := rfl
@[simp] theorem State.setTileWord_genTime (s : State) (c t k : Nat) (x : TWord) : (s.setTileWord c t k x).genTime = s.genTime := rfl
@[simp] theorem State.setTileWord_l2 (s : State) (c t k : Nat) (x : TWord) : (s.setTileWord c t k x).l2 = s.l2 := rfl
@[simp] theorem State.setTileWord_tlb (s : State) (c t k : Nat) (x : TWord) : (s.setTileWord c t k x).tlb = s.tlb := rfl
@[simp] theorem State.setTileWord_atsHost (s : State) (c t k : Nat) (x : TWord) : (s.setTileWord c t k x).atsHost = s.atsHost := rfl
@[simp] theorem State.setTileWord_decided (s : State) (c t k : Nat) (x : TWord) : (s.setTileWord c t k x).decided = s.decided := rfl
@[simp] theorem State.setTileWord_reqs (s : State) (c t k : Nat) (x : TWord) : (s.setTileWord c t k x).reqs = s.reqs := rfl
@[simp] theorem State.setTileWord_copies (s : State) (c t k : Nat) (x : TWord) : (s.setTileWord c t k x).copies = s.copies := rfl
@[simp] theorem State.setTileWord_pageReqs (s : State) (c t k : Nat) (x : TWord) : (s.setTileWord c t k x).pageReqs = s.pageReqs := rfl
@[simp] theorem State.setTileWord_ctxs (s : State) (c t k : Nat) (x : TWord) : (s.setTileWord c t k x).ctxs = s.ctxs := rfl
@[simp] theorem State.setTileWord_parts (s : State) (c t k : Nat) (x : TWord) : (s.setTileWord c t k x).parts = s.parts := rfl
@[simp] theorem State.setTileWord_tinvs (s : State) (c t k : Nat) (x : TWord) : (s.setTileWord c t k x).tinvs = s.tinvs := rfl
@[simp] theorem State.setTileWord_queues (s : State) (c t k : Nat) (x : TWord) : (s.setTileWord c t k x).queues = s.queues := rfl
@[simp] theorem State.setTileWord_launches (s : State) (c t k : Nat) (x : TWord) : (s.setTileWord c t k x).launches = s.launches := rfl
@[simp] theorem State.setTileWord_images (s : State) (c t k : Nat) (x : TWord) : (s.setTileWord c t k x).images = s.images := rfl
@[simp] theorem State.setTileWord_ckpts (s : State) (c t k : Nat) (x : TWord) : (s.setTileWord c t k x).ckpts = s.ckpts := rfl
@[simp] theorem State.setTileWord_shadow (s : State) (c t k : Nat) (x : TWord) : (s.setTileWord c t k x).shadow = s.shadow := rfl
@[simp] theorem State.setTileWord_keys (s : State) (c t k : Nat) (x : TWord) : (s.setTileWord c t k x).keys = s.keys := rfl
@[simp] theorem State.setTileWord_device (s : State) (c t k : Nat) (x : TWord) : (s.setTileWord c t k x).device = s.device := rfl
@[simp] theorem State.setTileWord_peers (s : State) (c t k : Nat) (x : TWord) : (s.setTileWord c t k x).peers = s.peers := rfl
@[simp] theorem State.setTileWord_peerEpoch (s : State) (c t k : Nat) (x : TWord) : (s.setTileWord c t k x).peerEpoch = s.peerEpoch := rfl
@[simp] theorem State.setTileWord_fw (s : State) (c t k : Nat) (x : TWord) : (s.setTileWord c t k x).fw = s.fw := rfl
@[simp] theorem State.setTileWord_irqs (s : State) (c t k : Nat) (x : TWord) : (s.setTileWord c t k x).irqs = s.irqs := rfl
@[simp] theorem State.setTileWord_reports (s : State) (c t k : Nat) (x : TWord) : (s.setTileWord c t k x).reports = s.reports := rfl
@[simp] theorem State.setTileWord_trace (s : State) (c t k : Nat) (x : TWord) : (s.setTileWord c t k x).trace = s.trace := rfl
@[simp] theorem State.setTileWord_hostReplies (s : State) (c t k : Nat) (x : TWord) : (s.setTileWord c t k x).hostReplies = s.hostReplies := rfl
@[simp] theorem State.setTileWord_sregs (s : State) (c t k : Nat) (x : TWord) : (s.setTileWord c t k x).sregs = s.sregs := rfl
@[simp] theorem State.setTileWord_owners (s : State) (c t k : Nat) (x : TWord) : (s.setTileWord c t k x).owners = s.owners := rfl
@[simp] theorem State.setTileWord_scratch (s : State) (c t k : Nat) (x : TWord) : (s.setTileWord c t k x).scratch = s.scratch := rfl
@[simp] theorem State.setTileWord_scrPsn (s : State) (c t k : Nat) (x : TWord) : (s.setTileWord c t k x).scrPsn = s.scrPsn := rfl
@[simp] theorem State.setTileWord_opmem (s : State) (c t k : Nat) (x : TWord) : (s.setTileWord c t k x).opmem = s.opmem := rfl
@[simp] theorem State.setTileWord_opPsn (s : State) (c t k : Nat) (x : TWord) : (s.setTileWord c t k x).opPsn = s.opPsn := rfl
@[simp] theorem State.setTileWord_priv (s : State) (c t k : Nat) (x : TWord) : (s.setTileWord c t k x).priv = s.priv := rfl
@[simp] theorem State.setTileWord_privPsn (s : State) (c t k : Nat) (x : TWord) : (s.setTileWord c t k x).privPsn = s.privPsn := rfl
@[simp] theorem State.setTileWord_hpriv (s : State) (c t k : Nat) (x : TWord) : (s.setTileWord c t k x).hpriv = s.hpriv := rfl
@[simp] theorem State.setTileWord_hprivPsn (s : State) (c t k : Nat) (x : TWord) : (s.setTileWord c t k x).hprivPsn = s.hprivPsn := rfl
@[simp] theorem State.setTileWord_sems (s : State) (c t k : Nat) (x : TWord) : (s.setTileWord c t k x).sems = s.sems := rfl
@[simp] theorem State.setTileWord_wstore (s : State) (c t k : Nat) (x : TWord) : (s.setTileWord c t k x).wstore = s.wstore := rfl
@[simp] theorem State.setTileWord_wsPsn (s : State) (c t k : Nat) (x : TWord) : (s.setTileWord c t k x).wsPsn = s.wsPsn := rfl
@[simp] theorem State.setTileWord_threads (s : State) (c t k : Nat) (x : TWord) : (s.setTileWord c t k x).threads = s.threads := rfl
@[simp] theorem State.setTileWord_warps (s : State) (c t k : Nat) (x : TWord) : (s.setTileWord c t k x).warps = s.warps := rfl
@[simp] theorem State.setTileWord_cores (s : State) (c t k : Nat) (x : TWord) : (s.setTileWord c t k x).cores = s.cores := rfl
@[simp] theorem State.setTileWord_script (s : State) (c t k : Nat) (x : TWord) : (s.setTileWord c t k x).script = s.script := rfl
@[simp] theorem State.setTileWord_turn (s : State) (c t k : Nat) (x : TWord) : (s.setTileWord c t k x).turn = s.turn := rfl
@[simp] theorem State.setTileWord_cur (s : State) (c t k : Nat) (x : TWord) : (s.setTileWord c t k x).cur = s.cur := rfl
@[simp] theorem State.setTileWord_bun (s : State) (c t k : Nat) (x : TWord) : (s.setTileWord c t k x).bun = s.bun := rfl
@[simp] theorem State.setTileWord_nextId (s : State) (c t k : Nat) (x : TWord) : (s.setTileWord c t k x).nextId = s.nextId := rfl
@[simp] theorem State.setTileWord_freeCtr (s : State) (c t k : Nat) (x : TWord) : (s.setTileWord c t k x).freeCtr = s.freeCtr := rfl

-- setVreg --------------------------------------------------------------------------------------------------------------

@[simp] theorem State.setVreg_time (s : State) (c w l n : Nat) (x : TWord) : (s.setVreg c w l n x).time = s.time := rfl
@[simp] theorem State.setVreg_clock (s : State) (c w l n : Nat) (x : TWord) : (s.setVreg c w l n x).clock = s.clock := rfl
@[simp] theorem State.setVreg_phase (s : State) (c w l n : Nat) (x : TWord) : (s.setVreg c w l n x).phase = s.phase := rfl
@[simp] theorem State.setVreg_hbm (s : State) (c w l n : Nat) (x : TWord) : (s.setVreg c w l n x).hbm = s.hbm := rfl
@[simp] theorem State.setVreg_hbmPsn (s : State) (c w l n : Nat) (x : TWord) : (s.setVreg c w l n x).hbmPsn = s.hbmPsn := rfl
@[simp] theorem State.setVreg_unitKey (s : State) (c w l n : Nat) (x : TWord) : (s.setVreg c w l n x).unitKey = s.unitKey := rfl
@[simp] theorem State.setVreg_hostMem (s : State) (c w l n : Nat) (x : TWord) : (s.setVreg c w l n x).hostMem = s.hostMem := rfl
@[simp] theorem State.setVreg_peerMem (s : State) (c w l n : Nat) (x : TWord) : (s.setVreg c w l n x).peerMem = s.peerMem := rfl
@[simp] theorem State.setVreg_mailbox (s : State) (c w l n : Nat) (x : TWord) : (s.setVreg c w l n x).mailbox = s.mailbox := rfl
@[simp] theorem State.setVreg_leases (s : State) (c w l n : Nat) (x : TWord) : (s.setVreg c w l n x).leases = s.leases := rfl
@[simp] theorem State.setVreg_genTime (s : State) (c w l n : Nat) (x : TWord) : (s.setVreg c w l n x).genTime = s.genTime := rfl
@[simp] theorem State.setVreg_l2 (s : State) (c w l n : Nat) (x : TWord) : (s.setVreg c w l n x).l2 = s.l2 := rfl
@[simp] theorem State.setVreg_tlb (s : State) (c w l n : Nat) (x : TWord) : (s.setVreg c w l n x).tlb = s.tlb := rfl
@[simp] theorem State.setVreg_atsHost (s : State) (c w l n : Nat) (x : TWord) : (s.setVreg c w l n x).atsHost = s.atsHost := rfl
@[simp] theorem State.setVreg_decided (s : State) (c w l n : Nat) (x : TWord) : (s.setVreg c w l n x).decided = s.decided := rfl
@[simp] theorem State.setVreg_reqs (s : State) (c w l n : Nat) (x : TWord) : (s.setVreg c w l n x).reqs = s.reqs := rfl
@[simp] theorem State.setVreg_copies (s : State) (c w l n : Nat) (x : TWord) : (s.setVreg c w l n x).copies = s.copies := rfl
@[simp] theorem State.setVreg_pageReqs (s : State) (c w l n : Nat) (x : TWord) : (s.setVreg c w l n x).pageReqs = s.pageReqs := rfl
@[simp] theorem State.setVreg_ctxs (s : State) (c w l n : Nat) (x : TWord) : (s.setVreg c w l n x).ctxs = s.ctxs := rfl
@[simp] theorem State.setVreg_parts (s : State) (c w l n : Nat) (x : TWord) : (s.setVreg c w l n x).parts = s.parts := rfl
@[simp] theorem State.setVreg_tinvs (s : State) (c w l n : Nat) (x : TWord) : (s.setVreg c w l n x).tinvs = s.tinvs := rfl
@[simp] theorem State.setVreg_queues (s : State) (c w l n : Nat) (x : TWord) : (s.setVreg c w l n x).queues = s.queues := rfl
@[simp] theorem State.setVreg_launches (s : State) (c w l n : Nat) (x : TWord) : (s.setVreg c w l n x).launches = s.launches := rfl
@[simp] theorem State.setVreg_images (s : State) (c w l n : Nat) (x : TWord) : (s.setVreg c w l n x).images = s.images := rfl
@[simp] theorem State.setVreg_ckpts (s : State) (c w l n : Nat) (x : TWord) : (s.setVreg c w l n x).ckpts = s.ckpts := rfl
@[simp] theorem State.setVreg_shadow (s : State) (c w l n : Nat) (x : TWord) : (s.setVreg c w l n x).shadow = s.shadow := rfl
@[simp] theorem State.setVreg_keys (s : State) (c w l n : Nat) (x : TWord) : (s.setVreg c w l n x).keys = s.keys := rfl
@[simp] theorem State.setVreg_device (s : State) (c w l n : Nat) (x : TWord) : (s.setVreg c w l n x).device = s.device := rfl
@[simp] theorem State.setVreg_peers (s : State) (c w l n : Nat) (x : TWord) : (s.setVreg c w l n x).peers = s.peers := rfl
@[simp] theorem State.setVreg_peerEpoch (s : State) (c w l n : Nat) (x : TWord) : (s.setVreg c w l n x).peerEpoch = s.peerEpoch := rfl
@[simp] theorem State.setVreg_fw (s : State) (c w l n : Nat) (x : TWord) : (s.setVreg c w l n x).fw = s.fw := rfl
@[simp] theorem State.setVreg_irqs (s : State) (c w l n : Nat) (x : TWord) : (s.setVreg c w l n x).irqs = s.irqs := rfl
@[simp] theorem State.setVreg_reports (s : State) (c w l n : Nat) (x : TWord) : (s.setVreg c w l n x).reports = s.reports := rfl
@[simp] theorem State.setVreg_trace (s : State) (c w l n : Nat) (x : TWord) : (s.setVreg c w l n x).trace = s.trace := rfl
@[simp] theorem State.setVreg_hostReplies (s : State) (c w l n : Nat) (x : TWord) : (s.setVreg c w l n x).hostReplies = s.hostReplies := rfl
@[simp] theorem State.setVreg_sregs (s : State) (c w l n : Nat) (x : TWord) : (s.setVreg c w l n x).sregs = s.sregs := rfl
@[simp] theorem State.setVreg_owners (s : State) (c w l n : Nat) (x : TWord) : (s.setVreg c w l n x).owners = s.owners := rfl
@[simp] theorem State.setVreg_scratch (s : State) (c w l n : Nat) (x : TWord) : (s.setVreg c w l n x).scratch = s.scratch := rfl
@[simp] theorem State.setVreg_scrPsn (s : State) (c w l n : Nat) (x : TWord) : (s.setVreg c w l n x).scrPsn = s.scrPsn := rfl
@[simp] theorem State.setVreg_opmem (s : State) (c w l n : Nat) (x : TWord) : (s.setVreg c w l n x).opmem = s.opmem := rfl
@[simp] theorem State.setVreg_opPsn (s : State) (c w l n : Nat) (x : TWord) : (s.setVreg c w l n x).opPsn = s.opPsn := rfl
@[simp] theorem State.setVreg_priv (s : State) (c w l n : Nat) (x : TWord) : (s.setVreg c w l n x).priv = s.priv := rfl
@[simp] theorem State.setVreg_privPsn (s : State) (c w l n : Nat) (x : TWord) : (s.setVreg c w l n x).privPsn = s.privPsn := rfl
@[simp] theorem State.setVreg_hpriv (s : State) (c w l n : Nat) (x : TWord) : (s.setVreg c w l n x).hpriv = s.hpriv := rfl
@[simp] theorem State.setVreg_hprivPsn (s : State) (c w l n : Nat) (x : TWord) : (s.setVreg c w l n x).hprivPsn = s.hprivPsn := rfl
@[simp] theorem State.setVreg_sems (s : State) (c w l n : Nat) (x : TWord) : (s.setVreg c w l n x).sems = s.sems := rfl
@[simp] theorem State.setVreg_wstore (s : State) (c w l n : Nat) (x : TWord) : (s.setVreg c w l n x).wstore = s.wstore := rfl
@[simp] theorem State.setVreg_wsPsn (s : State) (c w l n : Nat) (x : TWord) : (s.setVreg c w l n x).wsPsn = s.wsPsn := rfl
@[simp] theorem State.setVreg_threads (s : State) (c w l n : Nat) (x : TWord) : (s.setVreg c w l n x).threads = s.threads := rfl
@[simp] theorem State.setVreg_warps (s : State) (c w l n : Nat) (x : TWord) : (s.setVreg c w l n x).warps = s.warps := rfl
@[simp] theorem State.setVreg_cores (s : State) (c w l n : Nat) (x : TWord) : (s.setVreg c w l n x).cores = s.cores := rfl
@[simp] theorem State.setVreg_script (s : State) (c w l n : Nat) (x : TWord) : (s.setVreg c w l n x).script = s.script := rfl
@[simp] theorem State.setVreg_turn (s : State) (c w l n : Nat) (x : TWord) : (s.setVreg c w l n x).turn = s.turn := rfl
@[simp] theorem State.setVreg_cur (s : State) (c w l n : Nat) (x : TWord) : (s.setVreg c w l n x).cur = s.cur := rfl
@[simp] theorem State.setVreg_bun (s : State) (c w l n : Nat) (x : TWord) : (s.setVreg c w l n x).bun = s.bun := rfl
@[simp] theorem State.setVreg_nextId (s : State) (c w l n : Nat) (x : TWord) : (s.setVreg c w l n x).nextId = s.nextId := rfl
@[simp] theorem State.setVreg_freeCtr (s : State) (c w l n : Nat) (x : TWord) : (s.setVreg c w l n x).freeCtr = s.freeCtr := rfl

-- setSreg --------------------------------------------------------------------------------------------------------------

@[simp] theorem State.setSreg_time (s : State) (c w n : Nat) (x : TWord) : (s.setSreg c w n x).time = s.time := rfl
@[simp] theorem State.setSreg_clock (s : State) (c w n : Nat) (x : TWord) : (s.setSreg c w n x).clock = s.clock := rfl
@[simp] theorem State.setSreg_phase (s : State) (c w n : Nat) (x : TWord) : (s.setSreg c w n x).phase = s.phase := rfl
@[simp] theorem State.setSreg_hbm (s : State) (c w n : Nat) (x : TWord) : (s.setSreg c w n x).hbm = s.hbm := rfl
@[simp] theorem State.setSreg_hbmPsn (s : State) (c w n : Nat) (x : TWord) : (s.setSreg c w n x).hbmPsn = s.hbmPsn := rfl
@[simp] theorem State.setSreg_unitKey (s : State) (c w n : Nat) (x : TWord) : (s.setSreg c w n x).unitKey = s.unitKey := rfl
@[simp] theorem State.setSreg_hostMem (s : State) (c w n : Nat) (x : TWord) : (s.setSreg c w n x).hostMem = s.hostMem := rfl
@[simp] theorem State.setSreg_peerMem (s : State) (c w n : Nat) (x : TWord) : (s.setSreg c w n x).peerMem = s.peerMem := rfl
@[simp] theorem State.setSreg_mailbox (s : State) (c w n : Nat) (x : TWord) : (s.setSreg c w n x).mailbox = s.mailbox := rfl
@[simp] theorem State.setSreg_leases (s : State) (c w n : Nat) (x : TWord) : (s.setSreg c w n x).leases = s.leases := rfl
@[simp] theorem State.setSreg_genTime (s : State) (c w n : Nat) (x : TWord) : (s.setSreg c w n x).genTime = s.genTime := rfl
@[simp] theorem State.setSreg_l2 (s : State) (c w n : Nat) (x : TWord) : (s.setSreg c w n x).l2 = s.l2 := rfl
@[simp] theorem State.setSreg_tlb (s : State) (c w n : Nat) (x : TWord) : (s.setSreg c w n x).tlb = s.tlb := rfl
@[simp] theorem State.setSreg_atsHost (s : State) (c w n : Nat) (x : TWord) : (s.setSreg c w n x).atsHost = s.atsHost := rfl
@[simp] theorem State.setSreg_decided (s : State) (c w n : Nat) (x : TWord) : (s.setSreg c w n x).decided = s.decided := rfl
@[simp] theorem State.setSreg_reqs (s : State) (c w n : Nat) (x : TWord) : (s.setSreg c w n x).reqs = s.reqs := rfl
@[simp] theorem State.setSreg_copies (s : State) (c w n : Nat) (x : TWord) : (s.setSreg c w n x).copies = s.copies := rfl
@[simp] theorem State.setSreg_pageReqs (s : State) (c w n : Nat) (x : TWord) : (s.setSreg c w n x).pageReqs = s.pageReqs := rfl
@[simp] theorem State.setSreg_ctxs (s : State) (c w n : Nat) (x : TWord) : (s.setSreg c w n x).ctxs = s.ctxs := rfl
@[simp] theorem State.setSreg_parts (s : State) (c w n : Nat) (x : TWord) : (s.setSreg c w n x).parts = s.parts := rfl
@[simp] theorem State.setSreg_tinvs (s : State) (c w n : Nat) (x : TWord) : (s.setSreg c w n x).tinvs = s.tinvs := rfl
@[simp] theorem State.setSreg_queues (s : State) (c w n : Nat) (x : TWord) : (s.setSreg c w n x).queues = s.queues := rfl
@[simp] theorem State.setSreg_launches (s : State) (c w n : Nat) (x : TWord) : (s.setSreg c w n x).launches = s.launches := rfl
@[simp] theorem State.setSreg_images (s : State) (c w n : Nat) (x : TWord) : (s.setSreg c w n x).images = s.images := rfl
@[simp] theorem State.setSreg_ckpts (s : State) (c w n : Nat) (x : TWord) : (s.setSreg c w n x).ckpts = s.ckpts := rfl
@[simp] theorem State.setSreg_shadow (s : State) (c w n : Nat) (x : TWord) : (s.setSreg c w n x).shadow = s.shadow := rfl
@[simp] theorem State.setSreg_keys (s : State) (c w n : Nat) (x : TWord) : (s.setSreg c w n x).keys = s.keys := rfl
@[simp] theorem State.setSreg_device (s : State) (c w n : Nat) (x : TWord) : (s.setSreg c w n x).device = s.device := rfl
@[simp] theorem State.setSreg_peers (s : State) (c w n : Nat) (x : TWord) : (s.setSreg c w n x).peers = s.peers := rfl
@[simp] theorem State.setSreg_peerEpoch (s : State) (c w n : Nat) (x : TWord) : (s.setSreg c w n x).peerEpoch = s.peerEpoch := rfl
@[simp] theorem State.setSreg_fw (s : State) (c w n : Nat) (x : TWord) : (s.setSreg c w n x).fw = s.fw := rfl
@[simp] theorem State.setSreg_irqs (s : State) (c w n : Nat) (x : TWord) : (s.setSreg c w n x).irqs = s.irqs := rfl
@[simp] theorem State.setSreg_reports (s : State) (c w n : Nat) (x : TWord) : (s.setSreg c w n x).reports = s.reports := rfl
@[simp] theorem State.setSreg_trace (s : State) (c w n : Nat) (x : TWord) : (s.setSreg c w n x).trace = s.trace := rfl
@[simp] theorem State.setSreg_hostReplies (s : State) (c w n : Nat) (x : TWord) : (s.setSreg c w n x).hostReplies = s.hostReplies := rfl
@[simp] theorem State.setSreg_regs (s : State) (c w n : Nat) (x : TWord) : (s.setSreg c w n x).regs = s.regs := rfl
@[simp] theorem State.setSreg_owners (s : State) (c w n : Nat) (x : TWord) : (s.setSreg c w n x).owners = s.owners := rfl
@[simp] theorem State.setSreg_scratch (s : State) (c w n : Nat) (x : TWord) : (s.setSreg c w n x).scratch = s.scratch := rfl
@[simp] theorem State.setSreg_scrPsn (s : State) (c w n : Nat) (x : TWord) : (s.setSreg c w n x).scrPsn = s.scrPsn := rfl
@[simp] theorem State.setSreg_opmem (s : State) (c w n : Nat) (x : TWord) : (s.setSreg c w n x).opmem = s.opmem := rfl
@[simp] theorem State.setSreg_opPsn (s : State) (c w n : Nat) (x : TWord) : (s.setSreg c w n x).opPsn = s.opPsn := rfl
@[simp] theorem State.setSreg_priv (s : State) (c w n : Nat) (x : TWord) : (s.setSreg c w n x).priv = s.priv := rfl
@[simp] theorem State.setSreg_privPsn (s : State) (c w n : Nat) (x : TWord) : (s.setSreg c w n x).privPsn = s.privPsn := rfl
@[simp] theorem State.setSreg_hpriv (s : State) (c w n : Nat) (x : TWord) : (s.setSreg c w n x).hpriv = s.hpriv := rfl
@[simp] theorem State.setSreg_hprivPsn (s : State) (c w n : Nat) (x : TWord) : (s.setSreg c w n x).hprivPsn = s.hprivPsn := rfl
@[simp] theorem State.setSreg_sems (s : State) (c w n : Nat) (x : TWord) : (s.setSreg c w n x).sems = s.sems := rfl
@[simp] theorem State.setSreg_wstore (s : State) (c w n : Nat) (x : TWord) : (s.setSreg c w n x).wstore = s.wstore := rfl
@[simp] theorem State.setSreg_wsPsn (s : State) (c w n : Nat) (x : TWord) : (s.setSreg c w n x).wsPsn = s.wsPsn := rfl
@[simp] theorem State.setSreg_threads (s : State) (c w n : Nat) (x : TWord) : (s.setSreg c w n x).threads = s.threads := rfl
@[simp] theorem State.setSreg_warps (s : State) (c w n : Nat) (x : TWord) : (s.setSreg c w n x).warps = s.warps := rfl
@[simp] theorem State.setSreg_cores (s : State) (c w n : Nat) (x : TWord) : (s.setSreg c w n x).cores = s.cores := rfl
@[simp] theorem State.setSreg_script (s : State) (c w n : Nat) (x : TWord) : (s.setSreg c w n x).script = s.script := rfl
@[simp] theorem State.setSreg_turn (s : State) (c w n : Nat) (x : TWord) : (s.setSreg c w n x).turn = s.turn := rfl
@[simp] theorem State.setSreg_cur (s : State) (c w n : Nat) (x : TWord) : (s.setSreg c w n x).cur = s.cur := rfl
@[simp] theorem State.setSreg_bun (s : State) (c w n : Nat) (x : TWord) : (s.setSreg c w n x).bun = s.bun := rfl
@[simp] theorem State.setSreg_nextId (s : State) (c w n : Nat) (x : TWord) : (s.setSreg c w n x).nextId = s.nextId := rfl
@[simp] theorem State.setSreg_freeCtr (s : State) (c w n : Nat) (x : TWord) : (s.setSreg c w n x).freeCtr = s.freeCtr := rfl

-- setOwner -------------------------------------------------------------------------------------------------------------

@[simp] theorem State.setOwner_time (s : State) (c t : Nat) (x : Byte) : (s.setOwner c t x).time = s.time := rfl
@[simp] theorem State.setOwner_clock (s : State) (c t : Nat) (x : Byte) : (s.setOwner c t x).clock = s.clock := rfl
@[simp] theorem State.setOwner_phase (s : State) (c t : Nat) (x : Byte) : (s.setOwner c t x).phase = s.phase := rfl
@[simp] theorem State.setOwner_hbm (s : State) (c t : Nat) (x : Byte) : (s.setOwner c t x).hbm = s.hbm := rfl
@[simp] theorem State.setOwner_hbmPsn (s : State) (c t : Nat) (x : Byte) : (s.setOwner c t x).hbmPsn = s.hbmPsn := rfl
@[simp] theorem State.setOwner_unitKey (s : State) (c t : Nat) (x : Byte) : (s.setOwner c t x).unitKey = s.unitKey := rfl
@[simp] theorem State.setOwner_hostMem (s : State) (c t : Nat) (x : Byte) : (s.setOwner c t x).hostMem = s.hostMem := rfl
@[simp] theorem State.setOwner_peerMem (s : State) (c t : Nat) (x : Byte) : (s.setOwner c t x).peerMem = s.peerMem := rfl
@[simp] theorem State.setOwner_mailbox (s : State) (c t : Nat) (x : Byte) : (s.setOwner c t x).mailbox = s.mailbox := rfl
@[simp] theorem State.setOwner_leases (s : State) (c t : Nat) (x : Byte) : (s.setOwner c t x).leases = s.leases := rfl
@[simp] theorem State.setOwner_genTime (s : State) (c t : Nat) (x : Byte) : (s.setOwner c t x).genTime = s.genTime := rfl
@[simp] theorem State.setOwner_l2 (s : State) (c t : Nat) (x : Byte) : (s.setOwner c t x).l2 = s.l2 := rfl
@[simp] theorem State.setOwner_tlb (s : State) (c t : Nat) (x : Byte) : (s.setOwner c t x).tlb = s.tlb := rfl
@[simp] theorem State.setOwner_atsHost (s : State) (c t : Nat) (x : Byte) : (s.setOwner c t x).atsHost = s.atsHost := rfl
@[simp] theorem State.setOwner_decided (s : State) (c t : Nat) (x : Byte) : (s.setOwner c t x).decided = s.decided := rfl
@[simp] theorem State.setOwner_reqs (s : State) (c t : Nat) (x : Byte) : (s.setOwner c t x).reqs = s.reqs := rfl
@[simp] theorem State.setOwner_copies (s : State) (c t : Nat) (x : Byte) : (s.setOwner c t x).copies = s.copies := rfl
@[simp] theorem State.setOwner_pageReqs (s : State) (c t : Nat) (x : Byte) : (s.setOwner c t x).pageReqs = s.pageReqs := rfl
@[simp] theorem State.setOwner_ctxs (s : State) (c t : Nat) (x : Byte) : (s.setOwner c t x).ctxs = s.ctxs := rfl
@[simp] theorem State.setOwner_parts (s : State) (c t : Nat) (x : Byte) : (s.setOwner c t x).parts = s.parts := rfl
@[simp] theorem State.setOwner_tinvs (s : State) (c t : Nat) (x : Byte) : (s.setOwner c t x).tinvs = s.tinvs := rfl
@[simp] theorem State.setOwner_queues (s : State) (c t : Nat) (x : Byte) : (s.setOwner c t x).queues = s.queues := rfl
@[simp] theorem State.setOwner_launches (s : State) (c t : Nat) (x : Byte) : (s.setOwner c t x).launches = s.launches := rfl
@[simp] theorem State.setOwner_images (s : State) (c t : Nat) (x : Byte) : (s.setOwner c t x).images = s.images := rfl
@[simp] theorem State.setOwner_ckpts (s : State) (c t : Nat) (x : Byte) : (s.setOwner c t x).ckpts = s.ckpts := rfl
@[simp] theorem State.setOwner_shadow (s : State) (c t : Nat) (x : Byte) : (s.setOwner c t x).shadow = s.shadow := rfl
@[simp] theorem State.setOwner_keys (s : State) (c t : Nat) (x : Byte) : (s.setOwner c t x).keys = s.keys := rfl
@[simp] theorem State.setOwner_device (s : State) (c t : Nat) (x : Byte) : (s.setOwner c t x).device = s.device := rfl
@[simp] theorem State.setOwner_peers (s : State) (c t : Nat) (x : Byte) : (s.setOwner c t x).peers = s.peers := rfl
@[simp] theorem State.setOwner_peerEpoch (s : State) (c t : Nat) (x : Byte) : (s.setOwner c t x).peerEpoch = s.peerEpoch := rfl
@[simp] theorem State.setOwner_fw (s : State) (c t : Nat) (x : Byte) : (s.setOwner c t x).fw = s.fw := rfl
@[simp] theorem State.setOwner_irqs (s : State) (c t : Nat) (x : Byte) : (s.setOwner c t x).irqs = s.irqs := rfl
@[simp] theorem State.setOwner_reports (s : State) (c t : Nat) (x : Byte) : (s.setOwner c t x).reports = s.reports := rfl
@[simp] theorem State.setOwner_trace (s : State) (c t : Nat) (x : Byte) : (s.setOwner c t x).trace = s.trace := rfl
@[simp] theorem State.setOwner_hostReplies (s : State) (c t : Nat) (x : Byte) : (s.setOwner c t x).hostReplies = s.hostReplies := rfl
@[simp] theorem State.setOwner_regs (s : State) (c t : Nat) (x : Byte) : (s.setOwner c t x).regs = s.regs := rfl
@[simp] theorem State.setOwner_sregs (s : State) (c t : Nat) (x : Byte) : (s.setOwner c t x).sregs = s.sregs := rfl
@[simp] theorem State.setOwner_scratch (s : State) (c t : Nat) (x : Byte) : (s.setOwner c t x).scratch = s.scratch := rfl
@[simp] theorem State.setOwner_scrPsn (s : State) (c t : Nat) (x : Byte) : (s.setOwner c t x).scrPsn = s.scrPsn := rfl
@[simp] theorem State.setOwner_opmem (s : State) (c t : Nat) (x : Byte) : (s.setOwner c t x).opmem = s.opmem := rfl
@[simp] theorem State.setOwner_opPsn (s : State) (c t : Nat) (x : Byte) : (s.setOwner c t x).opPsn = s.opPsn := rfl
@[simp] theorem State.setOwner_priv (s : State) (c t : Nat) (x : Byte) : (s.setOwner c t x).priv = s.priv := rfl
@[simp] theorem State.setOwner_privPsn (s : State) (c t : Nat) (x : Byte) : (s.setOwner c t x).privPsn = s.privPsn := rfl
@[simp] theorem State.setOwner_hpriv (s : State) (c t : Nat) (x : Byte) : (s.setOwner c t x).hpriv = s.hpriv := rfl
@[simp] theorem State.setOwner_hprivPsn (s : State) (c t : Nat) (x : Byte) : (s.setOwner c t x).hprivPsn = s.hprivPsn := rfl
@[simp] theorem State.setOwner_sems (s : State) (c t : Nat) (x : Byte) : (s.setOwner c t x).sems = s.sems := rfl
@[simp] theorem State.setOwner_wstore (s : State) (c t : Nat) (x : Byte) : (s.setOwner c t x).wstore = s.wstore := rfl
@[simp] theorem State.setOwner_wsPsn (s : State) (c t : Nat) (x : Byte) : (s.setOwner c t x).wsPsn = s.wsPsn := rfl
@[simp] theorem State.setOwner_threads (s : State) (c t : Nat) (x : Byte) : (s.setOwner c t x).threads = s.threads := rfl
@[simp] theorem State.setOwner_warps (s : State) (c t : Nat) (x : Byte) : (s.setOwner c t x).warps = s.warps := rfl
@[simp] theorem State.setOwner_cores (s : State) (c t : Nat) (x : Byte) : (s.setOwner c t x).cores = s.cores := rfl
@[simp] theorem State.setOwner_script (s : State) (c t : Nat) (x : Byte) : (s.setOwner c t x).script = s.script := rfl
@[simp] theorem State.setOwner_turn (s : State) (c t : Nat) (x : Byte) : (s.setOwner c t x).turn = s.turn := rfl
@[simp] theorem State.setOwner_cur (s : State) (c t : Nat) (x : Byte) : (s.setOwner c t x).cur = s.cur := rfl
@[simp] theorem State.setOwner_bun (s : State) (c t : Nat) (x : Byte) : (s.setOwner c t x).bun = s.bun := rfl
@[simp] theorem State.setOwner_nextId (s : State) (c t : Nat) (x : Byte) : (s.setOwner c t x).nextId = s.nextId := rfl
@[simp] theorem State.setOwner_freeCtr (s : State) (c t : Nat) (x : Byte) : (s.setOwner c t x).freeCtr = s.freeCtr := rfl

-- setCtx ---------------------------------------------------------------------------------------------------------------

@[simp] theorem State.setCtx_time (s : State) (n : Nat) (x : Ctx) : (s.setCtx n x).time = s.time := rfl
@[simp] theorem State.setCtx_clock (s : State) (n : Nat) (x : Ctx) : (s.setCtx n x).clock = s.clock := rfl
@[simp] theorem State.setCtx_phase (s : State) (n : Nat) (x : Ctx) : (s.setCtx n x).phase = s.phase := rfl
@[simp] theorem State.setCtx_hbm (s : State) (n : Nat) (x : Ctx) : (s.setCtx n x).hbm = s.hbm := rfl
@[simp] theorem State.setCtx_hbmPsn (s : State) (n : Nat) (x : Ctx) : (s.setCtx n x).hbmPsn = s.hbmPsn := rfl
@[simp] theorem State.setCtx_unitKey (s : State) (n : Nat) (x : Ctx) : (s.setCtx n x).unitKey = s.unitKey := rfl
@[simp] theorem State.setCtx_hostMem (s : State) (n : Nat) (x : Ctx) : (s.setCtx n x).hostMem = s.hostMem := rfl
@[simp] theorem State.setCtx_peerMem (s : State) (n : Nat) (x : Ctx) : (s.setCtx n x).peerMem = s.peerMem := rfl
@[simp] theorem State.setCtx_mailbox (s : State) (n : Nat) (x : Ctx) : (s.setCtx n x).mailbox = s.mailbox := rfl
@[simp] theorem State.setCtx_leases (s : State) (n : Nat) (x : Ctx) : (s.setCtx n x).leases = s.leases := rfl
@[simp] theorem State.setCtx_genTime (s : State) (n : Nat) (x : Ctx) : (s.setCtx n x).genTime = s.genTime := rfl
@[simp] theorem State.setCtx_l2 (s : State) (n : Nat) (x : Ctx) : (s.setCtx n x).l2 = s.l2 := rfl
@[simp] theorem State.setCtx_tlb (s : State) (n : Nat) (x : Ctx) : (s.setCtx n x).tlb = s.tlb := rfl
@[simp] theorem State.setCtx_atsHost (s : State) (n : Nat) (x : Ctx) : (s.setCtx n x).atsHost = s.atsHost := rfl
@[simp] theorem State.setCtx_decided (s : State) (n : Nat) (x : Ctx) : (s.setCtx n x).decided = s.decided := rfl
@[simp] theorem State.setCtx_reqs (s : State) (n : Nat) (x : Ctx) : (s.setCtx n x).reqs = s.reqs := rfl
@[simp] theorem State.setCtx_copies (s : State) (n : Nat) (x : Ctx) : (s.setCtx n x).copies = s.copies := rfl
@[simp] theorem State.setCtx_pageReqs (s : State) (n : Nat) (x : Ctx) : (s.setCtx n x).pageReqs = s.pageReqs := rfl
@[simp] theorem State.setCtx_parts (s : State) (n : Nat) (x : Ctx) : (s.setCtx n x).parts = s.parts := rfl
@[simp] theorem State.setCtx_tinvs (s : State) (n : Nat) (x : Ctx) : (s.setCtx n x).tinvs = s.tinvs := rfl
@[simp] theorem State.setCtx_queues (s : State) (n : Nat) (x : Ctx) : (s.setCtx n x).queues = s.queues := rfl
@[simp] theorem State.setCtx_launches (s : State) (n : Nat) (x : Ctx) : (s.setCtx n x).launches = s.launches := rfl
@[simp] theorem State.setCtx_images (s : State) (n : Nat) (x : Ctx) : (s.setCtx n x).images = s.images := rfl
@[simp] theorem State.setCtx_ckpts (s : State) (n : Nat) (x : Ctx) : (s.setCtx n x).ckpts = s.ckpts := rfl
@[simp] theorem State.setCtx_shadow (s : State) (n : Nat) (x : Ctx) : (s.setCtx n x).shadow = s.shadow := rfl
@[simp] theorem State.setCtx_keys (s : State) (n : Nat) (x : Ctx) : (s.setCtx n x).keys = s.keys := rfl
@[simp] theorem State.setCtx_device (s : State) (n : Nat) (x : Ctx) : (s.setCtx n x).device = s.device := rfl
@[simp] theorem State.setCtx_peers (s : State) (n : Nat) (x : Ctx) : (s.setCtx n x).peers = s.peers := rfl
@[simp] theorem State.setCtx_peerEpoch (s : State) (n : Nat) (x : Ctx) : (s.setCtx n x).peerEpoch = s.peerEpoch := rfl
@[simp] theorem State.setCtx_fw (s : State) (n : Nat) (x : Ctx) : (s.setCtx n x).fw = s.fw := rfl
@[simp] theorem State.setCtx_irqs (s : State) (n : Nat) (x : Ctx) : (s.setCtx n x).irqs = s.irqs := rfl
@[simp] theorem State.setCtx_reports (s : State) (n : Nat) (x : Ctx) : (s.setCtx n x).reports = s.reports := rfl
@[simp] theorem State.setCtx_trace (s : State) (n : Nat) (x : Ctx) : (s.setCtx n x).trace = s.trace := rfl
@[simp] theorem State.setCtx_hostReplies (s : State) (n : Nat) (x : Ctx) : (s.setCtx n x).hostReplies = s.hostReplies := rfl
@[simp] theorem State.setCtx_regs (s : State) (n : Nat) (x : Ctx) : (s.setCtx n x).regs = s.regs := rfl
@[simp] theorem State.setCtx_sregs (s : State) (n : Nat) (x : Ctx) : (s.setCtx n x).sregs = s.sregs := rfl
@[simp] theorem State.setCtx_owners (s : State) (n : Nat) (x : Ctx) : (s.setCtx n x).owners = s.owners := rfl
@[simp] theorem State.setCtx_scratch (s : State) (n : Nat) (x : Ctx) : (s.setCtx n x).scratch = s.scratch := rfl
@[simp] theorem State.setCtx_scrPsn (s : State) (n : Nat) (x : Ctx) : (s.setCtx n x).scrPsn = s.scrPsn := rfl
@[simp] theorem State.setCtx_opmem (s : State) (n : Nat) (x : Ctx) : (s.setCtx n x).opmem = s.opmem := rfl
@[simp] theorem State.setCtx_opPsn (s : State) (n : Nat) (x : Ctx) : (s.setCtx n x).opPsn = s.opPsn := rfl
@[simp] theorem State.setCtx_priv (s : State) (n : Nat) (x : Ctx) : (s.setCtx n x).priv = s.priv := rfl
@[simp] theorem State.setCtx_privPsn (s : State) (n : Nat) (x : Ctx) : (s.setCtx n x).privPsn = s.privPsn := rfl
@[simp] theorem State.setCtx_hpriv (s : State) (n : Nat) (x : Ctx) : (s.setCtx n x).hpriv = s.hpriv := rfl
@[simp] theorem State.setCtx_hprivPsn (s : State) (n : Nat) (x : Ctx) : (s.setCtx n x).hprivPsn = s.hprivPsn := rfl
@[simp] theorem State.setCtx_sems (s : State) (n : Nat) (x : Ctx) : (s.setCtx n x).sems = s.sems := rfl
@[simp] theorem State.setCtx_wstore (s : State) (n : Nat) (x : Ctx) : (s.setCtx n x).wstore = s.wstore := rfl
@[simp] theorem State.setCtx_wsPsn (s : State) (n : Nat) (x : Ctx) : (s.setCtx n x).wsPsn = s.wsPsn := rfl
@[simp] theorem State.setCtx_threads (s : State) (n : Nat) (x : Ctx) : (s.setCtx n x).threads = s.threads := rfl
@[simp] theorem State.setCtx_warps (s : State) (n : Nat) (x : Ctx) : (s.setCtx n x).warps = s.warps := rfl
@[simp] theorem State.setCtx_cores (s : State) (n : Nat) (x : Ctx) : (s.setCtx n x).cores = s.cores := rfl
@[simp] theorem State.setCtx_script (s : State) (n : Nat) (x : Ctx) : (s.setCtx n x).script = s.script := rfl
@[simp] theorem State.setCtx_turn (s : State) (n : Nat) (x : Ctx) : (s.setCtx n x).turn = s.turn := rfl
@[simp] theorem State.setCtx_cur (s : State) (n : Nat) (x : Ctx) : (s.setCtx n x).cur = s.cur := rfl
@[simp] theorem State.setCtx_bun (s : State) (n : Nat) (x : Ctx) : (s.setCtx n x).bun = s.bun := rfl
@[simp] theorem State.setCtx_nextId (s : State) (n : Nat) (x : Ctx) : (s.setCtx n x).nextId = s.nextId := rfl
@[simp] theorem State.setCtx_freeCtr (s : State) (n : Nat) (x : Ctx) : (s.setCtx n x).freeCtr = s.freeCtr := rfl

-- setPart --------------------------------------------------------------------------------------------------------------

@[simp] theorem State.setPart_time (s : State) (p : Nat) (x : Partition) : (s.setPart p x).time = s.time := rfl
@[simp] theorem State.setPart_clock (s : State) (p : Nat) (x : Partition) : (s.setPart p x).clock = s.clock := rfl
@[simp] theorem State.setPart_phase (s : State) (p : Nat) (x : Partition) : (s.setPart p x).phase = s.phase := rfl
@[simp] theorem State.setPart_hbm (s : State) (p : Nat) (x : Partition) : (s.setPart p x).hbm = s.hbm := rfl
@[simp] theorem State.setPart_hbmPsn (s : State) (p : Nat) (x : Partition) : (s.setPart p x).hbmPsn = s.hbmPsn := rfl
@[simp] theorem State.setPart_unitKey (s : State) (p : Nat) (x : Partition) : (s.setPart p x).unitKey = s.unitKey := rfl
@[simp] theorem State.setPart_hostMem (s : State) (p : Nat) (x : Partition) : (s.setPart p x).hostMem = s.hostMem := rfl
@[simp] theorem State.setPart_peerMem (s : State) (p : Nat) (x : Partition) : (s.setPart p x).peerMem = s.peerMem := rfl
@[simp] theorem State.setPart_mailbox (s : State) (p : Nat) (x : Partition) : (s.setPart p x).mailbox = s.mailbox := rfl
@[simp] theorem State.setPart_leases (s : State) (p : Nat) (x : Partition) : (s.setPart p x).leases = s.leases := rfl
@[simp] theorem State.setPart_genTime (s : State) (p : Nat) (x : Partition) : (s.setPart p x).genTime = s.genTime := rfl
@[simp] theorem State.setPart_l2 (s : State) (p : Nat) (x : Partition) : (s.setPart p x).l2 = s.l2 := rfl
@[simp] theorem State.setPart_tlb (s : State) (p : Nat) (x : Partition) : (s.setPart p x).tlb = s.tlb := rfl
@[simp] theorem State.setPart_atsHost (s : State) (p : Nat) (x : Partition) : (s.setPart p x).atsHost = s.atsHost := rfl
@[simp] theorem State.setPart_decided (s : State) (p : Nat) (x : Partition) : (s.setPart p x).decided = s.decided := rfl
@[simp] theorem State.setPart_reqs (s : State) (p : Nat) (x : Partition) : (s.setPart p x).reqs = s.reqs := rfl
@[simp] theorem State.setPart_copies (s : State) (p : Nat) (x : Partition) : (s.setPart p x).copies = s.copies := rfl
@[simp] theorem State.setPart_pageReqs (s : State) (p : Nat) (x : Partition) : (s.setPart p x).pageReqs = s.pageReqs := rfl
@[simp] theorem State.setPart_ctxs (s : State) (p : Nat) (x : Partition) : (s.setPart p x).ctxs = s.ctxs := rfl
@[simp] theorem State.setPart_tinvs (s : State) (p : Nat) (x : Partition) : (s.setPart p x).tinvs = s.tinvs := rfl
@[simp] theorem State.setPart_queues (s : State) (p : Nat) (x : Partition) : (s.setPart p x).queues = s.queues := rfl
@[simp] theorem State.setPart_launches (s : State) (p : Nat) (x : Partition) : (s.setPart p x).launches = s.launches := rfl
@[simp] theorem State.setPart_images (s : State) (p : Nat) (x : Partition) : (s.setPart p x).images = s.images := rfl
@[simp] theorem State.setPart_ckpts (s : State) (p : Nat) (x : Partition) : (s.setPart p x).ckpts = s.ckpts := rfl
@[simp] theorem State.setPart_shadow (s : State) (p : Nat) (x : Partition) : (s.setPart p x).shadow = s.shadow := rfl
@[simp] theorem State.setPart_keys (s : State) (p : Nat) (x : Partition) : (s.setPart p x).keys = s.keys := rfl
@[simp] theorem State.setPart_device (s : State) (p : Nat) (x : Partition) : (s.setPart p x).device = s.device := rfl
@[simp] theorem State.setPart_peers (s : State) (p : Nat) (x : Partition) : (s.setPart p x).peers = s.peers := rfl
@[simp] theorem State.setPart_peerEpoch (s : State) (p : Nat) (x : Partition) : (s.setPart p x).peerEpoch = s.peerEpoch := rfl
@[simp] theorem State.setPart_fw (s : State) (p : Nat) (x : Partition) : (s.setPart p x).fw = s.fw := rfl
@[simp] theorem State.setPart_irqs (s : State) (p : Nat) (x : Partition) : (s.setPart p x).irqs = s.irqs := rfl
@[simp] theorem State.setPart_reports (s : State) (p : Nat) (x : Partition) : (s.setPart p x).reports = s.reports := rfl
@[simp] theorem State.setPart_trace (s : State) (p : Nat) (x : Partition) : (s.setPart p x).trace = s.trace := rfl
@[simp] theorem State.setPart_hostReplies (s : State) (p : Nat) (x : Partition) : (s.setPart p x).hostReplies = s.hostReplies := rfl
@[simp] theorem State.setPart_regs (s : State) (p : Nat) (x : Partition) : (s.setPart p x).regs = s.regs := rfl
@[simp] theorem State.setPart_sregs (s : State) (p : Nat) (x : Partition) : (s.setPart p x).sregs = s.sregs := rfl
@[simp] theorem State.setPart_owners (s : State) (p : Nat) (x : Partition) : (s.setPart p x).owners = s.owners := rfl
@[simp] theorem State.setPart_scratch (s : State) (p : Nat) (x : Partition) : (s.setPart p x).scratch = s.scratch := rfl
@[simp] theorem State.setPart_scrPsn (s : State) (p : Nat) (x : Partition) : (s.setPart p x).scrPsn = s.scrPsn := rfl
@[simp] theorem State.setPart_opmem (s : State) (p : Nat) (x : Partition) : (s.setPart p x).opmem = s.opmem := rfl
@[simp] theorem State.setPart_opPsn (s : State) (p : Nat) (x : Partition) : (s.setPart p x).opPsn = s.opPsn := rfl
@[simp] theorem State.setPart_priv (s : State) (p : Nat) (x : Partition) : (s.setPart p x).priv = s.priv := rfl
@[simp] theorem State.setPart_privPsn (s : State) (p : Nat) (x : Partition) : (s.setPart p x).privPsn = s.privPsn := rfl
@[simp] theorem State.setPart_hpriv (s : State) (p : Nat) (x : Partition) : (s.setPart p x).hpriv = s.hpriv := rfl
@[simp] theorem State.setPart_hprivPsn (s : State) (p : Nat) (x : Partition) : (s.setPart p x).hprivPsn = s.hprivPsn := rfl
@[simp] theorem State.setPart_sems (s : State) (p : Nat) (x : Partition) : (s.setPart p x).sems = s.sems := rfl
@[simp] theorem State.setPart_wstore (s : State) (p : Nat) (x : Partition) : (s.setPart p x).wstore = s.wstore := rfl
@[simp] theorem State.setPart_wsPsn (s : State) (p : Nat) (x : Partition) : (s.setPart p x).wsPsn = s.wsPsn := rfl
@[simp] theorem State.setPart_threads (s : State) (p : Nat) (x : Partition) : (s.setPart p x).threads = s.threads := rfl
@[simp] theorem State.setPart_warps (s : State) (p : Nat) (x : Partition) : (s.setPart p x).warps = s.warps := rfl
@[simp] theorem State.setPart_cores (s : State) (p : Nat) (x : Partition) : (s.setPart p x).cores = s.cores := rfl
@[simp] theorem State.setPart_script (s : State) (p : Nat) (x : Partition) : (s.setPart p x).script = s.script := rfl
@[simp] theorem State.setPart_turn (s : State) (p : Nat) (x : Partition) : (s.setPart p x).turn = s.turn := rfl
@[simp] theorem State.setPart_cur (s : State) (p : Nat) (x : Partition) : (s.setPart p x).cur = s.cur := rfl
@[simp] theorem State.setPart_bun (s : State) (p : Nat) (x : Partition) : (s.setPart p x).bun = s.bun := rfl
@[simp] theorem State.setPart_nextId (s : State) (p : Nat) (x : Partition) : (s.setPart p x).nextId = s.nextId := rfl
@[simp] theorem State.setPart_freeCtr (s : State) (p : Nat) (x : Partition) : (s.setPart p x).freeCtr = s.freeCtr := rfl

-- setQueue -------------------------------------------------------------------------------------------------------------

@[simp] theorem State.setQueue_time (s : State) (q : Nat) (x : Queue) : (s.setQueue q x).time = s.time := rfl
@[simp] theorem State.setQueue_clock (s : State) (q : Nat) (x : Queue) : (s.setQueue q x).clock = s.clock := rfl
@[simp] theorem State.setQueue_phase (s : State) (q : Nat) (x : Queue) : (s.setQueue q x).phase = s.phase := rfl
@[simp] theorem State.setQueue_hbm (s : State) (q : Nat) (x : Queue) : (s.setQueue q x).hbm = s.hbm := rfl
@[simp] theorem State.setQueue_hbmPsn (s : State) (q : Nat) (x : Queue) : (s.setQueue q x).hbmPsn = s.hbmPsn := rfl
@[simp] theorem State.setQueue_unitKey (s : State) (q : Nat) (x : Queue) : (s.setQueue q x).unitKey = s.unitKey := rfl
@[simp] theorem State.setQueue_hostMem (s : State) (q : Nat) (x : Queue) : (s.setQueue q x).hostMem = s.hostMem := rfl
@[simp] theorem State.setQueue_peerMem (s : State) (q : Nat) (x : Queue) : (s.setQueue q x).peerMem = s.peerMem := rfl
@[simp] theorem State.setQueue_mailbox (s : State) (q : Nat) (x : Queue) : (s.setQueue q x).mailbox = s.mailbox := rfl
@[simp] theorem State.setQueue_leases (s : State) (q : Nat) (x : Queue) : (s.setQueue q x).leases = s.leases := rfl
@[simp] theorem State.setQueue_genTime (s : State) (q : Nat) (x : Queue) : (s.setQueue q x).genTime = s.genTime := rfl
@[simp] theorem State.setQueue_l2 (s : State) (q : Nat) (x : Queue) : (s.setQueue q x).l2 = s.l2 := rfl
@[simp] theorem State.setQueue_tlb (s : State) (q : Nat) (x : Queue) : (s.setQueue q x).tlb = s.tlb := rfl
@[simp] theorem State.setQueue_atsHost (s : State) (q : Nat) (x : Queue) : (s.setQueue q x).atsHost = s.atsHost := rfl
@[simp] theorem State.setQueue_decided (s : State) (q : Nat) (x : Queue) : (s.setQueue q x).decided = s.decided := rfl
@[simp] theorem State.setQueue_reqs (s : State) (q : Nat) (x : Queue) : (s.setQueue q x).reqs = s.reqs := rfl
@[simp] theorem State.setQueue_copies (s : State) (q : Nat) (x : Queue) : (s.setQueue q x).copies = s.copies := rfl
@[simp] theorem State.setQueue_pageReqs (s : State) (q : Nat) (x : Queue) : (s.setQueue q x).pageReqs = s.pageReqs := rfl
@[simp] theorem State.setQueue_ctxs (s : State) (q : Nat) (x : Queue) : (s.setQueue q x).ctxs = s.ctxs := rfl
@[simp] theorem State.setQueue_parts (s : State) (q : Nat) (x : Queue) : (s.setQueue q x).parts = s.parts := rfl
@[simp] theorem State.setQueue_tinvs (s : State) (q : Nat) (x : Queue) : (s.setQueue q x).tinvs = s.tinvs := rfl
@[simp] theorem State.setQueue_launches (s : State) (q : Nat) (x : Queue) : (s.setQueue q x).launches = s.launches := rfl
@[simp] theorem State.setQueue_images (s : State) (q : Nat) (x : Queue) : (s.setQueue q x).images = s.images := rfl
@[simp] theorem State.setQueue_ckpts (s : State) (q : Nat) (x : Queue) : (s.setQueue q x).ckpts = s.ckpts := rfl
@[simp] theorem State.setQueue_shadow (s : State) (q : Nat) (x : Queue) : (s.setQueue q x).shadow = s.shadow := rfl
@[simp] theorem State.setQueue_keys (s : State) (q : Nat) (x : Queue) : (s.setQueue q x).keys = s.keys := rfl
@[simp] theorem State.setQueue_device (s : State) (q : Nat) (x : Queue) : (s.setQueue q x).device = s.device := rfl
@[simp] theorem State.setQueue_peers (s : State) (q : Nat) (x : Queue) : (s.setQueue q x).peers = s.peers := rfl
@[simp] theorem State.setQueue_peerEpoch (s : State) (q : Nat) (x : Queue) : (s.setQueue q x).peerEpoch = s.peerEpoch := rfl
@[simp] theorem State.setQueue_fw (s : State) (q : Nat) (x : Queue) : (s.setQueue q x).fw = s.fw := rfl
@[simp] theorem State.setQueue_irqs (s : State) (q : Nat) (x : Queue) : (s.setQueue q x).irqs = s.irqs := rfl
@[simp] theorem State.setQueue_reports (s : State) (q : Nat) (x : Queue) : (s.setQueue q x).reports = s.reports := rfl
@[simp] theorem State.setQueue_trace (s : State) (q : Nat) (x : Queue) : (s.setQueue q x).trace = s.trace := rfl
@[simp] theorem State.setQueue_hostReplies (s : State) (q : Nat) (x : Queue) : (s.setQueue q x).hostReplies = s.hostReplies := rfl
@[simp] theorem State.setQueue_regs (s : State) (q : Nat) (x : Queue) : (s.setQueue q x).regs = s.regs := rfl
@[simp] theorem State.setQueue_sregs (s : State) (q : Nat) (x : Queue) : (s.setQueue q x).sregs = s.sregs := rfl
@[simp] theorem State.setQueue_owners (s : State) (q : Nat) (x : Queue) : (s.setQueue q x).owners = s.owners := rfl
@[simp] theorem State.setQueue_scratch (s : State) (q : Nat) (x : Queue) : (s.setQueue q x).scratch = s.scratch := rfl
@[simp] theorem State.setQueue_scrPsn (s : State) (q : Nat) (x : Queue) : (s.setQueue q x).scrPsn = s.scrPsn := rfl
@[simp] theorem State.setQueue_opmem (s : State) (q : Nat) (x : Queue) : (s.setQueue q x).opmem = s.opmem := rfl
@[simp] theorem State.setQueue_opPsn (s : State) (q : Nat) (x : Queue) : (s.setQueue q x).opPsn = s.opPsn := rfl
@[simp] theorem State.setQueue_priv (s : State) (q : Nat) (x : Queue) : (s.setQueue q x).priv = s.priv := rfl
@[simp] theorem State.setQueue_privPsn (s : State) (q : Nat) (x : Queue) : (s.setQueue q x).privPsn = s.privPsn := rfl
@[simp] theorem State.setQueue_hpriv (s : State) (q : Nat) (x : Queue) : (s.setQueue q x).hpriv = s.hpriv := rfl
@[simp] theorem State.setQueue_hprivPsn (s : State) (q : Nat) (x : Queue) : (s.setQueue q x).hprivPsn = s.hprivPsn := rfl
@[simp] theorem State.setQueue_sems (s : State) (q : Nat) (x : Queue) : (s.setQueue q x).sems = s.sems := rfl
@[simp] theorem State.setQueue_wstore (s : State) (q : Nat) (x : Queue) : (s.setQueue q x).wstore = s.wstore := rfl
@[simp] theorem State.setQueue_wsPsn (s : State) (q : Nat) (x : Queue) : (s.setQueue q x).wsPsn = s.wsPsn := rfl
@[simp] theorem State.setQueue_threads (s : State) (q : Nat) (x : Queue) : (s.setQueue q x).threads = s.threads := rfl
@[simp] theorem State.setQueue_warps (s : State) (q : Nat) (x : Queue) : (s.setQueue q x).warps = s.warps := rfl
@[simp] theorem State.setQueue_cores (s : State) (q : Nat) (x : Queue) : (s.setQueue q x).cores = s.cores := rfl
@[simp] theorem State.setQueue_script (s : State) (q : Nat) (x : Queue) : (s.setQueue q x).script = s.script := rfl
@[simp] theorem State.setQueue_turn (s : State) (q : Nat) (x : Queue) : (s.setQueue q x).turn = s.turn := rfl
@[simp] theorem State.setQueue_cur (s : State) (q : Nat) (x : Queue) : (s.setQueue q x).cur = s.cur := rfl
@[simp] theorem State.setQueue_bun (s : State) (q : Nat) (x : Queue) : (s.setQueue q x).bun = s.bun := rfl
@[simp] theorem State.setQueue_nextId (s : State) (q : Nat) (x : Queue) : (s.setQueue q x).nextId = s.nextId := rfl
@[simp] theorem State.setQueue_freeCtr (s : State) (q : Nat) (x : Queue) : (s.setQueue q x).freeCtr = s.freeCtr := rfl

-- setTinv --------------------------------------------------------------------------------------------------------------

@[simp] theorem State.setTinv_time (s : State) (f : Nat) (x : TInv) : (s.setTinv f x).time = s.time := rfl
@[simp] theorem State.setTinv_clock (s : State) (f : Nat) (x : TInv) : (s.setTinv f x).clock = s.clock := rfl
@[simp] theorem State.setTinv_phase (s : State) (f : Nat) (x : TInv) : (s.setTinv f x).phase = s.phase := rfl
@[simp] theorem State.setTinv_hbm (s : State) (f : Nat) (x : TInv) : (s.setTinv f x).hbm = s.hbm := rfl
@[simp] theorem State.setTinv_hbmPsn (s : State) (f : Nat) (x : TInv) : (s.setTinv f x).hbmPsn = s.hbmPsn := rfl
@[simp] theorem State.setTinv_unitKey (s : State) (f : Nat) (x : TInv) : (s.setTinv f x).unitKey = s.unitKey := rfl
@[simp] theorem State.setTinv_hostMem (s : State) (f : Nat) (x : TInv) : (s.setTinv f x).hostMem = s.hostMem := rfl
@[simp] theorem State.setTinv_peerMem (s : State) (f : Nat) (x : TInv) : (s.setTinv f x).peerMem = s.peerMem := rfl
@[simp] theorem State.setTinv_mailbox (s : State) (f : Nat) (x : TInv) : (s.setTinv f x).mailbox = s.mailbox := rfl
@[simp] theorem State.setTinv_leases (s : State) (f : Nat) (x : TInv) : (s.setTinv f x).leases = s.leases := rfl
@[simp] theorem State.setTinv_genTime (s : State) (f : Nat) (x : TInv) : (s.setTinv f x).genTime = s.genTime := rfl
@[simp] theorem State.setTinv_l2 (s : State) (f : Nat) (x : TInv) : (s.setTinv f x).l2 = s.l2 := rfl
@[simp] theorem State.setTinv_tlb (s : State) (f : Nat) (x : TInv) : (s.setTinv f x).tlb = s.tlb := rfl
@[simp] theorem State.setTinv_atsHost (s : State) (f : Nat) (x : TInv) : (s.setTinv f x).atsHost = s.atsHost := rfl
@[simp] theorem State.setTinv_decided (s : State) (f : Nat) (x : TInv) : (s.setTinv f x).decided = s.decided := rfl
@[simp] theorem State.setTinv_reqs (s : State) (f : Nat) (x : TInv) : (s.setTinv f x).reqs = s.reqs := rfl
@[simp] theorem State.setTinv_copies (s : State) (f : Nat) (x : TInv) : (s.setTinv f x).copies = s.copies := rfl
@[simp] theorem State.setTinv_pageReqs (s : State) (f : Nat) (x : TInv) : (s.setTinv f x).pageReqs = s.pageReqs := rfl
@[simp] theorem State.setTinv_ctxs (s : State) (f : Nat) (x : TInv) : (s.setTinv f x).ctxs = s.ctxs := rfl
@[simp] theorem State.setTinv_parts (s : State) (f : Nat) (x : TInv) : (s.setTinv f x).parts = s.parts := rfl
@[simp] theorem State.setTinv_queues (s : State) (f : Nat) (x : TInv) : (s.setTinv f x).queues = s.queues := rfl
@[simp] theorem State.setTinv_launches (s : State) (f : Nat) (x : TInv) : (s.setTinv f x).launches = s.launches := rfl
@[simp] theorem State.setTinv_images (s : State) (f : Nat) (x : TInv) : (s.setTinv f x).images = s.images := rfl
@[simp] theorem State.setTinv_ckpts (s : State) (f : Nat) (x : TInv) : (s.setTinv f x).ckpts = s.ckpts := rfl
@[simp] theorem State.setTinv_shadow (s : State) (f : Nat) (x : TInv) : (s.setTinv f x).shadow = s.shadow := rfl
@[simp] theorem State.setTinv_keys (s : State) (f : Nat) (x : TInv) : (s.setTinv f x).keys = s.keys := rfl
@[simp] theorem State.setTinv_device (s : State) (f : Nat) (x : TInv) : (s.setTinv f x).device = s.device := rfl
@[simp] theorem State.setTinv_peers (s : State) (f : Nat) (x : TInv) : (s.setTinv f x).peers = s.peers := rfl
@[simp] theorem State.setTinv_peerEpoch (s : State) (f : Nat) (x : TInv) : (s.setTinv f x).peerEpoch = s.peerEpoch := rfl
@[simp] theorem State.setTinv_fw (s : State) (f : Nat) (x : TInv) : (s.setTinv f x).fw = s.fw := rfl
@[simp] theorem State.setTinv_irqs (s : State) (f : Nat) (x : TInv) : (s.setTinv f x).irqs = s.irqs := rfl
@[simp] theorem State.setTinv_reports (s : State) (f : Nat) (x : TInv) : (s.setTinv f x).reports = s.reports := rfl
@[simp] theorem State.setTinv_trace (s : State) (f : Nat) (x : TInv) : (s.setTinv f x).trace = s.trace := rfl
@[simp] theorem State.setTinv_hostReplies (s : State) (f : Nat) (x : TInv) : (s.setTinv f x).hostReplies = s.hostReplies := rfl
@[simp] theorem State.setTinv_regs (s : State) (f : Nat) (x : TInv) : (s.setTinv f x).regs = s.regs := rfl
@[simp] theorem State.setTinv_sregs (s : State) (f : Nat) (x : TInv) : (s.setTinv f x).sregs = s.sregs := rfl
@[simp] theorem State.setTinv_owners (s : State) (f : Nat) (x : TInv) : (s.setTinv f x).owners = s.owners := rfl
@[simp] theorem State.setTinv_scratch (s : State) (f : Nat) (x : TInv) : (s.setTinv f x).scratch = s.scratch := rfl
@[simp] theorem State.setTinv_scrPsn (s : State) (f : Nat) (x : TInv) : (s.setTinv f x).scrPsn = s.scrPsn := rfl
@[simp] theorem State.setTinv_opmem (s : State) (f : Nat) (x : TInv) : (s.setTinv f x).opmem = s.opmem := rfl
@[simp] theorem State.setTinv_opPsn (s : State) (f : Nat) (x : TInv) : (s.setTinv f x).opPsn = s.opPsn := rfl
@[simp] theorem State.setTinv_priv (s : State) (f : Nat) (x : TInv) : (s.setTinv f x).priv = s.priv := rfl
@[simp] theorem State.setTinv_privPsn (s : State) (f : Nat) (x : TInv) : (s.setTinv f x).privPsn = s.privPsn := rfl
@[simp] theorem State.setTinv_hpriv (s : State) (f : Nat) (x : TInv) : (s.setTinv f x).hpriv = s.hpriv := rfl
@[simp] theorem State.setTinv_hprivPsn (s : State) (f : Nat) (x : TInv) : (s.setTinv f x).hprivPsn = s.hprivPsn := rfl
@[simp] theorem State.setTinv_sems (s : State) (f : Nat) (x : TInv) : (s.setTinv f x).sems = s.sems := rfl
@[simp] theorem State.setTinv_wstore (s : State) (f : Nat) (x : TInv) : (s.setTinv f x).wstore = s.wstore := rfl
@[simp] theorem State.setTinv_wsPsn (s : State) (f : Nat) (x : TInv) : (s.setTinv f x).wsPsn = s.wsPsn := rfl
@[simp] theorem State.setTinv_threads (s : State) (f : Nat) (x : TInv) : (s.setTinv f x).threads = s.threads := rfl
@[simp] theorem State.setTinv_warps (s : State) (f : Nat) (x : TInv) : (s.setTinv f x).warps = s.warps := rfl
@[simp] theorem State.setTinv_cores (s : State) (f : Nat) (x : TInv) : (s.setTinv f x).cores = s.cores := rfl
@[simp] theorem State.setTinv_script (s : State) (f : Nat) (x : TInv) : (s.setTinv f x).script = s.script := rfl
@[simp] theorem State.setTinv_turn (s : State) (f : Nat) (x : TInv) : (s.setTinv f x).turn = s.turn := rfl
@[simp] theorem State.setTinv_cur (s : State) (f : Nat) (x : TInv) : (s.setTinv f x).cur = s.cur := rfl
@[simp] theorem State.setTinv_bun (s : State) (f : Nat) (x : TInv) : (s.setTinv f x).bun = s.bun := rfl
@[simp] theorem State.setTinv_nextId (s : State) (f : Nat) (x : TInv) : (s.setTinv f x).nextId = s.nextId := rfl
@[simp] theorem State.setTinv_freeCtr (s : State) (f : Nat) (x : TInv) : (s.setTinv f x).freeCtr = s.freeCtr := rfl

-- setLaunch ------------------------------------------------------------------------------------------------------------

@[simp] theorem State.setLaunch_time (s : State) (n : Nat) (x : Launch) : (s.setLaunch n x).time = s.time := rfl
@[simp] theorem State.setLaunch_clock (s : State) (n : Nat) (x : Launch) : (s.setLaunch n x).clock = s.clock := rfl
@[simp] theorem State.setLaunch_phase (s : State) (n : Nat) (x : Launch) : (s.setLaunch n x).phase = s.phase := rfl
@[simp] theorem State.setLaunch_hbm (s : State) (n : Nat) (x : Launch) : (s.setLaunch n x).hbm = s.hbm := rfl
@[simp] theorem State.setLaunch_hbmPsn (s : State) (n : Nat) (x : Launch) : (s.setLaunch n x).hbmPsn = s.hbmPsn := rfl
@[simp] theorem State.setLaunch_unitKey (s : State) (n : Nat) (x : Launch) : (s.setLaunch n x).unitKey = s.unitKey := rfl
@[simp] theorem State.setLaunch_hostMem (s : State) (n : Nat) (x : Launch) : (s.setLaunch n x).hostMem = s.hostMem := rfl
@[simp] theorem State.setLaunch_peerMem (s : State) (n : Nat) (x : Launch) : (s.setLaunch n x).peerMem = s.peerMem := rfl
@[simp] theorem State.setLaunch_mailbox (s : State) (n : Nat) (x : Launch) : (s.setLaunch n x).mailbox = s.mailbox := rfl
@[simp] theorem State.setLaunch_leases (s : State) (n : Nat) (x : Launch) : (s.setLaunch n x).leases = s.leases := rfl
@[simp] theorem State.setLaunch_genTime (s : State) (n : Nat) (x : Launch) : (s.setLaunch n x).genTime = s.genTime := rfl
@[simp] theorem State.setLaunch_l2 (s : State) (n : Nat) (x : Launch) : (s.setLaunch n x).l2 = s.l2 := rfl
@[simp] theorem State.setLaunch_tlb (s : State) (n : Nat) (x : Launch) : (s.setLaunch n x).tlb = s.tlb := rfl
@[simp] theorem State.setLaunch_atsHost (s : State) (n : Nat) (x : Launch) : (s.setLaunch n x).atsHost = s.atsHost := rfl
@[simp] theorem State.setLaunch_decided (s : State) (n : Nat) (x : Launch) : (s.setLaunch n x).decided = s.decided := rfl
@[simp] theorem State.setLaunch_reqs (s : State) (n : Nat) (x : Launch) : (s.setLaunch n x).reqs = s.reqs := rfl
@[simp] theorem State.setLaunch_copies (s : State) (n : Nat) (x : Launch) : (s.setLaunch n x).copies = s.copies := rfl
@[simp] theorem State.setLaunch_pageReqs (s : State) (n : Nat) (x : Launch) : (s.setLaunch n x).pageReqs = s.pageReqs := rfl
@[simp] theorem State.setLaunch_ctxs (s : State) (n : Nat) (x : Launch) : (s.setLaunch n x).ctxs = s.ctxs := rfl
@[simp] theorem State.setLaunch_parts (s : State) (n : Nat) (x : Launch) : (s.setLaunch n x).parts = s.parts := rfl
@[simp] theorem State.setLaunch_tinvs (s : State) (n : Nat) (x : Launch) : (s.setLaunch n x).tinvs = s.tinvs := rfl
@[simp] theorem State.setLaunch_queues (s : State) (n : Nat) (x : Launch) : (s.setLaunch n x).queues = s.queues := rfl
@[simp] theorem State.setLaunch_images (s : State) (n : Nat) (x : Launch) : (s.setLaunch n x).images = s.images := rfl
@[simp] theorem State.setLaunch_ckpts (s : State) (n : Nat) (x : Launch) : (s.setLaunch n x).ckpts = s.ckpts := rfl
@[simp] theorem State.setLaunch_shadow (s : State) (n : Nat) (x : Launch) : (s.setLaunch n x).shadow = s.shadow := rfl
@[simp] theorem State.setLaunch_keys (s : State) (n : Nat) (x : Launch) : (s.setLaunch n x).keys = s.keys := rfl
@[simp] theorem State.setLaunch_device (s : State) (n : Nat) (x : Launch) : (s.setLaunch n x).device = s.device := rfl
@[simp] theorem State.setLaunch_peers (s : State) (n : Nat) (x : Launch) : (s.setLaunch n x).peers = s.peers := rfl
@[simp] theorem State.setLaunch_peerEpoch (s : State) (n : Nat) (x : Launch) : (s.setLaunch n x).peerEpoch = s.peerEpoch := rfl
@[simp] theorem State.setLaunch_fw (s : State) (n : Nat) (x : Launch) : (s.setLaunch n x).fw = s.fw := rfl
@[simp] theorem State.setLaunch_irqs (s : State) (n : Nat) (x : Launch) : (s.setLaunch n x).irqs = s.irqs := rfl
@[simp] theorem State.setLaunch_reports (s : State) (n : Nat) (x : Launch) : (s.setLaunch n x).reports = s.reports := rfl
@[simp] theorem State.setLaunch_trace (s : State) (n : Nat) (x : Launch) : (s.setLaunch n x).trace = s.trace := rfl
@[simp] theorem State.setLaunch_hostReplies (s : State) (n : Nat) (x : Launch) : (s.setLaunch n x).hostReplies = s.hostReplies := rfl
@[simp] theorem State.setLaunch_regs (s : State) (n : Nat) (x : Launch) : (s.setLaunch n x).regs = s.regs := rfl
@[simp] theorem State.setLaunch_sregs (s : State) (n : Nat) (x : Launch) : (s.setLaunch n x).sregs = s.sregs := rfl
@[simp] theorem State.setLaunch_owners (s : State) (n : Nat) (x : Launch) : (s.setLaunch n x).owners = s.owners := rfl
@[simp] theorem State.setLaunch_scratch (s : State) (n : Nat) (x : Launch) : (s.setLaunch n x).scratch = s.scratch := rfl
@[simp] theorem State.setLaunch_scrPsn (s : State) (n : Nat) (x : Launch) : (s.setLaunch n x).scrPsn = s.scrPsn := rfl
@[simp] theorem State.setLaunch_opmem (s : State) (n : Nat) (x : Launch) : (s.setLaunch n x).opmem = s.opmem := rfl
@[simp] theorem State.setLaunch_opPsn (s : State) (n : Nat) (x : Launch) : (s.setLaunch n x).opPsn = s.opPsn := rfl
@[simp] theorem State.setLaunch_priv (s : State) (n : Nat) (x : Launch) : (s.setLaunch n x).priv = s.priv := rfl
@[simp] theorem State.setLaunch_privPsn (s : State) (n : Nat) (x : Launch) : (s.setLaunch n x).privPsn = s.privPsn := rfl
@[simp] theorem State.setLaunch_hpriv (s : State) (n : Nat) (x : Launch) : (s.setLaunch n x).hpriv = s.hpriv := rfl
@[simp] theorem State.setLaunch_hprivPsn (s : State) (n : Nat) (x : Launch) : (s.setLaunch n x).hprivPsn = s.hprivPsn := rfl
@[simp] theorem State.setLaunch_sems (s : State) (n : Nat) (x : Launch) : (s.setLaunch n x).sems = s.sems := rfl
@[simp] theorem State.setLaunch_wstore (s : State) (n : Nat) (x : Launch) : (s.setLaunch n x).wstore = s.wstore := rfl
@[simp] theorem State.setLaunch_wsPsn (s : State) (n : Nat) (x : Launch) : (s.setLaunch n x).wsPsn = s.wsPsn := rfl
@[simp] theorem State.setLaunch_threads (s : State) (n : Nat) (x : Launch) : (s.setLaunch n x).threads = s.threads := rfl
@[simp] theorem State.setLaunch_warps (s : State) (n : Nat) (x : Launch) : (s.setLaunch n x).warps = s.warps := rfl
@[simp] theorem State.setLaunch_cores (s : State) (n : Nat) (x : Launch) : (s.setLaunch n x).cores = s.cores := rfl
@[simp] theorem State.setLaunch_script (s : State) (n : Nat) (x : Launch) : (s.setLaunch n x).script = s.script := rfl
@[simp] theorem State.setLaunch_turn (s : State) (n : Nat) (x : Launch) : (s.setLaunch n x).turn = s.turn := rfl
@[simp] theorem State.setLaunch_cur (s : State) (n : Nat) (x : Launch) : (s.setLaunch n x).cur = s.cur := rfl
@[simp] theorem State.setLaunch_bun (s : State) (n : Nat) (x : Launch) : (s.setLaunch n x).bun = s.bun := rfl
@[simp] theorem State.setLaunch_nextId (s : State) (n : Nat) (x : Launch) : (s.setLaunch n x).nextId = s.nextId := rfl
@[simp] theorem State.setLaunch_freeCtr (s : State) (n : Nat) (x : Launch) : (s.setLaunch n x).freeCtr = s.freeCtr := rfl

-- modCore --------------------------------------------------------------------------------------------------------------

@[simp] theorem State.modCore_time (s : State) (c : Nat) (f : Core → Core) : (s.modCore c f).time = s.time := rfl
@[simp] theorem State.modCore_clock (s : State) (c : Nat) (f : Core → Core) : (s.modCore c f).clock = s.clock := rfl
@[simp] theorem State.modCore_phase (s : State) (c : Nat) (f : Core → Core) : (s.modCore c f).phase = s.phase := rfl
@[simp] theorem State.modCore_hbm (s : State) (c : Nat) (f : Core → Core) : (s.modCore c f).hbm = s.hbm := rfl
@[simp] theorem State.modCore_hbmPsn (s : State) (c : Nat) (f : Core → Core) : (s.modCore c f).hbmPsn = s.hbmPsn := rfl
@[simp] theorem State.modCore_unitKey (s : State) (c : Nat) (f : Core → Core) : (s.modCore c f).unitKey = s.unitKey := rfl
@[simp] theorem State.modCore_hostMem (s : State) (c : Nat) (f : Core → Core) : (s.modCore c f).hostMem = s.hostMem := rfl
@[simp] theorem State.modCore_peerMem (s : State) (c : Nat) (f : Core → Core) : (s.modCore c f).peerMem = s.peerMem := rfl
@[simp] theorem State.modCore_mailbox (s : State) (c : Nat) (f : Core → Core) : (s.modCore c f).mailbox = s.mailbox := rfl
@[simp] theorem State.modCore_leases (s : State) (c : Nat) (f : Core → Core) : (s.modCore c f).leases = s.leases := rfl
@[simp] theorem State.modCore_genTime (s : State) (c : Nat) (f : Core → Core) : (s.modCore c f).genTime = s.genTime := rfl
@[simp] theorem State.modCore_l2 (s : State) (c : Nat) (f : Core → Core) : (s.modCore c f).l2 = s.l2 := rfl
@[simp] theorem State.modCore_tlb (s : State) (c : Nat) (f : Core → Core) : (s.modCore c f).tlb = s.tlb := rfl
@[simp] theorem State.modCore_atsHost (s : State) (c : Nat) (f : Core → Core) : (s.modCore c f).atsHost = s.atsHost := rfl
@[simp] theorem State.modCore_decided (s : State) (c : Nat) (f : Core → Core) : (s.modCore c f).decided = s.decided := rfl
@[simp] theorem State.modCore_reqs (s : State) (c : Nat) (f : Core → Core) : (s.modCore c f).reqs = s.reqs := rfl
@[simp] theorem State.modCore_copies (s : State) (c : Nat) (f : Core → Core) : (s.modCore c f).copies = s.copies := rfl
@[simp] theorem State.modCore_pageReqs (s : State) (c : Nat) (f : Core → Core) : (s.modCore c f).pageReqs = s.pageReqs := rfl
@[simp] theorem State.modCore_ctxs (s : State) (c : Nat) (f : Core → Core) : (s.modCore c f).ctxs = s.ctxs := rfl
@[simp] theorem State.modCore_parts (s : State) (c : Nat) (f : Core → Core) : (s.modCore c f).parts = s.parts := rfl
@[simp] theorem State.modCore_tinvs (s : State) (c : Nat) (f : Core → Core) : (s.modCore c f).tinvs = s.tinvs := rfl
@[simp] theorem State.modCore_queues (s : State) (c : Nat) (f : Core → Core) : (s.modCore c f).queues = s.queues := rfl
@[simp] theorem State.modCore_launches (s : State) (c : Nat) (f : Core → Core) : (s.modCore c f).launches = s.launches := rfl
@[simp] theorem State.modCore_images (s : State) (c : Nat) (f : Core → Core) : (s.modCore c f).images = s.images := rfl
@[simp] theorem State.modCore_ckpts (s : State) (c : Nat) (f : Core → Core) : (s.modCore c f).ckpts = s.ckpts := rfl
@[simp] theorem State.modCore_shadow (s : State) (c : Nat) (f : Core → Core) : (s.modCore c f).shadow = s.shadow := rfl
@[simp] theorem State.modCore_keys (s : State) (c : Nat) (f : Core → Core) : (s.modCore c f).keys = s.keys := rfl
@[simp] theorem State.modCore_device (s : State) (c : Nat) (f : Core → Core) : (s.modCore c f).device = s.device := rfl
@[simp] theorem State.modCore_peers (s : State) (c : Nat) (f : Core → Core) : (s.modCore c f).peers = s.peers := rfl
@[simp] theorem State.modCore_peerEpoch (s : State) (c : Nat) (f : Core → Core) : (s.modCore c f).peerEpoch = s.peerEpoch := rfl
@[simp] theorem State.modCore_fw (s : State) (c : Nat) (f : Core → Core) : (s.modCore c f).fw = s.fw := rfl
@[simp] theorem State.modCore_irqs (s : State) (c : Nat) (f : Core → Core) : (s.modCore c f).irqs = s.irqs := rfl
@[simp] theorem State.modCore_reports (s : State) (c : Nat) (f : Core → Core) : (s.modCore c f).reports = s.reports := rfl
@[simp] theorem State.modCore_trace (s : State) (c : Nat) (f : Core → Core) : (s.modCore c f).trace = s.trace := rfl
@[simp] theorem State.modCore_hostReplies (s : State) (c : Nat) (f : Core → Core) : (s.modCore c f).hostReplies = s.hostReplies := rfl
@[simp] theorem State.modCore_regs (s : State) (c : Nat) (f : Core → Core) : (s.modCore c f).regs = s.regs := rfl
@[simp] theorem State.modCore_sregs (s : State) (c : Nat) (f : Core → Core) : (s.modCore c f).sregs = s.sregs := rfl
@[simp] theorem State.modCore_owners (s : State) (c : Nat) (f : Core → Core) : (s.modCore c f).owners = s.owners := rfl
@[simp] theorem State.modCore_scratch (s : State) (c : Nat) (f : Core → Core) : (s.modCore c f).scratch = s.scratch := rfl
@[simp] theorem State.modCore_scrPsn (s : State) (c : Nat) (f : Core → Core) : (s.modCore c f).scrPsn = s.scrPsn := rfl
@[simp] theorem State.modCore_opmem (s : State) (c : Nat) (f : Core → Core) : (s.modCore c f).opmem = s.opmem := rfl
@[simp] theorem State.modCore_opPsn (s : State) (c : Nat) (f : Core → Core) : (s.modCore c f).opPsn = s.opPsn := rfl
@[simp] theorem State.modCore_priv (s : State) (c : Nat) (f : Core → Core) : (s.modCore c f).priv = s.priv := rfl
@[simp] theorem State.modCore_privPsn (s : State) (c : Nat) (f : Core → Core) : (s.modCore c f).privPsn = s.privPsn := rfl
@[simp] theorem State.modCore_hpriv (s : State) (c : Nat) (f : Core → Core) : (s.modCore c f).hpriv = s.hpriv := rfl
@[simp] theorem State.modCore_hprivPsn (s : State) (c : Nat) (f : Core → Core) : (s.modCore c f).hprivPsn = s.hprivPsn := rfl
@[simp] theorem State.modCore_sems (s : State) (c : Nat) (f : Core → Core) : (s.modCore c f).sems = s.sems := rfl
@[simp] theorem State.modCore_wstore (s : State) (c : Nat) (f : Core → Core) : (s.modCore c f).wstore = s.wstore := rfl
@[simp] theorem State.modCore_wsPsn (s : State) (c : Nat) (f : Core → Core) : (s.modCore c f).wsPsn = s.wsPsn := rfl
@[simp] theorem State.modCore_threads (s : State) (c : Nat) (f : Core → Core) : (s.modCore c f).threads = s.threads := rfl
@[simp] theorem State.modCore_warps (s : State) (c : Nat) (f : Core → Core) : (s.modCore c f).warps = s.warps := rfl
@[simp] theorem State.modCore_script (s : State) (c : Nat) (f : Core → Core) : (s.modCore c f).script = s.script := rfl
@[simp] theorem State.modCore_turn (s : State) (c : Nat) (f : Core → Core) : (s.modCore c f).turn = s.turn := rfl
@[simp] theorem State.modCore_cur (s : State) (c : Nat) (f : Core → Core) : (s.modCore c f).cur = s.cur := rfl
@[simp] theorem State.modCore_bun (s : State) (c : Nat) (f : Core → Core) : (s.modCore c f).bun = s.bun := rfl
@[simp] theorem State.modCore_nextId (s : State) (c : Nat) (f : Core → Core) : (s.modCore c f).nextId = s.nextId := rfl
@[simp] theorem State.modCore_freeCtr (s : State) (c : Nat) (f : Core → Core) : (s.modCore c f).freeCtr = s.freeCtr := rfl

-- modWarp --------------------------------------------------------------------------------------------------------------

@[simp] theorem State.modWarp_time (s : State) (c w : Nat) (f : Warp → Warp) : (s.modWarp c w f).time = s.time := rfl
@[simp] theorem State.modWarp_clock (s : State) (c w : Nat) (f : Warp → Warp) : (s.modWarp c w f).clock = s.clock := rfl
@[simp] theorem State.modWarp_phase (s : State) (c w : Nat) (f : Warp → Warp) : (s.modWarp c w f).phase = s.phase := rfl
@[simp] theorem State.modWarp_hbm (s : State) (c w : Nat) (f : Warp → Warp) : (s.modWarp c w f).hbm = s.hbm := rfl
@[simp] theorem State.modWarp_hbmPsn (s : State) (c w : Nat) (f : Warp → Warp) : (s.modWarp c w f).hbmPsn = s.hbmPsn := rfl
@[simp] theorem State.modWarp_unitKey (s : State) (c w : Nat) (f : Warp → Warp) : (s.modWarp c w f).unitKey = s.unitKey := rfl
@[simp] theorem State.modWarp_hostMem (s : State) (c w : Nat) (f : Warp → Warp) : (s.modWarp c w f).hostMem = s.hostMem := rfl
@[simp] theorem State.modWarp_peerMem (s : State) (c w : Nat) (f : Warp → Warp) : (s.modWarp c w f).peerMem = s.peerMem := rfl
@[simp] theorem State.modWarp_mailbox (s : State) (c w : Nat) (f : Warp → Warp) : (s.modWarp c w f).mailbox = s.mailbox := rfl
@[simp] theorem State.modWarp_leases (s : State) (c w : Nat) (f : Warp → Warp) : (s.modWarp c w f).leases = s.leases := rfl
@[simp] theorem State.modWarp_genTime (s : State) (c w : Nat) (f : Warp → Warp) : (s.modWarp c w f).genTime = s.genTime := rfl
@[simp] theorem State.modWarp_l2 (s : State) (c w : Nat) (f : Warp → Warp) : (s.modWarp c w f).l2 = s.l2 := rfl
@[simp] theorem State.modWarp_tlb (s : State) (c w : Nat) (f : Warp → Warp) : (s.modWarp c w f).tlb = s.tlb := rfl
@[simp] theorem State.modWarp_atsHost (s : State) (c w : Nat) (f : Warp → Warp) : (s.modWarp c w f).atsHost = s.atsHost := rfl
@[simp] theorem State.modWarp_decided (s : State) (c w : Nat) (f : Warp → Warp) : (s.modWarp c w f).decided = s.decided := rfl
@[simp] theorem State.modWarp_reqs (s : State) (c w : Nat) (f : Warp → Warp) : (s.modWarp c w f).reqs = s.reqs := rfl
@[simp] theorem State.modWarp_copies (s : State) (c w : Nat) (f : Warp → Warp) : (s.modWarp c w f).copies = s.copies := rfl
@[simp] theorem State.modWarp_pageReqs (s : State) (c w : Nat) (f : Warp → Warp) : (s.modWarp c w f).pageReqs = s.pageReqs := rfl
@[simp] theorem State.modWarp_ctxs (s : State) (c w : Nat) (f : Warp → Warp) : (s.modWarp c w f).ctxs = s.ctxs := rfl
@[simp] theorem State.modWarp_parts (s : State) (c w : Nat) (f : Warp → Warp) : (s.modWarp c w f).parts = s.parts := rfl
@[simp] theorem State.modWarp_tinvs (s : State) (c w : Nat) (f : Warp → Warp) : (s.modWarp c w f).tinvs = s.tinvs := rfl
@[simp] theorem State.modWarp_queues (s : State) (c w : Nat) (f : Warp → Warp) : (s.modWarp c w f).queues = s.queues := rfl
@[simp] theorem State.modWarp_launches (s : State) (c w : Nat) (f : Warp → Warp) : (s.modWarp c w f).launches = s.launches := rfl
@[simp] theorem State.modWarp_images (s : State) (c w : Nat) (f : Warp → Warp) : (s.modWarp c w f).images = s.images := rfl
@[simp] theorem State.modWarp_ckpts (s : State) (c w : Nat) (f : Warp → Warp) : (s.modWarp c w f).ckpts = s.ckpts := rfl
@[simp] theorem State.modWarp_shadow (s : State) (c w : Nat) (f : Warp → Warp) : (s.modWarp c w f).shadow = s.shadow := rfl
@[simp] theorem State.modWarp_keys (s : State) (c w : Nat) (f : Warp → Warp) : (s.modWarp c w f).keys = s.keys := rfl
@[simp] theorem State.modWarp_device (s : State) (c w : Nat) (f : Warp → Warp) : (s.modWarp c w f).device = s.device := rfl
@[simp] theorem State.modWarp_peers (s : State) (c w : Nat) (f : Warp → Warp) : (s.modWarp c w f).peers = s.peers := rfl
@[simp] theorem State.modWarp_peerEpoch (s : State) (c w : Nat) (f : Warp → Warp) : (s.modWarp c w f).peerEpoch = s.peerEpoch := rfl
@[simp] theorem State.modWarp_fw (s : State) (c w : Nat) (f : Warp → Warp) : (s.modWarp c w f).fw = s.fw := rfl
@[simp] theorem State.modWarp_irqs (s : State) (c w : Nat) (f : Warp → Warp) : (s.modWarp c w f).irqs = s.irqs := rfl
@[simp] theorem State.modWarp_reports (s : State) (c w : Nat) (f : Warp → Warp) : (s.modWarp c w f).reports = s.reports := rfl
@[simp] theorem State.modWarp_trace (s : State) (c w : Nat) (f : Warp → Warp) : (s.modWarp c w f).trace = s.trace := rfl
@[simp] theorem State.modWarp_hostReplies (s : State) (c w : Nat) (f : Warp → Warp) : (s.modWarp c w f).hostReplies = s.hostReplies := rfl
@[simp] theorem State.modWarp_regs (s : State) (c w : Nat) (f : Warp → Warp) : (s.modWarp c w f).regs = s.regs := rfl
@[simp] theorem State.modWarp_sregs (s : State) (c w : Nat) (f : Warp → Warp) : (s.modWarp c w f).sregs = s.sregs := rfl
@[simp] theorem State.modWarp_owners (s : State) (c w : Nat) (f : Warp → Warp) : (s.modWarp c w f).owners = s.owners := rfl
@[simp] theorem State.modWarp_scratch (s : State) (c w : Nat) (f : Warp → Warp) : (s.modWarp c w f).scratch = s.scratch := rfl
@[simp] theorem State.modWarp_scrPsn (s : State) (c w : Nat) (f : Warp → Warp) : (s.modWarp c w f).scrPsn = s.scrPsn := rfl
@[simp] theorem State.modWarp_opmem (s : State) (c w : Nat) (f : Warp → Warp) : (s.modWarp c w f).opmem = s.opmem := rfl
@[simp] theorem State.modWarp_opPsn (s : State) (c w : Nat) (f : Warp → Warp) : (s.modWarp c w f).opPsn = s.opPsn := rfl
@[simp] theorem State.modWarp_priv (s : State) (c w : Nat) (f : Warp → Warp) : (s.modWarp c w f).priv = s.priv := rfl
@[simp] theorem State.modWarp_privPsn (s : State) (c w : Nat) (f : Warp → Warp) : (s.modWarp c w f).privPsn = s.privPsn := rfl
@[simp] theorem State.modWarp_hpriv (s : State) (c w : Nat) (f : Warp → Warp) : (s.modWarp c w f).hpriv = s.hpriv := rfl
@[simp] theorem State.modWarp_hprivPsn (s : State) (c w : Nat) (f : Warp → Warp) : (s.modWarp c w f).hprivPsn = s.hprivPsn := rfl
@[simp] theorem State.modWarp_sems (s : State) (c w : Nat) (f : Warp → Warp) : (s.modWarp c w f).sems = s.sems := rfl
@[simp] theorem State.modWarp_wstore (s : State) (c w : Nat) (f : Warp → Warp) : (s.modWarp c w f).wstore = s.wstore := rfl
@[simp] theorem State.modWarp_wsPsn (s : State) (c w : Nat) (f : Warp → Warp) : (s.modWarp c w f).wsPsn = s.wsPsn := rfl
@[simp] theorem State.modWarp_threads (s : State) (c w : Nat) (f : Warp → Warp) : (s.modWarp c w f).threads = s.threads := rfl
@[simp] theorem State.modWarp_cores (s : State) (c w : Nat) (f : Warp → Warp) : (s.modWarp c w f).cores = s.cores := rfl
@[simp] theorem State.modWarp_script (s : State) (c w : Nat) (f : Warp → Warp) : (s.modWarp c w f).script = s.script := rfl
@[simp] theorem State.modWarp_turn (s : State) (c w : Nat) (f : Warp → Warp) : (s.modWarp c w f).turn = s.turn := rfl
@[simp] theorem State.modWarp_cur (s : State) (c w : Nat) (f : Warp → Warp) : (s.modWarp c w f).cur = s.cur := rfl
@[simp] theorem State.modWarp_bun (s : State) (c w : Nat) (f : Warp → Warp) : (s.modWarp c w f).bun = s.bun := rfl
@[simp] theorem State.modWarp_nextId (s : State) (c w : Nat) (f : Warp → Warp) : (s.modWarp c w f).nextId = s.nextId := rfl
@[simp] theorem State.modWarp_freeCtr (s : State) (c w : Nat) (f : Warp → Warp) : (s.modWarp c w f).freeCtr = s.freeCtr := rfl

-- modThread ------------------------------------------------------------------------------------------------------------

@[simp] theorem State.modThread_time (s : State) (c w l : Nat) (f : Thread → Thread) : (s.modThread c w l f).time = s.time := rfl
@[simp] theorem State.modThread_clock (s : State) (c w l : Nat) (f : Thread → Thread) : (s.modThread c w l f).clock = s.clock := rfl
@[simp] theorem State.modThread_phase (s : State) (c w l : Nat) (f : Thread → Thread) : (s.modThread c w l f).phase = s.phase := rfl
@[simp] theorem State.modThread_hbm (s : State) (c w l : Nat) (f : Thread → Thread) : (s.modThread c w l f).hbm = s.hbm := rfl
@[simp] theorem State.modThread_hbmPsn (s : State) (c w l : Nat) (f : Thread → Thread) : (s.modThread c w l f).hbmPsn = s.hbmPsn := rfl
@[simp] theorem State.modThread_unitKey (s : State) (c w l : Nat) (f : Thread → Thread) : (s.modThread c w l f).unitKey = s.unitKey := rfl
@[simp] theorem State.modThread_hostMem (s : State) (c w l : Nat) (f : Thread → Thread) : (s.modThread c w l f).hostMem = s.hostMem := rfl
@[simp] theorem State.modThread_peerMem (s : State) (c w l : Nat) (f : Thread → Thread) : (s.modThread c w l f).peerMem = s.peerMem := rfl
@[simp] theorem State.modThread_mailbox (s : State) (c w l : Nat) (f : Thread → Thread) : (s.modThread c w l f).mailbox = s.mailbox := rfl
@[simp] theorem State.modThread_leases (s : State) (c w l : Nat) (f : Thread → Thread) : (s.modThread c w l f).leases = s.leases := rfl
@[simp] theorem State.modThread_genTime (s : State) (c w l : Nat) (f : Thread → Thread) : (s.modThread c w l f).genTime = s.genTime := rfl
@[simp] theorem State.modThread_l2 (s : State) (c w l : Nat) (f : Thread → Thread) : (s.modThread c w l f).l2 = s.l2 := rfl
@[simp] theorem State.modThread_tlb (s : State) (c w l : Nat) (f : Thread → Thread) : (s.modThread c w l f).tlb = s.tlb := rfl
@[simp] theorem State.modThread_atsHost (s : State) (c w l : Nat) (f : Thread → Thread) : (s.modThread c w l f).atsHost = s.atsHost := rfl
@[simp] theorem State.modThread_decided (s : State) (c w l : Nat) (f : Thread → Thread) : (s.modThread c w l f).decided = s.decided := rfl
@[simp] theorem State.modThread_reqs (s : State) (c w l : Nat) (f : Thread → Thread) : (s.modThread c w l f).reqs = s.reqs := rfl
@[simp] theorem State.modThread_copies (s : State) (c w l : Nat) (f : Thread → Thread) : (s.modThread c w l f).copies = s.copies := rfl
@[simp] theorem State.modThread_pageReqs (s : State) (c w l : Nat) (f : Thread → Thread) : (s.modThread c w l f).pageReqs = s.pageReqs := rfl
@[simp] theorem State.modThread_ctxs (s : State) (c w l : Nat) (f : Thread → Thread) : (s.modThread c w l f).ctxs = s.ctxs := rfl
@[simp] theorem State.modThread_parts (s : State) (c w l : Nat) (f : Thread → Thread) : (s.modThread c w l f).parts = s.parts := rfl
@[simp] theorem State.modThread_tinvs (s : State) (c w l : Nat) (f : Thread → Thread) : (s.modThread c w l f).tinvs = s.tinvs := rfl
@[simp] theorem State.modThread_queues (s : State) (c w l : Nat) (f : Thread → Thread) : (s.modThread c w l f).queues = s.queues := rfl
@[simp] theorem State.modThread_launches (s : State) (c w l : Nat) (f : Thread → Thread) : (s.modThread c w l f).launches = s.launches := rfl
@[simp] theorem State.modThread_images (s : State) (c w l : Nat) (f : Thread → Thread) : (s.modThread c w l f).images = s.images := rfl
@[simp] theorem State.modThread_ckpts (s : State) (c w l : Nat) (f : Thread → Thread) : (s.modThread c w l f).ckpts = s.ckpts := rfl
@[simp] theorem State.modThread_shadow (s : State) (c w l : Nat) (f : Thread → Thread) : (s.modThread c w l f).shadow = s.shadow := rfl
@[simp] theorem State.modThread_keys (s : State) (c w l : Nat) (f : Thread → Thread) : (s.modThread c w l f).keys = s.keys := rfl
@[simp] theorem State.modThread_device (s : State) (c w l : Nat) (f : Thread → Thread) : (s.modThread c w l f).device = s.device := rfl
@[simp] theorem State.modThread_peers (s : State) (c w l : Nat) (f : Thread → Thread) : (s.modThread c w l f).peers = s.peers := rfl
@[simp] theorem State.modThread_peerEpoch (s : State) (c w l : Nat) (f : Thread → Thread) : (s.modThread c w l f).peerEpoch = s.peerEpoch := rfl
@[simp] theorem State.modThread_fw (s : State) (c w l : Nat) (f : Thread → Thread) : (s.modThread c w l f).fw = s.fw := rfl
@[simp] theorem State.modThread_irqs (s : State) (c w l : Nat) (f : Thread → Thread) : (s.modThread c w l f).irqs = s.irqs := rfl
@[simp] theorem State.modThread_reports (s : State) (c w l : Nat) (f : Thread → Thread) : (s.modThread c w l f).reports = s.reports := rfl
@[simp] theorem State.modThread_trace (s : State) (c w l : Nat) (f : Thread → Thread) : (s.modThread c w l f).trace = s.trace := rfl
@[simp] theorem State.modThread_hostReplies (s : State) (c w l : Nat) (f : Thread → Thread) : (s.modThread c w l f).hostReplies = s.hostReplies := rfl
@[simp] theorem State.modThread_regs (s : State) (c w l : Nat) (f : Thread → Thread) : (s.modThread c w l f).regs = s.regs := rfl
@[simp] theorem State.modThread_sregs (s : State) (c w l : Nat) (f : Thread → Thread) : (s.modThread c w l f).sregs = s.sregs := rfl
@[simp] theorem State.modThread_owners (s : State) (c w l : Nat) (f : Thread → Thread) : (s.modThread c w l f).owners = s.owners := rfl
@[simp] theorem State.modThread_scratch (s : State) (c w l : Nat) (f : Thread → Thread) : (s.modThread c w l f).scratch = s.scratch := rfl
@[simp] theorem State.modThread_scrPsn (s : State) (c w l : Nat) (f : Thread → Thread) : (s.modThread c w l f).scrPsn = s.scrPsn := rfl
@[simp] theorem State.modThread_opmem (s : State) (c w l : Nat) (f : Thread → Thread) : (s.modThread c w l f).opmem = s.opmem := rfl
@[simp] theorem State.modThread_opPsn (s : State) (c w l : Nat) (f : Thread → Thread) : (s.modThread c w l f).opPsn = s.opPsn := rfl
@[simp] theorem State.modThread_priv (s : State) (c w l : Nat) (f : Thread → Thread) : (s.modThread c w l f).priv = s.priv := rfl
@[simp] theorem State.modThread_privPsn (s : State) (c w l : Nat) (f : Thread → Thread) : (s.modThread c w l f).privPsn = s.privPsn := rfl
@[simp] theorem State.modThread_hpriv (s : State) (c w l : Nat) (f : Thread → Thread) : (s.modThread c w l f).hpriv = s.hpriv := rfl
@[simp] theorem State.modThread_hprivPsn (s : State) (c w l : Nat) (f : Thread → Thread) : (s.modThread c w l f).hprivPsn = s.hprivPsn := rfl
@[simp] theorem State.modThread_sems (s : State) (c w l : Nat) (f : Thread → Thread) : (s.modThread c w l f).sems = s.sems := rfl
@[simp] theorem State.modThread_wstore (s : State) (c w l : Nat) (f : Thread → Thread) : (s.modThread c w l f).wstore = s.wstore := rfl
@[simp] theorem State.modThread_wsPsn (s : State) (c w l : Nat) (f : Thread → Thread) : (s.modThread c w l f).wsPsn = s.wsPsn := rfl
@[simp] theorem State.modThread_warps (s : State) (c w l : Nat) (f : Thread → Thread) : (s.modThread c w l f).warps = s.warps := rfl
@[simp] theorem State.modThread_cores (s : State) (c w l : Nat) (f : Thread → Thread) : (s.modThread c w l f).cores = s.cores := rfl
@[simp] theorem State.modThread_script (s : State) (c w l : Nat) (f : Thread → Thread) : (s.modThread c w l f).script = s.script := rfl
@[simp] theorem State.modThread_turn (s : State) (c w l : Nat) (f : Thread → Thread) : (s.modThread c w l f).turn = s.turn := rfl
@[simp] theorem State.modThread_cur (s : State) (c w l : Nat) (f : Thread → Thread) : (s.modThread c w l f).cur = s.cur := rfl
@[simp] theorem State.modThread_bun (s : State) (c w l : Nat) (f : Thread → Thread) : (s.modThread c w l f).bun = s.bun := rfl
@[simp] theorem State.modThread_nextId (s : State) (c w l : Nat) (f : Thread → Thread) : (s.modThread c w l f).nextId = s.nextId := rfl
@[simp] theorem State.modThread_freeCtr (s : State) (c w l : Nat) (f : Thread → Thread) : (s.modThread c w l f).freeCtr = s.freeCtr := rfl

-- modSeq ---------------------------------------------------------------------------------------------------------------

@[simp] theorem State.modSeq_time (s : State) (c : Nat) (f : Seq → Seq) : (s.modSeq c f).time = s.time := rfl
@[simp] theorem State.modSeq_clock (s : State) (c : Nat) (f : Seq → Seq) : (s.modSeq c f).clock = s.clock := rfl
@[simp] theorem State.modSeq_phase (s : State) (c : Nat) (f : Seq → Seq) : (s.modSeq c f).phase = s.phase := rfl
@[simp] theorem State.modSeq_hbm (s : State) (c : Nat) (f : Seq → Seq) : (s.modSeq c f).hbm = s.hbm := rfl
@[simp] theorem State.modSeq_hbmPsn (s : State) (c : Nat) (f : Seq → Seq) : (s.modSeq c f).hbmPsn = s.hbmPsn := rfl
@[simp] theorem State.modSeq_unitKey (s : State) (c : Nat) (f : Seq → Seq) : (s.modSeq c f).unitKey = s.unitKey := rfl
@[simp] theorem State.modSeq_hostMem (s : State) (c : Nat) (f : Seq → Seq) : (s.modSeq c f).hostMem = s.hostMem := rfl
@[simp] theorem State.modSeq_peerMem (s : State) (c : Nat) (f : Seq → Seq) : (s.modSeq c f).peerMem = s.peerMem := rfl
@[simp] theorem State.modSeq_mailbox (s : State) (c : Nat) (f : Seq → Seq) : (s.modSeq c f).mailbox = s.mailbox := rfl
@[simp] theorem State.modSeq_leases (s : State) (c : Nat) (f : Seq → Seq) : (s.modSeq c f).leases = s.leases := rfl
@[simp] theorem State.modSeq_genTime (s : State) (c : Nat) (f : Seq → Seq) : (s.modSeq c f).genTime = s.genTime := rfl
@[simp] theorem State.modSeq_l2 (s : State) (c : Nat) (f : Seq → Seq) : (s.modSeq c f).l2 = s.l2 := rfl
@[simp] theorem State.modSeq_tlb (s : State) (c : Nat) (f : Seq → Seq) : (s.modSeq c f).tlb = s.tlb := rfl
@[simp] theorem State.modSeq_atsHost (s : State) (c : Nat) (f : Seq → Seq) : (s.modSeq c f).atsHost = s.atsHost := rfl
@[simp] theorem State.modSeq_decided (s : State) (c : Nat) (f : Seq → Seq) : (s.modSeq c f).decided = s.decided := rfl
@[simp] theorem State.modSeq_reqs (s : State) (c : Nat) (f : Seq → Seq) : (s.modSeq c f).reqs = s.reqs := rfl
@[simp] theorem State.modSeq_copies (s : State) (c : Nat) (f : Seq → Seq) : (s.modSeq c f).copies = s.copies := rfl
@[simp] theorem State.modSeq_pageReqs (s : State) (c : Nat) (f : Seq → Seq) : (s.modSeq c f).pageReqs = s.pageReqs := rfl
@[simp] theorem State.modSeq_ctxs (s : State) (c : Nat) (f : Seq → Seq) : (s.modSeq c f).ctxs = s.ctxs := rfl
@[simp] theorem State.modSeq_parts (s : State) (c : Nat) (f : Seq → Seq) : (s.modSeq c f).parts = s.parts := rfl
@[simp] theorem State.modSeq_tinvs (s : State) (c : Nat) (f : Seq → Seq) : (s.modSeq c f).tinvs = s.tinvs := rfl
@[simp] theorem State.modSeq_queues (s : State) (c : Nat) (f : Seq → Seq) : (s.modSeq c f).queues = s.queues := rfl
@[simp] theorem State.modSeq_launches (s : State) (c : Nat) (f : Seq → Seq) : (s.modSeq c f).launches = s.launches := rfl
@[simp] theorem State.modSeq_images (s : State) (c : Nat) (f : Seq → Seq) : (s.modSeq c f).images = s.images := rfl
@[simp] theorem State.modSeq_ckpts (s : State) (c : Nat) (f : Seq → Seq) : (s.modSeq c f).ckpts = s.ckpts := rfl
@[simp] theorem State.modSeq_shadow (s : State) (c : Nat) (f : Seq → Seq) : (s.modSeq c f).shadow = s.shadow := rfl
@[simp] theorem State.modSeq_keys (s : State) (c : Nat) (f : Seq → Seq) : (s.modSeq c f).keys = s.keys := rfl
@[simp] theorem State.modSeq_device (s : State) (c : Nat) (f : Seq → Seq) : (s.modSeq c f).device = s.device := rfl
@[simp] theorem State.modSeq_peers (s : State) (c : Nat) (f : Seq → Seq) : (s.modSeq c f).peers = s.peers := rfl
@[simp] theorem State.modSeq_peerEpoch (s : State) (c : Nat) (f : Seq → Seq) : (s.modSeq c f).peerEpoch = s.peerEpoch := rfl
@[simp] theorem State.modSeq_fw (s : State) (c : Nat) (f : Seq → Seq) : (s.modSeq c f).fw = s.fw := rfl
@[simp] theorem State.modSeq_irqs (s : State) (c : Nat) (f : Seq → Seq) : (s.modSeq c f).irqs = s.irqs := rfl
@[simp] theorem State.modSeq_reports (s : State) (c : Nat) (f : Seq → Seq) : (s.modSeq c f).reports = s.reports := rfl
@[simp] theorem State.modSeq_trace (s : State) (c : Nat) (f : Seq → Seq) : (s.modSeq c f).trace = s.trace := rfl
@[simp] theorem State.modSeq_hostReplies (s : State) (c : Nat) (f : Seq → Seq) : (s.modSeq c f).hostReplies = s.hostReplies := rfl
@[simp] theorem State.modSeq_regs (s : State) (c : Nat) (f : Seq → Seq) : (s.modSeq c f).regs = s.regs := rfl
@[simp] theorem State.modSeq_sregs (s : State) (c : Nat) (f : Seq → Seq) : (s.modSeq c f).sregs = s.sregs := rfl
@[simp] theorem State.modSeq_owners (s : State) (c : Nat) (f : Seq → Seq) : (s.modSeq c f).owners = s.owners := rfl
@[simp] theorem State.modSeq_scratch (s : State) (c : Nat) (f : Seq → Seq) : (s.modSeq c f).scratch = s.scratch := rfl
@[simp] theorem State.modSeq_scrPsn (s : State) (c : Nat) (f : Seq → Seq) : (s.modSeq c f).scrPsn = s.scrPsn := rfl
@[simp] theorem State.modSeq_opmem (s : State) (c : Nat) (f : Seq → Seq) : (s.modSeq c f).opmem = s.opmem := rfl
@[simp] theorem State.modSeq_opPsn (s : State) (c : Nat) (f : Seq → Seq) : (s.modSeq c f).opPsn = s.opPsn := rfl
@[simp] theorem State.modSeq_priv (s : State) (c : Nat) (f : Seq → Seq) : (s.modSeq c f).priv = s.priv := rfl
@[simp] theorem State.modSeq_privPsn (s : State) (c : Nat) (f : Seq → Seq) : (s.modSeq c f).privPsn = s.privPsn := rfl
@[simp] theorem State.modSeq_hpriv (s : State) (c : Nat) (f : Seq → Seq) : (s.modSeq c f).hpriv = s.hpriv := rfl
@[simp] theorem State.modSeq_hprivPsn (s : State) (c : Nat) (f : Seq → Seq) : (s.modSeq c f).hprivPsn = s.hprivPsn := rfl
@[simp] theorem State.modSeq_sems (s : State) (c : Nat) (f : Seq → Seq) : (s.modSeq c f).sems = s.sems := rfl
@[simp] theorem State.modSeq_wstore (s : State) (c : Nat) (f : Seq → Seq) : (s.modSeq c f).wstore = s.wstore := rfl
@[simp] theorem State.modSeq_wsPsn (s : State) (c : Nat) (f : Seq → Seq) : (s.modSeq c f).wsPsn = s.wsPsn := rfl
@[simp] theorem State.modSeq_threads (s : State) (c : Nat) (f : Seq → Seq) : (s.modSeq c f).threads = s.threads := rfl
@[simp] theorem State.modSeq_warps (s : State) (c : Nat) (f : Seq → Seq) : (s.modSeq c f).warps = s.warps := rfl
@[simp] theorem State.modSeq_script (s : State) (c : Nat) (f : Seq → Seq) : (s.modSeq c f).script = s.script := rfl
@[simp] theorem State.modSeq_turn (s : State) (c : Nat) (f : Seq → Seq) : (s.modSeq c f).turn = s.turn := rfl
@[simp] theorem State.modSeq_cur (s : State) (c : Nat) (f : Seq → Seq) : (s.modSeq c f).cur = s.cur := rfl
@[simp] theorem State.modSeq_bun (s : State) (c : Nat) (f : Seq → Seq) : (s.modSeq c f).bun = s.bun := rfl
@[simp] theorem State.modSeq_nextId (s : State) (c : Nat) (f : Seq → Seq) : (s.modSeq c f).nextId = s.nextId := rfl
@[simp] theorem State.modSeq_freeCtr (s : State) (c : Nat) (f : Seq → Seq) : (s.modSeq c f).freeCtr = s.freeCtr := rfl

-- modCtx ---------------------------------------------------------------------------------------------------------------

@[simp] theorem State.modCtx_time (s : State) (n : Nat) (f : Ctx → Ctx) : (s.modCtx n f).time = s.time := rfl
@[simp] theorem State.modCtx_clock (s : State) (n : Nat) (f : Ctx → Ctx) : (s.modCtx n f).clock = s.clock := rfl
@[simp] theorem State.modCtx_phase (s : State) (n : Nat) (f : Ctx → Ctx) : (s.modCtx n f).phase = s.phase := rfl
@[simp] theorem State.modCtx_hbm (s : State) (n : Nat) (f : Ctx → Ctx) : (s.modCtx n f).hbm = s.hbm := rfl
@[simp] theorem State.modCtx_hbmPsn (s : State) (n : Nat) (f : Ctx → Ctx) : (s.modCtx n f).hbmPsn = s.hbmPsn := rfl
@[simp] theorem State.modCtx_unitKey (s : State) (n : Nat) (f : Ctx → Ctx) : (s.modCtx n f).unitKey = s.unitKey := rfl
@[simp] theorem State.modCtx_hostMem (s : State) (n : Nat) (f : Ctx → Ctx) : (s.modCtx n f).hostMem = s.hostMem := rfl
@[simp] theorem State.modCtx_peerMem (s : State) (n : Nat) (f : Ctx → Ctx) : (s.modCtx n f).peerMem = s.peerMem := rfl
@[simp] theorem State.modCtx_mailbox (s : State) (n : Nat) (f : Ctx → Ctx) : (s.modCtx n f).mailbox = s.mailbox := rfl
@[simp] theorem State.modCtx_leases (s : State) (n : Nat) (f : Ctx → Ctx) : (s.modCtx n f).leases = s.leases := rfl
@[simp] theorem State.modCtx_genTime (s : State) (n : Nat) (f : Ctx → Ctx) : (s.modCtx n f).genTime = s.genTime := rfl
@[simp] theorem State.modCtx_l2 (s : State) (n : Nat) (f : Ctx → Ctx) : (s.modCtx n f).l2 = s.l2 := rfl
@[simp] theorem State.modCtx_tlb (s : State) (n : Nat) (f : Ctx → Ctx) : (s.modCtx n f).tlb = s.tlb := rfl
@[simp] theorem State.modCtx_atsHost (s : State) (n : Nat) (f : Ctx → Ctx) : (s.modCtx n f).atsHost = s.atsHost := rfl
@[simp] theorem State.modCtx_decided (s : State) (n : Nat) (f : Ctx → Ctx) : (s.modCtx n f).decided = s.decided := rfl
@[simp] theorem State.modCtx_reqs (s : State) (n : Nat) (f : Ctx → Ctx) : (s.modCtx n f).reqs = s.reqs := rfl
@[simp] theorem State.modCtx_copies (s : State) (n : Nat) (f : Ctx → Ctx) : (s.modCtx n f).copies = s.copies := rfl
@[simp] theorem State.modCtx_pageReqs (s : State) (n : Nat) (f : Ctx → Ctx) : (s.modCtx n f).pageReqs = s.pageReqs := rfl
@[simp] theorem State.modCtx_parts (s : State) (n : Nat) (f : Ctx → Ctx) : (s.modCtx n f).parts = s.parts := rfl
@[simp] theorem State.modCtx_tinvs (s : State) (n : Nat) (f : Ctx → Ctx) : (s.modCtx n f).tinvs = s.tinvs := rfl
@[simp] theorem State.modCtx_queues (s : State) (n : Nat) (f : Ctx → Ctx) : (s.modCtx n f).queues = s.queues := rfl
@[simp] theorem State.modCtx_launches (s : State) (n : Nat) (f : Ctx → Ctx) : (s.modCtx n f).launches = s.launches := rfl
@[simp] theorem State.modCtx_images (s : State) (n : Nat) (f : Ctx → Ctx) : (s.modCtx n f).images = s.images := rfl
@[simp] theorem State.modCtx_ckpts (s : State) (n : Nat) (f : Ctx → Ctx) : (s.modCtx n f).ckpts = s.ckpts := rfl
@[simp] theorem State.modCtx_shadow (s : State) (n : Nat) (f : Ctx → Ctx) : (s.modCtx n f).shadow = s.shadow := rfl
@[simp] theorem State.modCtx_keys (s : State) (n : Nat) (f : Ctx → Ctx) : (s.modCtx n f).keys = s.keys := rfl
@[simp] theorem State.modCtx_device (s : State) (n : Nat) (f : Ctx → Ctx) : (s.modCtx n f).device = s.device := rfl
@[simp] theorem State.modCtx_peers (s : State) (n : Nat) (f : Ctx → Ctx) : (s.modCtx n f).peers = s.peers := rfl
@[simp] theorem State.modCtx_peerEpoch (s : State) (n : Nat) (f : Ctx → Ctx) : (s.modCtx n f).peerEpoch = s.peerEpoch := rfl
@[simp] theorem State.modCtx_fw (s : State) (n : Nat) (f : Ctx → Ctx) : (s.modCtx n f).fw = s.fw := rfl
@[simp] theorem State.modCtx_irqs (s : State) (n : Nat) (f : Ctx → Ctx) : (s.modCtx n f).irqs = s.irqs := rfl
@[simp] theorem State.modCtx_reports (s : State) (n : Nat) (f : Ctx → Ctx) : (s.modCtx n f).reports = s.reports := rfl
@[simp] theorem State.modCtx_trace (s : State) (n : Nat) (f : Ctx → Ctx) : (s.modCtx n f).trace = s.trace := rfl
@[simp] theorem State.modCtx_hostReplies (s : State) (n : Nat) (f : Ctx → Ctx) : (s.modCtx n f).hostReplies = s.hostReplies := rfl
@[simp] theorem State.modCtx_regs (s : State) (n : Nat) (f : Ctx → Ctx) : (s.modCtx n f).regs = s.regs := rfl
@[simp] theorem State.modCtx_sregs (s : State) (n : Nat) (f : Ctx → Ctx) : (s.modCtx n f).sregs = s.sregs := rfl
@[simp] theorem State.modCtx_owners (s : State) (n : Nat) (f : Ctx → Ctx) : (s.modCtx n f).owners = s.owners := rfl
@[simp] theorem State.modCtx_scratch (s : State) (n : Nat) (f : Ctx → Ctx) : (s.modCtx n f).scratch = s.scratch := rfl
@[simp] theorem State.modCtx_scrPsn (s : State) (n : Nat) (f : Ctx → Ctx) : (s.modCtx n f).scrPsn = s.scrPsn := rfl
@[simp] theorem State.modCtx_opmem (s : State) (n : Nat) (f : Ctx → Ctx) : (s.modCtx n f).opmem = s.opmem := rfl
@[simp] theorem State.modCtx_opPsn (s : State) (n : Nat) (f : Ctx → Ctx) : (s.modCtx n f).opPsn = s.opPsn := rfl
@[simp] theorem State.modCtx_priv (s : State) (n : Nat) (f : Ctx → Ctx) : (s.modCtx n f).priv = s.priv := rfl
@[simp] theorem State.modCtx_privPsn (s : State) (n : Nat) (f : Ctx → Ctx) : (s.modCtx n f).privPsn = s.privPsn := rfl
@[simp] theorem State.modCtx_hpriv (s : State) (n : Nat) (f : Ctx → Ctx) : (s.modCtx n f).hpriv = s.hpriv := rfl
@[simp] theorem State.modCtx_hprivPsn (s : State) (n : Nat) (f : Ctx → Ctx) : (s.modCtx n f).hprivPsn = s.hprivPsn := rfl
@[simp] theorem State.modCtx_sems (s : State) (n : Nat) (f : Ctx → Ctx) : (s.modCtx n f).sems = s.sems := rfl
@[simp] theorem State.modCtx_wstore (s : State) (n : Nat) (f : Ctx → Ctx) : (s.modCtx n f).wstore = s.wstore := rfl
@[simp] theorem State.modCtx_wsPsn (s : State) (n : Nat) (f : Ctx → Ctx) : (s.modCtx n f).wsPsn = s.wsPsn := rfl
@[simp] theorem State.modCtx_threads (s : State) (n : Nat) (f : Ctx → Ctx) : (s.modCtx n f).threads = s.threads := rfl
@[simp] theorem State.modCtx_warps (s : State) (n : Nat) (f : Ctx → Ctx) : (s.modCtx n f).warps = s.warps := rfl
@[simp] theorem State.modCtx_cores (s : State) (n : Nat) (f : Ctx → Ctx) : (s.modCtx n f).cores = s.cores := rfl
@[simp] theorem State.modCtx_script (s : State) (n : Nat) (f : Ctx → Ctx) : (s.modCtx n f).script = s.script := rfl
@[simp] theorem State.modCtx_turn (s : State) (n : Nat) (f : Ctx → Ctx) : (s.modCtx n f).turn = s.turn := rfl
@[simp] theorem State.modCtx_cur (s : State) (n : Nat) (f : Ctx → Ctx) : (s.modCtx n f).cur = s.cur := rfl
@[simp] theorem State.modCtx_bun (s : State) (n : Nat) (f : Ctx → Ctx) : (s.modCtx n f).bun = s.bun := rfl
@[simp] theorem State.modCtx_nextId (s : State) (n : Nat) (f : Ctx → Ctx) : (s.modCtx n f).nextId = s.nextId := rfl
@[simp] theorem State.modCtx_freeCtr (s : State) (n : Nat) (f : Ctx → Ctx) : (s.modCtx n f).freeCtr = s.freeCtr := rfl

-- Reads after writes -----------------------------------------------------------------------------------------------

@[simp] theorem State.core_setCore (s : State) (c : Nat) (x : Core) : (s.setCore c x).core c = x := by
  simp [State.core, State.setCore]
@[simp] theorem State.warp_setWarp (s : State) (c w : Nat) (x : Warp) : (s.setWarp c w x).warp c w = x := by
  simp [State.warp, State.setWarp]
@[simp] theorem State.thread_setThread (s : State) (c w l : Nat) (x : Thread) : (s.setThread c w l x).thread c w l = x := by
  simp [State.thread, State.setThread]
@[simp] theorem State.tileWord_setTileWord (s : State) (c t k : Nat) (x : TWord) : (s.setTileWord c t k x).tileWord c t k = x := by
  simp [State.tileWord, State.setTileWord]
@[simp] theorem State.sreg_setSreg (s : State) (c w n : Nat) (x : TWord) : (s.setSreg c w n x).sreg c w n = x := by
  simp [State.sreg, State.setSreg]
@[simp] theorem State.owner_setOwner (s : State) (c t : Nat) (x : Byte) : (s.setOwner c t x).owner c t = x := by
  simp [State.owner, State.setOwner]
@[simp] theorem State.ctx_setCtx (s : State) (n : Nat) (x : Ctx) : (s.setCtx n x).ctx n = x := by simp [State.ctx, State.setCtx]
@[simp] theorem State.part_setPart (s : State) (n : Nat) (x : Partition) : (s.setPart n x).part n = x := by
  simp [State.part, State.setPart]
@[simp] theorem State.queue_setQueue (s : State) (n : Nat) (x : Queue) : (s.setQueue n x).queue n = x := by
  simp [State.queue, State.setQueue]
@[simp] theorem State.tinv_setTinv (s : State) (n : Nat) (x : TInv) : (s.setTinv n x).tinv n = x := by
  simp [State.tinv, State.setTinv]
@[simp] theorem State.launch_setLaunch (s : State) (n : Nat) (x : Launch) : (s.setLaunch n x).launch n = some x := by
  simp [State.launch, State.setLaunch, Store.find_put_self]

theorem State.core_setCore_ne (s : State) {c d : Nat} (x : Core) (h : d ≠ c) : (s.setCore c x).core d = s.core d := by
  simp [State.core, State.setCore, Store.get_set_ne _ _ _ h]
theorem State.ctx_setCtx_ne (s : State) {n k : Nat} (x : Ctx) (h : k ≠ n) : (s.setCtx n x).ctx k = s.ctx k := by
  simp [State.ctx, State.setCtx, Store.get_set_ne _ _ _ h]
theorem State.part_setPart_ne (s : State) {n k : Nat} (x : Partition) (h : k ≠ n) : (s.setPart n x).part k = s.part k := by
  simp [State.part, State.setPart, Store.get_set_ne _ _ _ h]
theorem State.queue_setQueue_ne (s : State) {n k : Nat} (x : Queue) (h : k ≠ n) : (s.setQueue n x).queue k = s.queue k := by
  simp [State.queue, State.setQueue, Store.get_set_ne _ _ _ h]
theorem State.launch_setLaunch_ne (s : State) {n k : Nat} (x : Launch) (h : k ≠ n) : (s.setLaunch n x).launch k = s.launch k := by
  simp [State.launch, State.setLaunch, Store.find_put_ne _ _ h]

/-- A write of a thread leaves the others: keys of the warps of a core, and of lanes below 32, do not meet. -/
theorem thrKey_inj {c w l d v k : Nat} (hw : w < 65) (hv : v < 65) (hl : l < 32) (hk : k < 32) (h : thrKey c w l = thrKey d v k) :
    c = d ∧ w = v ∧ l = k := by
  unfold thrKey at h
  omega
theorem warpKey_inj {c w d v : Nat} (hw : w < 65) (hv : v < 65) (h : warpKey c w = warpKey d v) : c = d ∧ w = v := by
  unfold warpKey at h
  omega
theorem thrKey_lane {c w l k : Nat} (h : l ≠ k) : thrKey c w l ≠ thrKey c w k := by
  unfold thrKey
  omega
theorem State.thread_setThread_lane (s : State) (c w : Nat) {l k : Nat} (x : Thread) (h : k ≠ l) :
    (s.setThread c w l x).thread c w k = s.thread c w k := by
  simp [State.thread, State.setThread, Store.get_set_ne _ _ _ (thrKey_lane h)]

/-- The word of one register number in two lanes, and of two numbers in one lane, lie apart. -/
theorem vReg_inj {c tb l k n m : Nat} (hl : l < 32) (hk : k < 32)
    (h : regKey c (vTile tb n) (vWord l n) = regKey c (vTile tb m) (vWord k m)) : l = k ∧ n = m := by
  unfold regKey vTile vWord at h
  omega

@[simp] theorem State.thread_modThread (s : State) (c w l : Nat) (f : Thread → Thread) :
    (s.modThread c w l f).thread c w l = f (s.thread c w l) := by simp [State.modThread]
@[simp] theorem State.warp_modWarp (s : State) (c w : Nat) (f : Warp → Warp) : (s.modWarp c w f).warp c w = f (s.warp c w) := by
  simp [State.modWarp]
@[simp] theorem State.core_modCore (s : State) (c : Nat) (f : Core → Core) : (s.modCore c f).core c = f (s.core c) := by
  simp [State.modCore]
@[simp] theorem State.ctx_modCtx (s : State) (n : Nat) (f : Ctx → Ctx) : (s.modCtx n f).ctx n = f (s.ctx n) := by simp [State.modCtx]
@[simp] theorem State.seq_modSeq (s : State) (c : Nat) (f : Seq → Seq) : ((s.modSeq c f).core c).seq = f (s.core c).seq := by
  simp [State.modSeq]
theorem State.thread_modThread_lane (s : State) (c w : Nat) {l k : Nat} (f : Thread → Thread) (h : k ≠ l) :
    (s.modThread c w l f).thread c w k = s.thread c w k := State.thread_setThread_lane s c w _ h

@[simp] theorem State.thread_modWarp (s : State) (c w c' w' l : Nat) (f : Warp → Warp) :
    (s.modWarp c w f).thread c' w' l = s.thread c' w' l := rfl
@[simp] theorem State.warp_modThread (s : State) (c w l c' w' : Nat) (f : Thread → Thread) :
    (s.modThread c w l f).warp c' w' = s.warp c' w' := rfl

end Sys2Proof.Machine
end

