-- ==== Sys2Proof/Laws/Issue.lean ====
section
/-!
SUPPORT. Sys2Proof/Laws/Issue.lean: what the shared operations of an issue do. Moving threads on, the issue of R62, and the moulds of
register, predicate and branch instructions.
-/
namespace Sys2Proof.Machine

-- Lanes ------------------------------------------------------------------------------------------------------------

theorem lanesOf_lt {m : Word} {l : Nat} (h : l ∈ lanesOf m) : l < 32 := by
  unfold lanesOf at h
  simpa using (List.mem_filter.1 h).1

theorem lanesOf_nodup (m : Word) : (lanesOf m).Nodup := List.Pairwise.filter _ List.nodup_range

theorem State.onLanes_sub {s : State} {c : Cur} {h : Head} {l : Nat} (hl : l ∈ s.onLanes c h) : l ∈ lanesOf c.mask :=
  (List.mem_filter.1 hl).1
theorem State.offLanes_sub {s : State} {c : Cur} {h : Head} {l : Nat} (hl : l ∈ s.offLanes c h) : l ∈ lanesOf c.mask :=
  (List.mem_filter.1 hl).1
theorem State.onLanes_nodup (s : State) (c : Cur) (h : Head) : (s.onLanes c h).Nodup := List.Pairwise.filter _ (lanesOf_nodup _)
theorem State.offLanes_nodup (s : State) (c : Cur) (h : Head) : (s.offLanes c h).Nodup := List.Pairwise.filter _ (lanesOf_nodup _)
theorem State.lane_on_or_off (s : State) (c : Cur) (h : Head) {l : Nat} (hl : l ∈ lanesOf c.mask) :
    l ∈ s.onLanes c h ∨ l ∈ s.offLanes c h := by
  unfold State.onLanes State.offLanes
  cases e : guardOn h (s.thread c.core c.warp l)
  · exact .inr (List.mem_filter.2 ⟨hl, by simp [e]⟩)
  · exact .inl (List.mem_filter.2 ⟨hl, e⟩)
theorem State.on_not_off {s : State} {c : Cur} {h : Head} {l : Nat} (hl : l ∈ s.onLanes c h) : l ∉ s.offLanes c h := by
  intro h2
  have a := (List.mem_filter.1 hl).2
  have b := (List.mem_filter.1 h2).2
  simp [a] at b
theorem State.on_off_length (s : State) (c : Cur) (h : Head) :
    (s.onLanes c h).length + (s.offLanes c h).length = (lanesOf c.mask).length := by
  unfold State.onLanes State.offLanes
  generalize lanesOf c.mask = ls
  induction ls with
  | nil => rfl
  | cons a t ih =>
    cases e : guardOn h (s.thread c.core c.warp a)
    · simp [List.filter, e]
      omega
    · simp [List.filter, e]
      omega

theorem map_fst_nodup {β : Type} {f : Nat → β} {ls : List Nat} (h : ls.Nodup) : ((ls.map fun l => (l, f l)).map (·.1)).Nodup := by
  rw [List.map_map]
  simpa [Function.comp_def] using h

-- Folds over the threads of a warp ---------------------------------------------------------------------------------

/-- Updates threads of one warp, one after another; f may look at TIME. -/
def State.eachThread {α : Type} (s : State) (c w : Nat) (g : α → Nat) (f : Nat → α → Thread → Thread) (ps : List α) : State :=
  ps.foldl (fun s p => s.modThread c w (g p) (f s.time p)) s

theorem State.eachThread_rest {α : Type} (c w : Nat) (g : α → Nat) (f : Nat → α → Thread → Thread) (ps : List α) (s : State) :
    s.eachThread c w g f ps = { s with threads := (s.eachThread c w g f ps).threads } := by
  induction ps generalizing s with
  | nil => rfl
  | cons p t ih =>
    show State.eachThread (s.modThread c w (g p) (f s.time p)) c w g f t = _
    rw [ih]
    rfl

theorem State.eachThread_other {α : Type} (c w : Nat) (g : α → Nat) (f : Nat → α → Thread → Thread) (ps : List α) (s : State)
    (key : Nat) (h : ∀ p ∈ ps, key ≠ thrKey c w (g p)) :
    (s.eachThread c w g f ps).threads.get Thread.absent key = s.threads.get Thread.absent key := by
  induction ps generalizing s with
  | nil => rfl
  | cons p t ih =>
    show (State.eachThread (s.modThread c w (g p) (f s.time p)) c w g f t).threads.get _ _ = _
    rw [ih _ fun q hq => h q (List.mem_cons_of_mem _ hq)]
    exact Store.get_set_ne _ _ _ (h p (List.mem_cons_self ..))

theorem State.eachThread_self {α : Type} (c w : Nat) (g : α → Nat) (f : Nat → α → Thread → Thread) (ps : List α) (s : State)
    (hn : (ps.map g).Nodup) {p : α} (hp : p ∈ ps) :
    (s.eachThread c w g f ps).thread c w (g p) = f s.time p (s.thread c w (g p)) := by
  induction ps generalizing s with
  | nil => cases hp
  | cons q t ih =>
    show (State.eachThread (s.modThread c w (g q) (f s.time q)) c w g f t).thread c w (g p) = _
    simp only [List.map_cons, List.nodup_cons, List.mem_map, not_exists, not_and] at hn
    cases hp with
    | head =>
      show Store.get _ _ _ = _
      rw [State.eachThread_other _ _ _ _ _ _ _ fun r hr e => hn.1 r hr (by unfold thrKey at e; omega)]
      exact State.thread_modThread ..
    | tail _ hp =>
      rw [ih _ hn.2 hp]
      have : g p ≠ g q := fun e => hn.1 p hp e
      rw [State.thread_modThread_lane _ _ _ _ this]
      rfl

theorem State.eachThread_lane {α : Type} (c w : Nat) (g : α → Nat) (f : Nat → α → Thread → Thread) (ps : List α) (s : State) {l : Nat}
    (h : ∀ p ∈ ps, l ≠ g p) : (s.eachThread c w g f ps).thread c w l = s.thread c w l :=
  State.eachThread_other _ _ _ _ _ _ _ fun p hp e => h p hp (by unfold thrKey at e; omega)

-- Counting an issue and moving on ----------------------------------------------------------------------------------

/-- What countIssue does to a thread. -/
def Thread.counted (t : Thread) : Thread := { t with issued := if t.again.any (fun p => p.1 == cDataPage) then t.issued else t.issued + 1 }
/-- What complete does to a thread. -/
def Thread.moved (t : Thread) (time : Nat) (pc : DWord) : Thread := { t with st := .ready, pc, since := time, again := [] }

theorem State.countIssue_eq (s : State) (c : Cur) :
    s.countIssue c = s.eachThread c.core c.warp id (fun _ _ t => t.counted) (lanesOf c.mask) := rfl

/-- The threads that retire an instruction have moved, and their warp counts them. -/
theorem State.retire_eq (s : State) (c w : Nat) (ls : List (Nat × DWord)) :
    s.retire c w ls =
      (s.eachThread c w (·.1) (fun time p t => t.moved time p.2) ls).modWarp c w fun k =>
        { k with retired := k.retired + BitVec.ofNat 64 ls.length } := rfl

/-- Where the warp does not step, to complete an instruction is to retire it. -/
theorem State.complete_retire (s : State) (c w : Nat) (ls : List (Nat × DWord)) (h : (s.warp c w).step = false) :
    s.complete c w ls = s.retire c w ls := by
  have e : (s.eachThread c w (·.1) (fun time p t => t.moved time p.2) ls).warp c w = s.warp c w := by
    rw [State.eachThread_rest]
    rfl
  have hk : ((s.retire c w ls).warp c w).step = false := by
    rw [State.retire_eq, State.warp_modWarp, e, h]
  unfold State.complete State.stepped
  simp only [hk, Bool.false_and, Bool.false_eq_true, if_false]

theorem State.complete_eq (s : State) (c w : Nat) (ls : List (Nat × DWord)) (h : (s.warp c w).step = false) :
    s.complete c w ls =
      (s.eachThread c w (·.1) (fun time p t => t.moved time p.2) ls).modWarp c w fun k =>
        { k with retired := k.retired + BitVec.ofNat 64 ls.length } := by
  rw [State.complete_retire s c w ls h, State.retire_eq]

theorem State.advance_eq (s : State) (c w : Nat) (ls : List Nat) : s.advance c w ls = s.complete c w (ls.map fun l => (l, (s.thread c w l).pc + 12)) :=
  rfl
theorem State.pass_eq (s : State) (c w : Nat) (ls : List Nat) (h : (s.warp c w).step = false) :
    s.pass c w ls = s.complete c w (ls.map fun l => (l, (s.thread c w l).pc + 12)) :=
  (State.complete_retire s c w _ h).symm

theorem State.latchTime_eq (s : State) (c : Cur) (i : Instr) (ls : List Nat) :
    s.latchTime c i ls =
      if i.opds.any fun p => p.1 == .k .time then
        s.eachThread c.core c.warp id (fun time _ t => { t with timeh := some (BitVec.ofNat 32 (time / 2 ^ 32)) }) ls
      else s := rfl

/-- Only threads and the warp's count differ after threads have moved on. -/
theorem State.complete_rest (s : State) (c w : Nat) (ls : List (Nat × DWord)) (h : (s.warp c w).step = false) :
    s.complete c w ls = { s with threads := (s.complete c w ls).threads, warps := (s.complete c w ls).warps } := by
  rw [State.complete_eq s c w ls h, State.eachThread_rest]
  rfl

theorem State.complete_warp (s : State) (c w : Nat) (ls : List (Nat × DWord)) (h : (s.warp c w).step = false) :
    (s.complete c w ls).warp c w = { s.warp c w with retired := (s.warp c w).retired + BitVec.ofNat 64 ls.length } := by
  rw [State.complete_eq s c w ls h, State.warp_modWarp, State.eachThread_rest]
  rfl

theorem State.complete_warps (s : State) (c w : Nat) (ls : List (Nat × DWord)) (h : (s.warp c w).step = false) (key : Nat)
    (hk : key ≠ warpKey c w) : (s.complete c w ls).warps.get Warp.idle key = s.warps.get Warp.idle key := by
  rw [State.complete_eq s c w ls h, State.eachThread_rest]
  exact Store.get_set_ne _ _ _ hk

theorem State.complete_thread (s : State) (c w : Nat) (ls : List (Nat × DWord)) (h : (s.warp c w).step = false)
    (hn : (ls.map (·.1)).Nodup) {p : Nat × DWord} (hp : p ∈ ls) :
    (s.complete c w ls).thread c w p.1 = (s.thread c w p.1).moved s.time p.2 := by
  rw [State.complete_eq s c w ls h]
  exact State.eachThread_self c w (·.1) _ ls s hn hp

theorem State.complete_others (s : State) (c w : Nat) (ls : List (Nat × DWord)) (h : (s.warp c w).step = false) (key : Nat)
    (hk : ∀ p ∈ ls, key ≠ thrKey c w p.1) :
    (s.complete c w ls).threads.get Thread.absent key = s.threads.get Thread.absent key := by
  rw [State.complete_eq s c w ls h]
  exact State.eachThread_other c w (·.1) _ ls s key hk

theorem State.complete_lane (s : State) (c w : Nat) (ls : List (Nat × DWord)) (h : (s.warp c w).step = false) {l : Nat}
    (hl : ∀ p ∈ ls, l ≠ p.1) : (s.complete c w ls).thread c w l = s.thread c w l :=
  State.complete_others s c w ls h _ fun p hp e => hl p hp (by unfold thrKey at e; omega)

-- The issue --------------------------------------------------------------------------------------------------------

theorem State.countIssue_rest (s : State) (c : Cur) : s.countIssue c = { s with threads := (s.countIssue c).threads } := by
  rw [State.countIssue_eq]
  exact State.eachThread_rest ..

@[simp] theorem State.countIssue_warp (s : State) (c : Cur) (d w : Nat) : (s.countIssue c).warp d w = s.warp d w := by
  rw [State.countIssue_rest]
  rfl

theorem State.countIssue_thread (s : State) (c : Cur) {l : Nat} (hl : l ∈ lanesOf c.mask) :
    (s.countIssue c).thread c.core c.warp l = (s.thread c.core c.warp l).counted := by
  rw [State.countIssue_eq]
  exact State.eachThread_self c.core c.warp id _ _ s (by simpa using lanesOf_nodup c.mask) hl

theorem State.countIssue_preds (s : State) (c : Cur) (l : Nat) :
    ((s.countIssue c).thread c.core c.warp l).preds = (s.thread c.core c.warp l).preds := by
  by_cases hl : l ∈ lanesOf c.mask
  · rw [State.countIssue_thread s c hl]
    rfl
  · rw [State.countIssue_eq, State.eachThread_lane]
    intro p hp e
    exact hl (e ▸ hp)

theorem State.countIssue_pc (s : State) (c : Cur) (l : Nat) :
    ((s.countIssue c).thread c.core c.warp l).pc = (s.thread c.core c.warp l).pc := by
  by_cases hl : l ∈ lanesOf c.mask
  · rw [State.countIssue_thread s c hl]
    rfl
  · rw [State.countIssue_eq, State.eachThread_lane]
    intro p hp e
    exact hl (e ▸ hp)

theorem State.countIssue_guard (s : State) (c : Cur) (h : Head) (l : Nat) :
    guardOn h ((s.countIssue c).thread c.core c.warp l) = guardOn h (s.thread c.core c.warp l) := by
  unfold guardOn Thread.pred
  rw [State.countIssue_preds]

theorem State.mayExecute_countIssue (s : State) (c : Cur) (i : Instr) : (s.countIssue c).mayExecute c i = s.mayExecute c i := by
  rw [State.countIssue_rest]
  rfl

/-- Steps 2 and 3 of R62 find nothing. -/
theorem Issues.wordTrap {i : Instr} {s : State} {c : Cur} (hI : Issues i s c) : (s.countIssue c).wordTrap c i = none := by
  unfold State.wordTrap
  have h2 : (i.vregs.any fun n => decide (n / 8 ≥ (s.warp c.core c.warp).ntile)) = false := by
    rw [List.any_eq_false]
    intro n hn
    have := hI.window n hn
    simpa using this
  rw [State.mayExecute_countIssue, hI.may, hI.legal, State.countIssue_warp, h2]
  rfl

/-- No tile that the instruction names is another's. -/
theorem Issues.ownTrap {i : Instr} {s : State} {c : Cur} (hI : Issues i s c) : (s.countIssue c).ownTrap c i = none := by
  unfold State.ownTrap
  have ho : ∀ t, (s.countIssue c).owner c.core t = s.owner c.core t := by
    intro t
    rw [State.countIssue_rest]
    rfl
  have : ((i.vregs.map fun n => vTile ((s.countIssue c).warp c.core c.warp).tbase n).filter fun t =>
      (s.countIssue c).owner c.core t != ownerCode c.warp) = [] := by
    rw [List.filter_eq_nil_iff]
    intro t ht
    obtain ⟨n, hn, rfl⟩ := List.mem_map.1 ht
    rw [State.countIssue_warp, ho, hI.owned n hn]
    simp
  rw [this]

/-- An issue that no check stops performs its instruction on the threads whose guard holds; the others have moved on. -/
theorem issueWith_runs {i : Instr} {h : Head} {s : State} {c : Cur} (chk : State → Cur → Nat → Option Trap)
    (act : State → Cur → List Nat → State × List (Nat × Trap)) (hI : Issues i s c)
    (hchk : ∀ l ∈ s.onLanes c h, chk (s.countIssue c) c l = none) :
    issueWith i h chk act s =
      if (act (s.begun c h) c (s.onLanes c h)).1.rollMark c.core c.warp != (s.begun c h).rollMark c.core c.warp then
        .next (act (s.begun c h) c (s.onLanes c h)).1
      else
        .next (((act (s.begun c h) c (s.onLanes c h)).1.latchTime c i (s.onLanes c h)).takeTraps c.core c.warp
          (act (s.begun c h) c (s.onLanes c h)).2) := by
  have hon : (lanesOf c.mask).filter (fun l => guardOn h ((s.countIssue c).thread c.core c.warp l)) = s.onLanes c h := by
    unfold State.onLanes
    simp only [State.countIssue_guard]
  have hoff : (lanesOf c.mask).filter (fun l => !guardOn h ((s.countIssue c).thread c.core c.warp l)) = s.offLanes c h := by
    unfold State.offLanes
    simp only [State.countIssue_guard]
  have hv : ∀ l ∈ s.onLanes c h, ((s.countIssue c).ownTrap c i).or (chk (s.countIssue c) c l) = none := by
    intro l hl
    rw [hI.ownTrap, hchk l hl]
    rfl
  have hp : (s.onLanes c h).filter (fun l => (((s.countIssue c).ownTrap c i).or (chk (s.countIssue c) c l)).isNone) = s.onLanes c h := by
    rw [List.filter_eq_self]
    intro l hl
    rw [hv l hl]
    rfl
  have hb : (s.onLanes c h).filterMap
      (fun l => (((s.countIssue c).ownTrap c i).or (chk (s.countIssue c) c l)).map fun t => (l, t)) = [] := by
    rw [List.filterMap_eq_nil_iff]
    intro l hl
    rw [hv l hl]
    rfl
  have hd : (s.countIssue c).dmrMismatch c = false := by
    unfold State.dmrMismatch
    rw [State.countIssue_warp, hI.sound]
    simp
  have hu : (s.countIssue c).spendUpsets c = s.countIssue c := by
    unfold State.spendUpsets
    rw [State.countIssue_warp, hI.sound]
    rfl
  unfold issueWith
  rw [hI.cur]
  simp only [hI.wordTrap, hon, hoff, hp, hb, hd, hu, Bool.false_eq_true, if_false, List.nil_append]
  rfl

-- What an operand reads --------------------------------------------------------------------------------------------

/-- Two states that differ in other threads, other warps, and the warp's count of retired instructions alone agree on every
operand of a lane. -/
theorem State.opd_congr (a : State) (th : Store Thread) (ws : Store Warp) (c : Cur) (l : Nat) (o : Opd) (n : DWord)
    (hw : ({ a with threads := th, warps := ws } : State).warp c.core c.warp = { a.warp c.core c.warp with retired := n })
    (ht : ({ a with threads := th, warps := ws } : State).thread c.core c.warp l = a.thread c.core c.warp l) :
    ({ a with threads := th, warps := ws } : State).opd c l o = a.opd c l o := by
  cases o with
  | v n => simp only [State.opd, State.vreg, hw]; rfl
  | s n => rfl
  | p n => simp only [State.opd, ht]
  | j n => simp only [State.opd, State.jreg, hw]
  | z => rfl
  | imm w => rfl
  | t n => rfl
  | k r =>
    have hteam : ({ a with threads := th, warps := ws } : State).warpTeam c.core c.warp = a.warpTeam c.core c.warp := by
      simp only [State.warpTeam, hw]
      rfl
    have hto : ({ a with threads := th, warps := ws } : State).teamOf c.core c.warp = a.teamOf c.core c.warp := by
      simp only [State.teamOf, hteam]
      rfl
    have hlo : ({ a with threads := th, warps := ws } : State).launchOf c.core c.warp = a.launchOf c.core c.warp := by
      simp only [State.launchOf, hto]
      rfl
    have htag : ({ a with threads := th, warps := ws } : State).tagOf c.core c.warp = a.tagOf c.core c.warp := by
      simp only [State.tagOf, hlo]
      rfl
    have hwin : ({ a with threads := th, warps := ws } : State).window c.core c.warp = a.window c.core c.warp := by
      simp only [State.window, hw]
    simp only [State.opd, State.special, ht, hto, hlo, htag, hwin]

/-- What a lane whose guard holds reads is the same before and after the others have moved on. -/
theorem State.begun_opd {s : State} {c : Cur} {h : Head} (hs : (s.warp c.core c.warp).step = false) {l : Nat}
    (hl : l ∈ s.onLanes c h) (o : Opd) : (s.begun c h).opd c l o = (s.countIssue c).opd c l o := by
  have hs1 : ((s.countIssue c).warp c.core c.warp).step = false := by rw [State.countIssue_warp, hs]
  have hb := State.complete_rest (s.countIssue c) c.core c.warp
    ((s.offLanes c h).map fun l => (l, ((s.countIssue c).thread c.core c.warp l).pc + 12)) hs1
  have hw := State.complete_warp (s.countIssue c) c.core c.warp
    ((s.offLanes c h).map fun l => (l, ((s.countIssue c).thread c.core c.warp l).pc + 12)) hs1
  have ht := State.complete_lane (s.countIssue c) c.core c.warp
    ((s.offLanes c h).map fun l => (l, ((s.countIssue c).thread c.core c.warp l).pc + 12)) hs1 (l := l) (by
      intro p hp e
      obtain ⟨k, hk, rfl⟩ := List.mem_map.1 hp
      exact State.on_not_off hl (e ▸ hk))
  unfold State.begun
  rw [State.pass_eq _ _ _ _ (by rw [State.countIssue_warp, hs])]
  rw [hb] at hw ht ⊢
  exact State.opd_congr _ _ _ c l o _ hw ht

theorem State.begun_bits {s : State} {c : Cur} {h : Head} (hs : (s.warp c.core c.warp).step = false) {l : Nat}
    (hl : l ∈ s.onLanes c h) (o : Opd) : (s.begun c h).bits c l o = (s.countIssue c).bits c l o := by
  unfold State.bits
  rw [State.begun_opd hs hl]
theorem State.begun_pair {s : State} {c : Cur} {h : Head} (hs : (s.warp c.core c.warp).step = false) {l : Nat}
    (hl : l ∈ s.onLanes c h) (o : Opd) : (s.begun c h).pair c l o = (s.countIssue c).pair c l o := by
  unfold State.pair
  rw [State.begun_bits hs hl, State.begun_bits hs hl]
theorem State.begun_srcTrap {s : State} {c : Cur} {h : Head} (hs : (s.warp c.core c.warp).step = false) {l : Nat}
    (hl : l ∈ s.onLanes c h) (srcs : List Src) : (s.begun c h).srcTrap c l srcs = (s.countIssue c).srcTrap c l srcs := by
  simp only [State.srcTrap, State.begun_opd hs hl]

theorem State.begun_psnIn {s : State} {c : Cur} {h : Head} (hs : (s.warp c.core c.warp).step = false) {l : Nat}
    (hl : l ∈ s.onLanes c h) (srcs : List Src) : (s.begun c h).psnIn c l srcs = (s.countIssue c).psnIn c l srcs := by
  simp only [State.psnIn, State.begun_opd hs hl]

-- An issue as it begins step 5 -------------------------------------------------------------------------------------

theorem State.begun_step {s : State} {c : Cur} (h : Head) (hs : (s.warp c.core c.warp).step = false) :
    ((s.begun c h).warp c.core c.warp).step = false := by
  unfold State.begun
  rw [State.pass_eq _ _ _ _ (by rw [State.countIssue_warp, hs]), State.complete_warp _ _ _ _ (by rw [State.countIssue_warp, hs]), State.countIssue_warp]
  exact hs

theorem State.begun_rest {s : State} {c : Cur} (h : Head) (hs : (s.warp c.core c.warp).step = false) :
    s.begun c h = { s with threads := (s.begun c h).threads, warps := (s.begun c h).warps } := by
  have e := State.complete_rest (s.countIssue c) c.core c.warp
    ((s.offLanes c h).map fun l => (l, ((s.countIssue c).thread c.core c.warp l).pc + 12)) (by rw [State.countIssue_warp, hs])
  unfold State.begun
  rw [State.pass_eq _ _ _ _ (by rw [State.countIssue_warp, hs])]
  rw [e]
  rw [State.countIssue_rest]

theorem State.begun_warp {s : State} {c : Cur} (h : Head) (hs : (s.warp c.core c.warp).step = false) :
    (s.begun c h).warp c.core c.warp =
      { s.warp c.core c.warp with retired := (s.warp c.core c.warp).retired + BitVec.ofNat 64 (s.offLanes c h).length } := by
  unfold State.begun
  rw [State.pass_eq _ _ _ _ (by rw [State.countIssue_warp, hs]), State.complete_warp _ _ _ _ (by rw [State.countIssue_warp, hs]), State.countIssue_warp, List.length_map]

theorem State.begun_warps {s : State} {c : Cur} (h : Head) (hs : (s.warp c.core c.warp).step = false) (key : Nat)
    (hk : key ≠ warpKey c.core c.warp) : (s.begun c h).warps.get Warp.idle key = s.warps.get Warp.idle key := by
  unfold State.begun
  rw [State.pass_eq _ _ _ _ (by rw [State.countIssue_warp, hs]), State.complete_warps _ _ _ _ (by rw [State.countIssue_warp, hs]) _ hk, State.countIssue_rest]

theorem State.begun_on {s : State} {c : Cur} {h : Head} (hs : (s.warp c.core c.warp).step = false) {l : Nat}
    (hl : l ∈ s.onLanes c h) : (s.begun c h).thread c.core c.warp l = (s.thread c.core c.warp l).counted := by
  unfold State.begun
  rw [State.pass_eq _ _ _ _ (by rw [State.countIssue_warp, hs]), State.complete_lane _ _ _ _ (by rw [State.countIssue_warp, hs])]
  · exact State.countIssue_thread s c (State.onLanes_sub hl)
  · intro p hp e
    obtain ⟨k, hk, rfl⟩ := List.mem_map.1 hp
    exact State.on_not_off hl (e ▸ hk)

theorem State.begun_off {s : State} {c : Cur} {h : Head} (hs : (s.warp c.core c.warp).step = false) {l : Nat}
    (hl : l ∈ s.offLanes c h) :
    (s.begun c h).thread c.core c.warp l = (s.thread c.core c.warp l).counted.moved s.time ((s.thread c.core c.warp l).pc + 12) := by
  have hn : (((s.offLanes c h).map fun l => (l, ((s.countIssue c).thread c.core c.warp l).pc + 12)).map (·.1)).Nodup :=
    map_fst_nodup (State.offLanes_nodup s c h)
  have hp : (l, ((s.countIssue c).thread c.core c.warp l).pc + 12) ∈
      (s.offLanes c h).map fun l => (l, ((s.countIssue c).thread c.core c.warp l).pc + 12) := List.mem_map.2 ⟨l, hl, rfl⟩
  have := State.complete_thread (s.countIssue c) c.core c.warp _ (by rw [State.countIssue_warp, hs]) hn hp
  unfold State.begun
  rw [State.pass_eq _ _ _ _ (by rw [State.countIssue_warp, hs]), this, State.countIssue_thread s c (State.offLanes_sub hl), State.countIssue_rest]
  rfl

theorem State.begun_others {s : State} {c : Cur} {h : Head} (hs : (s.warp c.core c.warp).step = false) (key : Nat)
    (hk : ∀ l ∈ lanesOf c.mask, key ≠ thrKey c.core c.warp l) :
    (s.begun c h).threads.get Thread.absent key = s.threads.get Thread.absent key := by
  unfold State.begun
  rw [State.pass_eq _ _ _ _ (by rw [State.countIssue_warp, hs]), State.complete_others _ _ _ _ (by rw [State.countIssue_warp, hs])]
  · rw [State.countIssue_eq]
    exact State.eachThread_other _ _ _ _ _ _ _ hk
  · intro p hp
    obtain ⟨k, hk2, rfl⟩ := List.mem_map.1 hp
    exact hk k (State.offLanes_sub hk2)

-- The end of an issue ----------------------------------------------------------------------------------------------

/-- How often a team has rolled back depends on the core and on which team the warp is of. -/
theorem State.rollMark_congr {a b : State} {c w : Nat} (hc : b.cores = a.cores) (hw : (b.warp c w).team = (a.warp c w).team) :
    b.rollMark c w = a.rollMark c w := by
  have hk : ∀ d, b.core d = a.core d := fun d => by simp only [State.core, hc]
  have ht : b.warpTeam c w = a.warpTeam c w := by simp only [State.warpTeam, State.served, hk, hw]
  simp only [State.rollMark, State.teamOf, State.team, ht, hk]

theorem State.takeTraps_nil (s : State) (c w : Nat) : s.takeTraps c w [] = s := rfl

/-- The latch of %timeh changes that field of the threads that read %time, and nothing else. -/
theorem State.latchTime_spec (y : State) (c : Cur) (i : Instr) {ls : List Nat} (hn : ls.Nodup) :
    ∃ th : Nat → Option Word, y.latchTime c i ls = { y with threads := (y.latchTime c i ls).threads }
      ∧ (∀ l ∈ ls, (y.latchTime c i ls).thread c.core c.warp l = { y.thread c.core c.warp l with timeh := th l })
      ∧ (∀ key, (∀ l ∈ ls, key ≠ thrKey c.core c.warp l) →
          (y.latchTime c i ls).threads.get Thread.absent key = y.threads.get Thread.absent key) := by
  rw [State.latchTime_eq]
  by_cases e : (i.opds.any fun p => p.1 == .k .time) = true
  · rw [if_pos e]
    refine ⟨fun _ => some (BitVec.ofNat 32 (y.time / 2 ^ 32)), State.eachThread_rest .., ?_, ?_⟩
    · intro l hl
      exact State.eachThread_self c.core c.warp id _ ls y (by simpa using hn) hl
    · intro key hk
      exact State.eachThread_other _ _ _ _ _ _ _ hk
  · rw [if_neg e]
    exact ⟨fun l => (y.thread c.core c.warp l).timeh, rfl, fun _ _ => rfl, fun _ _ => rfl⟩

/-- The state of teams and warps that decides how often a warp's team has rolled back is not touched when threads move on. -/
theorem State.rollMark_complete (x : State) (c w : Nat) (ls : List (Nat × DWord)) (h : (x.warp c w).step = false) :
    (x.complete c w ls).rollMark c w = x.rollMark c w := by
  refine State.rollMark_congr ?_ ?_
  · rw [State.complete_rest x c w ls h]
  · rw [State.complete_warp x c w ls h]

/-- What an issue leaves that ends with its lanes moved on: x is the state between, in which the performance has changed whatever
it changes, but of threads only predicates. -/
theorem issue_end {s x : State} {c : Cur} {h : Head} (i : Instr) (dest : Nat → DWord) (preds : Nat → BitVec 7)
    (hs : (s.warp c.core c.warp).step = false) (hxs : (x.warp c.core c.warp).step = false) (hxt : x.time = s.time)
    (hon : ∀ l ∈ s.onLanes c h, x.thread c.core c.warp l = { (s.begun c h).thread c.core c.warp l with preds := preds l })
    (hother : ∀ key, (∀ l ∈ s.onLanes c h, key ≠ thrKey c.core c.warp l) →
      x.threads.get Thread.absent key = (s.begun c h).threads.get Thread.absent key)
    {y t : State} (hy : y = x.complete c.core c.warp ((s.onLanes c h).map fun l => (l, dest l)))
    (ht : t = y.latchTime c i (s.onLanes c h)) :
    Moved s t c h dest preds ∧ t = { x with threads := t.threads, warps := t.warps }
      ∧ t.warp c.core c.warp = { x.warp c.core c.warp with
          retired := (x.warp c.core c.warp).retired + BitVec.ofNat 64 (s.onLanes c h).length }
      ∧ ∀ key, key ≠ warpKey c.core c.warp → t.warps.get Warp.idle key = x.warps.get Warp.idle key := by
  have hyr := State.complete_rest x c.core c.warp ((s.onLanes c h).map fun l => (l, dest l)) hxs
  have hyw := State.complete_warp x c.core c.warp ((s.onLanes c h).map fun l => (l, dest l)) hxs
  have hyws := State.complete_warps x c.core c.warp ((s.onLanes c h).map fun l => (l, dest l)) hxs
  have hyth := @State.complete_thread x c.core c.warp ((s.onLanes c h).map fun l => (l, dest l)) hxs
    (map_fst_nodup (State.onLanes_nodup s c h))
  have hyoth := State.complete_others x c.core c.warp ((s.onLanes c h).map fun l => (l, dest l)) hxs
  rw [← hy] at hyr hyw hyws hyth hyoth
  have hyt : ∀ l ∈ s.onLanes c h, y.thread c.core c.warp l =
      ({ (s.thread c.core c.warp l).counted with preds := preds l } : Thread).moved s.time (dest l) := by
    intro l hl
    rw [hyth (p := (l, dest l)) (List.mem_map.2 ⟨l, hl, rfl⟩), hxt, hon l hl, State.begun_on hs hl]
  have hyo : ∀ key, (∀ l ∈ s.onLanes c h, key ≠ thrKey c.core c.warp l) →
      y.threads.get Thread.absent key = (s.begun c h).threads.get Thread.absent key := by
    intro key hk
    rw [hyoth key (by
      intro p hp
      obtain ⟨k, hk2, rfl⟩ := List.mem_map.1 hp
      exact hk k hk2)]
    exact hother key hk
  obtain ⟨th, ht1, htt, hto⟩ := State.latchTime_spec y c i (State.onLanes_nodup s c h)
  rw [← ht] at ht1 htt hto
  clear hyth hyoth hy
  have htw : t.warps = y.warps := by rw [ht1]
  have hoff : ∀ l ∈ s.offLanes c h, t.thread c.core c.warp l =
      (s.thread c.core c.warp l).counted.moved s.time ((s.thread c.core c.warp l).pc + 12) := by
    intro l hl
    have hk : ∀ k ∈ s.onLanes c h, thrKey c.core c.warp l ≠ thrKey c.core c.warp k :=
      fun k hk e => State.on_not_off hk (by
        have : l = k := by unfold thrKey at e; omega
        exact this ▸ hl)
    rw [← State.begun_off hs hl]
    exact (hto _ hk).trans (hyo _ hk)
  have htt2 : ∀ l ∈ s.onLanes c h, t.thread c.core c.warp l =
      { ({ (s.thread c.core c.warp l).counted with preds := preds l } : Thread).moved s.time (dest l) with timeh := th l } := by
    intro l hl
    rw [htt l hl, hyt l hl]
  refine ⟨⟨?_, ?_, ?_, ?_, ?_, ?_⟩, ?_, ?_, ?_⟩
  · intro l hl
    rw [htt2 l hl]
    exact ⟨rfl, rfl⟩
  · intro l hl
    rw [hoff l hl]
    exact ⟨rfl, rfl⟩
  · intro l hl
    cases State.lane_on_or_off s c h hl with
    | inl h1 => rw [htt2 l h1]; rfl
    | inr h1 => rw [hoff l h1]; rfl
  · intro l hl
    cases State.lane_on_or_off s c h hl with
    | inl h1 => rw [htt2 l h1]; rfl
    | inr h1 => rw [hoff l h1]; rfl
  · intro l hl
    cases State.lane_on_or_off s c h hl with
    | inl h1 => rw [htt2 l h1]; rfl
    | inr h1 => rw [hoff l h1]; rfl
  · intro key hk
    have hk2 : ∀ l ∈ s.onLanes c h, key ≠ thrKey c.core c.warp l := fun l hl => hk l (State.onLanes_sub hl)
    rw [hto key hk2, hyo key hk2, State.begun_others hs key hk]
  · rw [ht1, hyr]
  · have e : t.warp c.core c.warp = y.warp c.core c.warp := by unfold State.warp; rw [htw]
    rw [e, hyw, List.length_map]
  · intro key hk
    rw [htw, hyws key hk]

/-- An issue that no check stops, and that ends with its lanes moved on. -/
theorem issue_moves {i : Instr} {h : Head} {s x : State} {c : Cur} {chk : State → Cur → Nat → Option Trap}
    {act : State → Cur → List Nat → State} (dest : Nat → DWord) (preds : Nat → BitVec 7) (hI : Issues i s c)
    (hchk : ∀ l ∈ s.onLanes c h, chk (s.countIssue c) c l = none)
    (hact : act (s.begun c h) c (s.onLanes c h) = x.complete c.core c.warp ((s.onLanes c h).map fun l => (l, dest l)))
    (hxs : (x.warp c.core c.warp).step = false) (hxt : x.time = s.time)
    (hmark : x.rollMark c.core c.warp = (s.begun c h).rollMark c.core c.warp)
    (hon : ∀ l ∈ s.onLanes c h, x.thread c.core c.warp l = { (s.begun c h).thread c.core c.warp l with preds := preds l })
    (hother : ∀ key, (∀ l ∈ s.onLanes c h, key ≠ thrKey c.core c.warp l) →
      x.threads.get Thread.absent key = (s.begun c h).threads.get Thread.absent key) :
    ∃ t, issue i h chk act s = .next t ∧ Moved s t c h dest preds ∧ t = { x with threads := t.threads, warps := t.warps }
      ∧ t.warp c.core c.warp = { x.warp c.core c.warp with
          retired := (x.warp c.core c.warp).retired + BitVec.ofNat 64 (s.onLanes c h).length }
      ∧ ∀ key, key ≠ warpKey c.core c.warp → t.warps.get Warp.idle key = x.warps.get Warp.idle key := by
  refine ⟨_, ?_, issue_end i dest preds hI.steady hxs hxt hon hother rfl rfl⟩
  unfold issue
  rw [issueWith_runs _ _ hI hchk]
  simp only [hact, State.rollMark_complete _ _ _ _ hxs, hmark, bne_self_eq_false, Bool.false_eq_true, if_false, State.takeTraps_nil]

/-- The count of retired instructions of an issue: its lanes that moved on early, and the others. -/
theorem State.retired_sum (s : State) (c : Cur) (h : Head) (r : DWord) :
    r + BitVec.ofNat 64 (s.offLanes c h).length + BitVec.ofNat 64 (s.onLanes c h).length = r + BitVec.ofNat 64 (lanesOf c.mask).length := by
  rw [← State.on_off_length s c h, Nat.add_comm, BitVec.ofNat_add, BitVec.add_assoc]

/-- An issue that no check stops, whose performance changes registers and predicates and then moves the lanes on. -/
theorem issue_runs {i : Instr} {h : Head} {s x : State} {c : Cur} {chk : State → Cur → Nat → Option Trap}
    {act : State → Cur → List Nat → State} (dest : Nat → DWord) (preds : Nat → BitVec 7) (hI : Issues i s c)
    (hchk : ∀ l ∈ s.onLanes c h, chk (s.countIssue c) c l = none)
    (hact : act (s.begun c h) c (s.onLanes c h) = x.complete c.core c.warp ((s.onLanes c h).map fun l => (l, dest l)))
    (hx : x = { s.begun c h with regs := x.regs, sregs := x.sregs, threads := x.threads })
    (hon : ∀ l ∈ s.onLanes c h, x.thread c.core c.warp l = { (s.begun c h).thread c.core c.warp l with preds := preds l })
    (hother : ∀ key, (∀ l ∈ s.onLanes c h, key ≠ thrKey c.core c.warp l) →
      x.threads.get Thread.absent key = (s.begun c h).threads.get Thread.absent key) :
    ∃ t, issue i h chk act s = .next t ∧ Moved s t c h dest preds ∧ Retired s t c ∧ KeepsRest s t ∧ t.regs = x.regs
      ∧ t.sregs = x.sregs := by
  have hxw : x.warps = (s.begun c h).warps := by rw [hx]
  have hxw1 : x.warp c.core c.warp = (s.begun c h).warp c.core c.warp := by unfold State.warp; rw [hxw]
  have hxs : (x.warp c.core c.warp).step = false := by rw [hxw1]; exact State.begun_step h hI.steady
  have hxt : x.time = s.time := by rw [hx, State.begun_rest h hI.steady]
  have hmark : x.rollMark c.core c.warp = (s.begun c h).rollMark c.core c.warp :=
    State.rollMark_congr (by rw [hx]) (by rw [hxw1])
  obtain ⟨t, h1, h2, h3, h4, h5⟩ := issue_moves (act := act) dest preds hI hchk hact hxs hxt hmark hon hother
  refine ⟨t, h1, h2, ⟨?_, ?_⟩, ?_, ?_, ?_⟩
  · rw [h4, hxw1, State.begun_warp h hI.steady]
    simp only [State.retired_sum]
  · intro key hk
    rw [h5 key hk, hxw]
    exact State.begun_warps h hI.steady key hk
  · unfold KeepsRest
    rw [h3, hx, State.begun_rest h hI.steady]
  · rw [h3]
  · rw [h3]

end Sys2Proof.Machine
end

