-- ==== Sys2Proof/Laws/Operands.lean ====
section
/-!
SUPPORT. Sys2Proof/Laws/Operands.lean: what destinations hold after they are written, and what the moulds of register, predicate and
branch instructions leave.
-/
namespace Sys2Proof.Machine

-- Several writes to one store --------------------------------------------------------------------------------------

/-- Writes of values at keys, one after another. -/
def Store.setAll {α : Type} [DecidableEq α] (d : α) (m : Store α) (ps : List (Nat × α)) : Store α :=
  ps.foldl (fun m p => m.set d p.1 p.2) m

theorem Store.get_setAll_ne {α : Type} [DecidableEq α] (d : α) (ps : List (Nat × α)) (m : Store α) (key : Nat)
    (h : ∀ p ∈ ps, key ≠ p.1) : (m.setAll d ps).get d key = m.get d key := by
  induction ps generalizing m with
  | nil => rfl
  | cons p t ih =>
    show (Store.setAll d (m.set d p.1 p.2) t).get d key = _
    rw [ih _ fun q hq => h q (List.mem_cons_of_mem _ hq), Store.get_set_ne _ _ _ (h p (List.mem_cons_self ..))]

theorem Store.get_setAll {α : Type} [DecidableEq α] (d : α) (ps : List (Nat × α)) (m : Store α)
    (hn : (ps.map (·.1)).Nodup) {p : Nat × α} (hp : p ∈ ps) : (m.setAll d ps).get d p.1 = p.2 := by
  induction ps generalizing m with
  | nil => cases hp
  | cons q t ih =>
    show (Store.setAll d (m.set d q.1 q.2) t).get d p.1 = _
    simp only [List.map_cons, List.nodup_cons, List.mem_map, not_exists, not_and] at hn
    cases hp with
    | head => rw [Store.get_setAll_ne _ _ _ _ fun r hr e => hn.1 r hr e.symm, Store.get_set_self]
    | tail _ hp => exact ih _ hn.2 hp

theorem Store.setAll_append {α : Type} [DecidableEq α] (d : α) (m : Store α) (ps qs : List (Nat × α)) :
    m.setAll d (ps ++ qs) = (m.setAll d ps).setAll d qs := List.foldl_append ..

-- The words of a result --------------------------------------------------------------------------------------------

/-- The words of a result with the keys that they go to. -/
def keyed (key : Nat → Nat) : Nat → List TWord → List (Nat × TWord)
  | _, [] => []
  | k, x :: xs => (key k, x) :: keyed key (k + 1) xs

theorem mem_keyed {key : Nat → Nat} {ws : List TWord} {k : Nat} {p : Nat × TWord} (h : p ∈ keyed key k ws) :
    ∃ i, i < ws.length ∧ p.1 = key (k + i) ∧ ws[i]? = some p.2 := by
  induction ws generalizing k with
  | nil => cases h
  | cons x xs ih =>
    cases h with
    | head => exact ⟨0, by simp, by simp, by simp⟩
    | tail _ h =>
      obtain ⟨i, hi, h1, h2⟩ := ih h
      exact ⟨i + 1, by simpa using hi, by rw [h1]; congr 1; omega, by simpa using h2⟩

theorem keyed_mem {key : Nat → Nat} {ws : List TWord} {k i : Nat} {x : TWord} (h : ws[i]? = some x) : (key (k + i), x) ∈ keyed key k ws := by
  induction ws generalizing k i with
  | nil => simp at h
  | cons y ys ih =>
    cases i with
    | zero =>
      simp at h
      subst h
      exact List.mem_cons_self ..
    | succ i =>
      have := ih (k := k + 1) (i := i) (by simpa using h)
      rw [show k + (i + 1) = k + 1 + i from by omega]
      exact List.mem_cons_of_mem _ this

theorem keyed_nodup {key : Nat → Nat} {ws : List TWord} {k : Nat}
    (h : ∀ i j, i < ws.length → j < ws.length → key (k + i) = key (k + j) → i = j) : ((keyed key k ws).map (·.1)).Nodup := by
  induction ws generalizing k with
  | nil => exact List.nodup_nil
  | cons x xs ih =>
    simp only [keyed, List.map_cons, List.nodup_cons]
    constructor
    · intro hm
      obtain ⟨p, hp, he⟩ := List.mem_map.1 hm
      obtain ⟨i, hi, h1, -⟩ := mem_keyed hp
      have := h 0 (i + 1) (by simp) (by simpa using hi) (by rw [← show k + 1 + i = k + (i + 1) from by omega, ← h1, he]; rfl)
      omega
    · apply ih
      intro i j hi hj e
      have := h (i + 1) (j + 1) (by simpa using hi) (by simpa using hj) (by
        rw [show k + (i + 1) = k + 1 + i from by omega, show k + (j + 1) = k + 1 + j from by omega]
        exact e)
      omega

-- Destinations -----------------------------------------------------------------------------------------------------

theorem State.setOpds_v (s : State) (c : Cur) (l : Nat) (n : BitVec 8) (k : Nat) (ws : List TWord) :
    s.setOpds c l (.v n) k ws =
      { s with regs := s.regs.setAll TWord.zero (keyed (fun k => s.vKey c l (n + BitVec.ofNat 8 k).toNat) k ws) } := by
  induction ws generalizing s k with
  | nil => rfl
  | cons x xs ih =>
    show State.setOpds (s.setOpd c.core c.warp l ((Opd.v n).next k) x) c l (.v n) (k + 1) xs = _
    rw [ih]
    rfl

theorem State.setOpds_s (s : State) (c : Cur) (l : Nat) (n : BitVec 6) (k : Nat) (ws : List TWord) :
    s.setOpds c l (.s n) k ws =
      { s with sregs := s.sregs.setAll TWord.zero (keyed (fun k => sregKey c.core c.warp (n + BitVec.ofNat 6 k).toNat) k ws) } := by
  induction ws generalizing s k with
  | nil => rfl
  | cons x xs ih =>
    show State.setOpds (s.setOpd c.core c.warp l ((Opd.s n).next k) x) c l (.s n) (k + 1) xs = _
    rw [ih]
    rfl

theorem State.setOpds_other (s : State) (c : Cur) (l : Nat) (d : Opd) (hv : ∀ n, d ≠ .v n) (hs : ∀ n, d ≠ .s n) (k : Nat)
    (ws : List TWord) : s.setOpds c l d k ws = s := by
  induction ws generalizing s k with
  | nil => rfl
  | cons x xs ih =>
    show State.setOpds (s.setOpd c.core c.warp l (d.next k) x) c l d (k + 1) xs = _
    rw [ih]
    cases d <;> first | rfl | exact absurd rfl (hv _) | exact absurd rfl (hs _)

/-- The results of lanes, with the keys that they go to. -/
def State.dstKeys (s : State) (c : Cur) (n : BitVec 8) (rs : List (Nat × List TWord)) : List (Nat × TWord) :=
  rs.flatMap fun r => keyed (fun k => s.vKey c r.1 (n + BitVec.ofNat 8 k).toNat) 0 r.2

theorem State.writeDst_v (s : State) (c : Cur) (n : BitVec 8) (rs : List (Nat × List TWord)) :
    s.writeDst c (.v n) rs = { s with regs := s.regs.setAll TWord.zero (s.dstKeys c n rs) } := by
  show rs.foldl (fun s r => s.setOpds c r.1 (.v n) 0 r.2) s = _
  induction rs generalizing s with
  | nil => rfl
  | cons r t ih =>
    rw [List.foldl_cons, ih, State.setOpds_v]
    rw [show s.dstKeys c n (r :: t) = keyed (fun k => s.vKey c r.1 (n + BitVec.ofNat 8 k).toNat) 0 r.2 ++ s.dstKeys c n t from rfl,
      Store.setAll_append]
    rfl

theorem State.writeDst_other (s : State) (c : Cur) (d : Opd) (hv : ∀ n, d ≠ .v n) (hs : ∀ n, d ≠ .s n)
    (rs : List (Nat × List TWord)) : s.writeDst c d rs = s := by
  have h : rs.foldl (fun s r => s.setOpds c r.1 d 0 r.2) s = s := by
    induction rs generalizing s with
    | nil => rfl
    | cons r t ih => rw [List.foldl_cons, ih, State.setOpds_other _ _ _ _ hv hs]
  cases d <;> first | exact h | exact absurd rfl (hv _) | exact absurd rfl (hs _)

/-- A write of destinations changes V and S registers alone. -/
theorem State.writeDst_rest (s : State) (c : Cur) (d : Opd) (rs : List (Nat × List TWord)) :
    s.writeDst c d rs = { s with regs := (s.writeDst c d rs).regs, sregs := (s.writeDst c d rs).sregs } := by
  by_cases hv : ∃ n, d = .v n
  · obtain ⟨n, rfl⟩ := hv
    rw [State.writeDst_v]
  · by_cases hs : ∃ n, d = .s n
    · obtain ⟨n, rfl⟩ := hs
      cases rs with
      | nil => rfl
      | cons r t =>
        show s.setOpds c r.1 (.s n) 0 r.2 = { s with regs := (s.setOpds c r.1 (.s n) 0 r.2).regs, sregs := (s.setOpds c r.1 (.s n) 0 r.2).sregs }
        rw [State.setOpds_s]
    · rw [State.writeDst_other s c d (fun n e => hv ⟨n, e⟩) (fun n e => hs ⟨n, e⟩)]

/-- Numbers of a register and of those after it are distinct. -/
theorem next_inj (n : BitVec 8) {i j : Nat} (hi : i < 256) (hj : j < 256)
    (h : (n + BitVec.ofNat 8 i).toNat = (n + BitVec.ofNat 8 j).toNat) : i = j := by
  simp only [BitVec.toNat_add, BitVec.toNat_ofNat] at h
  have := n.isLt
  omega
theorem next_inj6 (n : BitVec 6) {i j : Nat} (hi : i < 64) (hj : j < 64)
    (h : (n + BitVec.ofNat 6 i).toNat = (n + BitVec.ofNat 6 j).toNat) : i = j := by
  simp only [BitVec.toNat_add, BitVec.toNat_ofNat] at h
  have := n.isLt
  omega

theorem State.mem_dstKeys {s : State} {c : Cur} {n : BitVec 8} {rs : List (Nat × List TWord)} {p : Nat × TWord}
    (h : p ∈ s.dstKeys c n rs) :
    ∃ r ∈ rs, ∃ i, i < r.2.length ∧ p.1 = s.vKey c r.1 (n + BitVec.ofNat 8 i).toNat ∧ r.2[i]? = some p.2 := by
  obtain ⟨r, hr, hp⟩ := List.mem_flatMap.1 h
  obtain ⟨i, hi, h1, h2⟩ := mem_keyed hp
  rw [Nat.zero_add] at h1
  exact ⟨r, hr, i, hi, h1, h2⟩

theorem State.dstKeys_nodup (s : State) (c : Cur) (n : BitVec 8) (rs : List (Nat × List TWord)) (hn : (rs.map (·.1)).Nodup)
    (hl : ∀ r ∈ rs, r.1 < 32 ∧ r.2.length ≤ 4) : ((s.dstKeys c n rs).map (·.1)).Nodup := by
  induction rs with
  | nil => exact List.nodup_nil
  | cons r t ih =>
    simp only [List.map_cons, List.nodup_cons] at hn
    have hr := hl r (List.mem_cons_self ..)
    rw [show s.dstKeys c n (r :: t) = keyed (fun k => s.vKey c r.1 (n + BitVec.ofNat 8 k).toNat) 0 r.2 ++ s.dstKeys c n t from rfl,
      List.map_append, List.nodup_append]
    refine ⟨?_, ih hn.2 fun q hq => hl q (List.mem_cons_of_mem _ hq), ?_⟩
    · apply keyed_nodup
      intro i j hi hj e
      simp only [Nat.zero_add] at e
      exact next_inj n (by omega) (by omega) (vReg_inj hr.1 hr.1 e).2
    · intro a ha b hb e
      obtain ⟨p, hp, rfl⟩ := List.mem_map.1 ha
      obtain ⟨q, hq, rfl⟩ := List.mem_map.1 hb
      obtain ⟨i, hi, h1, -⟩ := mem_keyed hp
      obtain ⟨r', hr', j, hj, h2, -⟩ := State.mem_dstKeys hq
      rw [h1, h2] at e
      have hr2 := hl r' (List.mem_cons_of_mem _ hr')
      have := (vReg_inj hr.1 hr2.1 e).1
      exact hn.1 (List.mem_map.2 ⟨r', hr', this.symm⟩)

/-- What the results of lanes leave (R57, R96). x is the state before the write, y after; the warp's window is that of s. -/
theorem State.writeDst_wrote {s x t : State} {c : Cur} {ls : List Nat} {d : Opd} {res : Nat → List TWord}
    (hn : ls.Nodup) (hl : ∀ l ∈ ls, l < 32) (hres : ∀ l, (res l).length ≤ 4)
    (hxr : x.regs = s.regs) (hxs : x.sregs = s.sregs) (hxw : (x.warp c.core c.warp).tbase = (s.warp c.core c.warp).tbase)
    (htr : t.regs = (x.writeDst c d (ls.map fun l => (l, res l))).regs)
    (hts : t.sregs = (x.writeDst c d (ls.map fun l => (l, res l))).sregs)
    (htw : (t.warp c.core c.warp).tbase = (s.warp c.core c.warp).tbase) : Wrote s t c ls d res := by
  have hkey : ∀ l n, x.vKey c l n = s.vKey c l n := fun l n => by unfold State.vKey; rw [hxw]
  have hmap : ((ls.map fun l => (l, res l)).map (·.1)).Nodup := map_fst_nodup hn
  refine ⟨?_, ?_, ?_, ?_⟩
  · intro n hd l hll k w hw
    subst hd
    rw [State.writeDst_v] at htr
    have hm : (x.vKey c l (n + BitVec.ofNat 8 k).toNat, w) ∈ x.dstKeys c n (ls.map fun l => (l, res l)) := by
      refine List.mem_flatMap.2 ⟨(l, res l), List.mem_map.2 ⟨l, hll, rfl⟩, ?_⟩
      have := keyed_mem (key := fun k => x.vKey c l (n + BitVec.ofNat 8 k).toNat) (k := 0) hw
      rwa [Nat.zero_add] at this
    have := Store.get_setAll TWord.zero (x.dstKeys c n (ls.map fun l => (l, res l))) x.regs
      (State.dstKeys_nodup x c n _ hmap (by
        intro r hr
        obtain ⟨k, hk, rfl⟩ := List.mem_map.1 hr
        exact ⟨hl k hk, hres k⟩)) hm
    show t.vreg c.core c.warp l (n + BitVec.ofNat 8 k).toNat = w
    unfold State.vreg State.tileWord
    rw [htr, htw]
    rw [hkey] at this
    exact this
  · intro n hd l hll k w hw
    subst hd
    cases ls with
    | nil => cases hll
    | cons a b =>
      cases hll
      rw [show x.writeDst c (.s n) ((l :: b).map fun l => (l, res l)) = x.setOpds c l (.s n) 0 (res l) from rfl, State.setOpds_s] at hts
      show t.sreg c.core c.warp (n + BitVec.ofNat 6 k).toNat = w
      unfold State.sreg
      rw [hts]
      have hm := keyed_mem (key := fun k => sregKey c.core c.warp (n + BitVec.ofNat 6 k).toNat) (k := 0) hw
      rw [Nat.zero_add] at hm
      refine Store.get_setAll TWord.zero (keyed (fun k => sregKey c.core c.warp (n + BitVec.ofNat 6 k).toNat) 0 (res l)) x.sregs ?_ hm
      apply keyed_nodup
      intro i j hi hj e
      have := hres l
      simp only [Nat.zero_add] at e
      refine next_inj6 n (by omega) (by omega) ?_
      unfold sregKey at e
      omega
  · intro key hk
    rw [htr, ← hxr]
    by_cases hv : ∃ n, d = .v n
    · obtain ⟨n, rfl⟩ := hv
      rw [State.writeDst_v]
      apply Store.get_setAll_ne
      intro p hp e
      obtain ⟨r, hr, i, hi, h1, -⟩ := State.mem_dstKeys hp
      obtain ⟨l, hll, rfl⟩ := List.mem_map.1 hr
      exact hk n rfl l hll i hi (by rw [e, h1, hkey])
    · by_cases hs : ∃ n, d = .s n
      · obtain ⟨n, rfl⟩ := hs
        cases ls with
        | nil => rfl
        | cons a b =>
          rw [show x.writeDst c (.s n) ((a :: b).map fun l => (l, res l)) = x.setOpds c a (.s n) 0 (res a) from rfl, State.setOpds_s]
      · rw [State.writeDst_other x c d (fun n e => hv ⟨n, e⟩) (fun n e => hs ⟨n, e⟩)]
  · intro key hk
    rw [hts, ← hxs]
    by_cases hv : ∃ n, d = .v n
    · obtain ⟨n, rfl⟩ := hv
      rw [State.writeDst_v]
    · by_cases hs : ∃ n, d = .s n
      · obtain ⟨n, rfl⟩ := hs
        cases ls with
        | nil => rfl
        | cons a b =>
          rw [show x.writeDst c (.s n) ((a :: b).map fun l => (l, res l)) = x.setOpds c a (.s n) 0 (res a) from rfl, State.setOpds_s]
          apply Store.get_setAll_ne
          intro p hp e
          obtain ⟨i, hi, h1, -⟩ := mem_keyed hp
          rw [Nat.zero_add] at h1
          exact hk n rfl a rfl i hi (by rw [e, h1])
      · rw [State.writeDst_other x c d (fun n e => hv ⟨n, e⟩) (fun n e => hs ⟨n, e⟩)]

-- The moulds -------------------------------------------------------------------------------------------------------

/-- The predicates of a lane after a write of predicate d. -/
def Thread.judged (t : Thread) (d : Opd) (v : Bool) : BitVec 7 :=
  match d with
  | .p n => if n = 7 then t.preds else (t.setPred n.toNat v).preds
  | _ => t.preds

/-- The results of a register instruction: PSN in a source makes every word PSN (R83). -/
def State.results (b : State) (c : Cur) (n : Nat) (srcs : List Src) (f : State → Cur → Nat → List TWord) (l : Nat) : List TWord :=
  if b.psnIn c l srcs then List.replicate n TWord.poison else f b c l

/-- A state x that differs from an issue as it begins in no thread and no warp moves on to the next instruction. -/
theorem State.advance_next {s x : State} {c : Cur} {h : Head} (hx : ∀ l ∈ s.onLanes c h,
    (x.thread c.core c.warp l).pc = (s.thread c.core c.warp l).pc) :
    x.advance c.core c.warp (s.onLanes c h) =
      x.complete c.core c.warp ((s.onLanes c h).map fun l => (l, (s.thread c.core c.warp l).pc + 12)) := by
  rw [State.advance_eq]
  congr 1
  apply List.map_congr_left
  intro l hl
  rw [hx l hl]

/-- An instruction that writes results of its lanes and moves them on. -/
theorem writes_spec {i : Instr} {h : Head} {s : State} {c : Cur} {d : Opd} {chk : State → Cur → Nat → Option Trap}
    {act : State → Cur → List Nat → State} (res : Nat → List TWord) (hI : Issues i s c)
    (hchk : ∀ l ∈ s.onLanes c h, chk (s.countIssue c) c l = none) (hres : ∀ l, (res l).length ≤ 4)
    (hact : act (s.begun c h) c (s.onLanes c h) =
      ((s.begun c h).writeDst c d ((s.onLanes c h).map fun l => (l, res l))).advance c.core c.warp (s.onLanes c h)) :
    ∃ t, issue i h chk act s = .next t ∧ Computed s t c h d res := by
  obtain ⟨x, hx⟩ : ∃ x, x = (s.begun c h).writeDst c d ((s.onLanes c h).map fun l => (l, res l)) := ⟨_, rfl⟩
  have hxr : x = { s.begun c h with regs := x.regs, sregs := x.sregs } := hx ▸ State.writeDst_rest ..
  have hxt : ∀ l, x.thread c.core c.warp l = (s.begun c h).thread c.core c.warp l := fun l => by
    unfold State.thread
    rw [hxr]
  have hpc : ∀ l ∈ s.onLanes c h, (x.thread c.core c.warp l).pc = (s.thread c.core c.warp l).pc := fun l hl => by
    rw [hxt, State.begun_on hI.steady hl]
    rfl
  have hx1 : x = { s.begun c h with regs := x.regs, sregs := x.sregs, threads := x.threads } := by rw [hxr]
  have hx2 : ∀ l ∈ s.onLanes c h, x.thread c.core c.warp l =
      { (s.begun c h).thread c.core c.warp l with preds := (s.thread c.core c.warp l).preds } := by
    intro l hl
    rw [hxt, State.begun_on hI.steady hl]
    rfl
  have hx3 : ∀ key, (∀ l ∈ s.onLanes c h, key ≠ thrKey c.core c.warp l) →
      x.threads.get Thread.absent key = (s.begun c h).threads.get Thread.absent key := by
    intro key hk
    rw [hxr]
  obtain ⟨t, h1, h2, h3, h4, h5, h6⟩ := issue_runs (act := act) (fun l => (s.thread c.core c.warp l).pc + 12)
    (fun l => (s.thread c.core c.warp l).preds) hI hchk (x := x) (by rw [hact, ← State.advance_next hpc, hx]) hx1 hx2 hx3
  refine ⟨t, h1, ?_, h2, h3, h4⟩
  exact State.writeDst_wrote (x := s.begun c h) (State.onLanes_nodup s c h) (fun l hl => lanesOf_lt (State.onLanes_sub hl)) hres
    (by rw [State.begun_rest h hI.steady]) (by rw [State.begun_rest h hI.steady]) (by rw [State.begun_warp h hI.steady])
    (by rw [h5, hx]) (by rw [h6, hx]) (by rw [h3.warp])

/-- A register instruction whose sources are accepted computes. -/
theorem compute_spec {i : Instr} {h : Head} {s : State} {c : Cur} {d : Opd} {n : Nat} {srcs : List Src}
    {f : State → Cur → Nat → List TWord} (hI : Issues i s c) (hn : n ≤ 4) (hf : ∀ b c l, (f b c l).length ≤ 4)
    (hs : ∀ l ∈ s.onLanes c h, (s.begun c h).srcTrap c l srcs = none) :
    ∃ t, compute i h d n srcs f s = .next t ∧ Computed s t c h d ((s.begun c h).results c n srcs f) := by
  refine writes_spec (chk := fun s c l => s.srcTrap c l srcs)
    (act := fun s c ls => (s.writeDst c d (ls.map fun l => (l, s.results c n srcs f l))).advance c.core c.warp ls) _ hI
    (fun l hl => ?_) (fun l => ?_) rfl
  · rw [← State.begun_srcTrap hI.steady hl]
    exact hs l hl
  · unfold State.results
    split
    · simpa using hn
    · exact hf ..

/-- Predicates written per lane. -/
theorem State.writePred_eq (s : State) (c : Cur) (n : BitVec 3) (hn : n ≠ 7) (rs : List (Nat × Bool)) :
    s.writePred c (.p n) rs = s.eachThread c.core c.warp (·.1) (fun _ p t => t.setPred n.toNat p.2) rs := by
  unfold State.writePred
  simp only [hn, if_false]
  rfl

theorem State.writePred_discards (s : State) (c : Cur) (d : Opd) (hd : ∀ n, d = .p n → n = 7) (rs : List (Nat × Bool)) :
    s.writePred c d rs = s := by
  cases d <;> first | rfl | skip
  rename_i n
  unfold State.writePred
  simp [hd n rfl]

/-- What a write of predicate d leaves of the threads. -/
theorem State.writePred_spec (b : State) (c : Cur) {ls : List Nat} (hn : ls.Nodup) (d : Opd) (v : Nat → Bool) {x : State}
    (hx : x = b.writePred c d (ls.map fun l => (l, v l))) :
    x = { b with threads := x.threads } ∧ (∀ l ∈ ls, x.thread c.core c.warp l =
      { b.thread c.core c.warp l with preds := (b.thread c.core c.warp l).judged d (v l) }) ∧
      (∀ key, (∀ l ∈ ls, key ≠ thrKey c.core c.warp l) → x.threads.get Thread.absent key = b.threads.get Thread.absent key) := by
  by_cases hd : ∃ n : BitVec 3, d = .p n ∧ n ≠ 7
  · obtain ⟨n, rfl, h7⟩ := hd
    rw [State.writePred_eq _ _ _ h7 _] at hx
    have h1 := State.eachThread_rest c.core c.warp (·.1) (fun _ p t => t.setPred n.toNat p.2) (ls.map fun l => (l, v l)) b
    rw [← hx] at h1
    refine ⟨h1, ?_, ?_⟩
    · intro l hl
      rw [hx, State.eachThread_self c.core c.warp (·.1) _ _ _ (map_fst_nodup hn) (p := (l, v l)) (List.mem_map.2 ⟨l, hl, rfl⟩)]
      unfold Thread.judged
      simp only [h7, if_false]
      rfl
    · intro key hk
      rw [hx]
      apply State.eachThread_other
      intro p hp
      obtain ⟨l, hl, rfl⟩ := List.mem_map.1 hp
      exact hk l hl
  · have hn7 : ∀ n, d = .p n → n = 7 := fun n e => Decidable.byContradiction fun hn => hd ⟨n, e, hn⟩
    rw [State.writePred_discards _ _ _ hn7 _] at hx
    subst hx
    refine ⟨rfl, ?_, fun _ _ => rfl⟩
    intro l hl
    have : (x.thread c.core c.warp l).judged d (v l) = (x.thread c.core c.warp l).preds := by
      unfold Thread.judged
      cases d <;> first | rfl | skip
      rename_i n
      simp [hn7 n rfl]
    rw [this]

/-- An instruction that writes a predicate of its lanes and moves them on. -/
theorem judges_spec {i : Instr} {h : Head} {s : State} {c : Cur} {d : Opd} {chk : State → Cur → Nat → Option Trap}
    {act : State → Cur → List Nat → State} (res : Nat → Bool) (hI : Issues i s c)
    (hchk : ∀ l ∈ s.onLanes c h, chk (s.countIssue c) c l = none)
    (hact : act (s.begun c h) c (s.onLanes c h) =
      ((s.begun c h).writePred c d ((s.onLanes c h).map fun l => (l, res l))).advance c.core c.warp (s.onLanes c h)) :
    ∃ t, issue i h chk act s = .next t ∧ Judged s t c h d res := by
  obtain ⟨x, hx⟩ : ∃ x, x = (s.begun c h).writePred c d ((s.onLanes c h).map fun l => (l, res l)) := ⟨_, rfl⟩
  obtain ⟨hxr, hxt1, hxo⟩ := State.writePred_spec _ c (State.onLanes_nodup s c h) d _ hx
  have hxt : ∀ l ∈ s.onLanes c h, x.thread c.core c.warp l = { (s.begun c h).thread c.core c.warp l with
      preds := (s.thread c.core c.warp l).judged d (res l) } := by
    intro l hl
    rw [hxt1 l hl, State.begun_on hI.steady hl]
    rfl
  have hpc : ∀ l ∈ s.onLanes c h, (x.thread c.core c.warp l).pc = (s.thread c.core c.warp l).pc := fun l hl => by
    rw [hxt l hl, State.begun_on hI.steady hl]
    rfl
  have hx1 : x = { s.begun c h with regs := x.regs, sregs := x.sregs, threads := x.threads } := by rw [hxr]
  obtain ⟨t, h1, h2, h3, h4, h5, h6⟩ := issue_runs (act := act) (fun l => (s.thread c.core c.warp l).pc + 12)
    (fun l => (s.thread c.core c.warp l).judged d (res l)) hI hchk
    (x := x) (by rw [hact, ← State.advance_next hpc, hx]) hx1 hxt hxo
  refine ⟨t, h1, h2, h3, ⟨?_, ?_⟩, h4⟩
  · rw [h5, hxr, State.begun_rest h hI.steady]
  · rw [h6, hxr, State.begun_rest h hI.steady]

/-- A predicate instruction whose sources are accepted judges them. -/
theorem computePred_spec {i : Instr} {h : Head} {s : State} {c : Cur} {d : Opd} {srcs : List Src} {f : State → Cur → Nat → Bool}
    (hI : Issues i s c) (hs : ∀ l ∈ s.onLanes c h, (s.begun c h).srcTrap c l srcs = none) :
    ∃ t, computePred i h d srcs f s = .next t ∧ Judged s t c h d (f (s.begun c h) c) :=
  judges_spec (chk := fun s c l => s.srcTrap c l srcs)
    (act := fun s c ls => (s.writePred c d (ls.map fun l => (l, f s c l))).advance c.core c.warp ls) _ hI
    (fun l hl => by
      rw [← State.begun_srcTrap hI.steady hl]
      exact hs l hl) rfl

/-- An instruction that only moves its lanes. -/
theorem jump_spec {i : Instr} {h : Head} {s : State} {c : Cur} {chk : State → Cur → Nat → Option Trap}
    {act : State → Cur → List Nat → State} (dest : Nat → DWord) (hI : Issues i s c)
    (hchk : ∀ l ∈ s.onLanes c h, chk (s.countIssue c) c l = none)
    (hact : act (s.begun c h) c (s.onLanes c h) =
      (s.begun c h).complete c.core c.warp ((s.onLanes c h).map fun l => (l, dest l))) :
    ∃ t, issue i h chk act s = .next t ∧ Jumped s t c h dest := by
  obtain ⟨x, hx⟩ : ∃ x, x = s.begun c h := ⟨_, rfl⟩
  have hx1 : x = { s.begun c h with regs := x.regs, sregs := x.sregs, threads := x.threads } := by rw [← hx]
  have hx2 : ∀ l ∈ s.onLanes c h, x.thread c.core c.warp l =
      { (s.begun c h).thread c.core c.warp l with preds := (s.thread c.core c.warp l).preds } := by
    intro l hl
    rw [hx, State.begun_on hI.steady hl]
    rfl
  obtain ⟨t, h1, h2, h3, h4, h5, h6⟩ := issue_runs (act := act) dest (fun l => (s.thread c.core c.warp l).preds) hI hchk (x := x)
    (by rw [hact, hx]) hx1 hx2 (fun _ _ => by rw [hx])
  refine ⟨t, h1, h2, h3, ⟨?_, ?_⟩, h4⟩
  · rw [h5, hx, State.begun_rest h hI.steady]
  · rw [h6, hx, State.begun_rest h hI.steady]

end Sys2Proof.Machine
end

