-- ==== Sys2Proof/Laws/Traps.lean ====
section
/-!
SUPPORT. Sys2Proof/Laws/Traps.lean: what taking a trap leaves (R332), for traps of one cause.
-/
namespace Sys2Proof.Machine

/-- An event joins the trap queue, or is held for the monitor; nothing else changes. -/
theorem State.joinEvent_spec (s : State) (c : Nat) (e : Event) :
    s.joinEvent c e = s.setCore c
      (if !e.seq && ((e.cause == cStep && (s.warp c e.warp).step) || (e.cause == cBreak && (s.warp c e.warp).catches)) then
        { s.core c with held := s.queueEvent c e (s.core c).held }
        else { s.core c with trapq := s.queueEvent c e (s.core c).trapq }) := by
  unfold State.joinEvent State.modCore
  dsimp only
  split <;> rfl

theorem State.queueEvent_congr {a b : State} (h : b.cur = a.cur) (c : Nat) (e : Event) (q : List Event) :
    b.queueEvent c e q = a.queueEvent c e q := by
  have ho : b.ofIssue c = a.ofIssue c := by
    funext f
    simp only [State.ofIssue, h]
  simp only [State.queueEvent, ho]

/-- Where no event of the queue is of the issue under way, a new one goes last. -/
theorem State.queueEvent_alone {s : State} {c : Nat} {q : List Event} (e : Event) (h : ∀ f ∈ q, s.ofIssue c f = false) :
    s.queueEvent c e q = q ++ [e] := by
  have h1 : q.filter (fun f => !s.ofIssue c f) = q := List.filter_eq_self.2 fun f hf => by simp [h f hf]
  have h2 : q.filter (s.ofIssue c) = [] := List.filter_eq_nil_iff.2 fun f hf => by simp [h f hf]
  simp only [State.queueEvent, h1, h2, ite_self, addEvent]

/-- Threads parked with their records. -/
def State.park (s : State) (c w : Nat) (ts : List (Nat × Trap)) : State :=
  ts.foldl (fun s p => s.modThread c w p.1 fun t => { t with st := .parked, record := some (s.trapRecord c w p.1 p.2) }) s

/-- The record that a trap leaves depends on the context of the warp and on the thread's own address. -/
theorem State.trapRecord_congr {a b : State} {c w l : Nat} (t : Trap) (hx : b.tagOf c w = a.tagOf c w) (hd : b.device = a.device)
    (hp : (b.thread c w l).pc = (a.thread c w l).pc) : b.trapRecord c w l t = a.trapRecord c w l t := by
  simp only [State.trapRecord, hx, hp, identWord, hd]

theorem State.park_spec (s : State) (c w : Nat) (ts : List (Nat × Trap)) (hn : (ts.map (·.1)).Nodup) :
    s.park c w ts = { s with threads := (s.park c w ts).threads }
      ∧ (∀ p ∈ ts, (s.park c w ts).thread c w p.1 =
          { s.thread c w p.1 with st := .parked, record := some (s.trapRecord c w p.1 p.2) })
      ∧ ∀ key, (∀ p ∈ ts, key ≠ thrKey c w p.1) → (s.park c w ts).threads.get Thread.absent key = s.threads.get Thread.absent key := by
  induction ts generalizing s with
  | nil => exact ⟨rfl, fun _ h => (List.not_mem_nil h).elim, fun _ _ => rfl⟩
  | cons q t ih =>
    simp only [List.map_cons, List.nodup_cons, List.mem_map, not_exists, not_and] at hn
    obtain ⟨s1, hs1⟩ : ∃ s1, s1 = s.modThread c w q.1 fun t => { t with st := .parked, record := some (s.trapRecord c w q.1 q.2) } :=
      ⟨_, rfl⟩
    have e : s.park c w (q :: t) = s1.park c w t := by rw [hs1]; rfl
    have hs1r : s1 = { s with threads := s1.threads } := by rw [hs1]; rfl
    obtain ⟨h1, h2, h3⟩ := ih s1 hn.2
    rw [e]
    refine ⟨?_, ?_, ?_⟩
    · rw [h1, hs1r]
    · intro p hp
      cases hp with
      | head =>
        show Store.get _ _ _ = _
        rw [h3 _ fun r hr e => hn.1 r hr (by unfold thrKey at e; omega)]
        show s1.thread c w q.1 = _
        rw [hs1, State.thread_modThread]
      | tail _ hp =>
        have hne : p.1 ≠ q.1 := fun e => hn.1 p hp e
        rw [h2 p hp]
        have ht : s1.thread c w p.1 = s.thread c w p.1 := by rw [hs1, State.thread_modThread_lane _ _ _ _ hne]
        rw [ht, State.trapRecord_congr (a := s) (b := s1) _ (by rw [hs1r]; rfl) (by rw [hs1r]) (by rw [ht])]
    · intro key hk
      rw [h3 key fun p hp => hk p (List.mem_cons_of_mem _ hp), hs1]
      simp only [State.modThread, State.setThread]
      exact Store.get_set_ne _ _ _ (hk q (List.mem_cons_self ..))

/-- The event of traps of one cause. -/
def State.eventOf (s : State) (c w : Nat) (cause : Byte) (ts : List (Nat × Trap)) : Event :=
  { warp := w, lanes := maskOf (ts.map (·.1)), seq := false, cause, defd := ts.any fun p => p.2.defd,
    team := s.warpTeam c w, ctx := (s.tagOf c w).1, inc := (s.tagOf c w).2,
    frz := cause == cStep && (s.warp c w).frz }

theorem State.trapEvent_eq (s : State) (c w : Nat) (cause : Byte) (ts : List (Nat × Trap)) :
    s.trapEvent c w cause ts = (s.park c w ts).joinEvent c (s.eventOf c w cause ts) := rfl

/-- Traps of one cause form one event. -/
theorem State.takeTraps_one (s : State) (c w : Nat) (ts : List (Nat × Trap)) (cause : Byte) (hw : w ≠ 64) (hne : ts ≠ [])
    (hc : cause.toNat < 64) (h : ∀ p ∈ ts, p.2.cause = cause) : s.takeTraps c w ts = s.trapEvent c w cause ts := by
  have hne2 : ts.isEmpty = false := by cases ts with
    | nil => exact absurd rfl hne
    | cons => rfl
  have hmine : ∀ k : Nat, ts.filter (fun p => p.2.cause.toNat == k) = if k = cause.toNat then ts else [] := by
    intro k
    split
    · rename_i e
      rw [List.filter_eq_self]
      intro p hp
      simp [h p hp, e]
    · rename_i e
      rw [List.filter_eq_nil_iff]
      intro p hp
      simp [h p hp]
      omega
  have hstep : ∀ (x : State) (k : Nat), (
      let mine := ts.filter fun p => p.2.cause.toNat == k
      if mine.isEmpty then x else x.trapEvent c w (BitVec.ofNat 8 k) mine) = if k = cause.toNat then x.trapEvent c w cause ts else x := by
    intro x k
    simp only [hmine]
    by_cases e : k = cause.toNat
    · subst e
      simp [hne2]
    · simp [e]
  have hfold : ∀ (ks : List Nat) (x : State), ks.Nodup → (ks.foldl (fun x k => if k = cause.toNat then x.trapEvent c w cause ts else x) x) =
      if cause.toNat ∈ ks then x.trapEvent c w cause ts else x := by
    intro ks
    induction ks with
    | nil => intro x _; rfl
    | cons k t ih =>
      intro x hn
      rw [List.nodup_cons] at hn
      rw [List.foldl_cons, ih _ hn.2]
      by_cases e : k = cause.toNat
      · subst e
        simp [hn.1]
      · have : cause.toNat ≠ k := fun h => e h.symm
        simp [e, this]
  unfold State.takeTraps
  simp only [hne2, Bool.false_eq_true, if_false, hw]
  have := hfold (List.range 64) s List.nodup_range
  rw [if_pos (by simpa using hc)] at this
  rw [← this]
  congr 1
  funext x k
  exact hstep x k

/-- What a taken trap of one cause leaves: a is the state before. -/
theorem State.trapEvent_spec (a : State) (c w : Nat) (cause : Byte) (ts : List (Nat × Trap)) (hn : (ts.map (·.1)).Nodup)
    (hs : (a.warp c w).step = false) :
    let t := a.trapEvent c w cause ts
    t = { a with threads := t.threads, cores := t.cores }
      ∧ (∀ p ∈ ts, t.thread c w p.1 = { a.thread c w p.1 with st := .parked, record := some (a.trapRecord c w p.1 p.2) })
      ∧ (∀ key, (∀ p ∈ ts, key ≠ thrKey c w p.1) → t.threads.get Thread.absent key = a.threads.get Thread.absent key)
      ∧ t.core c = (if cause = cBreak ∧ (a.warp c w).catches = true then
          { a.core c with held := a.queueEvent c (a.eventOf c w cause ts) (a.core c).held }
          else { a.core c with trapq := a.queueEvent c (a.eventOf c w cause ts) (a.core c).trapq })
      ∧ ∀ d, d ≠ c → t.core d = a.core d := by
  obtain ⟨h1, h2, h3⟩ := State.park_spec a c w ts hn
  generalize hp : a.park c w ts = p at h1 h2 h3
  have hk : p.core c = a.core c := by rw [h1]; rfl
  have hkd : ∀ d, p.core d = a.core d := fun d => by rw [h1]; rfl
  have hw : p.warp c w = a.warp c w := by rw [h1]; rfl
  have hcond : (!(a.eventOf c w cause ts).seq && (((a.eventOf c w cause ts).cause == cStep && (p.warp c (a.eventOf c w cause ts).warp).step)
      || ((a.eventOf c w cause ts).cause == cBreak && (p.warp c (a.eventOf c w cause ts).warp).catches))) =
      decide (cause = cBreak ∧ (a.warp c w).catches = true) := by
    show (!false && ((cause == cStep && (p.warp c w).step) || (cause == cBreak && (p.warp c w).catches))) = _
    rw [hw, hs, Bool.eq_iff_iff]
    simp
  intro t
  have ht : t = p.setCore c (if cause = cBreak ∧ (a.warp c w).catches = true then
      { a.core c with held := a.queueEvent c (a.eventOf c w cause ts) (a.core c).held }
      else { a.core c with trapq := a.queueEvent c (a.eventOf c w cause ts) (a.core c).trapq }) := by
    show a.trapEvent c w cause ts = _
    rw [State.trapEvent_eq, hp, State.joinEvent_spec, hcond, hk]
    simp only [State.queueEvent_congr (a := a) (b := p) (by rw [h1])]
    simp only [decide_eq_true_eq]
  clear_value t
  subst ht
  refine ⟨?_, ?_, ?_, ?_, ?_⟩
  · rw [h1]
    rfl
  · intro q hq
    exact h2 q hq
  · intro key hkey
    exact h3 key hkey
  · rw [State.core_setCore]
  · intro d hd
    rw [State.core_setCore_ne _ _ hd, hkd]

theorem State.tagOf_congr {a b : State} {c w : Nat} (hc : b.core c = a.core c) (hl : b.launches = a.launches)
    (hw : (b.warp c w).team = (a.warp c w).team) : b.tagOf c w = a.tagOf c w ∧ b.warpTeam c w = a.warpTeam c w := by
  have hsv : b.served c = a.served c := by simp only [State.served, hc]
  have ht : b.warpTeam c w = a.warpTeam c w := by simp only [State.warpTeam, hsv, hw]
  have hla : ∀ n, b.launch n = a.launch n := fun n => by simp only [State.launch, hl]
  have hto : b.teamOf c w = a.teamOf c w := by simp only [State.teamOf, State.team, ht, hc]
  have hlo : b.launchOf c w = a.launchOf c w := by simp only [State.launchOf, hto, hla]
  exact ⟨by simp only [State.tagOf, hsv, hlo], ht⟩

/-- The traps of an issue, all of one cause, from a state x that differs from s in threads of the set and the warp's count alone. -/
theorem Trapped.of_takeTraps {s x : State} {c : Cur} {ls off : List Nat} {trap : Nat → Trap} {cause : Byte} {defd : Bool}
    (hs : (s.warp c.core c.warp).step = false) (hw : c.warp ≠ 64) (hne : ls ≠ []) (hn : ls.Nodup) (hdis : ∀ l ∈ off, l ∉ ls)
    (hsub : ∀ l ∈ ls, l ∈ lanesOf c.mask) (hc : cause.toNat < 64) (ht : ∀ l ∈ ls, (trap l).cause = cause ∧ (trap l).defd = defd)
    (hxr : x = { s with threads := x.threads, warps := x.warps })
    (hxw : x.warp c.core c.warp = { s.warp c.core c.warp with retired := (s.warp c.core c.warp).retired + BitVec.ofNat 64 off.length })
    (hxws : ∀ key, key ≠ warpKey c.core c.warp → x.warps.get Warp.idle key = s.warps.get Warp.idle key)
    (hxl : ∀ l ∈ ls, (x.thread c.core c.warp l).pc = (s.thread c.core c.warp l).pc
      ∧ (x.thread c.core c.warp l).preds = (s.thread c.core c.warp l).preds)
    (hxo : ∀ l ∈ off, (x.thread c.core c.warp l).st = .ready ∧ (x.thread c.core c.warp l).pc = (s.thread c.core c.warp l).pc + 12
      ∧ (x.thread c.core c.warp l).preds = (s.thread c.core c.warp l).preds)
    (hxk : ∀ key, (∀ l ∈ lanesOf c.mask, key ≠ thrKey c.core c.warp l) → x.threads.get Thread.absent key = s.threads.get Thread.absent key) :
    Trapped s (x.takeTraps c.core c.warp (ls.map fun l => (l, trap l))) c ls off trap cause defd := by
  have hmap : ((ls.map fun l => (l, trap l)).map (·.1)) = ls := by
    rw [List.map_map]
    simp [Function.comp_def]
  have hxs : (x.warp c.core c.warp).step = false := by rw [hxw, hs]
  have hone := State.takeTraps_one x c.core c.warp (ls.map fun l => (l, trap l)) cause hw (by simpa using hne) hc (by
    intro p hp
    obtain ⟨l, hl, rfl⟩ := List.mem_map.1 hp
    exact (ht l hl).1)
  obtain ⟨h1, h2, h3, h4, h5⟩ := State.trapEvent_spec x c.core c.warp cause (ls.map fun l => (l, trap l)) (by rw [hmap]; exact hn) hxs
  rw [hone]
  generalize x.trapEvent c.core c.warp cause (ls.map fun l => (l, trap l)) = t at h1 h2 h3 h4 h5
  have hxc : ∀ d, x.core d = s.core d := fun d => by rw [hxr]; rfl
  obtain ⟨htag, hteam⟩ := State.tagOf_congr (a := s) (b := x) (hxc c.core) (by rw [hxr]) (by rw [hxw])
  have hev : x.eventOf c.core c.warp cause (ls.map fun l => (l, trap l)) =
      { warp := c.warp, lanes := maskOf ls, seq := false, cause, defd, team := s.warpTeam c.core c.warp,
        ctx := (s.tagOf c.core c.warp).1, inc := (s.tagOf c.core c.warp).2,
        frz := cause == cStep && (s.warp c.core c.warp).frz } := by
    have hd : (ls.map fun l => (l, trap l)).any (fun p => p.2.defd) = defd := by
      cases defd
      · rw [List.any_eq_false]
        intro p hp
        obtain ⟨l, hl, rfl⟩ := List.mem_map.1 hp
        simp [(ht l hl).2]
      · rw [List.any_eq_true]
        cases ls with
        | nil => exact absurd rfl hne
        | cons a b => exact ⟨(a, trap a), List.mem_map.2 ⟨a, List.mem_cons_self .., rfl⟩, (ht a (List.mem_cons_self ..)).2⟩
    simp only [State.eventOf, hmap, hd, htag, hteam, hxw]
  have hlane : ∀ l, (∀ k ∈ ls, l ≠ k) → t.thread c.core c.warp l = x.thread c.core c.warp l := by
    intro l hl
    apply h3
    intro p hp e
    obtain ⟨k, hk, rfl⟩ := List.mem_map.1 hp
    exact hl k hk (by unfold thrKey at e; simp only at e; omega)
  have htw : t.warps = x.warps := by rw [h1]
  refine ⟨?_, ?_, ?_, ?_, fun _ e h => State.queueEvent_alone e h, ?_, ?_, ?_, ?_⟩
  · intro l hl
    rw [h2 (l, trap l) (List.mem_map.2 ⟨l, hl, rfl⟩)]
    refine ⟨rfl, (hxl l hl).1, (hxl l hl).2, ?_⟩
    simp only
    rw [State.trapRecord_congr (a := s) (b := x) _ htag (by rw [hxr]) (hxl l hl).1]
  · intro l hl
    rw [hlane l fun k hk e => hdis l hl (e ▸ hk)]
    exact hxo l hl
  · intro key hk
    rw [h3 key, hxk key hk]
    intro p hp
    obtain ⟨l, hl, rfl⟩ := List.mem_map.1 hp
    exact hk l (hsub l hl)
  · simp only
    rw [h4, hev, hxc, hxw]
    simp only [State.queueEvent_congr (a := s) (b := x) (by rw [hxr])]
  · intro d hd
    rw [h5 d hd, hxc]
  · have : t.warp c.core c.warp = x.warp c.core c.warp := by unfold State.warp; rw [htw]
    rw [this, hxw]
  · intro key hk
    rw [htw, hxws key hk]
  · rw [h1, hxr]

/-- An issue that meets no soft error compares equal, and spends none. -/
theorem State.countIssue_sound {s : State} {c : Cur} (hup : (s.warp c.core c.warp).upsets = 0) :
    (s.countIssue c).dmrMismatch c = false ∧ (s.countIssue c).spendUpsets c = s.countIssue c := by
  constructor
  · unfold State.dmrMismatch
    rw [State.countIssue_warp, hup]
    simp
  · unfold State.spendUpsets
    rw [State.countIssue_warp, hup]
    rfl

/-- An issue all of whose lanes with a true guard take one trap before the entry's performance. -/
theorem issue_traps {i : Instr} {h : Head} {s x : State} {c : Cur} {chk : State → Cur → Nat → Option Trap}
    {act : State → Cur → List Nat → State} {trap : Nat → Trap} {cause : Byte} {defd : Bool}
    (hcur : s.cur = some c) (hword : (s.countIssue c).wordTrap c i = none) (hs : (s.warp c.core c.warp).step = false)
    (hup : (s.warp c.core c.warp).upsets = 0) (hw : c.warp ≠ 64) (hne : s.onLanes c h ≠ []) (hc : cause.toNat < 64)
    (ht : ∀ l ∈ s.onLanes c h, (trap l).cause = cause ∧ (trap l).defd = defd)
    (hchk : ∀ l ∈ s.onLanes c h, ((s.countIssue c).ownTrap c i).or (chk (s.countIssue c) c l) = some (trap l))
    (hact : act (s.begun c h) c [] = x) (hxr : x = { s.begun c h with warps := x.warps })
    (hxw : ∀ key, x.warps.get Warp.idle key = (s.begun c h).warps.get Warp.idle key) :
    ∃ t, issue i h chk act s = .next t ∧ Trapped s t c (s.onLanes c h) (s.offLanes c h) trap cause defd := by
  have hon : (lanesOf c.mask).filter (fun l => guardOn h ((s.countIssue c).thread c.core c.warp l)) = s.onLanes c h := by
    unfold State.onLanes
    simp only [State.countIssue_guard]
  have hoff : (lanesOf c.mask).filter (fun l => !guardOn h ((s.countIssue c).thread c.core c.warp l)) = s.offLanes c h := by
    unfold State.offLanes
    simp only [State.countIssue_guard]
  have hp : (s.onLanes c h).filter (fun l => (((s.countIssue c).ownTrap c i).or (chk (s.countIssue c) c l)).isNone) = [] := by
    rw [List.filter_eq_nil_iff]
    intro l hl
    rw [hchk l hl]
    simp
  have hb : (s.onLanes c h).filterMap
      (fun l => (((s.countIssue c).ownTrap c i).or (chk (s.countIssue c) c l)).map fun t => (l, t)) =
        (s.onLanes c h).map fun l => (l, trap l) := by
    have hgen : ∀ ks : List Nat, (∀ l ∈ ks, ((s.countIssue c).ownTrap c i).or (chk (s.countIssue c) c l) = some (trap l)) →
        ks.filterMap (fun l => (((s.countIssue c).ownTrap c i).or (chk (s.countIssue c) c l)).map fun t => (l, t)) =
          ks.map fun l => (l, trap l) := by
      intro ks hks
      induction ks with
      | nil => rfl
      | cons a b ih =>
        rw [List.filterMap_cons, hks a (List.mem_cons_self ..), List.map_cons, ← ih fun l hl => hks l (List.mem_cons_of_mem _ hl)]
        rfl
    exact hgen _ hchk
  obtain ⟨hd, hu⟩ := State.countIssue_sound hup
  have hxwc : x.warp c.core c.warp = (s.begun c h).warp c.core c.warp := hxw _
  have hmark : x.rollMark c.core c.warp = (s.begun c h).rollMark c.core c.warp :=
    State.rollMark_congr (by rw [hxr]) (by rw [hxwc])
  have hlatch : x.latchTime c i [] = x := by
    unfold State.latchTime
    split <;> rfl
  have hrun : issue i h chk act s = .next (x.takeTraps c.core c.warp ((s.onLanes c h).map fun l => (l, trap l))) := by
    unfold issue issueWith
    rw [hcur]
    simp only [hword, hon, hoff, hp, hb, hd, hu, Bool.false_eq_true, if_false, List.append_nil]
    show (if (act (s.begun c h) c []).rollMark c.core c.warp != (s.begun c h).rollMark c.core c.warp then _ else
      Host.Outcome.next (((act (s.begun c h) c []).latchTime c i []).takeTraps c.core c.warp _)) = _
    rw [hact, hmark, hlatch]
    simp
  have hthr : ∀ l, x.thread c.core c.warp l = (s.begun c h).thread c.core c.warp l := fun l => by
    unfold State.thread
    rw [hxr]
  refine ⟨_, hrun, Trapped.of_takeTraps hs hw hne (State.onLanes_nodup s c h) (fun l hl ho => State.on_not_off ho hl)
    (fun l hl => State.onLanes_sub hl) hc ht ?_ ?_ ?_ ?_ ?_ ?_⟩
  · rw [hxr, State.begun_rest h hs]
  · rw [hxwc, State.begun_warp h hs]
  · intro key hk
    rw [hxw, State.begun_warps h hs key hk]
  · intro l hl
    rw [hthr, State.begun_on hs hl]
    exact ⟨rfl, rfl⟩
  · intro l hl
    rw [hthr, State.begun_off hs hl]
    exact ⟨rfl, rfl, rfl⟩
  · intro key hk
    rw [hxr]
    exact State.begun_others hs key hk

/-- A word that is illegal, or whose window a register leaves, traps in the whole convergent set. -/
theorem issue_word_traps {i : Instr} {h : Head} {s : State} {c : Cur} {chk : State → Cur → Nat → Option Trap}
    {act : State → Cur → List Nat → State × List (Nat × Trap)} {trap : Trap} (hcur : s.cur = some c)
    (hword : (s.countIssue c).wordTrap c i = some trap) (hs : (s.warp c.core c.warp).step = false)
    (hup : (s.warp c.core c.warp).upsets = 0) (hw : c.warp ≠ 64) (hne : lanesOf c.mask ≠ []) (hc : trap.cause.toNat < 64) :
    ∃ t, issueWith i h chk act s = .next t ∧ Trapped s t c (lanesOf c.mask) [] (fun _ => trap) trap.cause trap.defd := by
  refine ⟨(s.countIssue c).takeTraps c.core c.warp ((lanesOf c.mask).map fun l => (l, trap)), ?_, ?_⟩
  · unfold issueWith
    rw [hcur]
    obtain ⟨hd, hu⟩ := State.countIssue_sound hup
    simp only [hword, hd, hu, Bool.false_eq_true, if_false]
  · refine Trapped.of_takeTraps hs hw hne (lanesOf_nodup _) (by simp) (fun l hl => hl) hc (fun _ _ => ⟨rfl, rfl⟩) ?_ ?_ ?_ ?_ ?_ ?_
    · rw [State.countIssue_rest]
    · rw [State.countIssue_warp]
      simp
    · intro key _
      rw [State.countIssue_rest]
    · intro l hl
      exact ⟨State.countIssue_pc s c l, State.countIssue_preds s c l⟩
    · simp
    · intro key hk
      rw [State.countIssue_eq]
      exact State.eachThread_other _ _ _ _ _ _ _ hk

end Sys2Proof.Machine
end

