-- ==== Sys2Proof/Laws/Exit.lean ====
section
/-!
SUPPORT. Sys2Proof/Laws/Exit.lean: what ending threads leaves (R140, R279, R291): the end of a team touches neither threads nor warps nor
registers.
-/
namespace Sys2Proof.Machine

/-- Nothing of threads, warps and registers differs. -/
structure SameThreads (s t : State) : Prop where
  threads : t.threads = s.threads
  warps : t.warps = s.warps
  regs : t.regs = s.regs
  sregs : t.sregs = s.sregs
  time : t.time = s.time

theorem SameThreads.refl (s : State) : SameThreads s s := ⟨rfl, rfl, rfl, rfl, rfl⟩
theorem SameThreads.trans {a b c : State} (h : SameThreads a b) (k : SameThreads b c) : SameThreads a c :=
  ⟨k.1.trans h.1, k.2.trans h.2, k.3.trans h.3, k.4.trans h.4, k.5.trans h.5⟩
theorem SameThreads.foldl {α : Type} {f : State → α → State} (h : ∀ s a, SameThreads s (f s a)) (l : List α) (s : State) :
    SameThreads s (l.foldl f s) := by
  induction l generalizing s with
  | nil => exact .refl s
  | cons a t ih => exact (h s a).trans (ih (f s a))

theorem State.rekeyUnit_same (s : State) (form u : Nat) : SameThreads s (s.rekeyUnit form u) := by
  unfold State.rekeyUnit
  split <;> exact ⟨rfl, rfl, rfl, rfl, rfl⟩
theorem State.writeHome_same (s : State) (key : Nat) (a : Attr) (pa : Nat) (bs : List Byte) : SameThreads s (s.writeHome key a pa bs) := by
  unfold State.writeHome
  split
  · exact .refl s
  · split
    · exact (SameThreads.foldl (fun s u => State.rekeyUnit_same s key u) _ _ : SameThreads s (s.rekey key pa bs.length)).trans
        ⟨rfl, rfl, rfl, rfl, rfl⟩
    · exact ⟨rfl, rfl, rfl, rfl, rfl⟩
    · exact ⟨rfl, rfl, rfl, rfl, rfl⟩
theorem State.writeBytesMasked_same (s : State) (key : Nat) (a : Attr) (pa : Nat) (ms : List Bool) (bs : List Byte) :
    SameThreads s (s.writeBytesMasked key a pa ms bs) := by
  induction ms generalizing s pa bs with
  | nil => exact .refl s
  | cons m ms ih =>
    cases bs with
    | nil => exact .refl s
    | cons b bs =>
      refine SameThreads.trans ?_ (ih _ (pa + 1) bs)
      split
      · exact State.writeHome_same ..
      · exact .refl s
theorem State.writeMasked_same (s : State) (key : Nat) (a : Attr) (pa : Nat) (mask : List Bool) (data : List Byte) :
    SameThreads s (s.writeMasked key a pa mask data) := by
  have h := State.writeBytesMasked_same s key a pa mask data
  unfold State.writeMasked
  generalize s.writeBytesMasked key a pa mask data = t at h
  dsimp only
  split
  · exact h.trans ⟨rfl, rfl, rfl, rfl, rfl⟩
  · exact h
theorem State.homeL2_same (s : State) (x : L2Line) : SameThreads s (s.homeL2 x) := by
  unfold State.homeL2
  split
  · exact State.writeMasked_same ..
  · exact .refl s
theorem State.otherKey_same (s : State) (die ctx : Nat) (a : Attr) (pa : Nat) : SameThreads s (s.otherKey die ctx a pa) :=
  (SameThreads.foldl (f := fun s x => s.homeL2 x) State.homeL2_same _ s).trans ⟨rfl, rfl, rfl, rfl, rfl⟩
theorem State.softFetch_same (s : State) (die ctx : Nat) (inc : Byte) (a : Attr) (va pa : Nat) :
    SameThreads s (s.softFetch die ctx inc a va pa).2.2 := by
  have h := State.otherKey_same s die ctx a pa
  unfold State.softFetch
  generalize s.otherKey die ctx a pa = t at h
  dsimp only
  split
  · split <;> exact h.trans ⟨rfl, rfl, rfl, rfl, rfl⟩
  · exact h

theorem State.softLine_same (s : State) (core ctx : Nat) (inc : Byte) (a : Attr) (va pa : Nat) :
    SameThreads s (s.softLine core ctx inc a va pa) := by
  unfold State.softLine
  have h := State.softFetch_same s (dieOf core) ctx inc a va pa
  generalize s.softFetch (dieOf core) ctx inc a va pa = r at h
  obtain ⟨d, p, s1⟩ := r
  exact h.trans ⟨rfl, rfl, rfl, rfl, rfl⟩

theorem State.sendStoreAs_same (s : State) (y : Sender) (c w l : Nat) (a : Attr) (va pa : Nat) (data : List Byte) :
    SameThreads s (s.sendStoreAs y c w l a va pa data) := by
  unfold State.sendStoreAs
  dsimp only
  split
  · exact ⟨rfl, rfl, rfl, rfl, rfl⟩
  · split <;> exact ⟨rfl, rfl, rfl, rfl, rfl⟩
theorem State.sendStore_same (s : State) (c w l : Nat) (a : Attr) (va pa : Nat) (data : List Byte) :
    SameThreads s (s.sendStore c w l a va pa data) := State.sendStoreAs_same ..
theorem State.performHeld_same (s : State) (y : Sender) (c : Nat) (h : Held) : SameThreads s (s.performHeld y c h) :=
  (State.sendStoreAs_same s y c h.warp h.lane h.attr h.va h.pa h.data).trans ⟨rfl, rfl, rfl, rfl, rfl⟩

theorem State.modTeam_same (s : State) (c slot : Nat) (f : Team → Team) : SameThreads s (s.modTeam c slot f) := by
  unfold State.modTeam
  split <;> exact ⟨rfl, rfl, rfl, rfl, rfl⟩
theorem State.modLaunch_same (s : State) (n : Nat) (f : Launch → Launch) : SameThreads s (s.modLaunch n f) := by
  unfold State.modLaunch
  split <;> exact ⟨rfl, rfl, rfl, rfl, rfl⟩

theorem State.releaseHeld_same (s : State) (c slot : Nat) : SameThreads s (s.releaseHeld c slot) := by
  unfold State.releaseHeld
  split
  · exact (SameThreads.foldl (fun s h => State.performHeld_same ..) _ _).trans (State.modTeam_same ..)
  · exact .refl s

theorem State.settleCluster_same (s : State) (launch index : Nat) : SameThreads s (s.settleCluster launch index) := by
  unfold State.settleCluster
  dsimp only
  have h (l : List (Nat × Nat × Team)) : SameThreads s (l.foldl (fun s m => s.dropTeam m.1 m.2.1) s) :=
    SameThreads.foldl (f := fun s (m : Nat × Nat × Team) => s.dropTeam m.1 m.2.1) (fun _ _ => ⟨rfl, rfl, rfl, rfl, rfl⟩) l s
  (repeat' split) <;> first | exact h _ | exact .refl s

theorem State.teamEnd_same (s : State) (c slot : Nat) : SameThreads s (s.teamEnd c slot) := by
  unfold State.teamEnd
  split
  · exact .refl s
  · split
    · exact .refl s
    · rename_i t _ _
      refine (State.releaseHeld_same s c slot).trans ?_
      generalize s.releaseHeld c slot = a
      dsimp only
      refine SameThreads.trans ?_ (State.settleCluster_same _ _ _)
      have h1 : SameThreads a (if t.seq then (a.freeTiles c 0x40).modSeq c Seq.leave else a) := by
        split
        · exact ⟨rfl, rfl, rfl, rfl, rfl⟩
        · exact .refl a
      generalize (if t.seq then (a.freeTiles c 0x40).modSeq c Seq.leave else a) = b at h1
      have h2 := State.modTeam_same (b.modLaunch t.launch fun l => { l with endedTeams := l.endedTeams ++ [t.index] }) c slot
        (fun t => { t with ended := true })
      exact (h1.trans (State.modLaunch_same b _ _)).trans (h2.trans ⟨rfl, rfl, rfl, rfl, rfl⟩)

end Sys2Proof.Machine
end

