-- ==== Sys2Proof/Laws/Calm.lean ====
section
/-!
SUPPORT. Sys2Proof/Laws/Calm.lean: what sending requests, filling caches and ending retryability leave alone (R183, R191, R354, R355):
of a core only its L1 and the RECOV state of its teams differ, and how often each team has rolled back stays; a SOFT line that comes under
another key may first write bytes back to their home (R319).
-/
namespace Sys2Proof.Machine

/-- A team without the retryability and the held stores of its interval. -/
def Team.still (t : Team) : Team := { t with recov := t.recov.map fun r => { r with retry := false, held := [] } }

/-- Of the package only the L1s and L2 copies, bytes at their home, the requests, and the retryability of teams differ. -/
structure Calm (s t : State) : Prop where
  rest : ({ t with cores := s.cores, reqs := s.reqs, nextId := s.nextId, l2 := s.l2 }).atHome s = s
  core : ∀ d, { t.core d with teams := [], l1 := [] } = { s.core d with teams := [], l1 := [] }
  team : ∀ d slot, (t.team d slot).map Team.still = (s.team d slot).map Team.still

theorem Calm.refl (s : State) : Calm s s := ⟨rfl, fun _ => rfl, fun _ _ => rfl⟩
theorem Calm.trans {a b c : State} (h : Calm a b) (k : Calm b c) : Calm a c := by
  refine ⟨?_, fun d => (k.2 d).trans (h.2 d), fun d i => (k.3 d i).trans (h.3 d i)⟩
  have e := k.1
  have := h.1
  simp only [State.atHome] at e this ⊢
  rw [← e] at this
  simpa using this
theorem Calm.foldl {α : Type} {f : State → α → State} (h : ∀ s a, Calm s (f s a)) (l : List α) (s : State) : Calm s (l.foldl f s) := by
  induction l generalizing s with
  | nil => exact .refl s
  | cons a t ih => exact (h s a).trans (ih (f s a))

theorem Calm.of_rest {s t : State} (hc : t.cores = s.cores)
    (h : ({ t with reqs := s.reqs, nextId := s.nextId, l2 := s.l2 }).atHome s = s) : Calm s t := by
  refine ⟨?_, fun d => ?_, fun d i => ?_⟩
  · rw [← hc]; exact h
  · simp only [State.core, hc]
  · simp only [State.team, State.core, hc]

/-- The core that an update of one core leaves anywhere. -/
theorem State.core_setCore_at (s : State) (c d : Nat) (k : Core) : (s.setCore c k).core d = if d = c then k else s.core d :=
  Store.get_set _ _ _ _ _

/-- A core whose L1 changes. -/
theorem Calm.l1 (s : State) (c : Nat) (f : Core → List L1Line) : Calm s (s.modCore c fun k => { k with l1 := f k }) := by
  refine ⟨rfl, fun d => ?_, fun d i => ?_⟩
  · unfold State.modCore
    rw [State.core_setCore_at]
    split
    · subst d; rfl
    · rfl
  · unfold State.team State.modCore
    rw [State.core_setCore_at]
    split
    · subst d; rfl
    · rfl

theorem State.team_setTeam (s : State) (c d slot i : Nat) (x : Team) :
    (s.setTeam c slot x).team d i = if d = c ∧ i = slot then some x else s.team d i := by
  unfold State.team State.setTeam State.modCore
  rw [State.core_setCore_at]
  by_cases h : d = c
  · subst h
    rw [if_pos rfl]
    by_cases hi : i = slot
    · subst hi
      rw [if_pos ⟨rfl, rfl⟩]
      exact Store.find_put_self _ _ _
    · rw [if_neg (fun h => hi h.2)]
      exact Store.find_put_ne _ _ hi
  · rw [if_neg h, if_neg (fun k => h k.1)]

theorem State.core_setTeam (s : State) (c d slot : Nat) (x : Team) :
    { (s.setTeam c slot x).core d with teams := [], l1 := [] } = { s.core d with teams := [], l1 := [] } := by
  unfold State.setTeam State.modCore
  rw [State.core_setCore_at]
  split
  · subst d; rfl
  · rfl

/-- A team whose retryability changes. -/
theorem Calm.modTeam (s : State) (c slot : Nat) {f : Team → Team} (h : ∀ t, s.team c slot = some t → (f t).still = t.still) : Calm s (s.modTeam c slot f) := by
  unfold State.modTeam
  split
  · rename_i t ht
    refine ⟨rfl, fun d => State.core_setTeam .., fun d i => ?_⟩
    rw [State.team_setTeam]
    split
    · rename_i e
      obtain ⟨rfl, rfl⟩ := e
      rw [ht]
      exact congrArg some (h t ht)
    · rfl
  · exact .refl s

theorem State.send_calm (s : State) (c w l : Nat) (a : Attr) (va pa : Nat) (act : ReqAct) (acq : Bool) :
    Calm s (s.send c w l a va pa act acq).2 := .of_rest rfl rfl

theorem State.writeHome_calm (s : State) (key : Nat) (a : Attr) (pa : Nat) (bs : List Byte) : Calm s (s.writeHome key a pa bs) := by
  unfold State.writeHome
  split
  · exact .refl s
  · split
    · refine (Calm.foldl (f := fun s u => s.rekeyUnit key u) (fun s u => ?_) _ _ : Calm s (s.rekey key pa bs.length)).trans (.of_rest rfl rfl)
      unfold State.rekeyUnit
      split
      · exact .refl s
      · exact .of_rest rfl rfl
    · exact .of_rest rfl rfl
    · exact .of_rest rfl rfl
theorem State.writeMasked_calm (s : State) (key : Nat) (a : Attr) (pa : Nat) (mask : List Bool) (data : List Byte) :
    Calm s (s.writeMasked key a pa mask data) := by
  have h : ∀ (ms : List Bool) (bs : List Byte) (s : State) (pa : Nat), Calm s (s.writeBytesMasked key a pa ms bs) := by
    intro ms
    induction ms with
    | nil => exact fun _ s _ => .refl s
    | cons m ms ih =>
      intro bs s pa
      cases bs with
      | nil => exact .refl s
      | cons b bs =>
        refine Calm.trans ?_ (ih bs _ (pa + 1))
        split
        · exact State.writeHome_calm ..
        · exact .refl s
  have h := h mask data s pa
  unfold State.writeMasked
  generalize s.writeBytesMasked key a pa mask data = t at h
  dsimp only
  split
  · exact h.trans (.of_rest rfl rfl)
  · exact h
theorem State.homeL2_calm (s : State) (x : L2Line) : Calm s (s.homeL2 x) := by
  unfold State.homeL2
  split
  · exact State.writeMasked_calm ..
  · exact .refl s
theorem State.otherKey_calm (s : State) (die ctx : Nat) (a : Attr) (pa : Nat) : Calm s (s.otherKey die ctx a pa) :=
  (Calm.foldl (f := fun s x => s.homeL2 x) State.homeL2_calm _ s).trans (.of_rest rfl rfl)

theorem State.softFetch_calm (s : State) (die ctx : Nat) (inc : Byte) (a : Attr) (va pa : Nat) :
    Calm s (s.softFetch die ctx inc a va pa).2.2 := by
  have h := State.otherKey_calm s die ctx a pa
  unfold State.softFetch
  generalize s.otherKey die ctx a pa = t at h
  dsimp only
  split
  · split <;> exact h.trans (.of_rest rfl rfl)
  · exact h

theorem State.putL1_calm (s : State) (core : Nat) (x : L1Line) : Calm s (s.putL1 core x) := .l1 ..
theorem State.dropL1_calm (s : State) (core : Nat) (p : L1Line → Bool) : Calm s (s.dropL1 core p) := .l1 ..
theorem State.unstrip_calm (s : State) (core ctx : Nat) (inc : Byte) (va : Nat) (a : Attr) : Calm s (s.unstrip core ctx inc va a) := .l1 ..

theorem State.softLine_calm (s : State) (core ctx : Nat) (inc : Byte) (a : Attr) (va pa : Nat) : Calm s (s.softLine core ctx inc a va pa) := by
  unfold State.softLine
  have h := State.softFetch_calm s (dieOf core) ctx inc a va pa
  generalize s.softFetch (dieOf core) ctx inc a va pa = r at h
  obtain ⟨d, p, s1⟩ := r
  exact h.trans (State.putL1_calm ..)

theorem State.sendAs_calm (s : State) (y : Sender) (c w l : Nat) (a : Attr) (va pa : Nat) (act : ReqAct) (acq : Bool) :
    Calm s (s.sendAs y c w l a va pa act acq).2 := .of_rest rfl rfl

theorem State.sendStoreAs_calm (s : State) (y : Sender) (c w l : Nat) (a : Attr) (va pa : Nat) (data : List Byte) :
    Calm s (s.sendStoreAs y c w l a va pa data) := by
  unfold State.sendStoreAs
  split
  · exact State.putL1_calm ..
  · refine Calm.trans ?_ (State.sendAs_calm ..)
    split
    · have h := Calm.l1 s c fun z => z.l1.filterMap (s.patchLine (s.pageKey y.ctx a) pa data)
      exact h.trans (.of_rest rfl rfl)
    · exact .refl s
theorem State.sendStore_calm (s : State) (c w l : Nat) (a : Attr) (va pa : Nat) (data : List Byte) :
    Calm s (s.sendStore c w l a va pa data) := State.sendStoreAs_calm ..
theorem State.performHeld_calm (s : State) (y : Sender) (c : Nat) (h : Held) : Calm s (s.performHeld y c h) :=
  (State.sendStoreAs_calm s y c h.warp h.lane h.attr h.va h.pa h.data).trans (.of_rest rfl rfl)

/-- The RECOV state of a team that is replaced by one that differs in the interval's retryability and held stores. -/
theorem Calm.recov {s a : State} (hs : Calm s a) (c slot : Nat) {t : Team} {r q : Recov} (ht : s.team c slot = some t) (hr : t.recov = some r)
    (hq : { q with retry := false, held := [] } = { r with retry := false, held := [] }) : Calm s (a.modTeam c slot fun t => { t with recov := some q }) := by
  refine hs.trans (Calm.modTeam a c slot fun x hx => ?_)
  have h := hs.team c slot
  rw [ht, hx] at h
  have h2 := congrArg Team.recov (Option.some.inj h)
  simp only [Team.still, hr, Option.map_some] at h2
  simp only [Team.still, Option.map_some]
  rw [h2, hq]

theorem State.releaseHeld_calm (s : State) (c slot : Nat) : Calm s (s.releaseHeld c slot) := by
  unfold State.releaseHeld
  split
  · rename_i t ht
    exact Calm.recov (Calm.foldl (fun s h => State.performHeld_calm ..) _ _) c slot ht rfl rfl
  · exact .refl s

theorem State.endRetry_calm (s : State) (c slot : Nat) : Calm s (s.endRetry c slot) := by
  unfold State.endRetry
  split
  · rename_i t ht
    split
    · exact Calm.recov (State.releaseHeld_calm s c slot) c slot ht rfl rfl
    · exact .refl s
  · exact .refl s

-- What stays -------------------------------------------------------------------------------------------------------

theorem Calm.handler {s t : State} (h : Calm s t) (d : Nat) : t.served d = s.served d := by
  have := congrArg (fun k : Core => k.handler.serving) (h.core d)
  exact this
theorem Calm.seq {s t : State} (h : Calm s t) (d : Nat) : (t.core d).seq = (s.core d).seq := by
  have := congrArg Core.seq (h.core d)
  exact this
theorem Calm.threads {s t : State} (h : Calm s t) : t.threads = s.threads := by
  have := congrArg State.threads h.rest
  exact this
theorem Calm.warps {s t : State} (h : Calm s t) : t.warps = s.warps := by
  have := congrArg State.warps h.rest
  exact this
theorem Calm.regs {s t : State} (h : Calm s t) : t.regs = s.regs := by
  have := congrArg State.regs h.rest
  exact this
theorem Calm.sregs {s t : State} (h : Calm s t) : t.sregs = s.sregs := by
  have := congrArg State.sregs h.rest
  exact this
theorem Calm.time {s t : State} (h : Calm s t) : t.time = s.time := by
  have := congrArg State.time h.rest
  exact this
theorem Calm.launches {s t : State} (h : Calm s t) : t.launches = s.launches := by
  have := congrArg State.launches h.rest
  exact this
theorem Calm.warp {s t : State} (h : Calm s t) (d w : Nat) : t.warp d w = s.warp d w := by unfold State.warp; rw [h.warps]
theorem Calm.thread {s t : State} (h : Calm s t) (d w l : Nat) : t.thread d w l = s.thread d w l := by unfold State.thread; rw [h.threads]
theorem Calm.warpTeam {s t : State} (h : Calm s t) (d w : Nat) : t.warpTeam d w = s.warpTeam d w := by
  unfold State.warpTeam
  rw [h.handler, h.warp]
theorem Calm.teamOf {s t : State} (h : Calm s t) (d w : Nat) : (t.teamOf d w).map Team.still = (s.teamOf d w).map Team.still := by
  unfold State.teamOf
  rw [h.warpTeam]
  exact h.team ..

/-- Whatever of a warp's team does not look at its retryability stays. -/
theorem Calm.ofTeam {s t : State} (h : Calm s t) (d w : Nat) {α : Type} (f : Team → α) (hf : ∀ x : Team, f x.still = f x) :
    (t.teamOf d w).map f = (s.teamOf d w).map f := by
  have := congrArg (Option.map f) (h.teamOf d w)
  simpa only [Option.map_map, Function.comp_def, hf] using this

theorem Calm.rollMark {s t : State} (h : Calm s t) (d w : Nat) : t.rollMark d w = s.rollMark d w := by
  have e : ∀ x : State, x.rollMark d w = ((x.teamOf d w).map fun t => t.recov.map (·.rolls)).join := by
    intro x
    unfold State.rollMark
    cases x.teamOf d w with
    | none => rfl
    | some t => obtain ⟨_, _, _, _, _, _, _, _, _, _, _, _, r⟩ := t; cases r <;> rfl
  rw [e, e, h.ofTeam d w (fun t => t.recov.map (·.rolls)) (by intro x; simp only [Team.still, Option.map_map]; rfl)]

theorem Calm.launchOf {s t : State} (h : Calm s t) (d w : Nat) : t.launchOf d w = s.launchOf d w := by
  have e : ∀ x : State, x.launchOf d w = ((x.teamOf d w).map fun t => x.launch t.launch).join := by
    intro x
    unfold State.launchOf
    cases x.teamOf d w <;> rfl
  have hl : ∀ n, t.launch n = s.launch n := fun n => by unfold State.launch; rw [h.launches]
  rw [e, e]
  simp only [hl]
  rw [h.ofTeam d w (fun x => s.launch x.launch) fun _ => rfl]

theorem Calm.tagOf {s t : State} (h : Calm s t) (d w : Nat) : t.tagOf d w = s.tagOf d w := by
  unfold State.tagOf
  rw [h.launchOf, h.handler]

end Sys2Proof.Machine
end

