-- ==== Sys2Proof/Laws/Effects.lean ====
section
/-!
SUPPORT. Sys2Proof/Laws/Effects.lean: issues that change something other than registers and then move their lanes on, and what stores of
several lanes leave in a memory (R199).
-/
namespace Sys2Proof.Machine

/-- An issue whose performance leaves threads and warps alone, and then moves the lanes on. -/
theorem issue_effect {i : Instr} {h : Head} {s x : State} {c : Cur} {chk : State → Cur → Nat → Option Trap}
    {act : State → Cur → List Nat → State} (hI : Issues i s c) (hchk : ∀ l ∈ s.onLanes c h, chk (s.countIssue c) c l = none)
    (hact : act (s.begun c h) c (s.onLanes c h) = x.advance c.core c.warp (s.onLanes c h)) (hth : x.threads = (s.begun c h).threads)
    (hw : x.warps = (s.begun c h).warps) (ht : x.time = s.time)
    (hroll : x.rollMark c.core c.warp = (s.begun c h).rollMark c.core c.warp) :
    ∃ t, issue i h chk act s = .next t ∧ Advanced s t c h ∧ t = { x with threads := t.threads, warps := t.warps } := by
  have hw1 : x.warp c.core c.warp = (s.begun c h).warp c.core c.warp := by unfold State.warp; rw [hw]
  have ht1 : ∀ l, x.thread c.core c.warp l = (s.begun c h).thread c.core c.warp l := fun l => by unfold State.thread; rw [hth]
  have hact2 : act (s.begun c h) c (s.onLanes c h) =
      x.complete c.core c.warp ((s.onLanes c h).map fun l => (l, (s.thread c.core c.warp l).pc + 12)) := by
    rw [hact]
    exact State.advance_next fun l hl => by rw [ht1, State.begun_on hI.steady hl]; rfl
  obtain ⟨t, h1, h2, h3, h4, h5⟩ := issue_moves (x := x) (act := act) (fun l => (s.thread c.core c.warp l).pc + 12)
    (fun l => (s.thread c.core c.warp l).preds) hI hchk hact2 (by rw [hw1]; exact State.begun_step h hI.steady) ht hroll
    (fun l hl => by rw [ht1, State.begun_on hI.steady hl]; rfl) (fun key _ => by rw [hth])
  refine ⟨t, h1, ⟨h2, ?_, ?_⟩, h3⟩
  · rw [h4, hw1, State.begun_warp h hI.steady]
    simp only [State.retired_sum]
  · intro key hk
    rw [h5 key hk, hw]
    exact State.begun_warps h hI.steady key hk

-- Stores of several lanes ------------------------------------------------------------------------------------------

theorem leBytes_length (n w : Nat) : (leBytes n w).length = n := by
  induction n generalizing w with
  | zero => rfl
  | succ n ih => exact congrArg (· + 1) (ih (w / 256))
theorem leBytes_get (n w i : Nat) (hi : i < n) : (leBytes n w)[i]? = some (BitVec.ofNat 8 (w / 2 ^ (8 * i))) := by
  induction n generalizing w i with
  | zero => omega
  | succ n ih =>
    cases i with
    | zero => simp [leBytes]
    | succ i =>
      show (leBytes n (w / 256))[i]? = _
      rw [ih _ _ (by omega), Nat.div_div_eq_div_mul, show 256 = 2 ^ 8 from rfl, ← Nat.pow_add]
      congr 4
      omega

theorem valBytes_length (n : Nat) (v : DWord) : (valBytes n v).length = n := leBytes_length ..
theorem valBytes_get (n : Nat) (v : DWord) (i : Nat) (hi : i < (valBytes n v).length) : (valBytes n v)[i] = v.extractLsb' (8 * i) 8 := by
  have h : (valBytes n v)[i]? = _ := leBytes_get n v.toNat i (by rw [← valBytes_length n v]; exact hi)
  rw [List.getElem?_eq_getElem hi] at h
  rw [Option.some.inj h]
  apply BitVec.eq_of_toNat_eq
  simp [BitVec.extractLsb', Nat.shiftRight_eq_div_pow]

/-- Lanes write their values one after another. -/
def writeLanes (m : Memory) (ls : List Nat) (place : Nat → Nat) (n : Nat) (val : Nat → DWord) : Memory :=
  ls.foldl (fun m l => Memory.write m (place l) (valBytes n (val l))) m

theorem writeLanes_stored (m : Memory) (ls : List Nat) (place : Nat → Nat) (n : Nat) (val : Nat → DWord) :
    Stored m (writeLanes m ls place n val) ls place n val := by
  intro key
  unfold lastAt writeLanes
  rw [← List.foldr_reverse]
  generalize ls.reverse = rs
  induction rs with
  | nil => rfl
  | cons l t ih =>
    rw [List.foldr_cons, List.find?_cons]
    by_cases hk : place l ≤ key ∧ key < place l + n
    · rw [decide_eq_true hk]
      have := Memory.write_inside (t.foldr (fun l m => Memory.write m (place l) (valBytes n (val l))) m) (place l) (valBytes n (val l))
        (i := key - place l) (by rw [valBytes_length]; omega)
      rw [show place l + (key - place l) = key by omega] at this
      rw [this]
      exact valBytes_get ..
    · rw [decide_eq_false hk]
      rw [Memory.write_outside _ _ _ (by rw [valBytes_length]; omega)]
      exact ih

-- Local spaces -----------------------------------------------------------------------------------------------------

theorem State.accepts_counted {s : State} {c : Cur} {h : Head} {srcs : List Src} (hs : (s.warp c.core c.warp).step = false)
    (ha : s.accepts c h srcs) {l : Nat} (hl : l ∈ s.onLanes c h) : (s.countIssue c).srcTrap c l srcs = none := by
  rw [← State.begun_srcTrap hs hl]
  exact ha l hl

/-- Cores and launches are those of before the issue began, and so are team and context. -/
theorem State.begun_core {s : State} {c : Cur} (h : Head) (hs : (s.warp c.core c.warp).step = false) (d : Nat) :
    (s.begun c h).core d = s.core d := by
  rw [State.begun_rest h hs]
  rfl
theorem State.begun_teamOf {s : State} {c : Cur} (h : Head) (hs : (s.warp c.core c.warp).step = false) :
    (s.begun c h).teamOf c.core c.warp = s.teamOf c.core c.warp := by
  unfold State.teamOf State.warpTeam State.served State.team
  simp only [State.begun_core h hs, State.begun_warp h hs]
theorem State.begun_tagOf {s : State} {c : Cur} (h : Head) (hs : (s.warp c.core c.warp).step = false) :
    (s.begun c h).tagOf c.core c.warp = s.tagOf c.core c.warp := by
  unfold State.tagOf State.launchOf State.served State.launch
  rw [State.begun_teamOf h hs, State.begun_core h hs, show (s.begun c h).launches = s.launches by rw [State.begun_rest h hs]]
theorem State.countIssue_teamOf (s : State) (c : Cur) : (s.countIssue c).teamOf c.core c.warp = s.teamOf c.core c.warp := by
  rw [State.countIssue_rest]
  rfl
theorem State.countIssue_tagOf (s : State) (c : Cur) : (s.countIssue c).tagOf c.core c.warp = s.tagOf c.core c.warp := by
  rw [State.countIssue_rest]
  rfl

theorem StSz.bytes_le (sz : StSz) : sz.bytes ≤ 8 := by cases sz <;> decide
theorem State.datum_eq (s : State) (c : Cur) (l : Nat) (sz : StSz) (b : Opd) :
    s.datum c l sz.bytes b = valBytes sz.bytes (if sz = .b64 then s.pair c l b else (s.bits c l b).setWidth 64) := by
  unfold State.datum
  cases sz <;> rfl

theorem alignTrap_none {n va : Nat} (w a : Bool) (h : va % n = 0) : alignTrap n va w a = none := if_neg (by simpa using h)
theorem extentTrap_none {n o e : Nat} (w a : Bool) (h : o + n ≤ e) : extentTrap n o e w a = none := if_neg (by omega)

/-- A store of less than a sector clears no mark. -/
theorem Marks.covered_small (m : Marks) (base a n : Nat) (h : n ≤ 31) : Marks.covered m base a n = m := by
  unfold Marks.covered
  dsimp only
  rw [show (a + n) / 32 - (a + 31) / 32 = 0 by omega]
  rfl

/-- The offset of a lane's access. -/
theorem State.lofs_eq {s : State} {c : Cur} {h : Head} (hs : (s.warp c.core c.warp).step = false) {l : Nat} (hl : l ∈ s.onLanes c h)
    (a : Opd) (ofs : BitVec 24) : (s.countIssue c).lofs c l a ofs = (s.begun c h).lofs c l a ofs := by
  unfold State.lofs
  rw [State.begun_bits hs hl]

/-- A store to a local space that no check stops: x is what the stores of the lanes leave. -/
theorem localStore_runs {i : Instr} {h : Head} {sz : StSz} {a b : Opd} {ofs : BitVec 24} {room : State → Cur → Nat → Option Trap}
    {put : State → Cur → Nat → Nat → List Byte → State} {s x : State} {c : Cur} (hI : Issues i s c)
    (ha : s.accepts c h (trapSrc 1 a isAddr :: wideSrc trapSrc 2 b (if sz = .b64 then 2 else 1) notPsn))
    (hr : ∀ l ∈ s.onLanes c h, (s.begun c h).lofs c l a ofs % sz.bytes = 0 ∧ room (s.countIssue c) c ((s.begun c h).lofs c l a ofs) = none)
    (hx : (s.onLanes c h).foldl (fun y l => put y c l ((s.begun c h).lofs c l a ofs)
      (valBytes sz.bytes (if sz = .b64 then (s.begun c h).pair c l b else ((s.begun c h).bits c l b).setWidth 64))) (s.begun c h) = x)
    (hth : x.threads = (s.begun c h).threads) (hw : x.warps = (s.begun c h).warps) (ht : x.time = s.time)
    (hc : x.cores = s.cores) :
    ∃ t, localStore i h sz a b ofs room put s = .next t ∧ Advanced s t c h ∧ t = { x with threads := t.threads, warps := t.warps } := by
  refine issue_effect hI ?_ ?_ hth hw ht ?_
  · intro l hl
    show Option.or _ _ = none
    have := hr l hl
    rw [← State.lofs_eq hI.steady hl] at this
    unfold storeSrc
    rw [State.accepts_counted hI.steady ha hl, alignTrap_none _ _ this.1, this.2]
    rfl
  · dsimp only
    rw [List.foldl_map]
    simp only [State.datum_eq]
    rw [hx]
  · refine State.rollMark_congr ?_ ?_
    · rw [hc, State.begun_rest h hI.steady]
    · unfold State.warp; rw [hw]

/-- Stores of several lanes into one window. -/
theorem State.scrWrite_fold (core : Nat) (tm : Team) {n : Nat} (hn : n ≤ 8) (ls : List Nat) (place : Nat → Nat) (val : Nat → DWord)
    (b : State) :
    ls.foldl (fun s l => s.scrWrite core tm (place l) (valBytes n (val l))) b =
      { b with scratch := writeLanes b.scratch ls (fun l => scrKey core (tm.scr + place l)) n val } := by
  induction ls generalizing b with
  | nil => rfl
  | cons l t ih =>
    rw [List.foldl_cons, ih]
    unfold State.scrWrite
    rw [Marks.covered_small _ _ _ _ (by rw [valBytes_length]; omega)]
    rfl

end Sys2Proof.Machine
end

