-- ==== Sys2Proof/Laws/Loads.lean ====
section
/-!
SUPPORT. Sys2Proof/Laws/Loads.lean: issues that write results lane by lane and change threads besides (R201 to R204), and what a load from a
local space leaves.
-/
namespace Sys2Proof.Machine

/-- An issue whose performance leaves x and then moves the lanes on: x may differ from the issue as it began in any way. -/
theorem issue_any {i : Instr} {h : Head} {s x : State} {c : Cur} {chk : State → Cur → Nat → Option Trap}
    {act : State → Cur → List Nat → State} (hI : Issues i s c) (hchk : ∀ l ∈ s.onLanes c h, chk (s.countIssue c) c l = none)
    (hact : act (s.begun c h) c (s.onLanes c h) = x.advance c.core c.warp (s.onLanes c h))
    (hxs : (x.warp c.core c.warp).step = false) (hroll : x.rollMark c.core c.warp = (s.begun c h).rollMark c.core c.warp) :
    ∃ t, issue i h chk act s = .next t ∧ t = { x with threads := t.threads, warps := t.warps }
      ∧ (∀ l ∈ s.onLanes c h, (t.thread c.core c.warp l).plain =
          { (x.thread c.core c.warp l).plain with st := .ready, pc := (x.thread c.core c.warp l).pc + 12 })
      ∧ (∀ key, (∀ l ∈ s.onLanes c h, key ≠ thrKey c.core c.warp l) → t.threads.get Thread.absent key = x.threads.get Thread.absent key)
      ∧ t.warp c.core c.warp = { x.warp c.core c.warp with
          retired := (x.warp c.core c.warp).retired + BitVec.ofNat 64 (s.onLanes c h).length }
      ∧ ∀ key, key ≠ warpKey c.core c.warp → t.warps.get Warp.idle key = x.warps.get Warp.idle key := by
  obtain ⟨y, hy⟩ : ∃ y, y = x.advance c.core c.warp (s.onLanes c h) := ⟨_, rfl⟩
  have hyc : y = x.complete c.core c.warp ((s.onLanes c h).map fun l => (l, (x.thread c.core c.warp l).pc + 12)) := hy
  have hyr := State.complete_rest x c.core c.warp _ hxs ▸ hyc
  have hyw := State.complete_warp x c.core c.warp ((s.onLanes c h).map fun l => (l, (x.thread c.core c.warp l).pc + 12)) hxs
  have hyws := State.complete_warps x c.core c.warp ((s.onLanes c h).map fun l => (l, (x.thread c.core c.warp l).pc + 12)) hxs
  have hyth := @State.complete_thread x c.core c.warp ((s.onLanes c h).map fun l => (l, (x.thread c.core c.warp l).pc + 12)) hxs
    (map_fst_nodup (State.onLanes_nodup s c h))
  have hyoth := State.complete_others x c.core c.warp ((s.onLanes c h).map fun l => (l, (x.thread c.core c.warp l).pc + 12)) hxs
  have hyroll := State.rollMark_complete x c.core c.warp ((s.onLanes c h).map fun l => (l, (x.thread c.core c.warp l).pc + 12)) hxs
  rw [← hyc] at hyw hyws hyth hyoth hyroll
  obtain ⟨th, ht1, htt, hto⟩ := State.latchTime_spec y c i (State.onLanes_nodup s c h)
  refine ⟨y.latchTime c i (s.onLanes c h), ?_, ?_, ?_, ?_, ?_, ?_⟩
  · unfold issue
    rw [issueWith_runs _ _ hI hchk]
    simp only [hact, ← hy, hyroll, hroll, bne_self_eq_false, Bool.false_eq_true, if_false, State.takeTraps_nil]
  · rw [ht1, hyr]
  · intro l hl
    have e := hyth (p := (l, (x.thread c.core c.warp l).pc + 12)) (List.mem_map.2 ⟨l, hl, rfl⟩)
    rw [htt l hl, e]
    rfl
  · intro key hk
    rw [hto key hk, hyoth key]
    intro p hp
    obtain ⟨k, hk2, rfl⟩ := List.mem_map.1 hp
    exact hk k hk2
  · have e : (y.latchTime c i (s.onLanes c h)).warp c.core c.warp = y.warp c.core c.warp := by unfold State.warp; rw [ht1]
    rw [e, hyw, List.length_map]
  · intro key hk
    rw [ht1]
    exact hyws key hk

-- Results lane by lane ---------------------------------------------------------------------------------------------

/-- What a run over lanes leaves that write their results and change their own thread, and the back-off count of the warp. -/
structure Filled (b x : State) (c : Cur) (d : Opd) (ls : List Nat) (res : Nat → List TWord) (g : Nat → Thread → Thread)
    (hint : Bool) : Prop where
  regs : x.regs = (b.writeDst c d (ls.map fun l => (l, res l))).regs
  sregs : x.sregs = (b.writeDst c d (ls.map fun l => (l, res l))).sregs
  rest : { x with regs := b.regs, sregs := b.sregs, threads := b.threads, warps := b.warps } = b
  on : ∀ l ∈ ls, (x.thread c.core c.warp l).plain = (g l (b.thread c.core c.warp l)).plain
  others : ∀ key, (∀ l ∈ ls, key ≠ thrKey c.core c.warp l) → x.threads.get Thread.absent key = b.threads.get Thread.absent key
  warp : { x.warp c.core c.warp with backoff := (b.warp c.core c.warp).backoff } = b.warp c.core c.warp
  backoff : hint = false → (x.warp c.core c.warp).backoff = (b.warp c.core c.warp).backoff
  warps : ∀ key, key ≠ warpKey c.core c.warp → x.warps.get Warp.idle key = b.warps.get Warp.idle key

/-- One lane's part of it. -/
structure FillStep (b x : State) (c : Cur) (o : Opd) (l : Nat) (ws : List TWord) (g : Thread → Thread) (hint : Bool) : Prop where
  regs : x.regs = (b.setOpds c l o 0 ws).regs
  sregs : x.sregs = (b.setOpds c l o 0 ws).sregs
  rest : { x with regs := b.regs, sregs := b.sregs, threads := b.threads, warps := b.warps } = b
  on : (x.thread c.core c.warp l).plain = (g (b.thread c.core c.warp l)).plain
  others : ∀ key, key ≠ thrKey c.core c.warp l → x.threads.get Thread.absent key = b.threads.get Thread.absent key
  warp : { x.warp c.core c.warp with backoff := (b.warp c.core c.warp).backoff } = b.warp c.core c.warp
  backoff : hint = false → (x.warp c.core c.warp).backoff = (b.warp c.core c.warp).backoff
  warps : ∀ key, key ≠ warpKey c.core c.warp → x.warps.get Warp.idle key = b.warps.get Warp.idle key

theorem Filled.nil (b : State) (c : Cur) (d : Opd) (res : Nat → List TWord) (g : Nat → Thread → Thread) (hint : Bool) :
    Filled b b c d [] res g hint := by
  refine ⟨?_, ?_, rfl, ?_, fun _ _ => rfl, rfl, fun _ => rfl, fun _ _ => rfl⟩
  · cases d <;> rfl
  · cases d <;> rfl
  · intro l hl
    cases hl

theorem Filled.snoc {b x y : State} {c : Cur} {d : Opd} {pre : List Nat} {l : Nat} {full : List Nat} {res : Nat → List TWord}
    {g : Nat → Thread → Thread} {hint : Bool} (hf : Filled b x c d pre res g hint)
    (hs : FillStep x y c (laneDst d full l) l (res l) (g l) hint) (hp : pre ++ [l] <+: full) (hl : l ∉ pre) :
    Filled b y c d (pre ++ [l]) res g hint := by
  have htb : (x.warp c.core c.warp).tbase = (b.warp c.core c.warp).tbase := by
    have := congrArg Warp.tbase hf.warp
    exact this
  have hkey : ∀ l n, x.vKey c l n = b.vKey c l n := fun l n => by unfold State.vKey; rw [htb]
  have hhead : full.head? = some ((pre ++ [l]).headD 0) := by
    obtain ⟨post, hpost⟩ := hp
    rw [← hpost]
    cases pre <;> rfl
  refine ⟨?_, ?_, ?_, ?_, ?_, ?_, ?_, ?_⟩
  · rw [hs.regs]
    by_cases hv : ∃ n, d = .v n
    · obtain ⟨n, rfl⟩ := hv
      have h1 := hf.regs
      rw [State.writeDst_v] at h1 ⊢
      rw [show laneDst (.v n) full l = .v n from rfl, State.setOpds_v, List.map_append]
      unfold State.dstKeys at h1 ⊢
      dsimp only at h1 ⊢
      rw [List.flatMap_append, Store.setAll_append, ← h1]
      simp only [hkey, List.map_cons, List.map_nil, List.flatMap_cons, List.flatMap_nil, List.append_nil]
    · have h1 := hf.regs
      by_cases hs : ∃ n, d = .s n
      · obtain ⟨n, rfl⟩ := hs
        have e1 : ∀ rs : List (Nat × List TWord), (b.writeDst c (.s n) rs).regs = b.regs := by
          intro rs
          cases rs with
          | nil => rfl
          | cons r t =>
            show (b.setOpds c r.1 (.s n) 0 r.2).regs = _
            rw [State.setOpds_s]
        rw [e1] at h1 ⊢
        rw [← h1]
        unfold laneDst
        split
        · rename_i hd
          cases hd
          split
          · rw [State.setOpds_s]
          · rw [State.setOpds_other _ _ _ _ (by simp) (by simp)]
        · rename_i hd
          exact absurd rfl (hd n)
      · rw [State.writeDst_other _ _ _ (fun n e => hv ⟨n, e⟩) (fun n e => hs ⟨n, e⟩)] at h1 ⊢
        have e : laneDst d full l = d := by
          unfold laneDst
          split
          · exact absurd rfl (fun e => hs ⟨_, e⟩)
          · rfl
        rw [e, State.setOpds_other _ _ _ _ (fun n e => hv ⟨n, e⟩) (fun n e => hs ⟨n, e⟩), h1]
  · rw [hs.sregs]
    have h1 := hf.sregs
    by_cases hv : ∃ n, d = .v n
    · obtain ⟨n, rfl⟩ := hv
      rw [State.writeDst_v] at h1 ⊢
      rw [show laneDst (.v n) full l = .v n from rfl, State.setOpds_v]
      exact h1
    · by_cases hs : ∃ n, d = .s n
      · obtain ⟨n, rfl⟩ := hs
        cases pre with
        | nil =>
          have e : laneDst (.s n) full l = .s n := if_pos hhead
          rw [e, State.setOpds_s]
          show (x.sregs.setAll _ _) = (b.setOpds c l (.s n) 0 (res l)).sregs
          rw [State.setOpds_s, show x.sregs = b.sregs from h1]
        | cons a t =>
          have hne : laneDst (.s n) full l = .z := by
            refine if_neg ?_
            rw [hhead]
            intro e
            have : a = l := Option.some.inj e
            exact hl (this ▸ List.mem_cons_self ..)
          rw [hne, State.setOpds_other _ _ _ _ (by simp) (by simp)]
          exact h1
      · rw [State.writeDst_other _ _ _ (fun n e => hv ⟨n, e⟩) (fun n e => hs ⟨n, e⟩)] at h1 ⊢
        have e : laneDst d full l = d := by
          unfold laneDst
          split
          · exact absurd rfl (fun e => hs ⟨_, e⟩)
          · rfl
        rw [e, State.setOpds_other _ _ _ _ (fun n e => hv ⟨n, e⟩) (fun n e => hs ⟨n, e⟩), h1]
  · have := hs.rest
    rw [← hf.rest, ← this]
  · intro k hk
    rcases List.mem_append.1 hk with hk | hk
    · have : y.thread c.core c.warp k = x.thread c.core c.warp k :=
        hs.others _ fun e => hl (by
          have : k = l := by unfold thrKey at e; omega
          exact this ▸ hk)
      rw [this]
      exact hf.on k hk
    · obtain rfl : k = l := by simpa using hk
      have : x.thread c.core c.warp k = b.thread c.core c.warp k :=
        hf.others _ fun j hj e => hl (by
          have : k = j := by unfold thrKey at e; omega
          exact this ▸ hj)
      rw [hs.on, this]
  · intro key hk
    rw [hs.others key (hk l (by simp)), hf.others key fun j hj => hk j (by simp [hj])]
  · have h1 := hs.warp
    have h2 := hf.warp
    rw [← h1] at h2
    exact h2
  · intro hh
    rw [hs.backoff hh, hf.backoff hh]
  · intro key hk
    rw [hs.warps key hk, hf.warps key hk]

/-- The run over all lanes, where each step keeps an invariant P that lets the next step be one. -/
theorem Filled.foldl {b : State} {c : Cur} {d : Opd} {ls : List Nat} {res : Nat → List TWord} {g : Nat → Thread → Thread} {hint : Bool}
    {F : State → Nat → State} {P : State → Prop} (hP : ∀ x l, P x → l ∈ ls → FillStep x (F x l) c (laneDst d ls l) l (res l) (g l) hint ∧ P (F x l))
    (hb : P b) (hn : ls.Nodup) : Filled b (ls.foldl F b) c d ls res g hint := by
  have : ∀ post pre x, pre ++ post = ls → Filled b x c d pre res g hint → P x → Filled b (post.foldl F x) c d ls res g hint := by
    intro post
    induction post with
    | nil =>
      intro pre x hp hf _
      rw [List.append_nil] at hp
      exact hp ▸ hf
    | cons l t ih =>
      intro pre x hp hf hx
      have hl : l ∈ ls := by rw [← hp]; simp
      obtain ⟨h1, h2⟩ := hP x l hx hl
      refine ih (pre ++ [l]) (F x l) (by simpa using hp) (hf.snoc h1 ⟨t, by simpa using hp⟩ ?_) h2
      rw [← hp] at hn
      have := List.nodup_append.1 hn
      intro hlp
      exact this.2.2 l hlp l (List.mem_cons_self ..) rfl
  exact this ls [] b rfl (.nil ..) hb

-- The data of a load -----------------------------------------------------------------------------------------------

theorem State.setOpds_rest (s : State) (c : Cur) (l : Nat) (o : Opd) (k : Nat) (ws : List TWord) :
    s.setOpds c l o k ws = { s with regs := (s.setOpds c l o k ws).regs, sregs := (s.setOpds c l o k ws).sregs } := by
  by_cases hv : ∃ n, o = .v n
  · obtain ⟨n, rfl⟩ := hv
    rw [State.setOpds_v]
  · by_cases hs : ∃ n, o = .s n
    · obtain ⟨n, rfl⟩ := hs
      rw [State.setOpds_s]
    · rw [State.setOpds_other s c l o (fun n e => hv ⟨n, e⟩) (fun n e => hs ⟨n, e⟩)]

/-- A step that changes the thread's yield latch and the warp's back-off count, and nothing else. -/
theorem State.hintValue_step (s : State) (c : Cur) (l : Nat) (hint : Bool) (addr : Nat) (v : DWord) :
    FillStep s (s.hintValue c.core c.warp l hint addr v) c .z l [] id hint := by
  unfold State.hintValue
  cases hint with
  | false => exact ⟨rfl, rfl, rfl, rfl, fun _ _ => rfl, rfl, fun _ => rfl, fun _ _ => rfl⟩
  | true =>
    dsimp only
    obtain ⟨y, hy⟩ : ∃ y, y = if (s.thread c.core c.warp l).yld == some (BitVec.ofNat 64 addr, v) then s
      else s.modWarp c.core c.warp fun k => { k with backoff := 0 } := ⟨_, rfl⟩
    have h1 : y.threads = s.threads := by rw [hy]; split <;> rfl
    have h2 : { y with warps := s.warps } = s := by rw [hy]; split <;> rfl
    have h3 : { y.warp c.core c.warp with backoff := (s.warp c.core c.warp).backoff } = s.warp c.core c.warp := by
      rw [hy]
      split
      · rfl
      · rw [State.warp_modWarp]
    have h4 : ∀ key, key ≠ warpKey c.core c.warp → y.warps.get Warp.idle key = s.warps.get Warp.idle key := by
      intro key hk
      rw [hy]
      split
      · rfl
      · exact Store.get_set_ne _ _ _ hk
    rw [if_neg (by decide), ← hy]
    refine ⟨?_, ?_, ?_, ?_, ?_, h3, by simp, h4⟩
    · have := congrArg State.regs h2
      exact this
    · have := congrArg State.sregs h2
      exact this
    · have := h2
      rw [← this]
      rfl
    · show ((y.setThread c.core c.warp l _).thread c.core c.warp l).plain = _
      unfold State.setThread State.thread
      rw [Store.get_set_self, h1]
      rfl
    · intro key hk
      show (Store.set _ _ _ _).get _ _ = _
      rw [Store.get_set_ne _ _ _ hk, h1]

theorem FillStep.trans {a b e : State} {c : Cur} {o : Opd} {l : Nat} {ws : List TWord} {f g : Thread → Thread} {hint : Bool}
    (h1 : FillStep a b c o l ws f hint) (h2 : FillStep b e c .z l [] g hint) (hg : ∀ t u : Thread, t.plain = u.plain → (g t).plain = (g u).plain) :
    FillStep a e c o l ws (fun t => g (f t)) hint := by
  refine ⟨?_, ?_, ?_, ?_, ?_, ?_, ?_, ?_⟩
  · rw [h2.regs]; exact h1.regs
  · rw [h2.sregs]; exact h1.sregs
  · rw [← h1.rest, ← h2.rest]
  · rw [h2.on]; exact hg _ _ h1.on
  · intro key hk
    rw [h2.others key hk, h1.others key hk]
  · have h := h1.warp
    rw [← h2.warp] at h
    exact h
  · intro hh
    rw [h2.backoff hh, h1.backoff hh]
  · intro key hk
    rw [h2.warps key hk, h1.warps key hk]

theorem FillStep.write (s : State) (c : Cur) (o : Opd) (l : Nat) (ws : List TWord) (hint : Bool) : FillStep s (s.setOpds c l o 0 ws) c o l ws id hint := by
  have e := State.setOpds_rest s c l o 0 ws
  refine ⟨rfl, rfl, ?_, ?_, ?_, ?_, ?_, ?_⟩
  · rw [e]
  · unfold State.thread; rw [e]; rfl
  · intro key hk; rw [e]
  · unfold State.warp; rw [e]
  · intro _; unfold State.warp; rw [e]
  · intro key hk; rw [e]

theorem FillStep.thread (s : State) (c : Cur) (l : Nat) (f : Thread → Thread) (hint : Bool) : FillStep s (s.modThread c.core c.warp l f) c .z l [] f hint := by
  refine ⟨rfl, rfl, rfl, ?_, fun key hk => Store.get_set_ne _ _ _ hk, rfl, fun _ => rfl, fun _ _ => rfl⟩
  show ((s.modThread c.core c.warp l f).thread c.core c.warp l).plain = _
  unfold State.modThread State.setThread State.thread
  rw [Store.get_set_self]

theorem Thread.defer_plain (t u : Thread) (h : t.plain = u.plain) (k : Byte) (a : DWord) : (t.defer k a).plain = (u.defer k a).plain := by
  have h1 := congrArg Thread.dfV h
  have h2 : t.dfV = u.dfV := h1
  have e : ∀ x : Thread, (x.defer k a).plain = (x.plain.defer k a).plain := by
    intro x
    obtain ⟨_, _, _, _, _, v⟩ := x
    cases v <;> rfl
  rw [e t, e u, h]

/-- The data of a load that reach a thread at its issue (R201, R203, R339). -/
theorem State.finishHere_step (s : State) (c : Cur) (l : Nat) (ty : LdTy) (o : Opd) (hint : Bool) (addr : Nat) (bs : List Byte) (psn : Bool) :
    FillStep s (s.finishHere c l ty o hint addr bs psn) c o l (loadedWords ty bs psn)
      (fun t => if psn then t.defer cEcc (BitVec.ofNat 64 addr) else t) hint := by
  unfold State.finishHere
  cases psn with
  | true =>
    refine ((FillStep.write s c o l _ hint).trans (FillStep.thread _ c l (fun t => t.defer cEcc (BitVec.ofNat 64 addr)) hint) ?_).trans
      (State.hintValue_step ..) (fun _ _ h => h)
    intro t u htu
    exact Thread.defer_plain t u htu _ _
  | false => exact (FillStep.write s c o l _ hint).trans (State.hintValue_step ..) (fun _ _ h => h)

/-- What a yield hint changes at the issue: the back-off count of its warp. -/
theorem State.hintIssue_rest (s : State) (c : Cur) (h : Head) (ls : List (Nat × Nat)) :
    { s.hintIssue c h ls with warps := s.warps } = s
      ∧ { (s.hintIssue c h ls).warp c.core c.warp with backoff := (s.warp c.core c.warp).backoff } = s.warp c.core c.warp
      ∧ (h.yld = false → (s.hintIssue c h ls).warp c.core c.warp = s.warp c.core c.warp)
      ∧ ∀ key, key ≠ warpKey c.core c.warp → (s.hintIssue c h ls).warps.get Warp.idle key = s.warps.get Warp.idle key := by
  unfold State.hintIssue
  split
  · exact ⟨rfl, rfl, fun _ => rfl, fun _ _ => rfl⟩
  · rename_i hn
    refine ⟨rfl, ?_, ?_, fun key hk => Store.get_set_ne _ _ _ hk⟩
    · dsimp only
      rw [State.warp_modWarp]
    · intro hy
      simp [hy] at hn

/-- What a load leaves that no check stops, where its data comes at once: e is the state in which the data is delivered, and bs and
bad say what each lane finds. -/
theorem load_runs {i : Instr} {h : Head} {ty : LdTy} {d : Opd} {s e : State} {c : Cur} {chk : State → Cur → Nat → Option Trap}
    {act : State → Cur → List Nat → State} (place : Nat → Nat) (bs : Nat → List Byte) (bad : Nat → Bool) (hl : List (Nat × Nat)) (hI : Issues i s c)
    (hchk : ∀ l ∈ s.onLanes c h, chk (s.countIssue c) c l = none) (he : Calm (s.begun c h) e)
    (hact : act (s.begun c h) c (s.onLanes c h) = ((s.onLanes c h).foldl (fun y l =>
      y.finishHere c l ty (laneDst d (s.onLanes c h) l) h.yld (place l) (bs l) (bad l)) (e.hintIssue c h hl)).advance c.core c.warp (s.onLanes c h)) :
    ∃ t, issue i h chk act s = .next t
      ∧ Loaded s t c h d (fun l => loadedWords ty (bs l) (bad l))
          (fun l => if bad l then some (BitVec.ofNat 64 (place l)) else none)
      ∧ { t with regs := e.regs, sregs := e.sregs, threads := e.threads, warps := e.warps } = e := by
  obtain ⟨b, hb⟩ : ∃ b, b = e.hintIssue c h hl := ⟨_, rfl⟩
  rw [← hb] at hact
  obtain ⟨r1, r2, r3, r4⟩ := State.hintIssue_rest e c h hl
  rw [← hb] at r1 r2 r3 r4
  have hbcores : b.cores = e.cores := by have := congrArg State.cores r1; exact this
  have hbteam : (b.warp c.core c.warp).team = (e.warp c.core c.warp).team := by have := congrArg Warp.team r2; exact this
  have hbth : b.threads = (s.begun c h).threads := by
    rw [← he.threads]
    have := congrArg State.threads r1
    exact this
  have hew : e.warp c.core c.warp = (s.begun c h).warp c.core c.warp := he.warp ..
  have hf := Filled.foldl (b := b) (c := c) (d := d) (ls := s.onLanes c h) (hint := h.yld)
    (res := fun l => loadedWords ty (bs l) (bad l))
    (g := fun l t => if bad l then t.defer cEcc (BitVec.ofNat 64 (place l)) else t)
    (F := fun y l => y.finishHere c l ty (laneDst d (s.onLanes c h) l) h.yld (place l) (bs l) (bad l)) (P := fun _ => True)
    (fun x l _ _ => ⟨State.finishHere_step x c l ty (laneDst d (s.onLanes c h) l) h.yld (place l) (bs l) (bad l), trivial⟩) trivial
    (State.onLanes_nodup s c h)
  obtain ⟨x, hx⟩ : ∃ x, x = (s.onLanes c h).foldl (fun y l =>
    y.finishHere c l ty (laneDst d (s.onLanes c h) l) h.yld (place l) (bs l) (bad l)) b := ⟨_, rfl⟩
  rw [← hx] at hf hact
  have hxw := hf.warp
  have hxstep : (x.warp c.core c.warp).step = false := by
    have h1 : (x.warp c.core c.warp).step = (b.warp c.core c.warp).step := by have := congrArg Warp.step hxw; exact this
    have h2 : (b.warp c.core c.warp).step = (e.warp c.core c.warp).step := by have := congrArg Warp.step r2; exact this
    rw [h1, h2, hew]
    exact State.begun_step h hI.steady
  have hxroll : x.rollMark c.core c.warp = (s.begun c h).rollMark c.core c.warp := by
    rw [← he.rollMark c.core c.warp]
    refine State.rollMark_congr ?_ ?_
    · rw [← hbcores]
      have := congrArg State.cores hf.rest
      exact this
    · rw [← hbteam]
      have := congrArg Warp.team hxw
      exact this
  obtain ⟨t, t1, t2, t3, t4, t5, t6⟩ := issue_any hI hchk hact hxstep hxroll
  have hregs : t.regs = x.regs := by have := congrArg State.regs t2; exact this
  have hsregs : t.sregs = x.sregs := by have := congrArg State.sregs t2; exact this
  have htb : (b.warp c.core c.warp).tbase = (s.warp c.core c.warp).tbase := by
    have h1 : (b.warp c.core c.warp).tbase = (e.warp c.core c.warp).tbase := by have := congrArg Warp.tbase r2; exact this
    rw [h1, hew, State.begun_warp h hI.steady]
  have hbr : b.regs = s.regs := by
    have h1 : b.regs = e.regs := by have := congrArg State.regs r1; exact this
    rw [h1, he.regs, State.begun_rest h hI.steady]
  have hbs : b.sregs = s.sregs := by
    have h1 : b.sregs = e.sregs := by have := congrArg State.sregs r1; exact this
    rw [h1, he.sregs, State.begun_rest h hI.steady]
  have hw1 : { t.warp c.core c.warp with backoff := (s.warp c.core c.warp).backoff } =
      { s.warp c.core c.warp with retired := (s.warp c.core c.warp).retired + BitVec.ofNat 64 (lanesOf c.mask).length } := by
    have e1 : { x.warp c.core c.warp with backoff := (s.warp c.core c.warp).backoff } =
        { s.warp c.core c.warp with retired := (s.warp c.core c.warp).retired + BitVec.ofNat 64 (s.offLanes c h).length } := by
      have a1 : { x.warp c.core c.warp with backoff := (s.warp c.core c.warp).backoff } =
          { b.warp c.core c.warp with backoff := (s.warp c.core c.warp).backoff } := by
        have := congrArg (fun k : Warp => { k with backoff := (s.warp c.core c.warp).backoff }) hxw
        exact this
      have a2 : { b.warp c.core c.warp with backoff := (s.warp c.core c.warp).backoff } =
          { e.warp c.core c.warp with backoff := (s.warp c.core c.warp).backoff } := by
        have := congrArg (fun k : Warp => { k with backoff := (s.warp c.core c.warp).backoff }) r2
        exact this
      rw [a1, a2, hew, State.begun_warp h hI.steady]
    have e2 := congrArg (fun k : Warp => { k with retired := k.retired + BitVec.ofNat 64 (s.onLanes c h).length }) e1
    dsimp only at e2
    rw [State.retired_sum] at e2
    rw [t5]
    exact e2
  refine ⟨t, t1, ⟨?_, ?_, ?_, ?_, hw1, ?_, ?_⟩, ?_⟩
  · refine State.writeDst_wrote (x := b) (State.onLanes_nodup s c h) (fun l hl => lanesOf_lt (State.onLanes_sub hl)) ?_ hbr hbs htb
      (hregs.trans hf.regs) (hsregs.trans hf.sregs) ?_
    · intro l
      unfold loadedWords
      split
      · unfold LdTy.words
        split <;> simp
      · cases ty <;> simp [LdTy.widen]
    · have := congrArg Warp.tbase hw1
      exact this
  · intro l hl
    have h1 := hf.on l hl
    have h2 : b.thread c.core c.warp l = (s.thread c.core c.warp l).counted := by
      rw [← State.begun_on hI.steady hl]
      unfold State.thread
      rw [hbth]
    rw [h2] at h1
    have hpc : (x.thread c.core c.warp l).pc = (s.thread c.core c.warp l).pc := by
      have := congrArg Thread.pc h1
      have e3 : (x.thread c.core c.warp l).pc = (if bad l then (s.thread c.core c.warp l).counted.defer cEcc (BitVec.ofNat 64 (place l))
        else (s.thread c.core c.warp l).counted).pc := this
      rw [e3]
      split
      · unfold Thread.defer
        split <;> rfl
      · rfl
    rw [t3 l hl, h1, hpc]
    dsimp only
    cases bad l with
    | true =>
      simp only [if_true]
      rw [Thread.defer_plain (s.thread c.core c.warp l).counted (s.thread c.core c.warp l) rfl]
    | false => rfl
  · intro l hl
    have hk : ∀ k ∈ s.onLanes c h, thrKey c.core c.warp l ≠ thrKey c.core c.warp k := fun k hk e => State.on_not_off hk (by
      have : l = k := by unfold thrKey at e; omega
      exact this ▸ hl)
    have h1 : t.thread c.core c.warp l = (s.begun c h).thread c.core c.warp l := by
      unfold State.thread
      rw [t4 _ hk, hf.others _ hk, hbth]
    rw [h1, State.begun_off hI.steady hl]
    rfl
  · intro key hk
    have hk2 : ∀ l ∈ s.onLanes c h, key ≠ thrKey c.core c.warp l := fun l hl => hk l (State.onLanes_sub hl)
    rw [t4 key hk2, hf.others key hk2, hbth]
    exact State.begun_others hI.steady key hk
  · intro hy
    have h1 := hf.backoff hy
    rw [t5]
    show (x.warp c.core c.warp).backoff = _
    rw [h1, r3 hy, hew, State.begun_warp h hI.steady]
  · intro key hk
    rw [t6 key hk, hf.warps key hk, r4 key hk, he.warps]
    exact State.begun_warps h hI.steady key hk
  · rw [t2]
    have h1 := hf.rest
    have h2 : { x with regs := b.regs, sregs := b.sregs, threads := b.threads, warps := e.warps } = { b with warps := e.warps } := by
      have := congrArg (fun k : State => { k with warps := e.warps }) h1
      exact this
    rw [r1] at h2
    have hbr2 : b.regs = e.regs := by have := congrArg State.regs r1; exact this
    have hbs2 : b.sregs = e.sregs := by have := congrArg State.sregs r1; exact this
    have hbt2 : b.threads = e.threads := by have := congrArg State.threads r1; exact this
    rw [hbr2, hbs2, hbt2] at h2
    exact h2

end Sys2Proof.Machine
end

