-- ==== Sys2Proof/Laws/Spread.lean ====
section
/-!
SUPPORT. Sys2Proof/Laws/Spread.lean: runs over lanes each of which writes results or sends a request (R190, R199, R201).
-/
namespace Sys2Proof.Machine

theorem laneDst_eq (d : Opd) (ls : List Nat) (l : Nat) : laneDst d ls l = lowestDst d ls l := by
  unfold laneDst lowestDst
  cases d <;> rfl

/-- One lane's part of a run: its registers, its thread, the back-off count, and the requests that it sends. -/
structure LaneStep (b x : State) (c : Cur) (o : Opd) (l : Nat) (ws : List TWord) (g : Thread → Thread) (hint : Bool) (new : List Req) :
    Prop where
  regs : x.regs = (b.setOpds c l o 0 ws).regs
  sregs : x.sregs = (b.setOpds c l o 0 ws).sregs
  rest : { x with regs := b.regs, sregs := b.sregs, threads := b.threads, warps := b.warps, cores := b.cores, reqs := b.reqs,
                  nextId := b.nextId } = b
  core : ∀ d, x.core d = b.core d
  reqs : x.reqs = b.reqs ++ new
  nextId : x.nextId = b.nextId + new.length
  on : (x.thread c.core c.warp l).plain = (g (b.thread c.core c.warp l)).plain
  others : ∀ key, key ≠ thrKey c.core c.warp l → x.threads.get Thread.absent key = b.threads.get Thread.absent key
  warp : { x.warp c.core c.warp with backoff := (b.warp c.core c.warp).backoff } = b.warp c.core c.warp
  backoff : hint = false → (x.warp c.core c.warp).backoff = (b.warp c.core c.warp).backoff
  warps : ∀ key, key ≠ warpKey c.core c.warp → x.warps.get Warp.idle key = b.warps.get Warp.idle key

theorem FillStep.lane {b x : State} {c : Cur} {o : Opd} {l : Nat} {ws : List TWord} {g : Thread → Thread} {hint : Bool}
    (h : FillStep b x c o l ws g hint) : LaneStep b x c o l ws g hint [] := by
  have hc : x.cores = b.cores := by have := congrArg State.cores h.rest; exact this
  have hr : x.reqs = b.reqs := by have := congrArg State.reqs h.rest; exact this
  have hn : x.nextId = b.nextId := by have := congrArg State.nextId h.rest; exact this
  refine ⟨h.regs, h.sregs, ?_, fun d => by simp only [State.core, hc], by rw [hr, List.append_nil], by rw [hn]; rfl, h.on, h.others, h.warp,
    h.backoff, h.warps⟩
  have := congrArg (fun k : State => { k with cores := b.cores, reqs := b.reqs, nextId := b.nextId }) h.rest
  exact this

/-- What a run over lanes leaves. -/
structure Spread (b x : State) (c : Cur) (ls : List Nat) (dst : Nat → Opd) (res : Nat → List TWord) (g : Nat → Thread → Thread)
    (hint : Bool) (new : List Req) : Prop where
  placed : Placed b x c ls dst res
  rest : { x with regs := b.regs, sregs := b.sregs, threads := b.threads, warps := b.warps, cores := b.cores, reqs := b.reqs,
                  nextId := b.nextId } = b
  core : ∀ d, x.core d = b.core d
  reqs : x.reqs = b.reqs ++ new
  nextId : x.nextId = b.nextId + new.length
  on : ∀ l ∈ ls, (x.thread c.core c.warp l).plain = (g l (b.thread c.core c.warp l)).plain
  others : ∀ key, (∀ l ∈ ls, key ≠ thrKey c.core c.warp l) → x.threads.get Thread.absent key = b.threads.get Thread.absent key
  warp : { x.warp c.core c.warp with backoff := (b.warp c.core c.warp).backoff } = b.warp c.core c.warp
  backoff : hint = false → (x.warp c.core c.warp).backoff = (b.warp c.core c.warp).backoff
  warps : ∀ key, key ≠ warpKey c.core c.warp → x.warps.get Warp.idle key = b.warps.get Warp.idle key

theorem Spread.nil (b : State) (c : Cur) (dst : Nat → Opd) (res : Nat → List TWord) (g : Nat → Thread → Thread) (hint : Bool) :
    Spread b b c [] dst res g hint [] := by
  refine ⟨⟨?_, fun _ _ => rfl, fun _ _ => rfl⟩, rfl, fun _ => rfl, by simp, rfl, ?_, fun _ _ => rfl, rfl, fun _ => rfl, fun _ _ => rfl⟩
  · intro l hl
    cases hl
  · intro l hl
    cases hl

theorem Spread.snoc {b x y : State} {c : Cur} {pre : List Nat} {l : Nat} {dst : Nat → Opd} {res : Nat → List TWord}
    {g : Nat → Thread → Thread} {hint : Bool} {new more : List Req} (hf : Spread b x c pre dst res g hint new)
    (hs : LaneStep x y c (dst l) l (res l) (g l) hint more) (hl : l ∉ pre) (hlt : ∀ k ∈ l :: pre, k < 32)
    (hone : ∀ n, dst l = .s n → ∀ k ∈ pre, ∀ m, dst k ≠ .s m) (hres : ∀ l, (res l).length ≤ 4) :
    Spread b y c (pre ++ [l]) dst res g hint (new ++ more) := by
  have htb : (x.warp c.core c.warp).tbase = (b.warp c.core c.warp).tbase := by
    have := congrArg Warp.tbase hf.warp
    exact this
  have htb2 : (y.warp c.core c.warp).tbase = (x.warp c.core c.warp).tbase := by
    have := congrArg Warp.tbase hs.warp
    exact this
  have hkey : ∀ l n, x.vKey c l n = b.vKey c l n := fun l n => by unfold State.vKey; rw [htb]
  have hregs : ∀ n, dst l = .v n → y.regs = x.regs.setAll TWord.zero (keyed (fun k => b.vKey c l (n + BitVec.ofNat 8 k).toNat) 0 (res l)) := by
    intro n hn
    rw [hs.regs, hn, State.setOpds_v]
    simp only [hkey]
  have hsregs : ∀ n, dst l = .s n →
      y.sregs = x.sregs.setAll TWord.zero (keyed (fun k => sregKey c.core c.warp (n + BitVec.ofNat 6 k).toNat) 0 (res l)) := by
    intro n hn
    rw [hs.sregs, hn, State.setOpds_s]
  have hregs0 : (∀ n, dst l ≠ .v n) → y.regs = x.regs := by
    intro hn
    rw [hs.regs]
    by_cases h : ∃ n, dst l = .s n
    · obtain ⟨n, h⟩ := h
      rw [h, State.setOpds_s]
    · rw [State.setOpds_other _ _ _ _ hn fun n e => h ⟨n, e⟩]
  have hsregs0 : (∀ n, dst l ≠ .s n) → y.sregs = x.sregs := by
    intro hn
    rw [hs.sregs]
    by_cases h : ∃ n, dst l = .v n
    · obtain ⟨n, h⟩ := h
      rw [h, State.setOpds_v]
    · rw [State.setOpds_other _ _ _ _ (fun n e => h ⟨n, e⟩) hn]
  refine ⟨⟨?_, ?_, ?_⟩, ?_, ?_, ?_, ?_, ?_, ?_, ?_, ?_, ?_⟩
  · intro k hk hd i w hw
    rcases List.mem_append.1 hk with hk | hk
    · have hold := hf.placed.holds k hk hd i w hw
      rw [← hold]
      rcases hd with ⟨n, hn⟩ | ⟨n, hn⟩
      · rw [hn]
        show y.vreg c.core c.warp k (n + BitVec.ofNat 8 i).toNat = x.vreg c.core c.warp k (n + BitVec.ofNat 8 i).toNat
        unfold State.vreg State.tileWord
        rw [htb2]
        by_cases hv : ∃ m, dst l = .v m
        · obtain ⟨m, hm⟩ := hv
          rw [hregs m hm]
          apply Store.get_setAll_ne
          intro p hp e
          obtain ⟨j, hj, h1, -⟩ := mem_keyed hp
          rw [h1] at e
          have e2 : x.vKey c k (n + BitVec.ofNat 8 i).toNat = b.vKey c l (m + BitVec.ofNat 8 (0 + j)).toNat := e
          rw [hkey] at e2
          have := (vReg_inj (hlt k (List.mem_cons_of_mem _ hk)) (hlt l (List.mem_cons_self ..)) e2).1
          exact hl (this ▸ hk)
        · rw [hregs0 fun m e => hv ⟨m, e⟩]
      · rw [hn]
        show y.sreg c.core c.warp (n + BitVec.ofNat 6 i).toNat = x.sreg c.core c.warp (n + BitVec.ofNat 6 i).toNat
        unfold State.sreg
        by_cases hv : ∃ m, dst l = .s m
        · obtain ⟨m, hm⟩ := hv
          exact absurd hn (hone m hm k hk n)
        · rw [hsregs0 fun m e => hv ⟨m, e⟩]
    · obtain rfl : k = l := by simpa using hk
      rcases hd with ⟨n, hn⟩ | ⟨n, hn⟩
      · rw [hn]
        show y.vreg c.core c.warp k (n + BitVec.ofNat 8 i).toNat = w
        unfold State.vreg State.tileWord
        rw [htb2, htb, hregs n hn]
        have hm := keyed_mem (key := fun j => b.vKey c k (n + BitVec.ofNat 8 j).toNat) (k := 0) hw
        rw [Nat.zero_add] at hm
        refine Store.get_setAll TWord.zero _ _ (keyed_nodup ?_) hm
        intro i j hi hj e
        have := hres k
        simp only [Nat.zero_add] at e
        exact next_inj n (by omega) (by omega) (vReg_inj (hlt k (List.mem_cons_self ..)) (hlt k (List.mem_cons_self ..)) e).2
      · rw [hn]
        show y.sreg c.core c.warp (n + BitVec.ofNat 6 i).toNat = w
        unfold State.sreg
        rw [hsregs n hn]
        have hm := keyed_mem (key := fun j => sregKey c.core c.warp (n + BitVec.ofNat 6 j).toNat) (k := 0) hw
        rw [Nat.zero_add] at hm
        refine Store.get_setAll TWord.zero _ _ (keyed_nodup ?_) hm
        intro i j hi hj e
        have := hres k
        simp only [Nat.zero_add] at e
        refine next_inj6 n (by omega) (by omega) ?_
        unfold sregKey at e
        omega
  · intro key hk
    have h1 := hf.placed.regs key fun j hj => hk j (List.mem_append_left _ hj)
    rw [← h1]
    by_cases hv : ∃ m, dst l = .v m
    · obtain ⟨m, hm⟩ := hv
      rw [hregs m hm]
      apply Store.get_setAll_ne
      intro p hp e
      obtain ⟨j, hj, h2, -⟩ := mem_keyed hp
      rw [h2, Nat.zero_add] at e
      exact hk l (by simp) m hm j hj e
    · rw [hregs0 fun m e => hv ⟨m, e⟩]
  · intro key hk
    have h1 := hf.placed.sregs key fun j hj => hk j (List.mem_append_left _ hj)
    rw [← h1]
    by_cases hv : ∃ m, dst l = .s m
    · obtain ⟨m, hm⟩ := hv
      rw [hsregs m hm]
      apply Store.get_setAll_ne
      intro p hp e
      obtain ⟨j, hj, h2, -⟩ := mem_keyed hp
      rw [h2, Nat.zero_add] at e
      exact hk l (by simp) m hm j hj e
    · rw [hsregs0 fun m e => hv ⟨m, e⟩]
  · have := hs.rest
    rw [← hf.rest, ← this]
  · intro d
    rw [hs.core, hf.core]
  · rw [hs.reqs, hf.reqs, List.append_assoc]
  · rw [hs.nextId, hf.nextId, List.length_append, Nat.add_assoc]
  · intro k hk
    rcases List.mem_append.1 hk with hk | hk
    · have : y.thread c.core c.warp k = x.thread c.core c.warp k :=
        hs.others _ fun e => hl (by
          have : k = l := by unfold thrKey at e; omega
          exact this ▸ hk)
      rw [this]
      exact hf.on k hk
    · obtain rfl : k = l := by simpa using hk
      have : x.thread c.core c.warp k = b.thread c.core c.warp k :=
        hf.others _ fun j hj e => hl (by
          have : k = j := by unfold thrKey at e; omega
          exact this ▸ hj)
      rw [hs.on, this]
  · intro key hk
    rw [hs.others key (hk l (by simp)), hf.others key fun j hj => hk j (by simp [hj])]
  · have h1 := hs.warp
    have h2 := hf.warp
    rw [← h1] at h2
    exact h2
  · intro hh
    rw [hs.backoff hh, hf.backoff hh]
  · intro key hk
    rw [hs.warps key hk, hf.warps key hk]

/-- The run over all lanes; N gives the requests of a lane where its first has a number. -/
theorem Spread.foldl {b : State} {c : Cur} {ls : List Nat} {dst : Nat → Opd} {res : Nat → List TWord} {g : Nat → Thread → Thread} {hint : Bool}
    {F : State → Nat → State} {P : State → Prop} {N : Nat → Nat → List Req}
    (hP : ∀ x l, P x → l ∈ ls → LaneStep x (F x l) c (dst l) l (res l) (g l) hint (N x.nextId l) ∧ P (F x l))
    (hb : P b) (hn : ls.Nodup) (hlt : ∀ l ∈ ls, l < 32) (hone : ∀ l ∈ ls, ∀ k ∈ ls, ∀ n m, dst l = .s n → dst k = .s m → l = k)
    (hres : ∀ l, (res l).length ≤ 4) :
    Spread b (ls.foldl F b) c ls dst res g hint (ls.foldl (fun (p : Nat × List Req) l => (p.1 + (N p.1 l).length, p.2 ++ N p.1 l)) (b.nextId, [])).2
      ∧ P (ls.foldl F b) := by
  have : ∀ post pre x new, pre ++ post = ls → Spread b x c pre dst res g hint new → P x →
      Spread b (post.foldl F x) c ls dst res g hint
          (post.foldl (fun (p : Nat × List Req) l => (p.1 + (N p.1 l).length, p.2 ++ N p.1 l)) (x.nextId, new)).2
        ∧ P (post.foldl F x) := by
    intro post
    induction post with
    | nil =>
      intro pre x new hp hf hx
      rw [List.append_nil] at hp
      exact ⟨hp ▸ hf, hx⟩
    | cons l t ih =>
      intro pre x new hp hf hx
      have hl : l ∈ ls := by rw [← hp]; simp
      have hpre : ∀ k ∈ pre, k ∈ ls := fun k hk => by rw [← hp]; exact List.mem_append_left _ hk
      obtain ⟨h1, h2⟩ := hP x l hx hl
      have hnp : l ∉ pre := by
        rw [← hp] at hn
        intro hlp
        exact (List.nodup_append.1 hn).2.2 l hlp l (List.mem_cons_self ..) rfl
      have hs := hf.snoc h1 hnp (fun k hk => by
          rcases List.mem_cons.1 hk with rfl | hk
          · exact hlt _ hl
          · exact hlt _ (hpre k hk))
        (fun n hn k hk m hm => hnp (hone l hl k (hpre k hk) n m hn hm ▸ hk)) hres
      have := ih (pre ++ [l]) (F x l) (new ++ N x.nextId l) (by simpa using hp) hs h2
      rw [h1.nextId] at this
      exact this
  exact this ls [] b [] rfl (.nil ..) hb

/-- The requests of lanes that send one each, where some send none. -/
theorem numbered (N : Nat → Nat → List Req) (q : Nat → Bool) (R : Nat → Nat → Req) (hN : ∀ id l, N id l = if q l then [R l id] else [])
    (ls : List Nat) (id : Nat) (acc : List Req) :
    ls.foldl (fun (p : Nat × List Req) l => (p.1 + (N p.1 l).length, p.2 ++ N p.1 l)) (id, acc) =
      (id + (ls.filter q).length, acc ++ (ls.filter q).zipIdx.map fun p => R p.1 (id + p.2)) := by
  induction ls generalizing id acc with
  | nil => simp
  | cons l t ih =>
    rw [List.foldl_cons, ih, hN]
    cases hq : q l with
    | true =>
      simp only [if_true, List.filter_cons, hq, List.length_cons, List.length_nil, List.zipIdx_cons, List.map_cons, Nat.zero_add,
        List.append_assoc, List.singleton_append, Prod.mk.injEq, Nat.add_zero]
      refine ⟨by omega, ?_⟩
      congr 2
      rw [List.zipIdx_succ, List.map_map]
      congr 1
      funext p
      simp only [Function.comp_apply]
      congr 1
      omega
    | false => simp [hq]

/-- An issue that runs over its lanes and then moves them on. -/
theorem spread_runs {i : Instr} {h : Head} {s b x : State} {c : Cur} {chk : State → Cur → Nat → Option Trap}
    {act : State → Cur → List Nat → State} {dst : Nat → Opd} {res : Nat → List TWord} {g : Nat → Thread → Thread} {hint : Bool}
    {new : List Req} (hI : Issues i s c) (hchk : ∀ l ∈ s.onLanes c h, chk (s.countIssue c) c l = none)
    (hb : { b with warps := (s.begun c h).warps, cores := (s.begun c h).cores } = s.begun c h) (hbc : ∀ d, b.core d = (s.begun c h).core d)
    (hbw : { b.warp c.core c.warp with backoff := ((s.begun c h).warp c.core c.warp).backoff } = (s.begun c h).warp c.core c.warp)
    (hbo : hint = false → (b.warp c.core c.warp).backoff = ((s.begun c h).warp c.core c.warp).backoff)
    (hbs : ∀ key, key ≠ warpKey c.core c.warp → b.warps.get Warp.idle key = (s.begun c h).warps.get Warp.idle key)
    (hf : Spread b x c (s.onLanes c h) dst res g hint new)
    (hg : ∀ l t u, t.plain = u.plain → (g l t).plain = (g l u).plain) (hgpc : ∀ l t, (g l t).pc = t.pc)
    (hact : act (s.begun c h) c (s.onLanes c h) = x.advance c.core c.warp (s.onLanes c h)) :
    ∃ t, issue i h chk act s = .next t ∧ Placed s t c (s.onLanes c h) dst res
      ∧ (∀ l ∈ s.onLanes c h, (t.thread c.core c.warp l).plain =
          { (g l (s.thread c.core c.warp l)).plain with st := .ready, pc := (s.thread c.core c.warp l).pc + 12 })
      ∧ (∀ l ∈ s.offLanes c h, (t.thread c.core c.warp l).plain =
          { (s.thread c.core c.warp l).plain with st := .ready, pc := (s.thread c.core c.warp l).pc + 12 })
      ∧ (∀ key, (∀ l ∈ lanesOf c.mask, key ≠ thrKey c.core c.warp l) → t.threads.get Thread.absent key = s.threads.get Thread.absent key)
      ∧ { t.warp c.core c.warp with backoff := (s.warp c.core c.warp).backoff } =
          { s.warp c.core c.warp with retired := (s.warp c.core c.warp).retired + BitVec.ofNat 64 (lanesOf c.mask).length }
      ∧ (hint = false → (t.warp c.core c.warp).backoff = (s.warp c.core c.warp).backoff)
      ∧ (∀ key, key ≠ warpKey c.core c.warp → t.warps.get Warp.idle key = s.warps.get Warp.idle key)
      ∧ t.reqs = s.reqs ++ new ∧ t.nextId = s.nextId + new.length ∧ (∀ d, t.core d = s.core d)
      ∧ { t with regs := s.regs, sregs := s.sregs, threads := s.threads, warps := s.warps, cores := s.cores, reqs := s.reqs,
                 nextId := s.nextId } = s := by
  have hxw := hf.warp
  have hbth : b.threads = (s.begun c h).threads := by have := congrArg State.threads hb; exact this
  have hbtm : (b.warp c.core c.warp).team = ((s.begun c h).warp c.core c.warp).team := by have := congrArg Warp.team hbw; exact this
  have hxstep : (x.warp c.core c.warp).step = false := by
    have h1 : (x.warp c.core c.warp).step = (b.warp c.core c.warp).step := by have := congrArg Warp.step hxw; exact this
    have h2 : (b.warp c.core c.warp).step = ((s.begun c h).warp c.core c.warp).step := by have := congrArg Warp.step hbw; exact this
    rw [h1, h2]
    exact State.begun_step h hI.steady
  have hxroll : x.rollMark c.core c.warp = (s.begun c h).rollMark c.core c.warp := by
    have h1 : (x.warp c.core c.warp).team = (b.warp c.core c.warp).team := by have := congrArg Warp.team hxw; exact this
    have hk : ∀ d, x.core d = (s.begun c h).core d := fun d => by rw [hf.core, hbc]
    have ht : x.warpTeam c.core c.warp = (s.begun c h).warpTeam c.core c.warp := by
      simp only [State.warpTeam, State.served, hk, h1, hbtm]
    simp only [State.rollMark, State.teamOf, State.team, ht, hk]
  obtain ⟨t, t1, t2, t3, t4, t5, t6⟩ := issue_any hI hchk hact hxstep hxroll
  have hregs : t.regs = x.regs := by have := congrArg State.regs t2; exact this
  have hsregs : t.sregs = x.sregs := by have := congrArg State.sregs t2; exact this
  have hbr : b.regs = s.regs := by
    have h1 : b.regs = (s.begun c h).regs := by have := congrArg State.regs hb; exact this
    rw [h1, State.begun_rest h hI.steady]
  have hbsr : b.sregs = s.sregs := by
    have h1 : b.sregs = (s.begun c h).sregs := by have := congrArg State.sregs hb; exact this
    rw [h1, State.begun_rest h hI.steady]
  have htb : (b.warp c.core c.warp).tbase = (s.warp c.core c.warp).tbase := by
    have h1 : (b.warp c.core c.warp).tbase = ((s.begun c h).warp c.core c.warp).tbase := by have := congrArg Warp.tbase hbw; exact this
    rw [h1, State.begun_warp h hI.steady]
  have hw1 : { t.warp c.core c.warp with backoff := (s.warp c.core c.warp).backoff } =
      { s.warp c.core c.warp with retired := (s.warp c.core c.warp).retired + BitVec.ofNat 64 (lanesOf c.mask).length } := by
    have a1 : { x.warp c.core c.warp with backoff := (s.warp c.core c.warp).backoff } =
        { b.warp c.core c.warp with backoff := (s.warp c.core c.warp).backoff } := by
      have := congrArg (fun k : Warp => { k with backoff := (s.warp c.core c.warp).backoff }) hxw
      exact this
    have a2 : { b.warp c.core c.warp with backoff := (s.warp c.core c.warp).backoff } =
        { (s.begun c h).warp c.core c.warp with backoff := (s.warp c.core c.warp).backoff } := by
      have := congrArg (fun k : Warp => { k with backoff := (s.warp c.core c.warp).backoff }) hbw
      exact this
    have e1 : { x.warp c.core c.warp with backoff := (s.warp c.core c.warp).backoff } =
        { s.warp c.core c.warp with retired := (s.warp c.core c.warp).retired + BitVec.ofNat 64 (s.offLanes c h).length } := by
      rw [a1, a2, State.begun_warp h hI.steady]
    have e2 := congrArg (fun k : Warp => { k with retired := k.retired + BitVec.ofNat 64 (s.onLanes c h).length }) e1
    dsimp only at e2
    rw [State.retired_sum] at e2
    rw [t5]
    exact e2
  have hxtb : (t.warp c.core c.warp).tbase = (x.warp c.core c.warp).tbase := by rw [t5]
  have hxtb2 : (x.warp c.core c.warp).tbase = (b.warp c.core c.warp).tbase := by have := congrArg Warp.tbase hxw; exact this
  have hkey : ∀ l n, b.vKey c l n = s.vKey c l n := fun l n => by unfold State.vKey; rw [htb]
  refine ⟨t, t1, ⟨?_, ?_, ?_⟩, ?_, ?_, ?_, hw1, ?_, ?_, ?_, ?_, ?_, ?_⟩
  · intro l hl hd k w hw
    have := hf.placed.holds l hl hd k w hw
    rw [← this]
    rcases hd with ⟨n, hn⟩ | ⟨n, hn⟩
    · rw [hn]
      show t.vreg _ _ _ _ = x.vreg _ _ _ _
      unfold State.vreg State.tileWord
      rw [hregs, hxtb]
    · rw [hn]
      show t.sreg _ _ _ = x.sreg _ _ _
      unfold State.sreg
      rw [hsregs]
  · intro key hk
    rw [hregs, hf.placed.regs key, hbr]
    intro l hl n hn k hkl
    rw [hkey]
    exact hk l hl n hn k hkl
  · intro key hk
    rw [hsregs, hf.placed.sregs key hk, hbsr]
  · intro l hl
    have h1 := hf.on l hl
    have h2 : b.thread c.core c.warp l = (s.thread c.core c.warp l).counted := by
      rw [← State.begun_on hI.steady hl]
      unfold State.thread
      rw [hbth]
    rw [h2] at h1
    have h3 : (g l (s.thread c.core c.warp l).counted).plain = (g l (s.thread c.core c.warp l)).plain := hg l _ _ rfl
    have hpc : (x.thread c.core c.warp l).pc = (s.thread c.core c.warp l).pc := by
      have := congrArg Thread.pc h1
      have e3 : (x.thread c.core c.warp l).pc = (g l (s.thread c.core c.warp l).counted).pc := this
      rw [e3, hgpc]
      rfl
    rw [t3 l hl, h1, h3, hpc]
  · intro l hl
    have hk : ∀ k ∈ s.onLanes c h, thrKey c.core c.warp l ≠ thrKey c.core c.warp k := fun k hk e => State.on_not_off hk (by
      have : l = k := by unfold thrKey at e; omega
      exact this ▸ hl)
    have h1 : t.thread c.core c.warp l = (s.begun c h).thread c.core c.warp l := by
      unfold State.thread
      rw [t4 _ hk, hf.others _ hk, hbth]
    rw [h1, State.begun_off hI.steady hl]
    rfl
  · intro key hk
    have hk2 : ∀ l ∈ s.onLanes c h, key ≠ thrKey c.core c.warp l := fun l hl => hk l (State.onLanes_sub hl)
    rw [t4 key hk2, hf.others key hk2, hbth]
    exact State.begun_others hI.steady key hk
  · intro hy
    have h1 := hf.backoff hy
    rw [t5]
    show (x.warp c.core c.warp).backoff = _
    rw [h1, hbo hy, State.begun_warp h hI.steady]
  · intro key hk
    rw [t6 key hk, hf.warps key hk, hbs key hk]
    exact State.begun_warps h hI.steady key hk
  · have h1 : t.reqs = x.reqs := by have := congrArg State.reqs t2; exact this
    have h2 : b.reqs = (s.begun c h).reqs := by have := congrArg State.reqs hb; exact this
    rw [h1, hf.reqs, h2, State.begun_rest h hI.steady]
  · have h1 : t.nextId = x.nextId := by have := congrArg State.nextId t2; exact this
    have h2 : b.nextId = (s.begun c h).nextId := by have := congrArg State.nextId hb; exact this
    rw [h1, hf.nextId, h2, State.begun_rest h hI.steady]
  · intro d
    have h1 : t.cores = x.cores := by have := congrArg State.cores t2; exact this
    have h2 : t.core d = x.core d := by unfold State.core; rw [h1]
    rw [h2, hf.core, hbc, State.begun_core h hI.steady]
  · obtain ⟨f, hfun⟩ : ∃ f : State → State, ∀ k, f k = { k with regs := s.regs, sregs := s.sregs, threads := s.threads, warps := s.warps,
                                                                  cores := s.cores, reqs := s.reqs, nextId := s.nextId } := ⟨_, fun _ => rfl⟩
    have h1 := congrArg f t2
    have h2 := congrArg f hf.rest
    have h3 := congrArg f hb
    have h4 := congrArg f (State.begun_rest h hI.steady)
    simp only [hfun] at h1 h2 h3 h4
    exact h1.trans (h2.trans (h3.trans h4))

end Sys2Proof.Machine
end

