-- ==== Sys2Proof/Tests/Slice0.lean ====
section
/-!
SUPPORT. Sys2Proof/Tests/Slice0.lean: the model's own tests: words written out from the spec's encodings, ill-formed terms, one step on a
small state here and there, and for the statements a state and operands that meet their hypotheses.
-/
open Sys2Proof Sys2Proof.Machine

namespace Sys2Proof.Tests

-- Small states -----------------------------------------------------------------------------------------------------

/-- An unguarded head without hints, and the issue of lane 0 of warp 0 of core 0. -/
def h0 : Head := { neg := false, pred := 7, pri := 0, last := false, rb := false, ra := false, yld := false }
def c0 : Cur := { core := 0, warp := 0, pc := 0x1000, mask := 1 }

/-- A word under a tag in a V register of lane 0. -/
def State.withV (s : State) (n : Nat) (t : Tag) (w : Word) : State := s.setVreg 0 0 0 n { bits := w, tag := t }

/-- A page of the context: its target, and what it allows. -/
def page (va : Nat) (tgt : Target) (soft doc : Bool) : TlbEntry :=
  { die := 0, ctx := 0, va, oa := va, fn := 1, attr := { tgt, ord := .rc, soft, cmp := false, doc, enc := false, r := true, w := !doc, x := false, base := va, size := 4096 } }

/-- Warp 0 of core 0 with 32 tiles, lane 0 at 0x1000, its registers under each tag, four pages. -/
def base : State :=
  let s := ((State.reset.placeTeamWith false []).setOwners 0 0 32 0).setThread 0 0 0 (Thread.start 0x1000 0)
  let s := [(8, Tag.f32, 0x3F800000), (9, .i32, 5), (10, .w32, 7), (11, .bf2, 0x3F803F80), (12, .h2, 0x3C003C00), (13, .e4q, 0x38383838),
    (14, .e5q, 0x3C3C3C3C), (15, .i8q, 0x01020304), (16, .w8q, 0x01020304), (17, .npl, 0x76543210), (18, .psn, 0), (20, .raw, 0x2000),
    (22, .raw, 0x3000), (24, .raw, 0x4000), (26, .raw, 0x5000), (28, .w32, 64), (29, .w32, 1), (30, .w32, 32), (31, .raw, 96)].foldl
    (fun s x => State.withV s x.1 x.2.1 (BitVec.ofNat 32 x.2.2)) s
  { s with tlb := [page 0x2000 .hbm false false, page 0x3000 .hbm true false, page 0x4000 .hbm false true, page 0x5000 .host false false] ++ s.tlb,
           peers := [], script := [] }
def world : State := { base with cur := some c0 }

/-- Whether an issue meets no check before its entry's own, and its sources take no trap. -/
def checks (s : State) (c : Cur) (i : Instr) : Bool :=
  decide (s.cur = some c) && i.wf && s.mayExecute c i && (i.vregs.all fun n => decide (n / 8 < (s.warp c.core c.warp).ntile))
    && (i.vregs.all fun n => decide (s.owner c.core (vTile (s.warp c.core c.warp).tbase n) = ownerCode c.warp))
    && decide ((s.warp c.core c.warp).upsets = 0) && !(s.warp c.core c.warp).step
theorem checks_issues {s : State} {c : Cur} {i : Instr} (h : checks s c i = true) : Issues i s c := by
  simp only [checks, Bool.and_eq_true, List.all_eq_true, decide_eq_true_eq, Bool.not_eq_true'] at h
  obtain ⟨⟨⟨⟨⟨⟨h1, h2⟩, h3⟩, h4⟩, h5⟩, h6⟩, h7⟩ := h
  exact ⟨h1, h2, h3, h4, h5, h6, h7⟩
def takes (s : State) (c : Cur) (h : Head) (srcs : List Src) : Bool := (s.onLanes c h).all fun l => (s.begun c h).srcTrap c l srcs == none
theorem takes_accepts {s : State} {c : Cur} {h : Head} {srcs : List Src} (w : takes s c h srcs = true) : s.accepts c h srcs := by
  exact fun l hl => beq_iff_eq.1 (List.all_eq_true.1 w l hl)

/-- Rows of an instruction with its sources that issue in the small state. -/
def issuesAt (s : State) (c : Cur) (rows : List (Instr × List Src)) : Bool := rows.all fun r => checks s c r.1 && takes s c h0 r.2
def issuesHere (rows : List (Instr × List Src)) : Bool := issuesAt world c0 rows
theorem issuesAt_spec {s : State} {c : Cur} {rows : List (Instr × List Src)} (h : issuesAt s c rows = true) :
    ∀ r ∈ rows, Issues r.1 s c ∧ s.accepts c h0 r.2 := by
  intro r hr
  have := List.all_eq_true.1 h r hr
  rw [Bool.and_eq_true] at this
  exact ⟨checks_issues this.1, takes_accepts this.2⟩

-- Register instructions --------------------------------------------------------------------------------------------

def integerRows : List (Instr × List Src) :=
  let s2 : List Src := [dataSrc 1 (.v 9) notPsn, dataSrc 2 (.imm 3) notPsn]
  [(.iadd h0 false false (.v 0) (.v 9) (.imm 3), s2), (.isub h0 false true (.v 0) (.v 9) (.imm 3), s2), (.imul h0 true false (.v 0) (.v 9) (.imm 3), s2),
   (.imulh h0 true (.v 0) (.v 9) (.imm 3), s2), (.imad h0 false true (.v 0) (.v 9) (.imm 3) (.v 10), s2 ++ [dataSrc 2 (.v 10) notPsn]),
   (.imin h0 false (.v 0) (.v 9) (.imm 3), s2), (.imax h0 false (.v 0) (.v 9) (.imm 3), s2), (.iabs h0 true (.v 0) (.v 9), [dataSrc 1 (.v 9) notPsn]),
   (.ineg h0 false (.s 3) (.v 9), [dataSrc 1 (.v 9) notPsn])]
theorem witness_IntegerArithmetic : issuesHere integerRows = true := by decide
theorem witness_Narrowing : (intLo false ≤ (5 : Int) ∧ (5 : Int) ≤ intHi false) ∧ (-2147483649 : Int) < intLo false ∧ intHi true < (4294967296 : Int) := by decide

def selectRows : List (Instr × List Src) :=
  [(.isetp h0 .lt true false (.p 1) (.v 9) (.imm 20) (.p 7), [trapSrc 1 (.v 9) notPsn, trapSrc 2 (.imm 20) notPsn]),
   (.sel h0 false (.v 0) (.v 9) (.imm 3) (.p 7), [dataSrc 1 (.v 9) notPsn, dataSrc 2 (.imm 3) notPsn]),
   (.isat h0 .i8 false (.v 0) (.v 9), [dataSrc 1 (.v 9) notPsn]),
   (.lea h0 false 2 (.v 2) (.v 20) (.v 9), wideSrc dataSrc 1 (.v 20) 2 notPsn ++ [dataSrc 2 (.v 9) notPsn]),
   (.addw h0 true false (.v 2) (.v 20) (.v 22), wideSrc dataSrc 1 (.v 20) 2 notPsn ++ wideSrc dataSrc 2 (.v 22) 2 notPsn),
   (.mulw h0 false (.v 2) (.v 9) (.v 10), [dataSrc 1 (.v 9) notPsn, dataSrc 2 (.v 10) notPsn])]
theorem witness_CompareSelectSaturate : issuesHere (selectRows.take 3) = true := by decide
theorem witness_WideArithmetic : issuesHere (selectRows.drop 3) = true := by decide

def logicRows : List (Instr × List Src) :=
  let s1 : List Src := [dataSrc 1 (.v 9) notPsn]
  let s2 : List Src := s1 ++ [dataSrc 2 (.imm 3) notPsn]
  let s3 : List Src := s2 ++ [dataSrc 2 (.v 10) notPsn]
  [(.and h0 (.v 0) (.v 9) (.imm 3), s2), (.or h0 (.v 0) (.v 9) (.imm 3), s2), (.xor h0 (.v 0) (.v 9) (.imm 3), s2), (.not h0 (.v 0) (.v 9), s1),
   (.shl h0 (.v 0) (.v 9) (.imm 3), s2), (.shr h0 (.v 0) (.v 9) (.imm 3), s2), (.sar h0 (.v 0) (.v 9) (.imm 3), s2),
   (.rotl h0 (.v 0) (.v 9) (.imm 3), s2), (.popc h0 (.v 0) (.v 9), s1), (.clz h0 (.v 0) (.v 9), s1), (.brev h0 (.v 0) (.v 9), s1),
   (.bfx h0 true (.v 0) (.v 9) (.imm 3), s2), (.bfi h0 (.v 0) (.v 9) (.imm 3) (.v 10), s3), (.prmt h0 (.v 0) (.v 9) (.imm 3) (.v 10), s3),
   (.mov h0 (.v 0) (.v 18), [dataSrc 1 (.v 18) fun _ => true]), (.movi h0 .f32 (.v 0) 0x3F800000, [])]
theorem witness_LogicShiftFieldMove : issuesHere logicRows = true := by decide

def floatRows : List (Instr × List Src) :=
  let f (n : Nat) : Src := dataSrc n (.v 8) (isTag .f32)
  [(.fadd h0 .rne (.v 0) (.v 8) (.v 8), [f 1, f 2]), (.fsub h0 .rz (.v 0) (.v 8) (.v 8), [f 1, f 2]), (.fmul h0 .ru (.v 0) (.v 8) (.v 8), [f 1, f 2]),
   (.ffma h0 .rd (.v 0) (.v 8) (.v 8) (.v 8), [f 1, f 2, f 3]), (.fscalb h0 .rne (.v 0) (.v 8) (.v 9), [f 1, dataSrc 2 (.v 9) notPsn]),
   (.frnd h0 .rne (.v 0) (.v 8), [f 1]), (.fmin h0 (.v 0) (.v 8) (.v 8), [f 1, f 2]), (.fmax h0 (.v 0) (.v 8) (.v 8), [f 1, f 2]),
   (.fsetp h0 .lt false (.p 0) (.v 8) (.v 8) (.p 7), [trapSrc 1 (.v 8) (isTag .f32), trapSrc 2 (.v 8) (isTag .f32)]),
   (.fclass h0 (.p 0) (.v 8) 0x1FF, [trapSrc 1 (.v 8) (isTag .f32)])]
theorem witness_FloatArithmetic : issuesHere (floatRows.take 6) = true := by decide
theorem witness_FloatCompare : issuesHere (floatRows.drop 6) = true := by decide
theorem witness_FloatRules :
    Fmt.f32.isNaN 0x3F800000 = false ∧ Fmt.f32.isInf 0x3F800000 = false ∧ Fmt.f32.isInf 0x7F800000 = true ∧ Fmt.f32.isNaN 0x7FC00000 = true
      ∧ Fmt.f32.isInf 0xFF800000 = true ∧ Fmt.f32.neg 0x7F800000 ≠ Fmt.f32.neg 0xFF800000 ∧ Fmt.f32.mag 0x80000000 = 0 := by decide

def packedRows : List (Instr × List Src) :=
  let p (n : Nat) : Src := dataSrc n (.v 12) (isTag .h2)
  let b (n : Nat) : Src := dataSrc n (.v 11) (isTag .bf2)
  [(.hadd2 h0 true .rne false (.v 0) (.v 12) (.v 12), [p 1, p 2]), (.hmul2 h0 true .rne true (.v 0) (.v 12) (.v 12), [p 1, p 2]),
   (.hfma2 h0 false .rne false (.v 0) (.v 11) (.v 11) (.v 11), [b 1, b 2, b 3]), (.hmin2 h0 true (.v 0) (.v 12) (.v 12), [p 1, p 2]),
   (.hmax2 h0 true (.v 0) (.v 12) (.v 12), [p 1, p 2]),
   (.hsetp2 h0 true .lt true (.p 0) (.v 12) (.v 12), [trapSrc 1 (.v 12) (isTag .h2), trapSrc 2 (.v 12) (isTag .h2)]),
   (.dot2 h0 .rne false (.v 0) (.v 11) (.v 11) (.v 8), [b 1, b 2, dataSrc 3 (.v 8) (isTag .f32)]),
   (.dot4 h0 true false true (.v 0) (.v 16) (.v 15) (.v 9), [dataSrc 1 (.v 16) (isTag .w8q), dataSrc 2 (.v 15) (isTag .i8q), dataSrc 3 (.v 9) (isTag .i32)]),
   (.cvt h0 .i32 .f32 .rz false (.v 0) (.v 8), [dataSrc 1 (.v 8) (isTag .f32)]),
   (.pack2 h0 true .rne false (.v 0) (.v 8) (.v 8), [dataSrc 1 (.v 8) (isTag .f32), dataSrc 2 (.v 8) (isTag .f32)]),
   (.pack4 h0 .e4m3 false false .rne true (.v 0) (.v 8) (.v 8) (.v 13),
    [dataSrc 1 (.v 8) (isTag .f32), dataSrc 2 (.v 8) (isTag .f32), dataSrc 3 (.v 13) (isTag .e4q)]),
   (.unpk h0 .e5m2 1 (.v 0) (.v 14), [dataSrc 1 (.v 14) (isTag .e5q)]),
   (.plnget h0 (.v 0) (.v 15) (.imm 3) (.v 17), [dataSrc 1 (.v 15) (isTag .i8q), dataSrc 2 (.imm 3) notPsn, dataSrc 2 (.v 17) (isTag .npl)]),
   (.plnput h0 (.v 0) (.v 17) (.imm 3) (.v 15), [dataSrc 1 (.v 17) (isTag .npl), dataSrc 2 (.imm 3) notPsn, dataSrc 2 (.v 15) (isTag .i8q)]),
   (.tagset h0 .psn (.v 0) (.v 9), [dataSrc 1 (.v 9) fun _ => true]), (.tagget h0 (.v 0) (.v 18), [])]
theorem witness_PackedPairs : issuesHere (packedRows.take 6) = true := by decide
theorem witness_DotProducts : issuesHere ((packedRows.drop 6).take 2) = true := by decide
theorem witness_Conversions : issuesHere ((packedRows.drop 8).take 4) = true := by decide
theorem witness_PlanesAndTags : issuesHere (packedRows.drop 12) = true := by decide

def specialRows : List (Instr × List Src) :=
  [Instr.rcp h0 (.v 0) (.v 8), .rsq h0 (.v 0) (.v 8), .sqrt h0 .rne (.v 0) (.v 8), .exp2 h0 (.v 0) (.v 8), .log2 h0 (.v 0) (.v 8),
   .sinpi h0 (.v 0) (.v 8), .cospi h0 (.v 0) (.v 8), .tanh h0 (.v 0) (.v 8), .erf h0 (.v 0) (.v 8)].map fun i => (i, [dataSrc 1 (.v 8) (isTag .f32)])
theorem witness_SpecialFunctions : issuesHere specialRows = true ∧ Fmt.f32.isNaN 0x80000001 = false := by decide

def laneRows : List (Instr × List Src) :=
  [(.shfl h0 .xor (.v 0) (.v 9) (.imm 1), []), (.vote h0 .all (.p 0) (.v 9), [trapSrc 1 (.v 9) notPsn]), (.vote h0 .bal (.v 0) (.v 9), [trapSrc 1 (.v 9) notPsn]),
   (.matchLanes h0 (.v 0) (.v 9), []), (.wred h0 .add .f32 .rne false (.v 0) (.v 8), [dataSrc 1 (.v 8) (isTag (wredTag .f32))])]
theorem witness_CrossLane : issuesHere laneRows = true := by decide

-- Control ----------------------------------------------------------------------------------------------------------

/-- The ready lane's address and pair are where a branch may go. -/
theorem witness_Branches :
    issuesHere [(.nop h0, []), (.bra h0 (-9), []), (.brx h0 (.v 20), wideSrc trapSrc 1 (.v 20) 2 isAddr), (.call h0 3, []),
      (.callx h0 (.v 20), wideSrc trapSrc 1 (.v 20) 2 isAddr), (.ret h0 (.v 20), [trapSrc 1 (.v 20) isAddr])] = true
    ∧ (∀ l ∈ world.onLanes c0 h0, ((world.begun c0 h0).pair c0 l (.v 20)).toNat % 4 = 0
      ∧ ((world.begun c0 h0).pair c0 l (.v 20)).extractLsb' 32 32 = ((world.thread 0 0 l).pc + 12).extractLsb' 32 32
      ∧ ((world.begun c0 h0).bits c0 l (.v 20)).toNat % 4 = 0
      ∧ ((world.thread 0 0 l).pc + 4 * (3 : BitVec 36).signExtend 64).extractLsb' 32 32 = ((world.thread 0 0 l).pc + 12).extractLsb' 32 32)
    ∧ world.onLanes c0 h0 = [0] := by decide
theorem witness_ExitEndsThreads :
    checks world c0 (.exit h0) = true ∧ world.onLanes c0 h0 ≠ [] ∧ (world.warp 0 0).live = true ∧ world.offLanes c0 h0 = []
      ∧ (∀ tm, world.teamOf 0 0 = some tm → 0 ∈ tm.warps) ∧ (∀ l, l < 32 → l ∉ world.onLanes c0 h0 → (world.thread 0 0 l).st.alive = false) := by
  refine ⟨by decide, by decide, by decide, by decide, ?_, by decide⟩
  intro tm h
  have : world.teamOf 0 0 = some (placeTeam false) := by decide
  rw [this] at h; cases h; decide
theorem witness_Rejoin :
    issuesHere [(.jset h0 .set (.j 2) (some (.v 9)), [trapSrc 2 (.v 9) notPsn]), (.jset h0 .pres (.j 2) none, []), (.arj h0 (.j 2), []),
      (.waitj h0 (.j 2), [])] = true
    ∧ world.onLanes c0 h0 = 0 :: [] ∧ (world.warp 0 0).step = false ∧ world.teamStopped 0 (world.warpTeam 0 0) = false
    ∧ ((base.setThread 0 0 0 { Thread.start 0x1000 0 with st := .waitj 2 }).thread 0 0 0).st = .waitj 2 ∧ base.jreg 0 0 2 = 0
    ∧ (let s := base.setTeam 0 0 { placeTeam false with recov := some { retry := true, rolls := 0, held := [], commit := none, rolling := true } }
      s.teamStopped 0 (s.warpTeam 0 0) = true) := by decide

-- Memory -----------------------------------------------------------------------------------------------------------

/-- The handler warp of core 0 serves a trap of lane 0 of warp 0. -/
def e0 : Event := { warp := 0, lanes := 1, seq := false, cause := 0x0C, defd := false, team := 0, ctx := 0, inc := 0, frz := false }
def hc : Cur := { core := 0, warp := 64, pc := 0x1000, mask := 1 }
def r0 : TrapRec :=
  { ctxt := 0, aux := 0, addr := 0, pc := 0x1000, ident := 0, info := 0, kind := false, defd := false, act := 0, cause := 0x0C }
def handling (e : Event) (v6 : Nat) : State :=
  let s := base.setThread 0 0 0 { Thread.start 0x1000 0 with st := .parked, record := some r0 }
  let s := (s.setWarp 0 64 { Warp.idle with live := true, tbase := 504, ntile := 8 }).setThread 0 64 0 (Thread.start 0x1000 0)
  let s := s.modCore 0 fun k => { k with handler := { serving := some e, budget := 100, pageWait := none, asked := [] } }
  let s := (s.setVreg 0 64 0 9 { bits := 5, tag := .i32 }).setVreg 0 64 0 28 { bits := 64, tag := .w32 }
  { s.setVreg 0 64 0 6 { bits := BitVec.ofNat 32 v6, tag := .w32 } with cur := some hc }

def attr0 : Attr := (page 0x2000 .hbm false false).attr
def req0 (act : ReqAct) (stage : ReqStage) : Req :=
  { id := 0, core := 0, warp := 0, lane := 0, launch := 0, team := 0, ctx := 0, inc := 0, attr := attr0, va := 0x2010, pa := 0x2010, act, stage,
    passed := 0, acq := false, noInstall := false, noL2 := false, orphan := false, seen := false, freed := false, window := none, sentAt := 0,
    from_ := 0, laid := [], turn := none }
def asking (r : Req) : State := { world with reqs := [r] }
/-- A request of lane 0 to its own window, of some launch and incarnation. -/
def visiting (act : ReqAct) (launch : Nat) (inc : Byte) : Req := { req0 act .sent with attr := plainAttr, pa := 64, launch, inc }
def arrives (r : Req) : Bool :=
  (asking r).req 0 == some r && (asking r).memoryRuns && (asking r).wayOpen 0 && !(asking r).windowAway r.launch 0 0 && (asking r).firstAtBank r

theorem witness_LocalStores :
    let s2 : List Src := [trapSrc 1 (.v 28) isAddr, trapSrc 2 (.v 9) notPsn]
    let s64 : List Src := trapSrc 1 (.v 28) isAddr :: wideSrc trapSrc 2 (.v 20) 2 notPsn
    issuesHere [(.sts h0 .b32 (.v 28) (.v 9) 4, s2), (.stp h0 .b64 (.v 28) (.v 20) 8, s64), (.stsr h0 .b8 (.v 28) (.v 9) 4, s2)] = true
    ∧ issuesAt (handling e0 0) hc [(.stp h0 .b32 (.v 28) (.v 9) 188, s2)] = true
    ∧ world.teamOf 0 0 = some (placeTeam false) ∧ (∀ l ∈ world.onLanes c0 h0, (world.begun c0 h0).bits c0 l (.v 28) = 64)
    ∧ (∀ l ∈ (handling e0 0).onLanes hc h0, ((handling e0 0).begun hc h0).bits hc l (.v 28) = 64)
    ∧ world.remote c0 68 = some (0, 0, placeTeam false) ∧ world.retryable 0 0 = false
    ∧ (let r := visiting (.rstore 0 0 [1, 2])
      arrives (r 0 0) = true ∧ (asking (r 0 0)).passes (r 0 0).ahead 0 0 = true ∧ (asking (r 0 0)).windowTeam 0 0 0 = some (0, placeTeam false)
        ∧ arrives (r 7 0) = true ∧ (asking (r 7 0)).windowTeam 7 0 0 = none ∧ (asking (r 0 1)).passes (r 0 1).ahead 0 1 = false
        ∧ { asking (r 0 0) with images := [State.reset.teamImage 0 0 (placeTeam false) []] }.windowAway 0 0 0 = true) := by decide
theorem witness_LocalLoads :
    let s1 : List Src := [trapSrc 1 (.v 28) isAddr]
    issuesHere [(.lds h0 .b32 (.v 0) (.v 28) 4, s1), (.ldp h0 .b64 (.v 0) (.v 28) 8, s1), (.ldsr h0 .w8 (.s 0) (.v 28) 4, s1)] = true
    ∧ issuesAt (handling e0 0) hc [(.ldp h0 .b32 (.v 0) (.v 28) 188, s1)] = true
    ∧ (handling e0 0).teamOf 0 64 = some (placeTeam false) ∧ world.remote c0 68 = some (0, 0, placeTeam false)
    ∧ (let s : State := { world with ctxs := [(0, { Ctx.free with wslen := 1 })] }
      issuesAt s c0 [(.ldw h0 .b32 (.v 0) (.v 28) 1984, s1)] = true ∧ wsBusy s.time 2048 4 = false
        ∧ 2048 + 4 ≤ (s.ctx (s.tagOf 0 0).1).wslen.toNat * 65536) := by decide

/-- The attributes of the pages, a line of the L1 of core 0, and a request of lane 0. -/
def line (attr : Attr) (dirty : Bool) : L1Line :=
  { ctx := 0, inc := 0, va := attr.base, pa := attr.base, attr, exp := 100, data := List.replicate 128 7, psn := List.replicate 4 false,
    valid := List.replicate 4 true, dirty := List.replicate 128 dirty, by_ := [], stripped := false }
def caching (x : L1Line) : State := world.modCore 0 fun k => { k with l1 := [x] }
def retrying : State := world.setTeam 0 0 { placeTeam false with recov := some { retry := true, rolls := 0, held := [], commit := none, rolling := false } }
def addr2 : List Src := wideSrc trapSrc 1 (.v 20) 2 isAddr

theorem witness_GlobalLoads :
    issuesHere [(.ldg h0 none false .b32 (.v 0) (.v 20) 16, addr2), (.pref h0 true (.v 20) 16, addr2)] = true
    ∧ world.pageFor 0 0 0 0x2010 = .ok 0x2000 attr0 ∧ attr0.r = true ∧ (world.core 0).l1 = []
    ∧ checks (caching (line attr0 false)) c0 (.ldg h0 none false .b32 (.v 0) (.v 20) 16) = true
    ∧ (caching (line attr0 false)).l1Hit 0 0 0 0x2010 = some (line attr0 false) ∧ (line attr0 false).stripped = false
    ∧ world.twiceMapped 0 attr0 0x2010 = false ∧ world.pageFor 0 0 0 0x9000 = .fail
    ∧ checks world c0 (.ldg h0 none true .b32 (.v 0) (.v 18) 16) = true
    ∧ (∀ l ∈ world.onLanes c0 h0, (world.begun c0 h0).psnIn c0 l (wideSrc trapSrc 1 (.v 18) 2 isAddr) = true) := by decide
theorem witness_GlobalStores :
    let srcs : List Src := addr2 ++ wideSrc trapSrc 2 (.v 9) 1 notPsn
    issuesHere [(.stg h0 none .b32 (.v 20) (.v 9) 16, srcs)] = true ∧ issuesAt retrying c0 [(.stg h0 none .b32 (.v 20) (.v 9) 16, srcs)] = true
    ∧ world.pageFor 0 0 0 0x2010 = .ok 0x2000 attr0 ∧ attr0.w = true ∧ attr0.doc = false ∧ attr0.soft = false ∧ attr0.ord = .rc
    ∧ issuesHere [(.stg h0 none .b32 (.v 22) (.v 9) 16, wideSrc trapSrc 1 (.v 22) 2 isAddr ++ wideSrc trapSrc 2 (.v 9) 1 notPsn)] = true
    ∧ world.pageFor 0 0 0 0x3010 = .ok 0x3000 (page 0x3000 .hbm true false).attr ∧ (world.core 0).l1 = []
    ∧ world.recovering 0 0 = false ∧ retrying.pageFor 0 0 0 0x2010 = .ok 0x2000 attr0
    ∧ (retrying.teamOf 0 0).map (fun t => t.recov.map (·.retry)) = some (some true) := by decide
theorem witness_LoadDataReturn :
    let fresh (r : Req) : Bool := (asking r).req 0 == some r && !r.orphan && r.window.isNone && !(asking r).staleAt r && (asking r).isResident 0 0 0 0
      && !(asking r).recovering 0 0 && (asking r).peerKnown r.attr && (asking r).owner 0 (vTile (world.warp 0 0).tbase 0) == ownerCode 0
    fresh (req0 (.load .b32 (.v 0) false) (.filled (List.replicate 128 0) [false, false, false, false])) = true
    ∧ fresh (req0 (.load .b32 (.v 0) false) (.filled (List.replicate 128 0) [true, false, false, false])) = true
    ∧ fresh (req0 (.atom .add true false (.v 0) 1 0) (.result 5 false)) = true
    ∧ (let r := { req0 (.load .b32 (.v 0) false) .sent with attr := (page 0x5000 .host false false).attr, pa := 0x5010 }
      fresh r = true ∧ r.attr.tgt ≠ .hbm ∧ (asking r).passes r.ahead 0 0 = true)
    ∧ fresh (req0 (.weight .b32 (.v 0) 2048 false) .sent) = true ∧ wsBusy world.time 2048 4 = false ∧ (world.wsRead 0 0 2048 4).2 = false
    ∧ (world.warp 0 0).step = false
    ∧ (let r := { req0 (.load .b32 (.v 0) false) (.filled [] []) with orphan := true }
      (asking r).req 0 = some r ∧ r.orphan = true)
    ∧ (let r := visiting (.rload 0 0 .b32 (.v 0) false) 0 0
      arrives r = true ∧ fresh r = true ∧ (asking r).passes r.ahead 0 0 = true ∧ (asking r).windowTeam 0 0 0 = some (0, placeTeam false))
    ∧ (let i : TeamImage := { State.reset.teamImage 0 0 (placeTeam false) [0] with since := 1 }
      i.launch = 0 ∧ i.index = 0 ∧ 0 < i.since ∧ i.tiles.contains (vTile (world.warp 0 0).tbase 0) = true) := by decide +kernel
theorem witness_AtomicsAndSemaphores :
    let one : List Src := wideSrc trapSrc 2 (.v 9) 1 notPsn
    issuesHere [(.atom h0 .add false false none (.v 0) (.v 20) (.v 9) 16, addr2 ++ one),
      (.atom h0 .cas true true (some (.ar, .pkg)) (.v 0) (.v 20) (.v 28) 16, addr2 ++ wideSrc trapSrc 2 (.v 28) 4 notPsn),
      (.atoms h0 .dec false true (.v 0) (.v 28) (.v 9) 4, trapSrc 1 (.v 28) isAddr :: one), (.sem h0 .rd (.v 0) 3, []),
      (.sem h0 (.cas (.v 9) (.v 10)) (.s 0) 3, [trapSrc 1 (.v 9) notPsn, trapSrc 2 (.v 10) notPsn])] = true
    ∧ world.pageFor 0 0 0 0x2010 = .ok 0x2000 attr0 ∧ attr0.cmp = false ∧ world.scrPsn.get false (scrSector 0 68) = false
    ∧ (let r := req0 (.atom .add false false (.v 0) 1 0) .sent
      (asking r).req 0 = some r ∧ (asking r).passes r.ahead 0 0 = true ∧ (asking r).peerKnown r.attr = true ∧ (asking r).mayPerform r = true ∧ (asking r).homePsn r.attr r.pa 4 = false
      ∧ { asking r with hbmPsn := [(0x2010 / 32, true)] }.homePsn r.attr r.pa 4 = true
      ∧ { asking r with leases := [(0x2010 / 128, 9)] }.mayPerform r = false) := by decide
theorem witness_Fences :
    let srcs : List Src := addr2 ++ [trapSrc 2 (.v 9) isAddr]
    let x := line (page 0x3000 .hbm true false).attr true
    issuesHere [(.fence h0 .acq .pkg, []), (.fence h0 .rel .pkg, []), (.wbr h0 .pkg (.v 20) (.v 9) 0, srcs), (.invr h0 .die (.v 20) (.v 9) 0, srcs)] = true
    ∧ (world.core 0).l1 = [] ∧ world.l2 = [] ∧ world.reqs = [] ∧ world.recovering 0 0 = false
    ∧ issuesAt (caching x) c0 [(.fence h0 .rel .die, [])] = true ∧ ((caching x).core 0).l1 = [x] ∧ x.attr.w = true ∧ x.dirty.contains true = true
    ∧ (let y := { x with attr := { x.attr with w := false } }
      issuesAt (caching y) c0 [(.fence h0 .all .die, [])] = true ∧ ((caching y).core 0).l1 = [y] ∧ c0.warp ≠ 64)
    ∧ homeDie x.pa = dieOf 0 ∧ x.valid.length = 4 ∧ (caching x).passes (dieCps 0 x.attr x.pa) 0 0 = true ∧ world.onLanes c0 h0 = [0]
    ∧ (let all (_ : Nat) : Bool := true
      let some_ (s : State) (d : Depth) : Written := (s.begun c0 h0).flush 0 0 0 0 0 d all
      let sent := { req0 (.writeback (List.replicate 128 7) (List.replicate 128 true) []) .sent with attr := (page 0x5000 .host true false).attr }
      (some_ world .home).failed = none ∧ (some_ world .home).s.unacked 0 0 0 all = [] ∧ (some_ (asking sent) .home).failed = none
        ∧ (some_ (asking sent) .home).s.unacked 0 0 0 all ≠ []
        ∧ (some_ (caching { x with attr := { x.attr with w := false } }) .die).failed ≠ none) := by decide
def copy0 (job : CopyJob) (moved : List Nat) : Copy :=
  { id := 0, core := 0, warp := 0, lane := 0, d := some (.v 0), queue := none, order := 0, cmpl := 0, irq := false, launch := 0, team := 0, ctx := 0,
    inc := 0, job, moved, bad := [], post := none, page := none, denied := [], orphan := false, after := [], pages := [], laid := [] }
def copying (k : Copy) : State := { world with copies := [k] }
theorem witness_Copies :
    issuesHere [(.cpy h0 .sp .gm true (.v 0) (.v 28) (.v 20) (.v 30), wideSrc trapSrc 1 (.v 28) 1 isAddr ++ wideSrc trapSrc 2 (.v 20) 2 isAddr
        ++ [trapSrc 3 (.v 30) notPsn, trapSrc 3 (.v 31) isAddr]),
      (.cpyt h0 true (.v 0) (.v 20) (.v 28) (.v 28), addr2 ++ [trapSrc 2 (.v 28) isAddr, trapSrc 3 (.v 28) isAddr])] = true
    ∧ (world.postPlace c0 (.sp 0 0 64)).2.2 = 384 ∧ (∀ l ∈ world.onLanes c0 h0, ((world.begun c0 h0).bits c0 l (.v 30)).toNat = 32
      ∧ ((world.begun c0 h0).bits c0 l (.v 31)).toNat = 96)
    ∧ ([copy0 (.span (.sp 0 0 0) (.gm 0x2000) 32) [0, 1], copy0 (.span (.sp 0 0 0) (.gm 0x9000) 32) [], copy0 (.span (.sp 0 0 0) (.sp 0 0 64) 16) []].all
      fun k => (copying k).copyMay k && (copying k).isResident 0 0 0 0 && !(copying k).recovering 0 0
        && (copying k).passes [cpCopy (dieOf 0)] 0 0 && k.d == some (.v 0) && k.pages == [] && (copying k).ckpts == [] && (copying k).reqs == []
        && (copying k).owner 0 (vTile (world.warp 0 0).tbase 0) == ownerCode 0
        && (copying k).cores.all fun p => p.2.teams.all fun t => t.2.recov.isNone) = true
    ∧ ([(0x2800, attr0), (0x2810, attr0), (0x5010, (page 0x5000 .host false false).attr)].all fun p =>
      let a := p.2
      let pa := a.base + p.1 % a.size
      world.translate 0 0 p.1 == .ok (p.1 / 4096 * 4096) a && world.peerKnown a && !world.twiceMapped 0 a pa && !world.homePsn a pa 16 && a.r && a.w && !a.doc
        && (a.tgt == .hbm) == (p.1 != 0x5010) && world.passes (dieCps 0 a pa) 0 0 && world.lease pa ≤ world.time) = true
    ∧ (page 0x4000 .hbm false true).attr.doc = true ∧ world.translate 0 0 0x4000 = .ok 0x4000 (page 0x4000 .hbm false true).attr
    ∧ world.passes (bridgeCps 0 0) 0 0 = true ∧ world.scrPsn.get false (scrSector 0 64) = false
    ∧ (let r := { req0 (.unit 0 1 (List.replicate 16 1)) .sent with attr := (page 0x5000 .host false false).attr, pa := 0x5020 }
      let s : State := { copying (copy0 (.span (.gm 0x5010) (.sp 0 0 64) 32) [0]) with reqs := [r] }
      s.req 0 = some r ∧ r.attr.tgt ≠ .hbm ∧ s.passes r.ahead 0 0 = true ∧ s.peerKnown r.attr = true)
    ∧ (copying (copy0 (.span (.sp 0 0 0) (.gm 0x9000) 32) [])).translate 0 0 0x9000 = .fail
    ∧ { copying (copy0 (.span (.sp 0 0 0) (.gm 0x2000) 32) []) with ctxs := [(0, { Ctx.free with live := 1 })] }.passes [cpCopy (dieOf 0)] 0 0
      = false := by decide

-- Synchronisation and cells ----------------------------------------------------------------------------------------

def bar (expa arrd tgt land nxta : Nat) : Bar := { phase := 3, expa, arrd, tgt, flags := 0, land, nxta }
/-- Each clause has an object that meets it; the outcomes are those of R219. -/
theorem witness_BarrierActions :
    (bar 2 0 0 0 0).act .arrive = bar 2 1 0 0 0 ∧ ((bar 2 1 0 0 1).act .arrive) = { bar 2 1 0 0 0 with phase := 4 }
    ∧ ((bar 2 1 0 0 2).act .arrive) = { bar 2 0 0 0 0 with phase := 5 } ∧ ((bar 2 1 16 32 0).act .arrive).err = true
    ∧ (bar 2 1 32 16 0).act .arrive = bar 2 2 32 16 0 ∧ (bar 2 2 32 16 1).act .arrive = { bar 2 2 32 16 2 with flags := 2 }
    ∧ ((bar 2 2 32 16 2).act .arrive).err = true ∧ ((bar 2 2 32 16 0).act (.post 16 false)) = { bar 2 0 0 0 0 with phase := 4 }
    ∧ ((bar 2 2 32 16 0).act (.post 32 false)).err = true ∧ ((bar 2 0 0 0 0).act (.expect (2 ^ 48))).err = true
    ∧ ((bar 2 0 0 (2 ^ 48 - 1) 0).act (.post 1 false)).err = true := by decide
/-- A barrier object at 64 of the window, counted down to its last arrival. -/
def barred (s : State) : State := { s with scratch := Memory.write s.scratch (scrKey 0 64) (bar 2 1 0 0 0).bytes }
def bwaiting (lim : Word) (phase : Word) : State :=
  (barred { base with time := 9 }).setThread 0 0 0 { Thread.start 0x1000 0 with st := .bwait (.v 0) 64 phase lim 2 }
theorem witness_Barriers :
    let s2 : List Src := [trapSrc 1 (.v 28) isAddr, trapSrc 2 (.v 9) notPsn]
    issuesAt (barred world) c0 [(.binit h0 .core (.v 28) (.v 9) 0, s2), (.expect h0 false (.v 28) (.v 9) 0, s2),
      (.arrive h0 false false false (.v 0) (.v 28) 0, [trapSrc 1 (.v 28) isAddr]), (.arrive h0 true true false (.s 0) (.v 28) 0, [trapSrc 1 (.v 28) isAddr]),
      (.btest h0 (.v 0) (.v 28) (.v 9) 0, s2), (.bwait h0 (.v 0) (.v 28) (.v 30) 0, trapSrc 1 (.v 28) isAddr :: wideSrc trapSrc 2 (.v 30) 2 notPsn),
      (.arrive h0 false false true (.v 0) (.v 28) 0, [trapSrc 1 (.v 28) isAddr]), (.expect h0 true (.v 28) (.v 9) 0, s2)] = true
    ∧ world.onLanes c0 h0 = [0] ∧ (barred world).remote c0 64 = some (0, 0, placeTeam false)
    ∧ (Bar.ofBytes (Memory.read (barred world).scratch (scrKey 0 64) 24)) = bar 2 1 0 0 0
    ∧ (let r := req0 (.barrier 0 0 64 .arrive (some (.v 0))) .sent
      (barred (asking r)).req 0 = some r ∧ (barred (asking r)).passes [cpBarrier 0] 0 0 = true ∧ (barred (asking r)).windowAway 0 0 0 = false
        ∧ (barred (asking r)).isResident 0 0 0 0 = true ∧ r.window = none ∧ (barred (asking r)).ckpts = [] ∧ (world.warp 0 0).step = false
        ∧ (barred (asking r)).firstAtBank r = true ∧ (barred (asking r)).windowTeam 0 0 0 = some (0, placeTeam false) ∧ (placeTeam false).recov = none
        ∧ (barred (asking r)).owner 0 (vTile (world.warp 0 0).tbase 0) = ownerCode 0
        ∧ (((barred (asking r)).cores.all fun p => p.2.teams.all fun t => t.2.recov.isNone) = true))
    ∧ ((bwaiting 0 2).thread 0 0 0).st = .bwait (.v 0) 64 2 0 2 ∧ ((bwaiting 7 3).thread 0 0 0).st = .bwait (.v 0) 64 3 7 2
    ∧ (bwaiting 7 3).time = 9 ∧ (bwaiting 8 3).time < 2 + 8 ∧ ((bwaiting 0 2).launchOf 0 0).map (·.replay) = some false := by decide
/-- A launch with one group of its one team. -/
def grouped (s : State) : State :=
  { s with launches := [(0, { placeLaunch false with groups := [{ first := 0, count := 1, stride := 1 }] })] }
def gwaiting : State := (grouped base).setThread 0 0 0 { Thread.start 0x1000 0 with st := .gbar (.v 0) 0 }
theorem witness_GroupBarriers :
    issuesAt (grouped world) c0 [(.gbar h0 0 (.v 0), [])] = true
    ∧ ((grouped world).launch 0).map (fun l => l.gid 0 0) = some 0
    ∧ ((gwaiting.launch 0).map fun l => gwaiting.memberIn 0 l 0 0) = some true ∧ gwaiting.teamAt 0 0 = some (0, 0, placeTeam false)
    ∧ gwaiting.team 0 0 = some (placeTeam false) ∧ (placeTeam false).recov = none ∧ (gwaiting.launches.all fun p => !p.2.replay) = true
    ∧ (gwaiting.warps.all fun p => !p.2.step) = true
    ∧ ((gwaiting.launch 0).map fun l => (l.endedTeams.contains 0, (l.gbars.get GBar.start 1).owed)) = some (false, [])
    ∧ (((grouped base).launch 0).map fun l => (grouped base).memberIn 0 l 0 0) = some false
    ∧ gwaiting.images = [] ∧ gwaiting.reqs = [] ∧ (gwaiting.cores.all fun p => p.2.teams.length == 1) = true ∧ gwaiting.cores.length = 1
    ∧ ((grouped world).launch 0).map (fun l => l.gidsOf 0) = some [0] := by decide

def cell (gen : Word) (state flags : Byte) : Cell := { value := 7, prev := 6, gen, winner := 5, state, flags, rest := [0, 0, 0, 0, 0, 0] }
theorem witness_CellActions :
    (cell 3 0 1).malformed = false ∧ (cell 3 1 0).malformed = false ∧ (cell 3 2 0).malformed = true ∧ (cell 3 0 2).malformed = true
    ∧ ((cell 0 1 0).gen - 0xFFFFFFFF).toNat = 1 ∧ ((cell 5 1 0).gen - 3).toNat = 2 ∧ (0x80000002 - 3 : Word).toNat = 2 ^ 31 - 1
    ∧ (0x80000003 - 3 : Word).toNat = 2 ^ 31 := by decide
def cellReq (op : CellOp) (stage : ReqStage) : Req :=
  { req0 (.cell op (.v 0) 0 7) stage with attr := (page 0x4000 .hbm false true).attr, va := 0x4020, pa := 0x4020 }
theorem witness_DecideOnce :
    let docs : State := { world with tlb := world.tlb.map fun e => if e.va = 0x4000 then { e with attr := { e.attr with w := true } } else e }
    let s1 : List Src := wideSrc trapSrc 1 (.v 24) 2 isAddr
    issuesAt docs c0 [(.dinit h0 none (.v 0) (.v 24) (.v 9) 0, s1 ++ [trapSrc 2 (.v 9) isAddr]),
      (.dread h0 (some .pkg) (.v 0) (.v 24) (.v 9) 0, s1 ++ [trapSrc 2 (.v 9) isAddr]),
      (.drecyc h0 none (.v 0) (.v 24) (.v 9) 0, s1 ++ [trapSrc 2 (.v 9) isAddr]),
      (.dprop h0 none (.v 0) (.v 24) (.v 28) 0, s1 ++ (wideSrc trapSrc 2 (.v 28) 2 notPsn ++ [trapSrc 2 (.v 30) isAddr]))] = true
    ∧ docs.pageFor 0 0 0 0x4000 = .ok 0x4000 { (page 0x4000 .hbm false true).attr with w := true } ∧ docs.recovering 0 0 = false
    ∧ (asking (cellReq .recyc .sent)).req 0 = some (cellReq .recyc .sent)
    ∧ (asking (cellReq .recyc .sent)).passes (cellReq .recyc .sent).ahead 0 0 = true
    ∧ (asking (cellReq .recyc .sent)).firstOfIssue (cellReq .recyc .sent) = true ∧ (asking (cellReq .recyc .sent)).peerKnown (cellReq .recyc .sent).attr = true
    ∧ (let r := cellReq .read (.cell { val := 7, code := 1, noprev := false, info := 5 })
      (asking r).req 0 = some r ∧ r.orphan = false ∧ (asking r).staleAt r = false ∧ r.window = none ∧ (asking r).ckpts = []
        ∧ (asking r).isResident 0 0 0 0 = true ∧ (asking r).twiceMapped 0 r.attr r.pa = false
        ∧ ∀ k < 4, (asking r).owner 0 (vTile (world.warp 0 0).tbase k) = ownerCode 0)
    ∧ (asking (cellReq .recyc .sent)).mayPerform (cellReq .recyc .sent) = true
    ∧ (let s : State := { asking (cellReq .recyc .sent) with genTime := [(cellKey (cellReq .recyc .sent).attr 0x4020, 0)] }
      s.genTime.find (cellKey (cellReq .recyc .sent).attr 0x4020) = some 0 ∧ s.time < 0 + 16)
    ∧ (let s : State := { asking (cellReq .prop .sent) with
        decided := [{ holder := 192, ctx := 0, inc := 0, va := 0x4020, gen := 0, value := 9, winner := 0, born := 0 }] }
      (s.decidedFor (cellReq .prop .sent) 0).isSome = true ∧ s.isResident 0 0 0 0 = true) := by decide

-- Tiles, spawning, traps -------------------------------------------------------------------------------------------

theorem witness_Tiles :
    checks world c0 (.give h0 3 (.t 8) 0) = true ∧ checks world c0 (.give h0 3 (.t 8) 7) = true ∧ checks world c0 (.take h0 3 (.t 40)) = true
    ∧ checks world c0 (.town h0 (.v 0) (.t 503)) = true ∧ (world.warp 0 0).live = true ∧ (world.warp 0 7).live = false
    ∧ (∀ i < 4, world.owner 0 (8 + i) = ownerCode 0)
    ∧ (let s := (base.setOwners 0 40 4 0x80).setThread 0 0 0 { Thread.start 0x1000 0 with st := .take 40 4 }
      (s.thread 0 0 0).st = .take 40 4 ∧ (∀ l < 32, l ≠ 0 → (s.thread 0 0 l).st = .absent)
        ∧ (∀ i < 4, s.owner 0 (40 + i) = (0x80 ||| ownerCode 0) ∧ s.tilePending 0 (40 + i) = false) ∧ (s.core 0).seq.gave = []
        ∧ s.owner 0 44 = 0x7F ∧ s.teamStopped 0 (s.warpTeam 0 0) = false) := by decide
def spawning : State :=
  let s := (base.setTeam 0 0 { placeTeam false with warps := [0, 1] }).setWarp 0 1 { Warp.idle with tbase := 32, ntile := 32 }
  s.modCore 0 fun k => { k with bins := [(0, { team := 0, entry := 0x2000, args := [7], first := 0, full := some 0 })] }
theorem witness_Spawning :
    issuesHere [(.spawn h0 (.v 20) (.v 22), wideSrc trapSrc 1 (.v 20) 2 isAddr ++ wideSrc trapSrc 2 (.v 22) 2 notPsn)] = true
    ∧ (∀ l ∈ world.onLanes c0 h0, ((world.begun c0 h0).pair c0 l (.v 20)).toNat % 4 = 0)
    ∧ ((base.setThread 0 0 0 { Thread.start 0x1000 0 with st := .spawn 0x2000 1 }).thread 0 0 0).st = .spawn 0x2000 1
    ∧ (base.warp 0 0).step = false ∧ base.teamStopped 0 (base.warpTeam 0 0) = false ∧ ((base.core 0).binFor 0 0x2000).isSome = true
    ∧ ((spawning.core 0).bins.find 0).isSome = true ∧ spawning.nextBin 0 0 = true ∧ spawning.binWarp 0 { team := 0, entry := 0x2000, args := [7], first := 0, full := some 0 } = some 1
    ∧ [0, 1].find? (fun w => !(spawning.warp 0 w).live) = some 1 ∧ spawning.resultsOut 0 1 = false
    ∧ (∀ i < 32, spawning.tilePending 0 (32 + i) = false)
    ∧ (let s := base.modCore 0 fun k => { k with bins := [(0, { team := 0, entry := 0x2000, args := [7], first := 0, full := none })] }
      s.time < 0 + (s.core 0).binTimer ∧ 0 + (s.core 0).binTimer ≤ { s with time := Config.spawnTimer }.time) := by decide
theorem witness_YieldsAndTraps :
    checks world c0 (.yield h0 9) = true ∧ checks world c0 (.trap h0 0x0C) = true ∧ checks world c0 (.trap h0 0x3F) = true
    ∧ checks world c0 (.bkpt h0 0xFFFF) = true ∧ checks world c0 (.chk h0 (.v 9)) = true ∧ checks world c0 (.chk h0 (.v 18)) = true
    ∧ world.onLanes c0 h0 = [0] ∧ ((world.begun c0 h0).opd c0 0 (.v 18)).tag = .psn ∧ ((world.begun c0 h0).opd c0 0 (.v 9)).tag ≠ .psn
    ∧ (world.thread 0 0 0).dfV = false ∧ (world.warp 0 0).inelig ≤ world.clock
    ∧ world.clock < ((world.modWarp 0 0 fun k => { k with inelig := 9 }).warp 0 0).inelig
    ∧ (let s := world.setThread 0 0 0 ((world.thread 0 0 0).defer 5 8)
      checks s c0 (.chk h0 (.v 18)) = true ∧ (s.thread 0 0 0).dfV = true ∧ (s.thread 0 0 0).dfCause = 5) := by decide
theorem witness_IssueTraps :
    Instr.wf (.iadd h0 false false (.p 0) (.v 9) (.v 10)) = false ∧ Instr.wf (.rte h0) = true ∧ world.mayExecute c0 (.rte h0) = false
    ∧ lanesOf c0.mask ≠ [] ∧ c0.warp ≠ 64 ∧ world.cur = some c0 ∧ (world.warp 0 0).upsets = 0 ∧ (world.warp 0 0).step = false
    ∧ (let s := world.setWarp 0 0 { world.warp 0 0 with ntile := 1 }
      (s.warp 0 0).ntile ≤ 9 / 8 ∧ 9 ∈ Instr.vregs (.iadd h0 false false (.v 0) (.v 9) (.v 10)))
    ∧ (let s := world.setOwner 0 1 0x40
      s.owner 0 (vTile (s.warp 0 0).tbase 9) ≠ ownerCode 0 ∧ s.owner 0 (vTile (s.warp 0 0).tbase 0) = ownerCode 0)
    ∧ checks world c0 (.fadd h0 .rne (.v 0) (.v 9) (.v 8)) = true ∧ ((world.begun c0 h0).opd c0 0 (.v 9)).tag = .i32
    ∧ checks world c0 (.lds h0 .b32 (.v 0) (.v 18) 0) = true := by decide
theorem witness_TrapRecordFields : (0x23 : Byte).toNat < 0x24 ∧ (0x3F : Byte).toNat ≤ 0x3F := by decide
theorem witness_ControlRegisters :
    issuesHere [(.csrr h0 (.v 0) 0, []), (.csrr h0 (.s 3) 0x10, []), (.csrr h0 (.j 1) 2, []), (.csrr h0 (.j 1) 0x11, []), (.csrw h0 0 (.v 9), [trapSrc 1 (.v 9) notPsn])] = true
    ∧ issuesAt (handling e0 0) hc [(.csrr h0 (.v 0) 0x11, []), (.csrr h0 (.v 0) 0x20, []), (.csrr h0 (.v 0) 0x22, []),
      (.csrw h0 0x10 (.v 9), [trapSrc 1 (.v 9) notPsn])] = true
    ∧ world.onLanes c0 h0 = [0] ∧ (handling e0 0).onLanes hc h0 = [0] := by decide
def e1 : Event := { e0 with seq := true }
def monitoring (v6 : Nat) : State := (handling e0 v6).modCore 0 fun k => { k with handler := { serving := none, budget := 0, pageWait := none, asked := [] } }
theorem witness_HandlerAndMailbox :
    ([0, 255, 0x100, 0x13F, 0x146, 0x14F, 0x16A, 0x1000, 0x1002, 0x1007, 0x2000, 0x2002].all fun n => issuesAt (handling e0 n) hc
      [(.hread h0 (.v 0) (.v 6), [trapSrc 2 (.v 6) notPsn]), (.hwrite h0 (.v 6) (.v 9), [trapSrc 2 (.v 6) notPsn])]
      && ((handling e0 n).begun hc h0).bits hc 0 (.v 6) == BitVec.ofNat 32 n) = true
    ∧ ([0x1000, 0x3000, 0x301F, 0x3023].all fun n => issuesAt (handling e1 n) hc
      [(.hread h0 (.v 0) (.v 6), [trapSrc 2 (.v 6) notPsn]), (.hwrite h0 (.v 6) (.v 9), [trapSrc 2 (.v 6) notPsn])]) = true
    ∧ (handling e0 0).served 0 = some e0 ∧ (handling e1 0).served 0 = some e1 ∧ (handling e0 0).onLanes hc h0 = [0]
    ∧ ((handling e0 0).thread 0 0 0).record = some r0 ∧ (handling e0 0).owner 0 31 = ownerCode 0
    ∧ ((monitoring 0).onLanes hc h0 = [0] ∧ ∀ n ∈ [0, 4092], issuesAt (monitoring n) hc [(.mboxRd h0 (.v 0) (.v 6), [trapSrc 2 (.v 6) notPsn]),
      (.mboxWr h0 (.v 6) (.v 9), [trapSrc 1 (.v 9) notPsn, trapSrc 2 (.v 6) notPsn]), (.mboxSig h0, [])] = true) := by decide
theorem witness_ReturnFromTrap :
    checks (handling e0 0) hc (.rte h0) = true ∧ (handling e0 0).served 0 = some e0 ∧ (handling e0 0).onLanes hc h0 = [0]
    ∧ ((handling e0 0).thread 0 64 0).st = .ready ∧ ((handling e0 0).thread 0 0 0).record = some r0
    ∧ (∀ l < 32, l ≠ 0 → ((handling e0 0).thread 0 64 l).st.alive = false)
    ∧ ((handling e0 0).launch 0).map (·.fate) = some none ∧ ((handling e0 0).teamOf 0 0).map (·.launch) = some 0 := by decide
/-- A table that stands for all five levels: its entry 0 is the table itself, its entry 5 the decide-once page at 0x4000,
and its entry 7 a page that the host is asked for. -/
def mapped : State :=
  let table := Memory.write (Memory.write [] 0x8000 (leBytes 8 (8 * 2 ^ 24 + 1))) (0x8000 + 8 * 5) (leBytes 8 (4 * 2 ^ 24 + 0x22F) ++ leBytes 8 0 ++ leBytes 8 2)
  { State.reset with
    ctxs := [(0, { Ctx.free with st := .active, ptroot := 0x8000 })], parts := [(0, { Partition.reset with hbmlen := 1 })], hbm := table }
def queued (vec : List Byte) : State :=
  { (base.modCore 0 fun k => { k with trapq := [e0] }) with
    ctxs := [(0, { Ctx.free with traptab := 0x2000 })], hbm := Memory.write base.hbm (0x2000 + 8 * 0x0C) vec }
theorem witness_HandlerWarp :
    let entry (s : State) : Option Nat := (s.readVirt 0 0 (·.r) (0x2000 + 8 * 0x0C) 8).map leNat
    entry (queued [0, 0x10, 0, 0, 0, 0, 0, 0]) = some 0x1000 ∧ entry (queued [0, 0, 0, 0, 0, 0, 0, 0]) = some 0
    ∧ entry { queued [] with tlb := [] } = none ∧ ((queued []).core 0).trapq = [e0] ∧ ((queued []).core 0).handler.serving = none
    ∧ ((handling e0 0).core 0).handler.serving = some e0 ∧ (base.warp 0 0).waited < 64000
    ∧ (let q := queued [0, 0x10, 0, 0, 0, 0, 0, 0]
      q.handlerAsks 0 e0 = false ∧ q.teamStopped 0 0 = false ∧ q.l1Hit 0 0 0 0x2060 = none ∧ q.translate 0 0 0x2060 = .ok 0x2000 attr0
        ∧ q.passes (pathCps 0 attr0 0x2060) 0 0 = true ∧ q.twiceMapped 0 attr0 0x2060 = false ∧ q.ownStoreWaits 0 0x2060 = false ∧ (q.homeSectors attr0 0x2000).getD 3 false = false
        ∧ leNat (((q.readHome (q.pageKey 0 attr0) attr0 0x2000 128).drop 96).take 8) = 0x1000)
    ∧ (let s : State := { mapped with ctxs := mapped.ctxs.map fun p => (p.1, { p.2 with traptab := 0x7000 }) }
      s.translate 0 0 0x7060 = .request ∧ s.l1Hit 0 0 0 0x7060 = none ∧ (s.core 0).handler.asked.contains (0, 7) = false)
    ∧ (let s := (handling e0 0).modCore 0 fun k => { k with handler := { k.handler with budget := 0 } }
      (s.core 0).handler.serving = some e0 ∧ (s.core 0).handler.budget = 0)
    ∧ 64000 ≤ ((base.modWarp 0 0 fun k => { k with waited := 64000 }).warp 0 0).waited := by decide +kernel

-- The sequencer ----------------------------------------------------------------------------------------------------

/-- The bundle of the sequencer of core 0, at its start and where it is performed. -/
def b0 : BundleCtx := Seq.reset.context 0
def bundling (b : BundleCtx) : State := { State.reset.placeBundle [] with bun := some b }
/-- The sequencer of core 0 at a bundle of one word. -/
def sequencing (i : Instr) : State := State.reset.placeBundle ((encode i).getD [])
theorem witness_SequencerScalar :
    (bundling b0).bun = some b0 ∧ b0.phase = .check ∧ (bundling { b0 with phase := .perform }).bun = some { b0 with phase := .perform }
    ∧ { Seq.reset.pos with branch := some (0x2000, 0), delays := 1 }.delays = 1 ∧ { b0 with jump := some (0x2000, 0) }.halt = false := by decide
theorem witness_SequencerControl :
    (bundling b0).bun = some b0 ∧ b0.phase = .check ∧ ((bundling b0).core 0).seq.pipeEmpty = true ∧ ((bundling b0).core 0).seq.feeds = false
    ∧ { Seq.reset with lastFeed := some 0 }.pipeEmpty = false ∧ ((sequencing (.mbeat none (some { fromSlot := true, base := 0, row := 0 }) none none false)).core 0).seq.feeds = true
    ∧ (let s := (sequencing (.swait 4 2 0 5)).modSeq 0 fun q => { q with stalled := some 0 }
      s.swaitLate 0 = false ∧ { s with time := 5 }.swaitLate 0 = true ∧ (s.core 0).seq.released = false)
    ∧ (let tm := { placeTeam true with recov := some { retry := true, rolls := 0, held := [], commit := none, rolling := false } }
      let s : State := { (bundling b0).setTeam 0 0 tm with scrPsn := [(scrSector 0 0, true)] }
      s.seqTeam 0 = some tm ∧ s.scrPsn.get false (scrSector 0 (tm.scr + (b0.y.get 0 0).toNat)) = true ∧ (b0.y.get 0 0).toNat + 32 ≤ tm.scrLen) := by decide
theorem witness_ArrayWords :
    (bundling b0).bun = some b0 ∧ b0.phase = .check ∧ b0.halt = false ∧ { b0 with cfg := some (.int, false, false, 0) }.halt = false
    ∧ { b0 with zero := true }.zero = true ∧ { b0 with push := some (63, List.replicate 128 1) }.zero = false := by decide
theorem witness_ColumnSums :
    Seq.reset.md ≠ .lut ∧ Seq.reset.beats = [] ∧ Seq.reset.bcount.toNat + 68 < 2 ^ 64 ∧ (List.replicate 4 (List.replicate 128 (0 : Byte))).length = 4
    ∧ (List.replicate Seq.reset.beatRows (List.replicate 128 (0 : Byte))).length = Seq.reset.beatRows ∧ (List.replicate 64 (0 : Word))[63]? = some 0
    ∧ Seq.reset.md = .w16 ∧ Seq.reset.af = false ∧ { Seq.reset with md := .int }.md = .int := by decide
theorem witness_Scaling :
    (bundling b0).bun = some b0 ∧ b0.phase = .check ∧ ((bundling b0).core 0).seq.intMode = false ∧ { Seq.reset with md := .int }.intMode = true := by decide
def xfer (move : KMove) (data : Option (List Byte)) : KXfer := { kid := 0, bundle := 0, fences := 0, slot := 0, row := 0, rows := 1, move, data, later := [] }
def moving (k : KXfer) : State := (State.reset.placeBundle []).modSeq 0 fun q => { q with kq := [k] }
theorem witness_OperandMemory :
    ([xfer (.fillSp 64) none, xfer (.storeSp 64) (some (List.replicate 64 1)), xfer (.arrive 64) none].all fun k =>
      ((moving k).core 0).seq.kq.find? (fun k => k.kid == 0) == some k && ((moving k).core 0).seq.mayLand k && !((moving k).core 0).seq.halt
        && (moving k).seqTeam 0 == some (placeTeam true)) = true
    ∧ ((moving (xfer (.storeSp 64) none)).core 0).seq.mayLand (xfer (.storeSp 64) none) = false
    ∧ (moving (xfer (.fillSp 64) none)).scrRead 0 (placeTeam true) 64 64
      = (Memory.read (moving (xfer (.fillSp 64) none)).scratch (scrKey 0 (0 + 64)) 64, false)
    ∧ (placeTeam true).seq = true ∧ (placeTeam true).recov = none ∧ (moving (xfer (.arrive 64) none)).seenStores 0 = [] := by decide
def stalling (i : Instr) : State := (sequencing i).modSeq 0 fun q => { q with stalled := some 0 }
def wanting : State := (sequencing .cnop).modSeq 0 fun q => { q with halves := [], pos := { q.pos with seg := 0x1000 } }
theorem witness_SequencerEvents :
    ((stalling .cnop).core 0).seq.stalled ≠ none ∧ (stalling .cnop).bundleWaits 0 = false
    ∧ (let s := (stalling (.kfill 3 0 0 (.ws 0))).modSeq 0 fun q => { q with slots := [(3, { claimed := true, fills := 0, drains := 0, releasing := false })] }
      let s : State := { s with ctxs := [(0, { Ctx.free with wslen := 1 })] }
      s.bundleWaits 0 = true ∧ { s with time := 64 }.bundleWaits 0 = false ∧ s.cores = [(0, s.core 0)]
        ∧ Instr.kfill 3 0 0 (.ws 0) ∈ (s.core 0).seq.instrs)
    ∧ (wanting.core 0).seq.wanted = some 0x1000 ∧ (wanting.core 0).seq.active = true
    ∧ (∃ h, wanting.readSegment 0 (wanting.seqTag 0).1 0x1000 = .inl h)
    ∧ (((sequencing .cnop).core 0).seq.wanted = none)
    ∧ (let s := (sequencing .cnop).modSeq 0 fun q => { q with stop := some 0 }
      s.seqRuns 0 = true ∧ (s.core 0).seq.stop = some (s.core 0).seq.bcount ∧ ∃ h, (s.core 0).seq.supply = .ready h)
    ∧ (let s := (mapped.modSeq 0 fun q => { q with active := true, pos := { q.pos with seg := 0x7000 } })
      (s.core 0).seq.wanted = some 0x7000 ∧ (s.core 0).seq.pageWait = none ∧ (s.core 0).seq.denied = []
        ∧ s.readSegment 0 0 0x7000 = .inr 0x7000) := by
  refine ⟨by decide, by decide, by decide, by decide, by decide, ⟨_, rfl⟩, by decide, ⟨by decide, by decide, ⟨_, rfl⟩⟩, by decide +kernel⟩

-- The memory system, queues and the host ---------------------------------------------------------------------------

/-- A SOFT page of the host, whose lines the L2 of die 0 keeps, and a line of it there. -/
def softHost : Attr := (page 0x5000 .host true false).attr
def below : L2Line :=
  { die := 0, ctx := 0, inc := 0, va := 0x5000, pa := 0x5000, attr := softHost, data := List.replicate 128 7, psn := List.replicate 4 false,
    valid := List.replicate 4 true, dirty := List.replicate 128 true, by_ := [], key := 0 }
/-- A request of lane 0 to the host. -/
def hostReq (act : ReqAct) : Req := { req0 act .sent with attr := (page 0x5000 .host false false).attr, va := 0x5010, pa := 0x5010 }
theorem witness_Leases :
    let load := ReqAct.load .b32 (.v 0) false
    let fill := ReqStage.granted 100 0 (List.replicate 128 0) [false, false, false, false]
    (asking (req0 load .sent)).req 0 = some (req0 load .sent) ∧ attr0.leased = true ∧ (asking (req0 load .sent)).passes (req0 load .sent).ahead 0 0 = true
    ∧ (asking (req0 load .sent)).ownStoreWaits 0 0x2010 = false ∧ (asking (req0 load .sent)).peerKnown attr0 = true ∧ (asking (req0 load fill)).passes [cpL1 0] 0 0 = true
    ∧ (req0 load fill).noInstall = false ∧ (asking (req0 (.store [1]) .sent)).lease 0x2010 ≤ 0
    ∧ 0 < { asking (req0 (.store [1]) .sent) with leases := [(0x2010 / 128, 9)] }.lease 0x2010
    ∧ (let r := { req0 (.store [1]) .sent with attr := (page 0x5000 .host false false).attr }
      (asking r).req 0 = some r ∧ r.attr.tgt ≠ .hbm ∧ (asking r).firstOfIssue r = true ∧ (asking r).passes r.ahead 0 0 = true)
    ∧ (caching (line attr0 false)).l1Hit 0 0 0 0x2010 = some (line attr0 false)
    ∧ { caching (line attr0 false) with time := 100 }.l1Hit 0 0 0 0x2010 = none
    ∧ ((caching (line attr0 false)).core 0).l1[0]? = some (line attr0 false)
    ∧ (let x := line (page 0x3000 .hbm true false).attr true
      (caching x).lineWritable 0 x = true ∧ (caching x).lineWritable 0 { x with attr := { x.attr with w := false } } = false ∧ x.dirty.contains true = true
        ∧ dieOf 0 = homeDie x.pa)
    ∧ ([(Target.hbm, true), (.hbm, false), (.host, true)].all fun p =>
      let x : L2Line := { die := 0, ctx := 0, inc := 0, va := if p.2 then 0x5000 else 0x9000, pa := 0x5000, attr := (page 0x5000 p.1 true false).attr,
                          data := List.replicate 128 7, psn := List.replicate 4 false, valid := List.replicate 4 true,
                          dirty := List.replicate 128 true, by_ := [], key := 0 }
      let s : State := { world with l2 := [x] }
      s.l2[0]? == some x && x.dirty.contains true && s.l2Writable x == p.2 && s.passes (dieCps 0 x.attr x.pa) 0 0) = true
    ∧ (let r := { hostReq load with attr := softHost }
      let x := line softHost true
      let s : State := { caching x with reqs := [r], l2 := [below] }
      s.req 0 = some r ∧ s.passes r.ahead 0 0 = true ∧ s.peerKnown r.attr = true ∧ s.passes [cpSlice 0 r.pa] 0 0 = true ∧ s.passes [cpL1 0] 0 0 = true
        ∧ softCopied 0 softHost r.pa = true ∧ (s.core 0).l1 = [x] ∧ s.l2 = [below] ∧ below.key = s.pageKey 0 softHost
        ∧ (x.data.length, x.dirty.length, x.valid.length, x.psn.length) = (128, 128, 4, 4)
        ∧ (below.data.length, below.dirty.length, below.valid.length, below.psn.length) = (128, 128, 4, 4)
        ∧ s.lineWritable 0 x = true ∧ x.dirty.contains true = true ∧ softCopied 0 attr0 0x2010 = false) := by decide +kernel
def pageReq (who : Waiter) : PageReq := { id := 3, ctx := 0, inc := 0, va := 0x9000, who, cause := cDataPage, aux := 0, launch := 0 }
def paging (p : PageReq) : State := { base.setThread 0 0 0 { Thread.start 0x1000 0 with st := .page 3 } with pageReqs := [p] }
theorem witness_Translation :
    (base.tlb.any fun e => e.die == 0 && e.ctx == 0 && decide (e.va ≤ 0x2010 ∧ 0x2010 < e.va + e.attr.size)) = true
    ∧ base.walk 0 0x9000 = .fail ∧ (∃ a, mapped.walk 0 0x5010 = .ok 0x4000 a ∧ a.doc = true ∧ a.w = true ∧ a.size = 4096) ∧ mapped.tlb = []
    ∧ (paging (pageReq (.threads 0 0 [(0, 0x9000)]))).passes [cpPcie] 0 0 = true
    ∧ ((paging (pageReq (.threads 0 0 [(0, 0x9000)]))).thread 0 0 0).st = .page 3
    ∧ (let s := (paging (pageReq (.seq 0))).modSeq 0 fun q => { q with pageWait := some 3 }
      (s.core 0).seq.pageWait = some 3)
    ∧ { paging (pageReq (.copy 1)) with ctxs := [(0, { Ctx.free with live := 1 })] }.passes [cpPcie] 0 0 = false
    ∧ (let r := { req0 (.load .b32 (.v 0) false) .sent with attr := (page 0x5000 (.peer 7) false false).attr }
      (asking r).req 0 = some r ∧ (asking r).time < r.sentAt + 5000000 ∧ { asking r with time := 5000000 }.isResident 0 0 0 0 = true)
    ∧ (base.tinv 0).busy = false ∧ (base.tinv 0).va.toNat % 4096 = 0 ∧ (base.tinv 0).va.toNat + 4096 * (base.tinv 0).cnt.toNat ≤ 2 ^ 57
    ∧ { TInv.reset with ctx := 4096 }.ctx.toNat ≥ 4096 ∧ mapped.walkPasses 0 0 0 0x5010 = true
    ∧ ([ReqAct.store [1], .load .b32 (.v 0) true, .atom .add true false (.v 0) 1 0, .cell .read (.v 0) 0 7, .unit 1 0 [1]].all fun act =>
      let s := asking (hostReq act)
      s.req 0 == some (hostReq act) && (hostReq act).window.isNone && !(hostReq act).orphan && !s.staleAt (hostReq act) && s.isResident 0 0 0 0
        && s.ckpts == [] && (List.range 4).all fun k => s.owner 0 (vTile (s.warp 0 0).tbase k) == ownerCode 0) = true
    ∧ (let s := (paging (pageReq (.handler 0))).modCore 0 fun k => { k with handler := { k.handler with pageWait := some 3 } }
      (s.core 0).handler.pageWait = some 3)
    ∧ (paging (pageReq (.copy 1))).req 3 = none ∧ (paging (pageReq (.copy 1))).copy 3 = none
    ∧ (let b : TInv := { TInv.reset with busy := true, run := (0, 0, 0), since := 9 }
      let s : State := { asking (req0 (.store [1]) .sent) with tinvs := [(0, b)] }
      (s.tinv 0).busy = true ∧ (s.tinv 0).run = (0, 0, 0) ∧ (req0 (.store [1]) .sent).id < (s.tinv 0).since ∧ s.heldStores 0 = []
        ∧ { base with tinvs := [(0, b)] }.reqs = [] ∧ { base with tinvs := [(0, b)] }.copies = []) := by
  refine ⟨by decide, by decide, ⟨_, rfl, by decide⟩, by decide +kernel⟩
/-- Queue 0 of context 0, its control block at 0x2000, its ring of 16 slots at 0x2400, with a packet at its head. -/
def packet (type b1 : Byte) (body : List Byte) : List Byte := [type, b1, 0, 0] ++ body ++ List.replicate (60 - body.length) 0
def queueing (pk : List Byte) : State :=
  let cb : List Byte := leBytes 8 1 ++ leBytes 8 0 ++ leBytes 8 0x2400 ++ [4] ++ List.replicate 39 0
  { base with
    launches := [], ctxs := [(0, { Ctx.free with st := .active, wslen := 1 })]
    parts := [(0, { Partition.reset with clmask := 1, hbmlen := 1, en := true, resident := true })]
    queues := [(0, { Queue.reset with qcb := 0x2000, reg := true, inn := true })]
    hbm := Memory.write (Memory.write base.hbm 0x2000 cb) 0x2400 pk }
def launchPk : List Byte :=
  packet 0x11 0 (leBytes 4 1 ++ leBytes 2 1 ++ leBytes 2 1 ++ [1, 1, 1, 0] ++ leBytes 4 384 ++ leBytes 2 256 ++ leBytes 2 0 ++ leBytes 8 0x1000)
def copyPk : List Byte := packet 0x12 0 (leBytes 4 0 ++ leBytes 8 0x2800 ++ leBytes 8 0x3000 ++ leBytes 8 32)
def fencePk : List Byte := packet 0x13 0 (leBytes 2 0 ++ [1])
def wsPk : List Byte := packet 0x14 0 (leBytes 4 0 ++ leBytes 8 0x3000 ++ leBytes 4 0 ++ leBytes 4 64 ++ leBytes 4 1)
def heads (pk : List Byte) : Bool := match (queueing pk).queueHead 0 with
  | .packet slot ridx p => (queueing pk).queueServes 0 && slot == 0x2400 && ridx == 0 && p == pk && (queueing pk).mayConsume 0 slot
      && (queueing pk).recordReady 0 (packetRecord pk)
  | _ => false
theorem witness_QueuePackets :
    heads launchPk = true ∧ (queueing launchPk).packetOffence 0 launchPk = none ∧ packetType launchPk = 1 ∧ (queueing launchPk).weightBusy 0 = false
    ∧ (∃ gs, (queueing launchPk).readGroups 0 launchPk = .ok gs) ∧ (∃ x, (queueing launchPk).readHeader 0 launchPk = .ok x)
    ∧ heads copyPk = true ∧ (queueing copyPk).packetOffence 0 copyPk = none ∧ packetType copyPk = 2
    ∧ heads fencePk = true ∧ (queueing fencePk).packetOffence 0 fencePk = none ∧ packetType fencePk = 3
    ∧ heads (packet 0x19 0 []) = true ∧ ((queueing []).packetOffence 0 (packet 0x19 0 [])).isSome = true
    ∧ (queueing []).canWrite 0 0 0x2800 32 = true ∧ (queueing []).canWrite 0 0 0x9000 32 = false
    ∧ base.queueServes 0 = false ∧ ((queueing []).queue 0).reg = true ∧ (base.queue 0).reg = false
    ∧ heads wsPk = true ∧ (queueing wsPk).packetOffence 0 wsPk = none ∧ packetType wsPk = 4 ∧ (queueing wsPk).launches = []
    ∧ (let k : Queue := (queueing wsPk).queue 0
      let s := (queueing wsPk).setQueue 0 { k with wsBegun := true }
      k.wsBegun = false ∧ s.queueServes 0 = true ∧ (s.queue 0).wsBegun = true ∧ (match s.queueHead 0 with | .packet slot ridx p => slot == 0x2400 && ridx == 0 && p == wsPk | _ => false) = true
        ∧ (∃ rows, s.weightRows 0 1 0x3000 = .inl rows))
    ∧ (let c := { copy0 (.span (.gm 0x2800) (.gm 0x2000) 32) [0, 1] with queue := some 0 }
      let f := { copy0 (.span (.gm 0x2800) (.gm 0x9000) 32) [] with queue := some 0 }
      let g := { copy0 (.span (.gm 0x3FF0) (.gm 0x2000) 32) [0] with queue := some 0 }
      let s (x : Copy) : State := { queueing [] with copies := [x] }
      (s c).copy 0 = some c ∧ c.page = none ∧ c.orphan = false ∧ (s c).passes [cpCopy c.die] 0 0 = true ∧ c.units = 2 ∧ (s c).recordReady 0 c.cmpl = true
        ∧ (s f).copy 0 = some f ∧ (s f).copyPage f 0x9000 = .fail ∧ (s f).passes [cpCopy f.die] 0 0 = true ∧ (s f).reqs = []
        ∧ (s g).copy 0 = some g ∧ (s g).copyPage g 0x4000 = .ok 0x4000 (page 0x4000 .hbm false true).attr ∧ g.inc = ((s g).ctx g.ctx).live
        ∧ g.inc ≠ ({ s g with ctxs := [(0, { Ctx.free with live := 1 })] }.ctx g.ctx).live)
    ∧ (queueing []).packetOffence 0 (launchPk.set 13 0) = some 13 ∧ (queueing []).packetOffence 0 (launchPk.set 20 1) = some 20
    ∧ (queueing []).packetOffence 0 (copyPk.set 40 1) = some 40 ∧ (queueing []).packetOffence 0 ((wsPk.set 24 0).set 20 1) = some 20
    ∧ (let out : Queue := { Queue.reset with reg := true }
      let inn : Queue := { Queue.reset with reg := true, inn := true }
      let one : State := { base with queues := [(0, out)] }
      let full (n : Nat) : State := { base with queues := (0, out) :: (List.range 64).map fun i => (i + 1, { inn with served := if i = 0 then n else 0 }) }
      one.queues.find? (fun p => p.2.reg && p.2.die == 0 && !p.2.inn) = some (0, out)
        ∧ ((full 256).queues.filter fun p => p.2.reg && p.2.die == 0 && p.2.inn).length = 64 ∧ (full 256).time < inn.since + 125000)
    ∧ (let s := (queueing []).setQueue 0 { (queueing []).queue 0 with reg := false, inn := false }
      (s.queue 0).reg = false ∧ (s.ctx (s.queue 0).ctx).st = .active ∧ s.partOf (s.queue 0).ctx = 0 / 256 ∧ (s.queue 0).qcb.toNat % 64 = 0
        ∧ (s.queue 0).wsBegun = false) := by
  refine ⟨by decide +kernel, by decide, by decide, by decide, ⟨_, rfl⟩, ⟨_, rfl⟩, by decide +kernel, by decide, by decide, by decide +kernel, by decide,
    by decide, by decide +kernel, by decide, by decide, by decide, by decide, by decide, by decide, by decide +kernel, by decide, by decide, by decide,
    ⟨by decide, by decide +kernel, by decide +kernel, by decide +kernel, _, rfl⟩, by decide +kernel, by decide, by decide, by decide, by decide,
    by decide +kernel, by decide +kernel⟩

-- Launches, contexts, power, the host, the monitor -----------------------------------------------------------------

/-- A launch of one team of one warp with 4 tiles that has not started, and an open core. -/
def launch1 : Launch := { placeLaunch false with next := 0, tiles := 4 }
def starting : State :=
  { State.reset with
    launches := [(0, launch1)], parts := [(0, { Partition.reset with clmask := 1, hbmlen := 1, en := true, resident := true })] }
def place1 : Place := { core := 0, scr := 0, sem := 0, warps := [(0, 0)] }
/-- Its team, as a RECOV team, waits at a barrier that has completed. -/
def committing : State := (bwaiting 0 2).setTeam 0 0 { placeTeam false with recov := some { retry := false, rolls := 1, held := [], commit := none, rolling := false } }
theorem witness_Launches :
    starting.launch 0 = some launch1 ∧ launch1.fate = none ∧ (starting.ctx 0).live = launch1.inc ∧ launch1.next < launch1.total
    ∧ starting.coreOpen 0 0 = true ∧ starting.warpRoom (launch1.need place1) = true ∧ starting.teamRoom 0 (launch1.need place1) (fun _ _ => false) = true
    ∧ starting.warpRoom (launch1.need { place1 with warps := [(0, 125)] }) = false
    ∧ (let i := State.reset.teamImage 0 0 (placeTeam false) []
      let s : State := { starting with images := [i] }
      s.imageRoom launch1 i = true ∧ i.launch = 0)
    ∧ launch1.csize = 1 ∧ launch1.warps = 1 ∧ launch1.seq = false ∧ launch1.recov = false
    ∧ (let s := State.reset.placeTeamWith true []
      s.clusterTeams 0 1 0 = [(0, 0, placeTeam true)] ∧ s.mustLeave 0 0 = false ∧ s.teamsWait 0 = false ∧ (s.core 0).seq.leaving = false
        ∧ ((s.modSeq 0 fun q => { q with leaving := true }).core 0).seq.leaving = true)
    ∧ (let l := { placeLaunch false with endedTeams := [0] }
      let s : State := { base with launches := [(0, l)], ctxs := [(0, { Ctx.free with st := .active })] }
      s.launch 0 = some l ∧ l.endedTeams.length + l.failed = l.total ∧ (s.ctx 0).live = l.inc ∧ (s.ctx 0).st = .active ∧ s.reqs = [] ∧ s.copies = []
        ∧ s.softDirty 0 = false ∧ s.recordReady l.queue l.cmpl = true)
    ∧ ((committing.launch 0).map fun l => (l.owes 0, l.replay)) = some (false, false)
    ∧ base.clusterTeams 0 1 0 = [(0, 0, placeTeam false)] ∧ { base.device with gate := 1 }.gate.getLsbD (clusOf 0) = true
    ∧ (let s : State := { base with launches := [(0, { placeLaunch false with next := 0 })], time := 250000 }
      s.teamsWait 0 = true ∧ 0 + 250000 ≤ s.time ∧ base.teamWaits 0 (placeTeam false) = false)
    ∧ base.softDirty 0 = false ∧ base.recordReady 0 0 = true ∧ (placeLaunch false).endedTeams.length + (placeLaunch false).failed ≠ (placeLaunch false).total
    ∧ (committing.team 0 0).map (fun t => committing.quiescent 0 t) = some true ∧ committing.bwaitDone 0 0 0 = true
    ∧ (∀ x < 32, base.bwaitDone 0 0 x = false) := by decide +kernel
theorem witness_Contexts :
    let active : State := { State.reset with ctxs := [(0, { Ctx.free with st := .active })] }
    let four : State := { State.reset with ctxs := [(0, { Ctx.free with st := .active, unrec := [0, 1, 2, 3] })] }
    State.reset.partOf 0 + 1 = 1 ∧ (State.reset.ctx 0).res ≠ 5 ∧ (State.reset.ctx 0).st = .free ∧ (State.reset.ctx 0).wslen = 0
    ∧ (active.ctx 0).st = .active ∧ (active.ctx 0).unrec.length ≠ 4 ∧ active.launches = [] ∧ active.queues = [] ∧ (four.ctx 0).unrec.length = 4
    ∧ { State.reset with ctxs := [(0, { Ctx.free with wslen := 1 })] }.part 0 = Partition.reset
    ∧ { active with launches := [(0, launch1)] }.launches = [(0, launch1)] ∧ launch1.ctx = 0
    ∧ (let s : State := { State.reset with ctxs := [(0, { Ctx.free with st := .stopping, live := 1, unrec := [0] })] }
      (s.ctx 0).lagging = [] ∧ s.tagGone 0 (BitVec.ofNat 8 0) = true ∧ (0 : Byte) ∈ (s.ctx 0).unrec ∧ (s.ctx 0).due = false)
    ∧ (let s (lag : List Nat) (fate : Option (Nat × Nat)) : State := { State.reset with
        launches := [(0, { launch1 with fate })], ctxs := [(0, { Ctx.free with st := .stopping, live := 1, unrec := [0], lagging := lag })] }
      ((s [] none).ctx 0).st = .stopping ∧ ((s [3] none).ctx 0).lagging ≠ [] ∧ (s [] (some (4, 0))).recordReady 0 0 = true
        ∧ (s [] (some (3, 0x0C))).launchReady { launch1 with fate := some (3, 0x0C) } = true)
    ∧ (let s : State := { State.reset with ctxs := [(0, { Ctx.free with st := .destroying, due := true, unrec := [0, 1, 2, 3] })] }
      (s.ctx 0).due = true ∧ (s.ctx 0).lagging = [] ∧ s.tagGone 0 0 = true ∧ s.tagGone 0 1 = true ∧ (s.ctx 0).unrec.head? ≠ some 1)
    ∧ (let s : State := { State.reset with ctxs := [(0, { Ctx.free with st := .destroying, unrec := [0] })] }
      (s.ctx 0).unrec = [0] ∧ (s.ctx 0).keyed = false ∧ s.tagGone 0 0 = true ∧ (s.ctx 0).due = false)
    ∧ (let s : State := { asking (req0 (.store [1]) .sent) with ctxs := [(0, { Ctx.free with st := .active, unrec := [0] })] }
      s.tagGone 0 (BitVec.ofNat 8 0) = false)
    ∧ ([false, true].all fun seq =>
      let s : State := { State.reset.placeTeamWith seq [] with ctxs := [(0, { Ctx.free with st := .active })] }
      s.launches.length == 1 && s.shadow == [] && s.cores == [(0, s.core 0)] && (s.core 0).teams == [(0, placeTeam seq)]
        && (placeTeam seq).launch == 0 && !(placeTeam seq).ended) = true
    ∧ (let b : Queue := { (queueing wsPk).queue 0 with wsBegun := true, begun := some (0x2400, 0, wsPk) }
      let s : State := { queueing wsPk with queues := [(0, b)], ctxs := [(0, { Ctx.free with st := .stopping, live := 1, unrec := [0], wslen := 1, res := 5 })] }
      s.launches = [] ∧ s.copies = [] ∧ (s.queue 0).begun = some (0x2400, 0, wsPk) ∧ s.mayConsume 0 0x2400 = true
        ∧ s.recordReady 0 (packetRecord wsPk) = true ∧ { s with leases := [(0x2000 / 128, 9)] }.mayConsume 0 0x2400 = false)
    ∧ (let x := line (page 0x3000 .hbm true false).attr true
      let s : State := { caching { x with by_ := [0] } with ctxs := [(0, { Ctx.free with st := .destroying, due := true, unrec := [0, 1, 2, 3] })] }
      s.launches.length = 1 ∧ s.copies = [] ∧ s.queues = [] ∧ s.reqs = [] ∧ s.softDirty 0 = true)
    ∧ (asking (req0 (.store [1]) .sent)).reqs = [req0 (.store [1]) .sent] ∧ (req0 (.store [1]) .sent).unperformed 0 = true := by
  refine ⟨by decide, by decide, by decide, by decide, by decide, by decide, by decide, by decide, by decide, by decide, by decide, by decide, by decide,
    by decide, by decide, by decide, by decide, by decide, by decide, by decide +kernel⟩
/-- Some temperature reaches the threshold, and some is 10 degrees below it. -/
theorem witness_ThermalTrip : Config.tripThreshold ≤ (Config.tripDegrees.setWidth 8).toInt ∧ (0x80 : Byte).toInt ≤ Config.tripThreshold - 10 := by
  have h : ∀ b : BitVec 7, (b.toNat : Int) ≤ (b.setWidth 8 : Byte).toInt ∧ (0x80 : Byte).toInt ≤ (b.toNat : Int) - 10 := by decide
  exact h _
theorem witness_PartitionsAndPower :
    let pair (a b : Partition) : State := { State.reset with parts := [(0, { a with pair := 9 }), (1, { b with pair := 8 })] }
    let on : Partition := { Partition.reset with clmask := 1, en := true }
    State.reset.partner 0 = none ∧ (pair on on).partner 0 = some 1 ∧ (pair on Partition.reset).partner 0 = some 1
    ∧ { State.reset with parts := [(1, on)] }.partner 0 = none ∧ (1 : Word) &&& 1 &&& 0xFFFFFF ≠ 0
    ∧ (pair { on with swapping := true } on).coreMayLeave 0 = true ∧ (sequencing .cnop).coreMayLeave 0 = false
    ∧ (∀ k ∈ State.reset.cores, k.2.teams = []) ∧ State.reset.copies = [] ∧ (copying (copy0 (.span (.sp 0 0 0) (.gm 0x2000) 32) [])).copies ≠ []
    ∧ (∀ k ∈ base.cores, k.2.teams ≠ [] → (2 : Word).getLsbD (clusOf k.1) = false)
    ∧ ((sequencing .cnop).core 0).seq.active = true ∧ ((sequencing .cnop).core 0).seq.leaving = false
    ∧ { Device.reset with busy := true, going := 2 }.pstate < 2
    ∧ { Device.reset with busy := true, going := 4 }.busy = true ∧ State.reset.ctxs = [] ∧ Device.reset.trip = false
    ∧ (400 ≤ 1250 ∧ 1250 % 25 = 0) ∧ ((placeTeam false).launch = 0)
    ∧ (let s : State := { base with parts := [(0, { on with pair := 9, resident := true, swapping := true }), (1, { on with pair := 8 })] }
      s.partner 0 = some 1 ∧ s.device.trip = false ∧ s.device.pstate = 0 ∧ s.device.gate = 0 ∧ (s.core 0).l1 = [] ∧ s.shadow = []
        ∧ (∀ core < 8, s.coreMayLeave core = true ∧ s.strays core = false)
        ∧ (s.threads.all fun p => match p.2.st with | .acks _ => false | _ => true) = true ∧ (∀ l ∈ s.launches, l.2.gbars = []) ∧ s.ctxs = [])
    ∧ (let k := { copy0 (.span (.sp 0 0 0) (.sp 0 0 64) 16) [] with launch := 7 }
      (copying k).strays 0 = true ∧ { Device.reset with pstate := 2 }.pstate ≥ 2) := by decide +kernel
theorem witness_HostOperations :
    let reqs : Word := 0x101
    let s : State := { State.reset with
      peers := [(3, reqs)], device := { Device.reset with fabctl := 0x101 },
      parts := [(0, { Partition.reset with hbmlen := 1, en := true })] }
    State.reset.memWindow 0 0x2000 4 = some 0x2000 ∧ s.memWindow 1 0x2000 4 = some 0x2000 ∧ s.unsupported 0x2000 4 true = false ∧ s.spanFree 0x2000 4 = true
    ∧ mapped.unsupported 0x4000 4 true = true ∧ { s with leases := [(0x2000 / 128, 9)] }.spanFree 0x2000 4 = false
    ∧ (s.peers.get 0 3).getLsbD 8 = true ∧ (s.peers.get 0 3).setWidth 8 = (1 : Byte) ∧ s.device.fabctl.getLsbD 8 = true
    ∧ s.pageHas (0x4020 / 4096 * 4096) (fun a => a.doc) = false ∧ s.pageHas (0x2000 / 4096 * 4096) (fun a => a.cmp) = false
    ∧ State.reset.memWindow 1 0x2000 4 = none ∧ s.homePsn plainAttr 0x2000 4 = false
    ∧ { s with hbmPsn := [(0x2000 / 32, true)] }.homePsn plainAttr 0x2000 4 = true
    ∧ (let d : State := { mapped with peers := [(3, reqs)], device := { Device.reset with fabctl := 0x101 } }
      d.pageHas (0x4020 / 4096 * 4096) (fun a => a.doc) = true ∧ d.unsupported 0x4020 32 false = false ∧ d.fabricOk 3 1 0x4020 32 = true
        ∧ (cellAct .read 0 0 0 (Cell.ofBytes (d.readHome 0 plainAttr 0x4020 32))).1.gen = (Cell.ofBytes (d.readHome 0 plainAttr 0x4020 32)).gen)
    ∧ State.reset.fw.image = none ∧ (State.reset.part 0).en = false ∧ (State.reset.ctx 0).res ≠ 5
    ∧ s.registerRead 0 0x100C = some 0x101 ∧ s.registerRead 1 0x100C = some 0 ∧ s.registerRead 0 0x1001C = some 1 := by decide +kernel
def heldEvent : Event := { e0 with cause := 0x0D }
def halted : State :=
  let s := (base.setThread 0 0 0 { Thread.start 0x1000 0 with st := .parked, record := some { r0 with cause := 0x0D } }).setWarp 0 0 { base.warp 0 0 with halted := true }
  s.modCore 0 fun k => { k with held := [heldEvent] }
theorem witness_Monitor :
    (base.core 0).handler.serving = none ∧ (base.core 0).trapq = [] ∧ (base.warp 0 0).live = true ∧ (base.warp 0 0).halted = false ∧ (halted.warp 0 0).halted = true
    ∧ (base.ctx (base.tagOf 0 0).1).keyed = false ∧ lanesOf heldEvent.lanes = [0] ∧ (halted.core 0).held = [heldEvent] ∧ heldEvent.cause ≠ cStep
    ∧ ((halted.thread 0 0 0).record.map (·.cause)) = some 0x0D
    ∧ halted.heldSelTrap 0 heldEvent 0 false = none ∧ (halted.heldSelTrap 0 heldEvent 0x3000 false).isSome = true
    ∧ (∃ bs, halted.peekAll { core := 0, warp := 0, pc := 0, mask := 1 } 0x2000 2 = .inl bs)
    ∧ (∃ k, halted.peekAll { core := 0, warp := 0, pc := 0, mask := 1 } 0x9000 2 = .inr k)
    ∧ halted.pokeTrap { core := 0, warp := 0, pc := 0, mask := 1 } 0x2000 1 = none
    ∧ (halted.pokeTrap { core := 0, warp := 0, pc := 0, mask := 1 } 0x9000 1).isSome = true
    ∧ ((sequencing .cnop).core 0).seq.active = true ∧ (base.core 0).seq.active = false
    ∧ base.area 0 0 4 = base.area 0 240 4
    ∧ (let s : State := { base with mailbox := Memory.write [] (areaAt 0) [1, 0, 0, 0, 12] }
      s.area 0 0 4 ≠ s.area 0 240 4 ∧ 11 < leNat (s.area 0 4 2))
    ∧ (let s : State := { base with ctxs := [(0, { Ctx.free with keyed := true })], keys := [(0, { keys := 1, trace := 2, seq := 0 })] }
      (s.core 0).held = [] ∧ (s.warp 0 0).live = true ∧ (s.ctx (s.tagOf 0 0).1).keyed = true ∧ (s.keys.find ((s.ctx 0).cfg.toNat / 2 ^ 16 % 256)).isSome = true)
    ∧ (let p (ring : DWord) : Prof := { ring, period := 8, entries := 4, next := 0, last := 0 }
      let s (ring : DWord) : State := { (sequencing .cnop).modCore 0 fun k => { k with prof := some (p ring) } with
        time := 256, tlb := [page 0x2000 .hbm false false, page 0x3000 .hbm true false, page 0x4000 .hbm false true] }
      ((s 0x2FF8).core 0).prof = some (p 0x2FF8) ∧ ((s 0x2FF8).core 0).seq.active = true ∧ ((s 0x2FF8).ctx ((s 0x2FF8).seqTag 0).1).keyed = false
        ∧ 128 - 0x2FF8 % 128 = 8 ∧ (s 0x2FF8).pageFor 0 ((s 0x2FF8).seqTag 0).1 ((s 0x2FF8).seqTag 0).2 0x2FF8 = .ok 0x2000 attr0
        ∧ (s 0x2FF8).pageFor 0 ((s 0x2FF8).seqTag 0).1 ((s 0x2FF8).seqTag 0).2 (0x2FF8 + 8) = .ok 0x3000 (page 0x3000 .hbm true false).attr
        ∧ (s 0x3FF8).pageFor 0 ((s 0x3FF8).seqTag 0).1 ((s 0x3FF8).seqTag 0).2 (0x3FF8 + 8) = .ok 0x4000 (page 0x4000 .hbm false true).attr
        ∧ (256 : Nat) % 2 ^ 8 = 0) := by
  refine ⟨by decide, by decide, by decide, by decide, by decide, by decide, by decide, by decide, by decide, by decide, by decide, by decide, ⟨_, rfl⟩, ⟨_, rfl⟩,
    by decide, by decide, by decide, by decide, by decide, by decide, by decide, by decide +kernel⟩

-- The machine ------------------------------------------------------------------------------------------------------

theorem witness_EncodeDecode :
    Instr.wf (.iadd { h0 with neg := true, pred := 2 } true true (.v 255) (.k .clus) (.imm 0xFFFFFFFF)) = true
    ∧ (encode (.iadd { h0 with neg := true, pred := 2 } true true (.v 255) (.k .clus) (.imm 0xFFFFFFFF))).isSome = true
    ∧ (encode (.kstore 95 31 0 (.tl 503 10))).isSome = true := by decide
def nopWord : List Byte := (encode (.nop h0)).getD []
def atNop : State := State.reset.placeWord nopWord
def atYmov : State := sequencing (.ymov 3 (.imm 7))
theorem witness_StepRunsDecodedInstruction :
    (atNop.script = [.issue 0 0 0x1000] ∧ atNop.warpRuns 0 0 = true ∧ atNop.fetchCode 0 (atNop.tagOf 0 0).1 (atNop.tagOf 0 0).2 3 0x1000 12 = .bytes nopWord
      ∧ decodeBytes nopWord = some (.nop h0) ∧ atNop.operandsReady 0 0 0 (.nop h0) = true
      ∧ (atNop.countIssue { core := 0, warp := 0, pc := 0x1000, mask := 1 }).orderAllows { core := 0, warp := 0, pc := 0x1000, mask := 1 } 0 (.nop h0) = true)
    ∧ (atYmov.script = [.bundle 0] ∧ atYmov.coreRuns 0 = true ∧ (atYmov.core 0).cls = none ∧ atYmov.seqRuns 0 = true ∧ (atYmov.core 0).seq.stop = none
      ∧ (atYmov.core 0).seq.instrs = [.ymov 3 (.imm 7)] ∧ ∃ h, (atYmov.core 0).seq.supply = .ready h) := by
  refine ⟨⟨by decide, by decide, rfl, by decide, by decide, by decide⟩, by decide, by decide, by decide, by decide, by decide, by decide, _, rfl⟩

-- Well-formedness: a term for each check, which the check refuses -----------------------------------------------------

def v : Opd := .v 0
def o : Opd := .v 1
def p : Opd := .p 0
def i : Opd := .imm 1
def illFormed1 : List Instr :=
  [.nop { h0 with neg := true }, .brx h0 o, .ret h0 (.k .lane), .arj h0 v, .jset h0 .set v (some v), .jset h0 .pres (.j 0) (some v),
   .jset h0 .set (.j 0) none, .jset h0 .set (.j 0) (some p), .waitj h0 v, .spawn h0 o v, .spawn h0 v o, .yield h0 4096, .trap h0 0x2F, .trap h0 0x40,
   .chk h0 i, .bkpt h0 0x10000]
def illFormed2 : List Instr :=
  [.iadd h0 false false i v v, .iadd h0 false false v i v, .iadd h0 false false v v p, .imad h0 false false v v v i, .iabs h0 false v i,
   .isetp h0 .num false false p v v p, .isetp h0 .lt false false v v v p, .isetp h0 .lt false false p v v v, .sel h0 false v v v v,
   .lea h0 false 0 o v v, .lea h0 false 0 v o v, .addw h0 false false v v o, .addw h0 false true v v i, .mulw h0 false o v v, .not h0 v i,
   .bfi h0 v v v i, .movi h0 .psn v 0, .fsetp h0 .lt false v v v p, .fclass h0 p v 0x200, .hsetp2 h0 false .lt false v v v]
def illFormed3 : List Instr :=
  [.cvt h0 .f32 .f32 .rne false v v, .pack4 h0 .e4m3 true false .rne false v v v v, .unpk h0 .bf16 2 v v, .shfl h0 .idx (.s 0) v v, .vote h0 .bal p v,
   .vote h0 .all v v, .vote h0 .all p (.t 0), .matchLanes h0 (.s 0) v, .wred h0 .min .f32 .rz false v v, .wred h0 .min .i32 .rne true v v,
   .wred h0 .add .f32 .rne true v v]
def illFormed4 : List Instr :=
  [.ldg h0 (some .die) true .b32 v v 0, .ldg h0 none false .b64 o v 0, .ldg h0 none false .b32 v o 0, .stg h0 none .b64 v o 0, .stg h0 none .b32 o v 0,
   .lds h0 .b32 v i 0, .sts h0 .b32 i v 0, .atom h0 .cas true false none v v (.v 2) 0, .atom h0 .cas false false none v v o 0,
   .atom h0 .add true false none v v o 0, .atom h0 .add true false none o v v 0, .sem h0 .rd v 64, .sem h0 (.add i) v 0, .wbr h0 .core v v 0,
   .invr h0 .core v v 0, .pref h0 false o 0, .cpy h0 .ws .gm false v v v v, .cpy h0 .gm .sp false (.s 0) v v v, .cpy h0 .gm .sp false v o v v,
   .cpy h0 .sp .gm false v v o v, .cpy h0 .sp .sp false v v v o, .cpy h0 .sp .sp false v v v .z, .cpyt h0 false v o v v]
def illFormed5 : List Instr :=
  [.binit h0 .die v v 0, .bwait h0 v v o 0, .dinit h0 (some .core) v v v 0, .dread h0 none (.v 2) v v 0, .dprop h0 none v v (.v 2) 0,
   .dprop h0 none v v .z 0, .give h0 4 (.t 500) 0, .give h0 0 (.t 0) 0x42, .give h0 0 v 0, .take h0 31 (.t 473), .town h0 v (.t 504),
   .csrr h0 v 0x1000, .csrr h0 p 0, .csrw h0 0 i, .hread h0 i v, .hwrite h0 v i, .mboxRd h0 v p, .mboxWr h0 p v]
def illFormed6 : List Instr :=
  [.sgive 0 0 0x40, .sgive 0 0 0x42, .mbeat none none (some ⟨true, 0, 0⟩) (some ⟨false, 0, 0, .d32, false⟩) false,
   .mbeat (some ⟨0, 96, 0⟩) none none none false, .mbeat none (some ⟨true, 96, 0⟩) none none false,
   .mbeat none none none (some ⟨true, 96, 0, .bf16, false⟩) false, .mcfg .w16 false false 1, .mcfg .npbf false false 9, .mcfg .int true false 0,
   .mcfg .w16 false true 0, .xscale (.row 96 0) none none, .xbias ⟨96, 0⟩ none, .xbias ⟨0, 29⟩ none, .kclaim 96, .krel 127, .kfill 96 0 0 (.sp 0),
   .kfill 0 31 1 (.sp 0), .kstore 0 0 0 (.tl 0 11), .unassignedOpcode h0 0x01, .unassignedSlotOpcode 2 3]
theorem test_illformed : ([illFormed1, illFormed2, illFormed3, illFormed4, illFormed5, illFormed6].all fun l => l.all fun i => !i.wf) = true := by decide

-- Decoding: words written out from the encodings of 03, a family each --------------------------------------------------

def h2 : Head := { h0 with pred := 2 }
/-- SIMT words, 12 bytes from the lowest address. -/
theorem test_decode_control :
    decodeBytes [0x01, 0, 0, 0, 0, 0, 0, 0x70, 0xFF, 0xFF, 0xFF, 0xFF] = some (.bra { h0 with pred := 0 } (-9))
    ∧ decodeBytes [0x04, 0x07, 0, 0, 0, 8, 0, 0, 0, 0, 0, 0] = some (.callx h0 (.v 8))
    ∧ decodeBytes [0x08, 0x07, 0x60, 0, 0x52, 0, 0, 0, 0, 0, 0, 0] = some (.jset h0 .pres (.j 0) none) := by decide
theorem test_decode_arithmetic :
    decodeBytes [0x10, 0x0A, 0, 0x60, 0x01, 0x06, 0, 0x40, 0x06, 0, 0, 0] = some (.iadd { h2 with neg := true } false false (.v 5) (.v 6) (.imm 100))
    ∧ decodeBytes [0x19, 0x07, 0xA0, 0x60, 0x50, 0x04, 0x1C, 0x45, 0x01, 0, 0, 0] = some (.isetp h0 .lt true false (.p 1) (.v 4) (.imm 20) (.p 7))
    ∧ decodeBytes [0x2E, 0x07, 0, 0x80, 0x06, 0x10, 0, 0, 0, 0, 0, 0] = some (.mov h0 (.v 26) (.v 16))
    ∧ decodeBytes [0x33, 0x07, 0x04, 0x20, 0x02, 0x09, 0x28, 0, 0, 0, 0, 0x04] = some (.ffma h0 .rz (.v 8) (.v 9) (.imm 0x40000000) (.v 10)) := by decide
theorem test_decode_memory :
    decodeBytes [0x81, 0x07, 0x40, 0x36, 0, 0x04, 0x24, 0, 0x01, 0, 0, 0] = some (.stg h0 (some .pkg) .b32 (.v 4) (.v 9) 16)
    ∧ decodeBytes [0x91, 0x07, 0, 0x26, 0x02, 0x04, 0x30, 0, 0x04, 0, 0, 0] = some (.dprop h0 (some .pkg) (.v 8) (.v 4) (.v 12) 64)
    ∧ decodeBytes [0x9A, 0x07, 0x40, 0xE0, 0x06, 0xFF, 0x01, 0, 0x08, 0, 0, 0] = some (.arrive h0 false true false (.v 27) .z 128) := by decide
theorem test_decode_tiles_and_system :
    decodeBytes [0xA0, 0x07, 0x60, 0x20, 0, 0x28, 0x02, 0, 0x04, 0, 0, 0] = some (.give h0 3 (.t 40) 0x40)
    ∧ decodeBytes [0xA2, 0x07, 0, 0, 0x02, 0x02, 0x02, 0, 0, 0, 0, 0] = some (.town h0 (.v 8) (.t 2))
    ∧ decodeBytes [0x0C, 0x07, 0, 0x20, 0, 0, 0, 0xC0, 0, 0, 0, 0] = some (.trap h0 0x0C)
    ∧ decodeBytes [0xC2, 0x07, 0, 0, 0, 0, 0, 0, 0, 0, 0, 0] = some (.rte h0)
    ∧ decodeBytes [0xC3, 0x07, 0, 0x20, 0x02, 0, 0, 0, 0, 0x01, 0, 0] = some (.hread h0 (.v 8) (.imm 0x1000))
    ∧ decodeBytes [0xC4, 0x07, 0, 0x20, 0, 0x09, 0, 0, 0, 0x01, 0, 0] = some (.hwrite h0 (.imm 0x1000) (.v 9)) := by decide
/-- Bundles of one word: the presence byte, then the word. -/
theorem test_decode_slots :
    decodeBytes [1, 0x06, 0x41, 0, 0x03, 0, 0, 0, 0x10, 0, 0, 0, 0] = some (.ycmp .lt 0 1 (.imm 3))
    ∧ decodeBytes [1, 0x0B, 0x88, 0, 0, 0, 0, 0, 0, 0, 0, 0, 0] = some (.swait 4 2 0 0)
    ∧ decodeBytes [8, 0x04, 0x01, 0x01, 0x10, 0x04, 0x0C, 0, 0, 0, 0, 0, 0] = some (.kstore 1 0 1 (.tl 2 3))
    ∧ decodeBytes [4, 0, 0, 0, 0, 0, 0, 0, 0, 0, 0, 0, 0] = some .xnop := by decide
theorem test_reserved_words_refused :
    decodeBytes [0x0F, 0x07, 0, 0, 0, 0, 0, 0, 0, 0, 0, 0] = some (.unassignedOpcode h0 0x0F)
    ∧ decodeBytes [0xC2, 0x07, 0, 0, 0, 0, 0, 0, 0, 0, 0, 0x80] = none ∧ decodeBytes [0x10, 0x0F, 0, 0x60, 0x01, 0x06, 0, 0, 0, 0, 0, 0] = none
    ∧ decodeBytes [0x10, 0x0A, 0, 0x60, 0x01, 0x06, 0] = none := by decide

-- One step -----------------------------------------------------------------------------------------------------------

def after (i : Instr) (s : State) : State := match exec i s with
  | .next t => t
  | _ => s
def v0 (s : State) : TWord := s.vreg 0 0 0 0
/-- R99: 2^31 - 1 + 5 wraps, and is clamped under SAT. -/
theorem test_iadd_wraps :
    v0 (after (.iadd h0 false false (.v 0) (.v 9) (.imm 0x7FFFFFFF)) world) = { bits := 0x80000004, tag := .i32 }
    ∧ v0 (after (.iadd h0 false true (.v 0) (.v 9) (.imm 0x7FFFFFFF)) world) = { bits := 0x7FFFFFFF, tag := .i32 } := by decide
/-- R103: a shift by 32 leaves nothing, an arithmetic one the sign. -/
theorem test_shift_full :
    (v0 (after (.shr h0 (.v 0) (.v 8) (.imm 32)) world)).bits = 0 ∧ (v0 (after (.sar h0 (.v 0) (.v 8) (.imm 32)) world)).bits = 0 := by decide
/-- R105: 1 + 2^-24 rounds to even; toward +inf it does not. -/
theorem test_fadd_rounds :
    (v0 (after (.fadd h0 .rne (.v 0) (.v 8) (.imm 0x33800000)) world)).bits = 0x3F800000
    ∧ (v0 (after (.fadd h0 .ru (.v 0) (.v 8) (.imm 0x33800000)) world)).bits = 0x3F800001 := by decide
/-- R83: poison propagates through an addition. -/
theorem test_poison_propagates : v0 (after (.iadd h0 false false (.v 0) (.v 18) (.imm 1)) world) = TWord.poison := by decide
/-- R3: a store puts the low byte at the lowest address. -/
theorem test_sts_little_endian :
    Memory.read (after (.sts h0 .b32 (.v 28) (.v 15) 4) world).scratch (scrKey 0 68) 4 = [4, 3, 2, 1] := by decide
/-- R287, R288: BRA is relative to its own address; a false guard goes on. -/
theorem test_bra_back :
    ((after (.bra h0 (-9)) world).thread 0 0 0).pc = 0xFDC
    ∧ ((after (.bra { h0 with pred := 0 } (-9)) world).thread 0 0 0).pc = 0x100C := by decide
/-- R332: a trap parks its thread with the record, and queues the event. -/
theorem test_trap_parks :
    let t := after (.trap h0 0x0C) world
    (t.thread 0 0 0).st = .parked ∧ (t.thread 0 0 0).pc = 0x1000 ∧ ((t.thread 0 0 0).record.map (·.cause)) = some 0x0C
      ∧ (t.core 0).trapq.map (·.lanes) = [1] := by decide
/-- R350: RETRY goes on at the record's PC, and the handler warp is free. -/
theorem test_rte_retries :
    let t := after (.rte h0) (handling e0 0)
    (t.thread 0 0 0).st = .ready ∧ (t.thread 0 0 0).pc = 0x1000 ∧ (t.core 0).handler.serving = none := by decide
/-- R172: a given tile waits for its recipient. -/
theorem test_give_marks : (after (.give h0 0 (.t 8) 0) world).owner 0 8 = 0x80 ∧ (after (.give h0 0 (.t 8) 7) world).owner 0 8 = 0x7F := by decide
/-- R61: step fetches and decodes the word that stands at the thread. -/
theorem test_step_runs_word :
    (match step (State.reset.withFetchWord 96 0x00000000C00000002000070C) with
      | .next t => ((t.thread 0 0 0).record.map (·.cause)) == some 0x0C
      | _ => false) = true
    ∧ (match step (State.reset.withFetchWord 104 0x00000000100000000300410601) with
      | .next t => bPred (t.core 0).seq.b 0
      | _ => false) = true := by decide
/-- R379: SHA-384 of the three bytes of "abc" begins with the digest that FIPS 180-4 gives. -/
theorem test_sha384 : (Crypto.sha384 [0x61, 0x62, 0x63]).take 8 = [0xCB, 0x00, 0x75, 0x3F, 0x45, 0xA3, 0x5E, 0x8B] := by decide +kernel

/-- R118, by hand: sin(1.5 pi) = -1, whose unit in the last place is 2^-23, so that the bound of 2 takes in -1 + 3 * 2^-24 and -1 + 2^-22 and
no more; 1/1 = 1 takes in 1 + 2^-23 and 1 - 2^-23, each at the bound of 1, and no more. -/
theorem test_special_bounds :
    ([0xBF7FFFFD, 0xBF7FFFFC, 0xBF7FFFFB].map fun c => sfWithin 0x65 c (sfExact 0x65 false 0xC00000 (-23))) = [true, true, false]
      ∧ ([0x3F800001, 0x3F7FFFFE, 0x3F7FFFFD].map fun c => sfWithin 0x60 c (sfExact 0x60 false 0x800000 (-23))) = [true, true, false] := by
  decide +kernel

end Sys2Proof.Tests
end

/-!
O60: every step keeps the byte memories outside the cores in canonical form. One lemma per function of the model that answers a state, in
the order of the model's files, each citing the lemmas of the functions it calls: the form is a fact about five fields, so a function that
sets none of them keeps it by definition, and the few that set one do so by Memory.write, which keeps it (Memory.wf_write).
-/
namespace Sys2Proof.Machine

-- The form, and the ways states are combined -------------------------------------------------------------------------

/-- The byte memories outside the cores are in canonical form (assumption 2). -/
def State.Canonical (s : State) : Prop :=
  Memory.wf s.hbm = true ∧ Memory.wf s.hostMem = true ∧ Memory.wf s.peerMem = true ∧ Memory.wf s.mailbox = true ∧ Memory.wf s.wstore = true

/-- The next state, where there is one, has them in canonical form. -/
def CanonicalOut : Out → Prop
  | .next t => t.Canonical
  | .fault _ | .refused _ => True

section
variable {s : State}

theorem State.Canonical.ite {p : Prop} [Decidable p] {s t : State} (h : s.Canonical) (k : t.Canonical) : (if p then s else t).Canonical := by
  split
  · exact h
  · exact k

theorem State.Canonical.foldl {α : Type} {f : State → α → State} {l : List α} (h : s.Canonical)
    (hf : ∀ s a, s.Canonical → (f s a).Canonical) : (l.foldl f s).Canonical := by
  induction l generalizing s with
  | nil => exact h
  | cons a l ih => exact ih (hf s a h)

theorem State.Canonical.writeHbm (h : s.Canonical) (a : Nat) (bs : List Byte) :
    ({ s with hbm := Memory.write s.hbm a bs } : State).Canonical := by
  obtain ⟨hb, rest⟩ := h
  exact ⟨Memory.wf_write a bs hb, rest⟩

theorem State.Canonical.writeHostMem (h : s.Canonical) (a : Nat) (bs : List Byte) :
    ({ s with hostMem := Memory.write s.hostMem a bs } : State).Canonical := by
  obtain ⟨hb, ho, rest⟩ := h
  exact ⟨hb, Memory.wf_write a bs ho, rest⟩

theorem State.Canonical.writePeerMem (h : s.Canonical) (a : Nat) (bs : List Byte) :
    ({ s with peerMem := Memory.write s.peerMem a bs } : State).Canonical := by
  obtain ⟨hb, ho, hp, rest⟩ := h
  exact ⟨hb, ho, Memory.wf_write a bs hp, rest⟩

theorem State.Canonical.writeMailbox (h : s.Canonical) (a : Nat) (bs : List Byte) :
    ({ s with mailbox := Memory.write s.mailbox a bs } : State).Canonical := by
  obtain ⟨hb, ho, hp, hm, hw⟩ := h
  exact ⟨hb, ho, hp, Memory.wf_write a bs hm, hw⟩

theorem State.Canonical.writeWstore (h : s.Canonical) (a : Nat) (bs : List Byte) :
    ({ s with wstore := Memory.write s.wstore a bs } : State).Canonical := by
  obtain ⟨hb, ho, hp, hm, hw⟩ := h
  exact ⟨hb, ho, hp, hm, Memory.wf_write a bs hw⟩

/-- A fold that carries a list of results beside the state. -/
theorem State.Canonical.foldlFst {α β : Type} {f : State × β → α → State × β} {l : List α} {p : State × β} (h : p.1.Canonical)
    (hf : ∀ p a, p.1.Canonical → (f p a).1.Canonical) : (l.foldl f p).1.Canonical :=
  List.foldlRecOn l f (motive := fun p => p.1.Canonical) h fun p hp a _ => hf p a hp

theorem CanonicalOut.next {t : State} (h : t.Canonical) : CanonicalOut (.next t) := h

theorem CanonicalOut.ite {p : Prop} [Decidable p] {o q : Out} (h : CanonicalOut o) (k : CanonicalOut q) : CanonicalOut (if p then o else q) := by
  split
  · exact h
  · exact k

theorem CanonicalOut.of_eq {o : Out} {t : State} (ho : CanonicalOut o) (e : o = .next t) : t.Canonical := by
  subst e
  exact ho

-- Machine/Storage.lean -----------------------------------------------------------------------------------------------

theorem State.Canonical.setCore {c k} (hs : s.Canonical) : (s.setCore c k).Canonical := hs

theorem State.Canonical.modCore {c f} (hs : s.Canonical) : (s.modCore c f).Canonical := .setCore hs

theorem State.Canonical.setWarp {c w x} (hs : s.Canonical) : (s.setWarp c w x).Canonical := hs

theorem State.Canonical.modWarp {c w f} (hs : s.Canonical) : (s.modWarp c w f).Canonical := .setWarp hs

theorem State.Canonical.setThread {c w l t} (hs : s.Canonical) : (s.setThread c w l t).Canonical := hs

theorem State.Canonical.modThread {c w l f} (hs : s.Canonical) : (s.modThread c w l f).Canonical := .setThread hs

theorem State.Canonical.setTileWord {c tile word x} (hs : s.Canonical) : (s.setTileWord c tile word x).Canonical := hs

theorem State.Canonical.setVreg {c w l n x} (hs : s.Canonical) : (s.setVreg c w l n x).Canonical := .setTileWord hs

theorem State.Canonical.setSreg {c w n x} (hs : s.Canonical) : (s.setSreg c w n x).Canonical := hs

theorem State.Canonical.setJreg {c w n x} (hs : s.Canonical) : (s.setJreg c w n x).Canonical := .modWarp hs

theorem State.Canonical.setOwner {c tile o} (hs : s.Canonical) : (s.setOwner c tile o).Canonical := hs

theorem State.Canonical.setOwners {c base n o} (hs : s.Canonical) : (s.setOwners c base n o).Canonical := .foldl hs fun _ _ => .setOwner

theorem State.Canonical.setCtx {n x} (hs : s.Canonical) : (s.setCtx n x).Canonical := hs

theorem State.Canonical.modCtx {n f} (hs : s.Canonical) : (s.modCtx n f).Canonical := .setCtx hs

theorem State.Canonical.setPart {p x} (hs : s.Canonical) : (s.setPart p x).Canonical := hs

theorem State.Canonical.setQueue {q x} (hs : s.Canonical) : (s.setQueue q x).Canonical := hs

theorem State.Canonical.setTinv {f x} (hs : s.Canonical) : (s.setTinv f x).Canonical := hs

theorem State.Canonical.setLaunch {n x} (hs : s.Canonical) : (s.setLaunch n x).Canonical := hs

theorem State.Canonical.modLaunch {n f} (hs : s.Canonical) : (s.modLaunch n f).Canonical := by
  unfold State.modLaunch
  split
  · exact .setLaunch hs
  · exact hs

theorem State.Canonical.setTeam {c slot t} (hs : s.Canonical) : (s.setTeam c slot t).Canonical := .modCore hs

theorem State.Canonical.modTeam {c slot f} (hs : s.Canonical) : (s.modTeam c slot f).Canonical := by
  unfold State.modTeam
  split
  · exact .setTeam hs
  · exact hs

theorem State.Canonical.modSeq {c f} (hs : s.Canonical) : (s.modSeq c f).Canonical := .modCore hs

theorem State.Canonical.fresh (h : s.Canonical) : s.fresh.2.Canonical := h

-- Machine/Memory.lean ------------------------------------------------------------------------------------------------

theorem State.Canonical.rekeyUnit {form u} (h : s.Canonical) : (s.rekeyUnit form u).Canonical := .ite h (h.writeHbm _ _)

theorem State.Canonical.rekey {form pa n} (hs : s.Canonical) : (s.rekey form pa n).Canonical := .foldl hs fun _ _ => .rekeyUnit

theorem State.Canonical.returned {ctx a pa bs} (hs : s.Canonical) : (s.returned ctx a pa bs).2.Canonical := by
  unfold State.returned
  split <;> exact hs

/-- `State.returned` under another name, which no check of a proof can evaluate: whether a page is mapped twice (assumption 14) takes a walk
of all tables of a context, and nothing here depends on it. -/
theorem State.Canonical.exists_returned : ∃ R : State → Nat → Attr → Nat → List Byte → List Byte × State,
    R = State.returned ∧ ∀ s ctx a pa bs, s.Canonical → (R s ctx a pa bs).2.Canonical :=
  ⟨_, rfl, fun _ _ _ _ _ => .returned⟩

theorem State.Canonical.writeHome {key a pa bs} (h : s.Canonical) : (s.writeHome key a pa bs).Canonical := by
  unfold State.writeHome
  split
  · exact h
  · split
    · exact h.rekey.writeHbm _ _
    · exact h.writeHostMem _ _
    · exact h.writePeerMem _ _

theorem State.Canonical.writeBytesMasked {key a pa ms bs} (h : s.Canonical) : (s.writeBytesMasked key a pa ms bs).Canonical := by
  induction ms generalizing s pa bs with
  | nil => exact h
  | cons m ms ih =>
    cases bs with
    | nil => exact h
    | cons b bs => exact ih (.ite h.writeHome h)

theorem State.Canonical.writeMasked {key a pa mask data} (hs : s.Canonical) : (s.writeMasked key a pa mask data).Canonical := by
  unfold State.writeMasked
  dsimp only
  split <;> exact .writeBytesMasked hs

theorem State.Canonical.writeVirt {die ctx va bs} (h : s.Canonical) : (s.writeVirt die ctx va bs).Canonical := by
  induction bs generalizing s va with
  | nil => exact h
  | cons b bs ih =>
    unfold State.writeVirt
    split
    · exact ih h.writeHome
    · exact ih h

theorem State.Canonical.recordLease {pa e} (hs : s.Canonical) : (s.recordLease pa e).Canonical := hs

theorem State.Canonical.dropL1 {core p} (hs : s.Canonical) : (s.dropL1 core p).Canonical := .modCore hs

theorem State.Canonical.putL1 {core x} (hs : s.Canonical) : (s.putL1 core x).Canonical := .modCore hs

theorem State.Canonical.homeL2 {x} (hs : s.Canonical) : (s.homeL2 x).Canonical := .ite (.writeMasked hs) hs

theorem State.Canonical.otherKey {die ctx a pa} (hs : s.Canonical) : (s.otherKey die ctx a pa).Canonical := .foldl hs fun _ _ => .homeL2

theorem State.Canonical.softFetch {die ctx inc a va pa} (hs : s.Canonical) : (s.softFetch die ctx inc a va pa).2.2.Canonical := by
  unfold State.softFetch
  dsimp only
  split
  · split <;> exact .otherKey hs
  · exact .otherKey hs

theorem State.Canonical.softLine {core ctx inc a va pa} (hs : s.Canonical) : (s.softLine core ctx inc a va pa).Canonical := .putL1 (.softFetch hs)

theorem State.Canonical.softWrite {core ctx inc a va pa data launch} (hs : s.Canonical) : (s.softWrite core ctx inc a va pa data launch).Canonical :=
  .putL1 hs

theorem State.Canonical.unstrip {core ctx inc va a} (hs : s.Canonical) : (s.unstrip core ctx inc va a).Canonical := .modCore hs

theorem State.Canonical.softToDie {die ctx inc a va pa mask data by_} (hs : s.Canonical) :
    (s.softToDie die ctx inc a va pa mask data by_).Canonical := by
  unfold State.softToDie
  split
  · split
    · dsimp only
      split <;> exact .otherKey hs
    · exact hs
  · exact .ite (.writeMasked hs) hs

theorem State.Canonical.setOpd {c w l o x} (hs : s.Canonical) : (s.setOpd c w l o x).Canonical := by
  unfold State.setOpd
  split
  · exact .setVreg hs
  · exact .setSreg hs
  · exact hs

theorem State.Canonical.mapAway {d f} (hs : s.Canonical) : (s.mapAway d f).Canonical := hs

theorem State.Canonical.mapCkpt {d f} (hs : s.Canonical) : (s.mapCkpt d f).Canonical := hs

theorem State.Canonical.setTileAt {d tile word x} (hs : s.Canonical) : (s.setTileAt d tile word x).Canonical := by
  unfold State.setTileAt
  split
  · exact .setTileWord hs
  · exact hs
  · exact hs

theorem State.Canonical.deliver {d o x} (hs : s.Canonical) : (s.deliver d o x).Canonical := by
  unfold State.deliver
  split
  · exact .mapCkpt (.setTileAt hs)
  · dsimp only
    exact .ite hs (.mapCkpt (.ite (.setSreg hs) (.mapAway hs)))
  · exact hs

theorem State.Canonical.deliverAll {d o k xs} (hs : s.Canonical) : (s.deliverAll d o k xs).Canonical := by
  induction xs generalizing s k with
  | nil => exact hs
  | cons x xs ih => exact ih (.deliver hs)

theorem State.Canonical.modThreadAt {d f} (hs : s.Canonical) : (s.modThreadAt d f).Canonical :=
  .ite hs (.mapCkpt (.ite (.modThread hs) (.mapAway hs)))

theorem State.Canonical.deferAt {d cause addr} (hs : s.Canonical) : (s.deferAt d cause addr).Canonical := .modThreadAt hs

-- Machine/Ops.lean ---------------------------------------------------------------------------------------------------

theorem State.Canonical.irq {fn vector} (hs : s.Canonical) : (s.irq fn vector).Canonical := hs

theorem State.Canonical.countErr {q} (hs : s.Canonical) : (s.countErr q).Canonical := by
  unfold State.countErr
  dsimp only
  split
  · exact .writeVirt hs
  · exact hs

theorem State.Canonical.writeRecord {q addr irq status detail done failed} (hs : s.Canonical) :
    (s.writeRecord q addr irq status detail done failed).Canonical := .ite hs (.ite (.countErr hs) (.ite (.irq (.writeVirt hs)) (.writeVirt hs)))

theorem State.Canonical.freeTiles {c code} (hs : s.Canonical) : (s.freeTiles c code).Canonical := hs

theorem State.Canonical.freeHandlerTiles {c} (hs : s.Canonical) : (s.freeHandlerTiles c).Canonical := hs

theorem State.Canonical.warpExit {c w} (hs : s.Canonical) : (s.warpExit c w).Canonical := .ite (.freeTiles (.modWarp hs)) hs

theorem State.Canonical.dropTeam {c slot} (hs : s.Canonical) : (s.dropTeam c slot).Canonical := .modCore hs

theorem State.Canonical.sendAs {x c w l a va pa act acq} (hs : s.Canonical) : (s.sendAs x c w l a va pa act acq).2.Canonical := hs

theorem State.Canonical.send {c w l a va pa act acq} (hs : s.Canonical) : (s.send c w l a va pa act acq).2.Canonical := .sendAs hs

theorem State.Canonical.sendStoreAs {y c w l a va pa data} (hs : s.Canonical) : (s.sendStoreAs y c w l a va pa data).Canonical :=
  .ite (.softWrite hs) (.sendAs (.ite hs hs))

theorem State.Canonical.sendStore {c w l a va pa data} (hs : s.Canonical) : (s.sendStore c w l a va pa data).Canonical := .sendStoreAs hs

theorem State.Canonical.performHeld {y c h} (hs : s.Canonical) : (s.performHeld y c h).Canonical := .sendStoreAs hs

theorem State.Canonical.releaseHeld {c slot} (hs : s.Canonical) : (s.releaseHeld c slot).Canonical := by
  unfold State.releaseHeld
  split
  · exact .modTeam (.foldl hs fun _ _ => .performHeld)
  · exact hs

theorem State.Canonical.settleCluster {launch index} (hs : s.Canonical) : (s.settleCluster launch index).Canonical := by
  unfold State.settleCluster
  dsimp only
  split
  · split
    · exact .foldl hs fun _ _ => .dropTeam
    · exact hs
  · split
    · exact .foldl hs fun _ _ => .dropTeam
    · exact hs

theorem State.Canonical.teamEnd {c slot} (hs : s.Canonical) : (s.teamEnd c slot).Canonical := by
  unfold State.teamEnd
  split
  · exact hs
  · split
    · exact hs
    · exact .settleCluster (.modTeam (.modLaunch (.ite (.modSeq (.freeTiles (.releaseHeld hs))) (.releaseHeld hs))))

theorem State.Canonical.exitLanes {c w ls} (hs : s.Canonical) : (s.exitLanes c w ls).Canonical :=
  .teamEnd (.warpExit (.foldl hs fun _ _ => .modThread))

theorem State.Canonical.handlerClear {c} (hs : s.Canonical) : (s.handlerClear c).Canonical := .modCore (.setWarp (.foldl hs fun _ _ => .setThread))

theorem State.Canonical.handlerFree {c} (hs : s.Canonical) : (s.handlerFree c).Canonical := .handlerClear hs

theorem State.Canonical.withStores {i} (hs : s.Canonical) : (s.withStores i).Canonical := hs

theorem State.Canonical.withoutTeam {c t handler tiles} (hs : s.Canonical) : (s.withoutTeam c t handler tiles).Canonical := .withStores hs

theorem State.Canonical.stripTeam {c slot t} (hs : s.Canonical) : (s.stripTeam c slot t).Canonical :=
  .modCore (.ite (.freeHandlerTiles (.handlerClear (.ite (.modSeq (.withoutTeam hs)) (.withoutTeam hs))))
    (.ite (.modSeq (.withoutTeam hs)) (.withoutTeam hs)))

theorem State.Canonical.removeTeam {c slot} (hs : s.Canonical) : (s.removeTeam c slot).Canonical := by
  unfold State.removeTeam
  split
  · exact hs
  · exact .dropTeam (.ite hs (.stripTeam hs))

theorem State.Canonical.installTeam {i} (hs : s.Canonical) : (s.installTeam i).Canonical := .modCore (.withStores hs)

theorem State.Canonical.orphanTeam {launch team} (hs : s.Canonical) : (s.orphanTeam launch team).Canonical := hs

theorem State.Canonical.exchangeCore {c} (hs : s.Canonical) : (s.exchangeCore c).Canonical := hs

theorem State.Canonical.discardHere {launch} (hs : s.Canonical) : (s.discardHere launch).Canonical := .foldl hs fun _ _ => .removeTeam

theorem State.Canonical.discardShadow {launch c} (hs : s.Canonical) : (s.discardShadow launch c).Canonical :=
  .exchangeCore (.foldl (.exchangeCore hs) fun _ _ => .removeTeam)

theorem State.Canonical.discardTeams {launch} (hs : s.Canonical) : (s.discardTeams launch).Canonical :=
  .foldl (.discardHere hs) fun _ _ => .discardShadow

theorem State.Canonical.faultLaunch {launch detail} (hs : s.Canonical) : (s.faultLaunch launch detail).Canonical := by
  unfold State.faultLaunch
  split
  · split
    · exact hs
    · exact .discardTeams (.setLaunch hs)
  · exact hs

theorem State.Canonical.machineCheck {ctx inc} (hs : s.Canonical) : (s.machineCheck ctx inc).Canonical := .foldl hs fun _ _ => .faultLaunch

theorem State.Canonical.checkpoint {c slot} (hs : s.Canonical) : (s.checkpoint c slot).Canonical := by
  unfold State.checkpoint
  split <;> exact hs

theorem State.Canonical.endRetry {c slot} (hs : s.Canonical) : (s.endRetry c slot).Canonical := by
  unfold State.endRetry
  split
  · split
    · exact .modTeam (.releaseHeld hs)
    · exact hs
  · exact hs

theorem State.Canonical.noteFailure {launch index why} (hs : s.Canonical) : (s.noteFailure launch index why).Canonical := .modLaunch hs

theorem State.Canonical.failTeam {c slot why} (hs : s.Canonical) : (s.failTeam c slot why).Canonical := by
  unfold State.failTeam
  split
  · exact .settleCluster (.modTeam (.stripTeam (.orphanTeam (.noteFailure hs))))
  · exact hs

theorem State.Canonical.failAway {launch index why} (hs : s.Canonical) : (s.failAway launch index why).Canonical := .settleCluster (.noteFailure hs)

theorem State.Canonical.settleRollback {c slot} (hs : s.Canonical) : (s.settleRollback c slot).Canonical := by
  unfold State.settleRollback
  split
  · split
    · exact hs
    · split
      · exact .modTeam (.foldl (.installTeam (.removeTeam hs)) fun _ _ => .modWarp)
      · exact .failTeam hs
  · exact hs

theorem State.Canonical.orphanCopies {launch index} (hs : s.Canonical) : (s.orphanCopies launch index).Canonical := hs

theorem State.Canonical.rollback {c slot} (hs : s.Canonical) : (s.rollback c slot).Canonical := by
  unfold State.rollback
  split
  · split
    · exact hs
    · split
      · exact .failTeam hs
      · exact .settleRollback (.modTeam (.modLaunch (.orphanCopies hs)))
  · exact hs

theorem State.Canonical.rollbackAway {launch index} (hs : s.Canonical) : (s.rollbackAway launch index).Canonical := by
  unfold State.rollbackAway
  split
  · split
    · exact hs
    · split
      · exact hs
      · split
        · exact .failAway hs
        · exact .modLaunch (.orphanCopies hs)
  · exact hs

theorem State.Canonical.rollbackAt {d} (hs : s.Canonical) : (s.rollbackAt d).Canonical := .ite (.rollback hs) (.rollbackAway hs)

theorem State.Canonical.settleCopy {k} (hs : s.Canonical) : (s.settleCopy k).Canonical := by
  unfold State.settleCopy
  split
  · exact .settleRollback hs
  · exact hs

theorem State.Canonical.joinEvent {c e} (hs : s.Canonical) : (s.joinEvent c e).Canonical := by
  unfold State.joinEvent
  dsimp only
  split <;> exact .modCore hs

theorem State.Canonical.trapEvent {c w cause ts} (hs : s.Canonical) : (s.trapEvent c w cause ts).Canonical :=
  .joinEvent (.foldl hs fun _ _ => .modThread)

theorem State.Canonical.takeTraps {c w ts} (hs : s.Canonical) : (s.takeTraps c w ts).Canonical := by
  unfold State.takeTraps
  split
  · exact hs
  · split
    · split
      · exact .machineCheck (.handlerFree hs)
      · exact .handlerFree hs
    · exact .foldl hs fun _ _ hs => .ite hs (.trapEvent hs)

theorem State.Canonical.setFrozen {c slot v} (hs : s.Canonical) : (s.setFrozen c slot v).Canonical := .modSeq (.modTeam hs)

theorem State.Canonical.thaw {c e} (hs : s.Canonical) : (s.thaw c e).Canonical := .ite (.setFrozen hs) hs

theorem State.Canonical.retire {c w ls} (hs : s.Canonical) : (s.retire c w ls).Canonical := .modWarp (.foldl hs fun _ _ => .modThread)

theorem State.Canonical.stepped {c w ls} (hs : s.Canonical) : (s.stepped c w ls).Canonical :=
  .ite (.ite (.setFrozen (.takeTraps hs)) (.takeTraps hs)) hs

theorem State.Canonical.complete {c w ls} (hs : s.Canonical) : (s.complete c w ls).Canonical := .stepped (.retire hs)

theorem State.Canonical.advance {c w ls} (hs : s.Canonical) : (s.advance c w ls).Canonical := .complete hs

theorem State.Canonical.pass {c w ls} (hs : s.Canonical) : (s.pass c w ls).Canonical := .retire hs

theorem State.Canonical.resumeLane {c w l r act} (hs : s.Canonical) : (s.resumeLane c w l r act).Canonical := by
  unfold State.resumeLane
  dsimp only
  split
  · exact .modThread hs
  · exact .modThread hs
  · exact .exitLanes hs
  · split
    · exact .faultLaunch hs
    · exact hs

theorem State.Canonical.giveTiles {c base n giver ctx code} (hs : s.Canonical) : (s.giveTiles c base n giver ctx code).Canonical := .setOwners hs

-- Machine/Operands.lean ----------------------------------------------------------------------------------------------

theorem State.Canonical.setOpds {c l d k xs} (hs : s.Canonical) : (s.setOpds c l d k xs).Canonical := by
  induction xs generalizing s k with
  | nil => exact hs
  | cons x xs ih => exact ih (.setOpd hs)

theorem State.Canonical.writeDst {c d rs} (hs : s.Canonical) : (s.writeDst c d rs).Canonical := by
  unfold State.writeDst
  split
  · split
    · exact .setOpds hs
    · exact hs
  · exact .foldl hs fun _ _ => .setOpds

theorem State.Canonical.writePred {c d rs} (hs : s.Canonical) : (s.writePred c d rs).Canonical := by
  unfold State.writePred
  split
  · split
    · exact hs
    · exact .foldl hs fun _ _ => .modThread
  · exact hs

theorem State.Canonical.countIssue {c} (hs : s.Canonical) : (s.countIssue c).Canonical := .foldl hs fun _ _ => .modThread

theorem State.Canonical.latchTime {c i ls} (hs : s.Canonical) : (s.latchTime c i ls).Canonical := .ite (.foldl hs fun _ _ => .modThread) hs

theorem State.Canonical.spendUpsets {c} (hs : s.Canonical) : (s.spendUpsets c).Canonical := .ite hs (.modWarp hs)

theorem CanonicalOut.mismatch {c on off} (hs : s.Canonical) : CanonicalOut (s.mismatch c on off) :=
  .ite (.rollback (.spendUpsets hs)) (.pass (.takeTraps (.spendUpsets hs)))

theorem CanonicalOut.issueWith {i h chk act} (hs : s.Canonical) (ha : ∀ s c ls, s.Canonical → (act s c ls).1.Canonical) :
    CanonicalOut (issueWith i h chk act s) := by
  unfold Machine.issueWith
  split
  · exact hs
  · dsimp only
    split
    · exact .mismatch (.countIssue hs)
    · split
      · exact .takeTraps (.spendUpsets (.countIssue hs))
      · split
        · exact ha _ _ _ (.pass (.spendUpsets (.countIssue hs)))
        · exact .takeTraps (.latchTime (ha _ _ _ (.pass (.spendUpsets (.countIssue hs)))))

theorem CanonicalOut.issue {i h chk act} (hs : s.Canonical) (ha : ∀ s c ls, s.Canonical → (act s c ls).Canonical) :
    CanonicalOut (issue i h chk act s) :=
  .issueWith hs ha

theorem CanonicalOut.compute {i h d n srcs f} (hs : s.Canonical) : CanonicalOut (compute i h d n srcs f s) :=
  .issue hs fun _ _ _ hs => .advance (.writeDst hs)

theorem CanonicalOut.computePred {i h d srcs f} (hs : s.Canonical) : CanonicalOut (computePred i h d srcs f s) :=
  .issue hs fun _ _ _ hs => .advance (.writePred hs)

-- Machine/CrossLane.lean ---------------------------------------------------------------------------------------------

theorem CanonicalOut.shfl {h md d a b} (hs : s.Canonical) : CanonicalOut (execShfl h md d a b s) := .issue hs fun _ _ _ hs => .advance (.writeDst hs)

theorem CanonicalOut.vote {h md d a} (hs : s.Canonical) : CanonicalOut (execVote h md d a s) := by
  unfold execVote
  refine .issue hs fun s c ls hs => ?_
  dsimp only
  refine .advance ?_
  split
  · exact .writePred hs
  · exact .writePred hs
  · exact .writePred hs
  · exact .writeDst hs

theorem CanonicalOut.matchLanes {h d a} (hs : s.Canonical) : CanonicalOut (execMatchLanes h d a s) :=
  .issue hs fun _ _ _ hs => .advance (.writeDst hs)

theorem CanonicalOut.wred {h op ty rm sat d a} (hs : s.Canonical) : CanonicalOut (execWred h op ty rm sat d a s) :=
  .issue hs fun _ _ _ hs => .advance (.writeDst hs)

-- Machine/FloatInstr.lean --------------------------------------------------------------------------------------------

theorem CanonicalOut.fOp1 {i h d a f} (hs : s.Canonical) : CanonicalOut (fOp1 i h d a f s) := .compute hs

theorem CanonicalOut.fOp2 {i h d a b f} (hs : s.Canonical) : CanonicalOut (fOp2 i h d a b f s) := .compute hs

theorem CanonicalOut.fadd {h rm d a b} (hs : s.Canonical) : CanonicalOut (execFadd h rm d a b s) := .fOp2 hs

theorem CanonicalOut.fsub {h rm d a b} (hs : s.Canonical) : CanonicalOut (execFsub h rm d a b s) := .fOp2 hs

theorem CanonicalOut.fmul {h rm d a b} (hs : s.Canonical) : CanonicalOut (execFmul h rm d a b s) := .fOp2 hs

theorem CanonicalOut.ffma {h rm d a b c} (hs : s.Canonical) : CanonicalOut (execFfma h rm d a b c s) := .compute hs

theorem CanonicalOut.fmin {h d a b} (hs : s.Canonical) : CanonicalOut (execFmin h d a b s) := .fOp2 hs

theorem CanonicalOut.fmax {h d a b} (hs : s.Canonical) : CanonicalOut (execFmax h d a b s) := .fOp2 hs

theorem CanonicalOut.fsetp {h cc bop d a b c} (hs : s.Canonical) : CanonicalOut (execFsetp h cc bop d a b c s) := .computePred hs

theorem CanonicalOut.frnd {h rm d a} (hs : s.Canonical) : CanonicalOut (execFrnd h rm d a s) := .fOp1 hs

theorem CanonicalOut.fclass {h d a mask} (hs : s.Canonical) : CanonicalOut (execFclass h d a mask s) := .computePred hs

theorem CanonicalOut.fscalb {h rm d a b} (hs : s.Canonical) : CanonicalOut (execFscalb h rm d a b s) := .compute hs

theorem CanonicalOut.hOp2 {i h ty d a b f} (hs : s.Canonical) : CanonicalOut (hOp2 i h ty d a b f s) := .compute hs

theorem CanonicalOut.hadd2 {h ty rm sat d a b} (hs : s.Canonical) : CanonicalOut (execHadd2 h ty rm sat d a b s) := .hOp2 hs

theorem CanonicalOut.hmul2 {h ty rm sat d a b} (hs : s.Canonical) : CanonicalOut (execHmul2 h ty rm sat d a b s) := .hOp2 hs

theorem CanonicalOut.hfma2 {h ty rm sat d a b c} (hs : s.Canonical) : CanonicalOut (execHfma2 h ty rm sat d a b c s) := .compute hs

theorem CanonicalOut.hmin2 {h ty d a b} (hs : s.Canonical) : CanonicalOut (execHmin2 h ty d a b s) := .hOp2 hs

theorem CanonicalOut.hmax2 {h ty d a b} (hs : s.Canonical) : CanonicalOut (execHmax2 h ty d a b s) := .hOp2 hs

theorem CanonicalOut.hsetp2 {h ty cc any d a b} (hs : s.Canonical) : CanonicalOut (execHsetp2 h ty cc any d a b s) := .computePred hs

theorem CanonicalOut.dot2 {h rm sat d a b c} (hs : s.Canonical) : CanonicalOut (execDot2 h rm sat d a b c s) := .compute hs

theorem CanonicalOut.dot4 {h au bu sat d a b c} (hs : s.Canonical) : CanonicalOut (execDot4 h au bu sat d a b c s) := .compute hs

theorem CanonicalOut.cvt {h df sf rm sat d a} (hs : s.Canonical) : CanonicalOut (execCvt h df sf rm sat d a s) := .compute hs

theorem CanonicalOut.pack2 {h f16 rm sat d a b} (hs : s.Canonical) : CanonicalOut (execPack2 h f16 rm sat d a b s) := .compute hs

theorem CanonicalOut.pack4 {h fm si hi rm sat d a b c} (hs : s.Canonical) : CanonicalOut (execPack4 h fm si hi rm sat d a b c s) := .compute hs

theorem CanonicalOut.unpk {h fm n d a} (hs : s.Canonical) : CanonicalOut (execUnpk h fm n d a s) := .compute hs

theorem CanonicalOut.plnget {h d a b c} (hs : s.Canonical) : CanonicalOut (execPlnget h d a b c s) := .compute hs

theorem CanonicalOut.plnput {h d a b c} (hs : s.Canonical) : CanonicalOut (execPlnput h d a b c s) := .compute hs

theorem CanonicalOut.tagset {h tg d a} (hs : s.Canonical) : CanonicalOut (execTagset h tg d a s) := .compute hs

theorem CanonicalOut.tagget {h d a} (hs : s.Canonical) : CanonicalOut (execTagget h d a s) := .issue hs fun _ _ _ hs => .advance (.writeDst hs)

theorem CanonicalOut.rcp {h d a} (hs : s.Canonical) : CanonicalOut (execRcp h d a s) := .fOp1 hs

theorem CanonicalOut.rsq {h d a} (hs : s.Canonical) : CanonicalOut (execRsq h d a s) := .fOp1 hs

theorem CanonicalOut.sqrt {h rm d a} (hs : s.Canonical) : CanonicalOut (execSqrt h rm d a s) := .fOp1 hs

theorem CanonicalOut.exp2 {h d a} (hs : s.Canonical) : CanonicalOut (execExp2 h d a s) := .fOp1 hs

theorem CanonicalOut.log2 {h d a} (hs : s.Canonical) : CanonicalOut (execLog2 h d a s) := .fOp1 hs

theorem CanonicalOut.sinpi {h d a} (hs : s.Canonical) : CanonicalOut (execSinpi h d a s) := .fOp1 hs

theorem CanonicalOut.cospi {h d a} (hs : s.Canonical) : CanonicalOut (execCospi h d a s) := .fOp1 hs

theorem CanonicalOut.tanh {h d a} (hs : s.Canonical) : CanonicalOut (execTanh h d a s) := .fOp1 hs

theorem CanonicalOut.erf {h d a} (hs : s.Canonical) : CanonicalOut (execErf h d a s) := .fOp1 hs

-- Machine/Integer.lean -----------------------------------------------------------------------------------------------

theorem CanonicalOut.intOp2 {i h u sat d a b f} (hs : s.Canonical) : CanonicalOut (intOp2 i h u sat d a b f s) := .compute hs

theorem CanonicalOut.intOp1 {i h sat d a f} (hs : s.Canonical) : CanonicalOut (intOp1 i h sat d a f s) := .compute hs

theorem CanonicalOut.iadd {h u sat d a b} (hs : s.Canonical) : CanonicalOut (execIadd h u sat d a b s) := .intOp2 hs

theorem CanonicalOut.isub {h u sat d a b} (hs : s.Canonical) : CanonicalOut (execIsub h u sat d a b s) := .intOp2 hs

theorem CanonicalOut.imul {h u sat d a b} (hs : s.Canonical) : CanonicalOut (execImul h u sat d a b s) := .intOp2 hs

theorem CanonicalOut.imulh {h u d a b} (hs : s.Canonical) : CanonicalOut (execImulh h u d a b s) := .intOp2 hs

theorem CanonicalOut.imad {h u sat d a b c} (hs : s.Canonical) : CanonicalOut (execImad h u sat d a b c s) := .compute hs

theorem CanonicalOut.imin {h u d a b} (hs : s.Canonical) : CanonicalOut (execImin h u d a b s) := .intOp2 hs

theorem CanonicalOut.imax {h u d a b} (hs : s.Canonical) : CanonicalOut (execImax h u d a b s) := .intOp2 hs

theorem CanonicalOut.iabs {h sat d a} (hs : s.Canonical) : CanonicalOut (execIabs h sat d a s) := .intOp1 hs

theorem CanonicalOut.ineg {h sat d a} (hs : s.Canonical) : CanonicalOut (execIneg h sat d a s) := .intOp1 hs

theorem CanonicalOut.isetp {h cc u bop d a b c} (hs : s.Canonical) : CanonicalOut (execIsetp h cc u bop d a b c s) := .computePred hs

theorem CanonicalOut.sel {h u d a b c} (hs : s.Canonical) : CanonicalOut (execSel h u d a b c s) := .compute hs

theorem CanonicalOut.lea {h u sh d a b} (hs : s.Canonical) : CanonicalOut (execLea h u sh d a b s) := .compute hs

theorem CanonicalOut.addw {h u x32 d a b} (hs : s.Canonical) : CanonicalOut (execAddw h u x32 d a b s) := .compute hs

theorem CanonicalOut.mulw {h u d a b} (hs : s.Canonical) : CanonicalOut (execMulw h u d a b s) := .compute hs

theorem CanonicalOut.isat {h wd u d a} (hs : s.Canonical) : CanonicalOut (execIsat h wd u d a s) := .compute hs

theorem CanonicalOut.rawOp1 {i h d a f} (hs : s.Canonical) : CanonicalOut (rawOp1 i h d a f s) := .compute hs

theorem CanonicalOut.rawOp2 {i h d a b f} (hs : s.Canonical) : CanonicalOut (rawOp2 i h d a b f s) := .compute hs

theorem CanonicalOut.rawOp3 {i h d a b c f} (hs : s.Canonical) : CanonicalOut (rawOp3 i h d a b c f s) := .compute hs

theorem CanonicalOut.and {h d a b} (hs : s.Canonical) : CanonicalOut (execAnd h d a b s) := .rawOp2 hs

theorem CanonicalOut.or {h d a b} (hs : s.Canonical) : CanonicalOut (execOr h d a b s) := .rawOp2 hs

theorem CanonicalOut.xor {h d a b} (hs : s.Canonical) : CanonicalOut (execXor h d a b s) := .rawOp2 hs

theorem CanonicalOut.not {h d a} (hs : s.Canonical) : CanonicalOut (execNot h d a s) := .rawOp1 hs

theorem CanonicalOut.shl {h d a b} (hs : s.Canonical) : CanonicalOut (execShl h d a b s) := .rawOp2 hs

theorem CanonicalOut.shr {h d a b} (hs : s.Canonical) : CanonicalOut (execShr h d a b s) := .rawOp2 hs

theorem CanonicalOut.sar {h d a b} (hs : s.Canonical) : CanonicalOut (execSar h d a b s) := .rawOp2 hs

theorem CanonicalOut.rotl {h d a b} (hs : s.Canonical) : CanonicalOut (execRotl h d a b s) := .rawOp2 hs

theorem CanonicalOut.popc {h d a} (hs : s.Canonical) : CanonicalOut (execPopc h d a s) := .rawOp1 hs

theorem CanonicalOut.clz {h d a} (hs : s.Canonical) : CanonicalOut (execClz h d a s) := .rawOp1 hs

theorem CanonicalOut.brev {h d a} (hs : s.Canonical) : CanonicalOut (execBrev h d a s) := .rawOp1 hs

theorem CanonicalOut.bfx {h sx d a b} (hs : s.Canonical) : CanonicalOut (execBfx h sx d a b s) := .rawOp2 hs

theorem CanonicalOut.bfi {h d a b c} (hs : s.Canonical) : CanonicalOut (execBfi h d a b c s) := .rawOp3 hs

theorem CanonicalOut.prmt {h d a b c} (hs : s.Canonical) : CanonicalOut (execPrmt h d a b c s) := .rawOp3 hs

theorem CanonicalOut.mov {h d a} (hs : s.Canonical) : CanonicalOut (execMov h d a s) := .compute hs

theorem CanonicalOut.movi {h tg d imm} (hs : s.Canonical) : CanonicalOut (execMovi h tg d imm s) := .compute hs

-- Machine/LoadStore.lean ---------------------------------------------------------------------------------------------

theorem State.Canonical.awaitPages {c cause aux ls} (hs : s.Canonical) : (s.awaitPages c cause aux ls).Canonical :=
  .foldl hs fun _ _ hs => .foldl (.fresh hs) fun _ _ => .modThread

theorem State.Canonical.hintIssue {c h ls} (hs : s.Canonical) : (s.hintIssue c h ls).Canonical := .ite hs (.modWarp hs)

theorem State.Canonical.hintValue {c w l hint addr v} (hs : s.Canonical) : (s.hintValue c w l hint addr v).Canonical :=
  .ite hs (.modThread (.ite hs (.modWarp hs)))

theorem State.Canonical.hintAt {x hint addr v} (hs : s.Canonical) : (s.hintAt x hint addr v).Canonical :=
  .ite hs (.ite (.hintValue hs) (.modThreadAt hs))

theorem State.Canonical.finishHere {c l ty d hint addr bs psn} (hs : s.Canonical) : (s.finishHere c l ty d hint addr bs psn).Canonical :=
  .hintValue (.ite (.modThread (.setOpds hs)) (.setOpds hs))

theorem State.Canonical.finishLoad {x ty d hint addr bs psn} (hs : s.Canonical) : (s.finishLoad x ty d hint addr bs psn).Canonical :=
  .hintAt (.ite (.deferAt (.deliverAll hs)) (.deliverAll hs))

theorem State.Canonical.orRollback {c psn go} (hs : s.Canonical) (hg : go.Canonical) : (s.orRollback c psn go).Canonical := .ite (.rollback hs) hg

theorem State.Canonical.loadLane {c ty d acq hint l va} (hs : s.Canonical) : (s.loadLane c ty d acq hint l va).Canonical := by
  obtain ⟨R, hR, hr⟩ := State.Canonical.exists_returned
  unfold State.loadLane
  rw [← hR]
  dsimp only
  split
  · split
    · exact .finishHere (hr _ _ _ _ _ (.unstrip hs))
    · exact .send (.unstrip hs)
  · exact hs

theorem State.Canonical.deferLane {c ty d hint l va k ad} (hs : s.Canonical) : (s.deferLane c ty d hint l va k ad).Canonical :=
  .hintValue (.modThread (.setOpds hs))

theorem CanonicalOut.ldg {h ord spec ty d a ofs} (hs : s.Canonical) : CanonicalOut (execLdg h ord spec ty d a ofs s) := by
  unfold execLdg
  dsimp only
  refine .issue hs fun s c ls hs => ?_
  refine .orRollback hs ?_
  refine .awaitPages ?_
  refine .advance ?_
  refine .foldl (.hintIssue hs) fun s a hs => ?_
  split
  · exact .deferLane hs
  · exact .loadLane hs

theorem State.Canonical.storeLane {c l va data} (hs : s.Canonical) : (s.storeLane c l va data).Canonical := by
  unfold State.storeLane
  dsimp only
  split
  · split
    · split
      · exact .ite (.endRetry (.modTeam (.unstrip hs))) (.modTeam (.unstrip hs))
      · exact .ite (.endRetry (.modTeam (.unstrip hs))) (.modTeam (.unstrip hs))
    · exact .sendStore (.ite (.endRetry (.unstrip hs)) (.unstrip hs))
  · exact hs

theorem CanonicalOut.stg {h ord sz a b ofs} (hs : s.Canonical) : CanonicalOut (execStg h ord sz a b ofs s) := by
  unfold execStg
  dsimp only
  refine .issue hs fun s c ls hs => ?_
  refine .awaitPages ?_
  refine .advance ?_
  refine .foldl ?_ (fun _ _ hs => .storeLane hs)
  split
  · split
    · exact .endRetry hs
    · exact hs
  · exact hs

theorem State.Canonical.scrWrite {core t ofs bs} (hs : s.Canonical) : (s.scrWrite core t ofs bs).Canonical := hs

theorem State.Canonical.privWrite {c l ofs bs} (hs : s.Canonical) : (s.privWrite c l ofs bs).Canonical := by
  unfold State.privWrite
  split <;> exact hs

theorem CanonicalOut.localLoad {i h ty d a ofs room get before} (hs : s.Canonical) (hb : ∀ s c, s.Canonical → (before s c).Canonical) :
    CanonicalOut (localLoad i h ty d a ofs room get before s) := by
  refine .issue hs fun s c ls hs => ?_
  have h0 : (if ls.isEmpty then s else before s c).Canonical := .ite hs (hb s c hs)
  exact .orRollback h0 (.advance (.foldl (.hintIssue h0) fun _ _ => .finishHere))

theorem CanonicalOut.localStore {i h sz a b ofs room put} (hs : s.Canonical) (hp : ∀ s c l ofs bs, s.Canonical → (put s c l ofs bs).Canonical) :
    CanonicalOut (localStore i h sz a b ofs room put s) :=
  .issue hs fun _ _ _ hs => .advance (.foldl hs fun s _ hs => hp s _ _ _ _ hs)

theorem CanonicalOut.lds {h ty d a ofs} (hs : s.Canonical) : CanonicalOut (execLds h ty d a ofs s) := .localLoad hs fun _ _ hs => hs

theorem CanonicalOut.sts {h sz a b ofs} (hs : s.Canonical) : CanonicalOut (execSts h sz a b ofs s) := by
  unfold execSts
  refine .localStore hs fun s c l ofs bs hs => ?_
  split
  · exact .scrWrite hs
  · exact hs

theorem CanonicalOut.ldp {h ty d a ofs} (hs : s.Canonical) : CanonicalOut (execLdp h ty d a ofs s) := .localLoad hs fun _ _ hs => hs

theorem CanonicalOut.stp {h sz a b ofs} (hs : s.Canonical) : CanonicalOut (execStp h sz a b ofs s) := .localStore hs fun _ _ _ _ _ => .privWrite

theorem CanonicalOut.ldw {h ty d a ofs} (hs : s.Canonical) : CanonicalOut (execLdw h ty d a ofs s) :=
  .issue hs fun _ _ _ hs => .orRollback hs (.advance (.foldl (.foldl (.hintIssue hs) fun _ _ => .finishHere) fun _ _ hs => .modThread (.send hs)))

theorem State.Canonical.crossTeams {c} (hs : s.Canonical) : (s.crossTeams c).Canonical := .endRetry hs

theorem State.Canonical.reached {core slot} (hs : s.Canonical) : (s.reached core slot).Canonical := .endRetry hs

theorem State.Canonical.sendRemote {c items} (hs : s.Canonical) : (s.sendRemote c items).Canonical := by
  unfold State.sendRemote
  refine .foldl hs fun s a hs => ?_
  split
  · exact .send hs
  · exact hs

theorem CanonicalOut.ldsr {h ty d a ofs} (hs : s.Canonical) : CanonicalOut (execLdsr h ty d a ofs s) :=
  .issue hs fun _ _ _ hs => .advance (.sendRemote (.hintIssue (.ite hs (.crossTeams hs))))

theorem CanonicalOut.stsr {h sz a b ofs} (hs : s.Canonical) : CanonicalOut (execStsr h sz a b ofs s) :=
  .issue hs fun _ _ _ hs => .advance (.sendRemote (.ite hs (.crossTeams hs)))

theorem State.Canonical.dropReq {id} (hs : s.Canonical) : (s.dropReq id).Canonical := hs

theorem State.Canonical.setReq {r} (hs : s.Canonical) : (s.setReq r).Canonical := hs

theorem State.Canonical.atWindow {r home win go} (hs : s.Canonical) (hg : ∀ m, (go m).Canonical) : (s.atWindow r home win go).Canonical := by
  unfold State.atWindow
  split
  · exact .dropReq hs
  · split
    · exact hs
    · split
      · exact hg _
      · exact .dropReq hs

theorem State.Canonical.remoteStore {id} (hs : s.Canonical) : (s.remoteStore id).Canonical := by
  unfold State.remoteStore
  split
  · exact hs
  · split
    · exact .atWindow hs fun _ => .dropReq (.scrWrite (.ite hs (.reached hs)))
    · exact hs

theorem State.Canonical.lose {r} (hs : s.Canonical) : (s.lose r).Canonical := .setReq hs

-- The body is opened as an equation of functions, so that the name `R` stands in it before anything is applied to the load at hand.
theorem State.Canonical.deliverLoad {r ty d hint bs0 psn} (hs : s.Canonical) : (s.deliverLoad r ty d hint bs0 psn).Canonical := by
  obtain ⟨R, hR, hr⟩ := State.Canonical.exists_returned
  obtain ⟨F, hF⟩ : ∃ F, F = State.deliverLoad := ⟨_, rfl⟩
  rw [← hF]
  delta State.deliverLoad at hF
  rw [← hR] at hF
  subst hF
  have h1 : (R s r.ctx r.attr r.pa bs0).2.Canonical := hr _ _ _ _ _ hs
  dsimp only
  exact .ite (.dropReq h1) (.ite (.rollbackAt (.dropReq h1)) (.finishLoad (.dropReq h1)))

theorem State.Canonical.deliverAtom {r w64 u d v psn} (hs : s.Canonical) : (s.deliverAtom r w64 u d v psn).Canonical := by
  obtain ⟨R, hR, hr⟩ := State.Canonical.exists_returned
  unfold State.deliverAtom
  rw [← hR]
  exact .ite (.deferAt (.deliverAll hs)) (.deliverAll (hr _ _ _ _ _ hs))

theorem CanonicalOut.loadDataReturn {id} (hs : s.Canonical) : CanonicalOut (execLoadDataReturn id s) := by
  unfold execLoadDataReturn
  split
  · exact hs
  · split
    · exact .deliverLoad hs
    · split
      · split
        · exact .dropReq hs
        · split
          · exact .deliverLoad hs
          · exact .lose hs
      · exact hs
    · dsimp only
      split
      · exact .dropReq hs
      · split
        · exact .rollbackAt (.dropReq hs)
        · exact .deliverAtom (.dropReq hs)
    · split
      · exact .dropReq hs
      · exact .atWindow hs fun _ => .ite (.rollbackAt (.dropReq hs)) (.finishLoad (.dropReq hs))
    · split
      · exact .dropReq hs
      · split
        · exact hs
        · dsimp only
          split
          · exact .rollback (.dropReq hs)
          · exact .advance (.finishLoad (.dropReq hs))
    · exact hs

-- Machine/Atomics.lean -----------------------------------------------------------------------------------------------

theorem State.Canonical.atomLane {c op w64 u acq d p} (hs : s.Canonical) : (s.atomLane c op w64 u acq d p).Canonical := by
  unfold State.atomLane
  dsimp only
  split
  · exact .send hs
  · exact hs

theorem CanonicalOut.atom {h op w64 u ord d a b ofs} (hs : s.Canonical) : CanonicalOut (execAtom h op w64 u ord d a b ofs s) :=
  .issue hs fun _ _ _ hs => .awaitPages (.advance (.foldl (.ite hs (.endRetry hs)) fun _ _ => .atomLane))

theorem CanonicalOut.atomicPerform {id} (hs : s.Canonical) : CanonicalOut (execAtomicPerform id s) := by
  unfold execAtomicPerform
  split
  · exact hs
  · split
    · split
      · exact .dropReq hs
      · split
        · exact hs
        · dsimp only
          split
          · split
            · exact .setReq hs
            · exact .setReq (.writeHome hs)
          · split
            · exact .setReq hs
            · exact .setReq (.writeHome hs)
    · exact hs

theorem State.Canonical.atomsLane {c t op w64 u d p} (hs : s.Canonical) : (s.atomsLane c t op w64 u d p).Canonical := by
  unfold State.atomsLane
  dsimp only
  split
  · exact .ite (.modThread (.setOpds hs)) (.setOpds (.scrWrite hs))
  · exact .ite (.modThread (.setOpds hs)) (.setOpds (.scrWrite hs))

theorem CanonicalOut.atoms {h op w64 u d a b ofs} (hs : s.Canonical) : CanonicalOut (execAtoms h op w64 u d a b ofs s) := by
  unfold execAtoms
  dsimp only
  refine .issue hs fun s c ls hs => ?_
  split
  · exact .advance hs
  · exact .orRollback hs (.advance (.foldl hs fun _ _ => .atomsLane))

theorem State.Canonical.setSem {core set n v} (hs : s.Canonical) : (s.setSem core set n v).Canonical := hs

theorem CanonicalOut.sem {h op d n} (hs : s.Canonical) : CanonicalOut (execSem h op d n s) :=
  .issue hs fun _ _ _ hs => .advance (.foldl hs fun _ _ hs => .setOpds (.setSem hs))

theorem State.Canonical.writeOut {c w l ln mask} (hs : s.Canonical) : (s.writeOut c w l ln mask).Canonical := by
  unfold State.writeOut
  split
  · exact .homeL2 hs
  · exact .send hs

theorem Written.canonical_ite {p : Prop} [Decidable p] {x y : Written} (hx : x.s.Canonical) (hy : y.s.Canonical) :
    (if p then x else y).s.Canonical := by
  split
  · exact hx
  · exact hy

theorem State.Canonical.flushL1 {c ctx inc range} (hs : s.Canonical) : (s.flushL1 c ctx inc range).s.Canonical :=
  List.foldlRecOn _ _ (motive := fun x : Written => x.s.Canonical) hs fun _ hx _ _ =>
    Written.canonical_ite hx (Written.canonical_ite hx (.modCore (.softToDie hx)))

theorem State.Canonical.flushL2 {c w l ctx inc range} (hs : s.Canonical) : (s.flushL2 c w l ctx inc range).s.Canonical :=
  List.foldlRecOn _ _ (motive := fun x : Written => x.s.Canonical) hs fun _ hx _ _ =>
    Written.canonical_ite hx (Written.canonical_ite hx (.writeOut hx))

theorem State.Canonical.flush {c w l ctx inc depth range} (hs : s.Canonical) : (s.flush c w l ctx inc depth range).s.Canonical := by
  cases depth with
  | stay => exact hs
  | die => exact .flushL1 hs
  | home => exact .flushL2 (.flushL1 hs)

theorem State.Canonical.finishFlush {c failed ids ls} (hs : s.Canonical) : (s.finishFlush c failed ids ls).1.Canonical := by
  unfold State.finishFlush
  split
  · exact hs
  · split
    · exact .advance hs
    · exact .foldl hs fun _ _ => .modThread

theorem CanonicalOut.fence {h kind sc} (hs : s.Canonical) : CanonicalOut (execFence h kind sc s) := by
  unfold execFence
  refine .issueWith hs ?_
  intro s c ls hs
  split
  · exact hs
  · split
    · exact .advance hs
    · exact .finishFlush (.flush (.ite (.endRetry hs) hs))

theorem CanonicalOut.wbr {h sc a b ofs} (hs : s.Canonical) : CanonicalOut (execWbr h sc a b ofs s) := by
  refine .issueWith hs fun s c ls hs => ?_
  refine .foldlFst ?_ fun _ _ => .finishFlush
  exact .foldlFst (.ite hs (.endRetry hs)) fun _ _ => .flush

theorem State.Canonical.invalidate {c ctx inc deep range} (hs : s.Canonical) : (s.invalidate c ctx inc deep range).Canonical := by
  unfold State.invalidate
  dsimp only
  split <;> exact hs

theorem CanonicalOut.invr {h sc a b ofs} (hs : s.Canonical) : CanonicalOut (execInvr h sc a b ofs s) :=
  .issue hs fun _ _ _ hs => .advance (.foldl hs fun _ _ => .invalidate)

theorem State.Canonical.prefLane {c l2 l va} (hs : s.Canonical) : (s.prefLane c l2 l va).Canonical := by
  unfold State.prefLane
  dsimp only
  split
  · split
    · exact hs
    · split <;> exact hs
  · exact hs

theorem CanonicalOut.pref {h l2 a ofs} (hs : s.Canonical) : CanonicalOut (execPref h l2 a ofs s) :=
  .issue hs fun _ _ _ hs => .advance (.foldl hs fun _ _ => .prefLane)

theorem State.Canonical.settleAcks (hs : s.Canonical) : s.settleAcks.Canonical := .foldl hs fun _ _ => .advance

theorem State.Canonical.acknowledged {r} (hs : s.Canonical) : (s.acknowledged r).Canonical := by
  unfold State.acknowledged
  split
  · exact hs
  · exact .dropReq hs

theorem CanonicalOut.targetAcknowledgement {id} (hs : s.Canonical) : CanonicalOut (execTargetAcknowledgement id s) := by
  unfold execTargetAcknowledgement
  split
  · exact hs
  · dsimp only
    split
    · exact hs
    · refine .ite hs ?_
      split
      · exact .settleAcks (.dropReq hs)
      · exact .ite (.settleAcks (.acknowledged (.writeHome hs))) (.lose (.writeHome hs))
    · refine .ite hs ?_
      split
      · exact .settleAcks (.dropReq hs)
      · exact .ite (.settleAcks (.acknowledged (.writeHome hs))) (.lose (.writeHome hs))
    · refine .ite hs ?_
      split
      · exact .settleAcks (.dropReq hs)
      · exact .ite (.settleAcks (.acknowledged (.writeMasked hs))) (.lose (.writeMasked hs))
    · exact hs

-- Machine/Cells.lean -------------------------------------------------------------------------------------------------

theorem State.Canonical.cellLane {c op acq d p} (hs : s.Canonical) : (s.cellLane c op acq d p).Canonical := by
  unfold State.cellLane
  dsimp only
  split
  · exact .send hs
  · exact hs

theorem CanonicalOut.cellIssue {i h op ord d a b ofs} (hs : s.Canonical) : CanonicalOut (cellIssue i h op ord d a b ofs s) :=
  .issue hs fun _ _ _ hs => .awaitPages (.advance (.foldl (.ite hs (.endRetry hs)) fun _ _ => .cellLane))

theorem CanonicalOut.dinit {h ord d a b ofs} (hs : s.Canonical) : CanonicalOut (execDinit h ord d a b ofs s) := .cellIssue hs

theorem CanonicalOut.dprop {h ord d a b ofs} (hs : s.Canonical) : CanonicalOut (execDprop h ord d a b ofs s) := .cellIssue hs

theorem CanonicalOut.dread {h ord d a b ofs} (hs : s.Canonical) : CanonicalOut (execDread h ord d a b ofs s) := .cellIssue hs

theorem CanonicalOut.drecyc {h ord d a b ofs} (hs : s.Canonical) : CanonicalOut (execDrecyc h ord d a b ofs s) := .cellIssue hs

theorem State.Canonical.performCell {r op d g value} (hs : s.Canonical) : (s.performCell r op d g value).Canonical := by
  unfold State.performCell
  dsimp only
  split
  · split
    · exact hs
    · refine .setReq ?_
      refine .ite ?_ (.ite hs (.writeHome hs))
      exact .ite hs (.writeHome hs)
  · split
    · exact hs
    · refine .setReq ?_
      refine .ite ?_ (.ite hs (.writeHome hs))
      exact .ite hs (.writeHome hs)

theorem State.Canonical.cellAtHome {id} (hs : s.Canonical) : (s.cellAtHome id).Canonical := by
  unfold State.cellAtHome
  split
  · exact hs
  · split
    · split
      · exact .dropReq hs
      · exact .performCell hs
    · exact hs

theorem CanonicalOut.decideOnceHomeAction {id} (hs : s.Canonical) : CanonicalOut (execDecideOnceHomeAction id s) := .cellAtHome hs

theorem CanonicalOut.genHoldExpiry {id} (hs : s.Canonical) : CanonicalOut (execGenHoldExpiry id s) := by
  unfold execGenHoldExpiry
  split
  · split
    · split
      · exact .cellAtHome hs
      · exact hs
    · exact hs
  · exact hs

theorem State.Canonical.installDecided {r g val ident born} (hs : s.Canonical) : (s.installDecided r g val ident born).Canonical := hs

theorem State.Canonical.cellQuad {r res} (hs : s.Canonical) : (s.cellQuad r res).2.Canonical := by
  obtain ⟨R, hR, hr⟩ := State.Canonical.exists_returned
  unfold State.cellQuad
  rw [← hR]
  split
  · exact hr _ _ _ _ _ hs
  · exact hs

theorem State.Canonical.finishCell {r d res} (hs : s.Canonical) : (s.finishCell r d res).Canonical :=
  .ite (.dropReq (.cellQuad hs)) (.deliverAll (.dropReq (.cellQuad hs)))

theorem CanonicalOut.decideOnceResult {id install} (hs : s.Canonical) : CanonicalOut (execDecideOnceResult id install s) := by
  unfold execDecideOnceResult
  split
  · exact hs
  · split
    · exact .finishCell (.ite (.installDecided hs) hs)
    · split
      · exact .dropReq hs
      · split
        · split
          · exact .finishCell (.ite (.installDecided hs) hs)
          · exact hs
        · exact hs
    · exact hs

theorem State.Canonical.peerError {id} (hs : s.Canonical) : (s.peerError id).Canonical := by
  unfold State.peerError
  split
  · exact hs
  · dsimp only
    split
    · split
      · exact .ite (.setReq hs) hs
      · exact .ite (.setReq hs) hs
      · exact .ite (.setReq hs) hs
    · exact hs

theorem CanonicalOut.decidedCopyExpiry {idx} (hs : s.Canonical) : CanonicalOut (execDecidedCopyExpiry idx s) := hs

-- Machine/Control.lean -----------------------------------------------------------------------------------------------

theorem State.Canonical.jump {c ls f} (hs : s.Canonical) : (s.jump c ls f).Canonical := .complete hs

theorem CanonicalOut.nop {h} (hs : s.Canonical) : CanonicalOut (execNop h s) := .issue hs fun _ _ _ => .advance

theorem CanonicalOut.bra {h disp} (hs : s.Canonical) : CanonicalOut (execBra h disp s) := .issue hs fun _ _ _ => .jump

theorem CanonicalOut.brx {h a} (hs : s.Canonical) : CanonicalOut (execBrx h a s) := .issue hs fun _ _ _ => .jump

theorem State.Canonical.link {c ls} (hs : s.Canonical) : (s.link c ls).Canonical := .writeDst hs

theorem CanonicalOut.call {h disp} (hs : s.Canonical) : CanonicalOut (execCall h disp s) := .issue hs fun _ _ _ hs => .jump (.link hs)

theorem CanonicalOut.callx {h a} (hs : s.Canonical) : CanonicalOut (execCallx h a s) := .issue hs fun _ _ _ hs => .jump (.link hs)

theorem CanonicalOut.ret {h a} (hs : s.Canonical) : CanonicalOut (execRet h a s) := .issue hs fun _ _ _ => .jump

theorem CanonicalOut.exit {h} (hs : s.Canonical) : CanonicalOut (execExit h s) := .issue hs fun _ _ _ hs => .ite hs (.exitLanes (.modWarp hs))

theorem CanonicalOut.arj {h d} (hs : s.Canonical) : CanonicalOut (execArj h d s) := .issue hs fun _ _ _ hs => .advance (.setJreg hs)

theorem CanonicalOut.jset {h md d b} (hs : s.Canonical) : CanonicalOut (execJset h md d b s) := by
  unfold execJset
  dsimp only
  refine .issue hs fun s c ls hs => ?_
  split
  · exact hs
  · exact .advance (.setJreg hs)

theorem CanonicalOut.waitj {h a} (hs : s.Canonical) : CanonicalOut (execWaitj h a s) := .issue hs fun _ _ _ hs => .foldl hs fun _ _ => .modThread

theorem CanonicalOut.waitjComplete {core warp} (hs : s.Canonical) : CanonicalOut (execWaitjComplete core warp s) := .ite hs (.advance hs)

theorem State.Canonical.placeSpawn {c slot entry arg t} (hs : s.Canonical) (e : s.placeSpawn c slot entry arg = some t) : t.Canonical := by
  unfold State.placeSpawn at e
  dsimp only at e
  split at e
  · cases e
  · cases e
    exact .setCore hs

theorem CanonicalOut.spawn {h a b} (hs : s.Canonical) : CanonicalOut (execSpawn h a b s) := by
  refine .issue hs fun s c ls hs => .foldl (.ite hs (.endRetry hs)) fun s l hs => ?_
  split
  · rename_i t e
    exact .advance (.placeSpawn hs e)
  · exact .modThread hs

theorem State.Canonical.spawnNow {c w l t} (hs : s.Canonical) (e : s.spawnNow c w l = some t) : t.Canonical := by
  unfold State.spawnNow at e
  split at e
  · exact .placeSpawn hs e
  · cases e

theorem CanonicalOut.spawnPlace {core warp lane} (hs : s.Canonical) : CanonicalOut (execSpawnPlace core warp lane s) := by
  unfold execSpawnPlace
  dsimp only
  split
  · rename_i t e
    exact .ite hs (.advance (.spawnNow hs e))
  · exact hs

theorem State.Canonical.startRegs {c w l share arg} (hs : s.Canonical) : (s.startRegs c w l share arg).Canonical := by
  unfold State.startRegs
  dsimp only
  split
  · exact .setVreg (.ite (.setVreg (.ite (.setVreg hs) hs)) (.ite (.setVreg hs) hs))
  · exact .ite (.setVreg (.ite (.setVreg hs) hs)) (.ite (.setVreg hs) hs)

theorem CanonicalOut.spawnBinLaunch {core bin} (hs : s.Canonical) : CanonicalOut (execSpawnBinLaunch core bin s) := by
  unfold execSpawnBinLaunch
  dsimp only
  split
  · exact hs
  · split
    · split
      · exact hs
      · refine .modCore ?_
        refine .foldl (.setWarp (.foldl hs (fun _ _ hs => hs))) fun s a hs => ?_
        split
        · exact .startRegs (.setThread hs)
        · exact .setThread hs
    · exact hs

theorem CanonicalOut.spawnBinTimer {core bin} (hs : s.Canonical) : CanonicalOut (execSpawnBinTimer core bin s) := by
  unfold execSpawnBinTimer
  dsimp only
  split
  · exact hs
  · split
    · exact hs
    · exact .setCore hs

theorem CanonicalOut.yield {h n} (hs : s.Canonical) : CanonicalOut (execYield h n s) := .issue hs fun _ _ _ hs => .ite hs (.advance (.modWarp hs))

theorem CanonicalOut.yieldExpiry {core warp} (hs : s.Canonical) : CanonicalOut (execYieldExpiry core warp s) := .ite (.modWarp hs) hs

theorem CanonicalOut.trap {h code} (hs : s.Canonical) : CanonicalOut (execTrap h code s) := .issue hs fun _ _ _ hs => hs

theorem CanonicalOut.bkpt {h n} (hs : s.Canonical) : CanonicalOut (execBkpt h n s) := .issue hs fun _ _ _ hs => hs

theorem CanonicalOut.chk {h a} (hs : s.Canonical) : CanonicalOut (execChk h a s) := .issue hs fun _ _ _ => .advance

-- Machine/Barriers.lean ----------------------------------------------------------------------------------------------

theorem State.Canonical.setBar {core win ofs b} (hs : s.Canonical) : (s.setBar core win ofs b).Canonical := hs

theorem State.Canonical.initBar {core win ofs b} (hs : s.Canonical) : (s.initBar core win ofs b).Canonical := hs

theorem State.Canonical.strikeBar {launch core win o} (hs : s.Canonical) : (s.strikeBar launch core win o).Canonical := by
  unfold State.strikeBar
  split
  · split
    · exact .rollback hs
    · exact hs
  · exact hs

theorem CanonicalOut.binit {h sc a b ofs} (hs : s.Canonical) : CanonicalOut (execBinit h sc a b ofs s) :=
  .issue hs fun _ _ _ hs => .advance (.foldl hs fun _ _ => .initBar)

theorem State.Canonical.sendBarrier {c addr act d ls} (hs : s.Canonical) : (s.sendBarrier c addr act d ls).Canonical := by
  unfold State.sendBarrier
  split
  · exact .foldl (.send hs) fun _ _ => .modThread
  · exact hs

theorem CanonicalOut.expect {h rem a b ofs} (hs : s.Canonical) : CanonicalOut (execExpect h rem a b ofs s) := by
  refine .issueWith hs fun s c ls hs => ?_
  dsimp only
  split
  · exact .foldl (.ite hs (.crossTeams hs)) fun _ _ => .sendBarrier
  · split
    · exact .rollback hs
    · refine .foldlFst hs fun p a hp => ?_
      split
      · exact .setBar hp
      · exact .advance (.setBar hp)

theorem CanonicalOut.arrive {h rlx warp rem d a ofs} (hs : s.Canonical) : CanonicalOut (execArrive h rlx warp rem d a ofs s) := by
  refine .issueWith hs fun s c ls hs => ?_
  dsimp only
  split
  · exact .foldl (.ite hs (.crossTeams hs)) fun _ _ => .sendBarrier
  · split
    · exact .rollback hs
    · refine .advance (.writeDst (.foldlFst hs fun p a hp => ?_))
      split <;> exact .setBar hp

theorem State.Canonical.onlyLowest {r} (hs : s.Canonical) : (s.onlyLowest r).Canonical := hs

theorem CanonicalOut.remoteBarrierAction {id} (hs : s.Canonical) : CanonicalOut (execRemoteBarrierAction id s) := by
  unfold execRemoteBarrierAction
  split
  · exact hs
  · split
    · dsimp only
      split
      · exact hs
      · refine .atWindow hs fun m => ?_
        refine .strikeBar ?_
        refine .ite (.dropReq (.setBar (.ite hs (.reached hs)))) ?_
        refine .ite (.takeTraps (.dropReq (.setBar (.ite hs (.reached hs))))) ?_
        refine .advance ?_
        split
        · exact .onlyLowest (.foldl (.dropReq (.setBar (.ite hs (.reached hs)))) fun _ _ => .deliver)
        · exact .dropReq (.setBar (.ite hs (.reached hs)))
    · exact hs

theorem State.Canonical.synchronise {core w ls} (hs : s.Canonical) : (s.synchronise core w ls).Canonical := by
  have h1 : (s.modWarp core w fun k => { k with syncs := k.syncs + 1 }).Canonical := .modWarp hs
  unfold State.synchronise
  split
  · split
    · exact hs
    · dsimp only
      split
      · exact h1
      · split
        · exact h1
        · split
          · exact h1
          · split
            · split
              · split
                · exact .sendStore h1
                · exact h1
              · exact h1
            · split
              · split
                · exact h1
                · exact .takeTraps h1
              · exact h1
  · exact hs

theorem State.Canonical.startCommit {core slot} (hs : s.Canonical) : (s.startCommit core slot).Canonical := .modTeam (.releaseHeld hs)

theorem State.Canonical.endCommit {core slot} (hs : s.Canonical) : (s.endCommit core slot).Canonical := .modTeam hs

theorem State.Canonical.releaseWaits {core slot go} (hs : s.Canonical) (hg : ∀ s, s.Canonical → (go s).Canonical) :
    (s.releaseWaits core slot go).Canonical := by
  unfold State.releaseWaits
  split
  · rename_i t _
    split
    · exact hs
    · split
      · have h1 : (if t.committing then s else s.startCommit core slot).Canonical := .ite hs (.startCommit hs)
        exact .ite (.checkpoint (hg _ (.endCommit h1))) h1
      · exact hg s hs
  · exact hs

theorem CanonicalOut.bwait {h d a b ofs} (hs : s.Canonical) : CanonicalOut (execBwait h d a b ofs s) :=
  .issue hs fun _ _ _ hs => .orRollback hs (.foldl hs fun _ _ => .modThread)

theorem State.Canonical.bwaitResult {core w v ls} (hs : s.Canonical) : (s.bwaitResult core w v ls).Canonical := by
  unfold State.bwaitResult
  refine .foldl hs fun s a hs => ?_
  split
  · exact .setOpd hs
  · exact hs

theorem State.Canonical.endSync {core w ls} (hs : s.Canonical) : (s.endSync core w ls).Canonical := .stepped (.synchronise (.pass hs))

theorem State.Canonical.passBwait {core w ls} (hs : s.Canonical) : (s.passBwait core w ls).Canonical := .endSync (.bwaitResult hs)

theorem CanonicalOut.bwaitComplete {core warp lane} (hs : s.Canonical) : CanonicalOut (execBwaitComplete core warp lane s) := by
  unfold execBwaitComplete
  split
  · exact hs
  · split
    · exact .rollback hs
    · split
      · split
        · exact hs
        · exact .takeTraps hs
      · split
        · exact .releaseWaits hs fun _ => .passBwait
        · exact hs

theorem CanonicalOut.bwaitTimeout {core warp lane} (hs : s.Canonical) : CanonicalOut (execBwaitTimeout core warp lane s) :=
  .ite hs (.ite (.rollback hs) (.advance (.bwaitResult hs)))

theorem CanonicalOut.btest {h d a b ofs} (hs : s.Canonical) : CanonicalOut (execBtest h d a b ofs s) :=
  .issue hs fun _ _ _ hs => .orRollback hs (.advance (.writeDst hs))

theorem State.Canonical.noteArrival {core slot} (hs : s.Canonical) : (s.noteArrival core slot).Canonical := by
  unfold State.noteArrival
  split
  · exact hs
  · exact .modLaunch hs

theorem State.Canonical.endGbar {core slot t l g count} (hs : s.Canonical) : (s.endGbar core slot t l g count).Canonical := by
  unfold State.endGbar
  refine .releaseWaits hs fun s hs => ?_
  refine .foldl hs fun s a hs => ?_
  dsimp only
  refine .endSync ?_
  refine .foldl hs fun s a hs => ?_
  split
  · exact .setOpd hs
  · exact hs

theorem State.Canonical.settleGbars {core slot} (hs : s.Canonical) : (s.settleGbars core slot).Canonical := by
  unfold State.settleGbars
  split
  · exact hs
  · split
    · exact hs
    · exact .foldl hs fun _ _ hs => .ite hs (.ite (.endGbar hs) (.modLaunch (.endGbar hs)))

theorem CanonicalOut.gbar {h k d} (hs : s.Canonical) : CanonicalOut (execGbar h k d s) :=
  .issue hs fun _ _ _ hs => .settleGbars (.noteArrival (.foldl hs fun _ _ => .modThread))

theorem State.Canonical.releaseAway {launch index} (hs : s.Canonical) : (s.releaseAway launch index).Canonical := by
  unfold State.releaseAway
  split
  · split
    · exact .foldl hs fun _ _ => .performHeld
    · exact hs
  · exact hs

theorem State.Canonical.readyMember {launch index} (hs : s.Canonical) : (s.readyMember launch index).Canonical := by
  unfold State.readyMember
  split
  · split
    · exact hs
    · split
      · exact .startCommit hs
      · exact .endRetry hs
  · split
    · exact hs
    · exact .releaseAway hs

theorem CanonicalOut.gbarComplete {launch group} (hs : s.Canonical) : CanonicalOut (execGbarComplete launch group s) := by
  unfold execGbarComplete
  split
  · exact hs
  · split
    · exact hs
    · split
      · exact hs
      · dsimp only
        split
        · exact .foldl hs fun _ _ => .readyMember
        · refine .foldl (.modLaunch (.foldl hs (fun _ _ hs => .readyMember hs))) fun s a hs => ?_
          split
          · exact .settleGbars hs
          · exact hs

theorem CanonicalOut.commit {core team} (hs : s.Canonical) : CanonicalOut (execCommit core team s) := by
  unfold execCommit
  split
  · exact hs
  · dsimp only
    split
    · exact hs
    · split
      · exact .settleGbars hs
      · exact .releaseWaits hs fun _ hs => .foldl hs fun _ _ hs => .foldl hs fun _ _ hs => .ite (.passBwait hs) hs

theorem State.Canonical.strikeCommit {core slot} (hs : s.Canonical) : (s.strikeCommit core slot).Canonical := by
  unfold State.strikeCommit
  split
  · dsimp only
    exact .ite (.failTeam (.ite hs (.startCommit hs))) hs
  · exact hs

-- Machine/Copies.lean ------------------------------------------------------------------------------------------------

theorem State.Canonical.touchWindow {k core win} (hs : s.Canonical) : (s.touchWindow k core win).Canonical := by
  unfold State.touchWindow
  split
  · split
    · exact hs
    · exact .endRetry hs
  · exact hs

theorem State.Canonical.sendUnit {k u a va bs} (hs : s.Canonical) : (s.sendUnit k u a va bs).Canonical := .sendAs hs

theorem State.Canonical.markMoved {k u} (hs : s.Canonical) : (s.markMoved k u).Canonical := hs

theorem State.Canonical.moveUnit {k u} (hs : s.Canonical) : (s.moveUnit k u).Canonical := by
  refine .ite (.markMoved hs) ?_
  split
  · split
    · split
      · exact .ite (.writeHome hs) (.markMoved (.writeHome hs))
      · exact .sendUnit hs
    · exact .markMoved hs
  · exact .ite (.touchWindow (.markMoved hs)) (.touchWindow (.markMoved hs))
  · exact .markMoved hs

theorem State.Canonical.askCopy {k va} (hs : s.Canonical) : (s.askCopy k va).Canonical := by
  unfold State.askCopy
  dsimp only
  split <;> exact hs

theorem State.Canonical.runUnits {id n u} (hs : s.Canonical) : (State.runUnits id n u s).1.Canonical := by
  induction n generalizing s u with
  | zero => exact hs
  | succ n ih =>
    unfold State.runUnits
    split
    · exact hs
    · split
      · exact ih hs
      · split
        · dsimp only
          split
          · exact .rollback hs
          · exact ih (.moveUnit hs)
        · exact hs
        · exact .askCopy hs
        · exact hs

theorem State.Canonical.readDescriptor {k r} (hs : s.Canonical) (e : s.readDescriptor k = some r) : r.1.Canonical := by
  obtain ⟨R, hR, hr⟩ := State.Canonical.exists_returned
  unfold State.readDescriptor at e
  rw [← hR] at e
  split at e
  · split at e
    · split at e
      · split at e
        · cases e
          exact hs
        · cases e
          exact hr _ _ _ _ _ hs
      · cases e
        exact hs
    · cases e
      exact hs
    · cases e
      exact .askCopy hs
    · cases e
      exact hs
  · cases e

theorem State.Canonical.postCopy {k n err} (hs : s.Canonical) : (s.postCopy k n err).Canonical := by
  unfold State.postCopy
  split
  · exact hs
  · split
    · split
      · exact hs
      · exact .setBar hs
    · exact .sendAs hs

theorem State.Canonical.endCopy {k code moved} (hs : s.Canonical) : (s.endCopy k code moved).Canonical := by
  unfold State.endCopy
  extract_lets s1 s2 s3 s4
  have h4 : s4.Canonical := by
    refine .settleCopy ?_
    unfold s3
    split
    · exact .ite (.postCopy hs) (.deliver (.postCopy hs))
    · exact .postCopy hs
  split
  · exact .ite (.strikeBar h4) h4
  · exact h4

theorem CanonicalOut.copyComplete {id} (hs : s.Canonical) : CanonicalOut (execCopyComplete id s) := by
  unfold execCopyComplete
  split
  · exact hs
  · split
    · exact hs
    · split
      · exact .settleCopy hs
      · split
        · rename_i e
          exact .endCopy (.readDescriptor hs e)
        · rename_i e
          exact .readDescriptor hs e
        · split
          · exact .endCopy hs
          · dsimp only
            split
            · exact .runUnits hs
            · exact .endCopy (.runUnits hs)
            · exact .runUnits hs

theorem State.Canonical.copyUnit {id u} (hs : s.Canonical) : (s.copyUnit id u).Canonical := by
  unfold State.copyUnit
  split
  · exact hs
  · dsimp only
    exact .ite hs (.runUnits (.ite hs hs))

theorem State.Canonical.startCopy {c l d job post} (hs : s.Canonical) : (s.startCopy c l d job post).Canonical := hs

theorem State.Canonical.reachedBy {launch job} (hs : s.Canonical) : (s.reachedBy launch job).Canonical := by
  unfold State.reachedBy
  split
  · split
    · exact .reached hs
    · exact hs
  · exact hs

theorem CanonicalOut.cpy {h dk sk post d a b cc} (hs : s.Canonical) : CanonicalOut (execCpy h dk sk post d a b cc s) :=
  .issue hs fun _ _ _ hs => .advance (.foldl (.ite hs (.ite (.crossTeams hs) hs)) fun _ _ hs => .startCopy (.ite (.reachedBy hs) hs))

theorem CanonicalOut.cpyt {h post d a b cc} (hs : s.Canonical) : CanonicalOut (execCpyt h post d a b cc s) :=
  .issue hs fun _ _ _ hs => .advance (.foldl hs fun _ _ => .startCopy)

-- Machine/Fetch.lean -------------------------------------------------------------------------------------------------

theorem State.Canonical.codeFill {c ctx inc va len} (hs : s.Canonical) : (s.codeFill c ctx inc va len).Canonical := by
  unfold State.codeFill
  split
  · exact hs
  · split
    · dsimp only
      exact .ite hs (.ite (.recordLease hs) (.modCore (.recordLease hs)))
    · exact hs

theorem State.Canonical.takeCode {c ctx inc va n} (hs : s.Canonical) : (s.takeCode c ctx inc va n).Canonical := .codeFill (.codeFill hs)

-- Machine/SeqCore.lean -----------------------------------------------------------------------------------------------

theorem State.Canonical.setSlotRow {c n row bs bad} (hs : s.Canonical) : (s.setSlotRow c n row bs bad).Canonical := hs

theorem State.Canonical.setTileRow {c tile row tag ws} (hs : s.Canonical) : (s.setTileRow c tile row tag ws).Canonical :=
  .foldl hs fun _ _ => .setTileWord

theorem State.Canonical.readStores {c} (hs : s.Canonical) : (s.readStores c).Canonical := .modSeq hs

theorem State.Canonical.landRow {c p j ws} (hs : s.Canonical) : (s.landRow c p j ws).Canonical := by
  unfold State.landRow
  dsimp only
  split
  · exact .foldl hs fun _ _ hs => .ite hs (.modSeq (.setTileRow hs))
  · exact .foldl hs fun _ _ hs => .ite hs (.setTileRow hs)
  · exact .foldl hs fun _ _ hs => .ite hs (.setSlotRow hs)

theorem State.Canonical.landPend {c p} (hs : s.Canonical) : (s.landPend c p).Canonical := .modSeq (.foldl hs fun _ _ => .landRow)

theorem State.Canonical.landDue {c} (hs : s.Canonical) : (s.landDue c).Canonical := .readStores (.foldl (.modSeq hs) fun _ _ => .landPend)

theorem State.Canonical.resumeSeq {c r act} (hs : s.Canonical) : (s.resumeSeq c r act).Canonical := by
  unfold State.resumeSeq
  dsimp only
  split
  · exact .modSeq hs
  · split
    · exact .modSeq (.landDue hs)
    · exact .teamEnd (.modSeq hs)
  · exact .teamEnd (.modSeq hs)
  · split
    · exact .faultLaunch hs
    · exact hs

theorem State.Canonical.endEvent {c e act} (hs : s.Canonical) : (s.endEvent c e act).Canonical := by
  unfold State.endEvent
  dsimp only
  split
  · split
    · exact .resumeSeq (.thaw hs)
    · exact .thaw hs
  · refine .foldl (.thaw hs) fun s a hs => ?_
    split
    · exact .resumeLane hs
    · exact hs

theorem State.Canonical.seqFault {c cause seg idx bits whr} (hs : s.Canonical) : (s.seqFault c cause seg idx bits whr).Canonical :=
  .modCore (.modSeq hs)

theorem CanonicalOut.slotWord {slot chk stalls act} (hs : s.Canonical) (ha : ∀ s b, s.Canonical → (act s b).Canonical) :
    CanonicalOut (slotWord slot chk stalls act s) := by
  unfold Machine.slotWord
  split
  · exact hs
  · split
    · exact hs
    · exact ha s _ hs

theorem CanonicalOut.plainWord {slot chk act} (hs : s.Canonical) (ha : ∀ s b, s.Canonical → (act s b).Canonical) :
    CanonicalOut (plainWord slot chk act s) := .slotWord hs ha

theorem State.Canonical.setBun {b} (hs : s.Canonical) : (s.setBun b).Canonical := hs

theorem State.Canonical.modBun {f} (hs : s.Canonical) : (s.modBun f).Canonical := hs

theorem CanonicalOut.runWords {ex is} (hx : ∀ i s, s.Canonical → CanonicalOut (ex i s)) (hs : s.Canonical) : CanonicalOut (runWords ex is s) := by
  induction is generalizing s with
  | nil => exact hs
  | cons i is ih =>
    unfold Machine.runWords
    split
    · rename_i e
      exact ih ((hx i s hs).of_eq e)
    · exact hx i s hs

theorem State.Canonical.closeBundle (hs : s.Canonical) : s.closeBundle.Canonical := by
  unfold State.closeBundle
  split
  · exact hs
  · exact .ite (.teamEnd (.readStores hs)) (.readStores hs)

theorem CanonicalOut.runReady {ex c s0} (hx : ∀ i s, s.Canonical → CanonicalOut (ex i s)) (h0 : s0.Canonical) (hs : s.Canonical) :
    CanonicalOut (runReady ex c s0 s) := by
  unfold Machine.runReady
  dsimp only
  split
  · rename_i s1 e
    have h1 : s1.Canonical := (CanonicalOut.runWords hx (.setBun hs)).of_eq e
    split
    · exact h1
    · split
      · exact .modSeq h0
      · split
        · exact .ite (.rollback h0) (.seqFault h0)
        · split
          · rename_i e2
            exact .closeBundle ((CanonicalOut.runWords hx (.setBun (.modSeq h1))).of_eq e2)
          · exact .runWords hx (.setBun (.modSeq h1))
  · exact .runWords hx (.setBun hs)

theorem State.Canonical.reach {c n} (hs : s.Canonical) : (s.reach c n).1.Canonical := by
  induction n generalizing s with
  | zero => exact hs
  | succ n ih =>
    unfold State.reach
    dsimp only
    split
    · exact hs
    · exact .seqFault hs
    · exact ih (.modSeq hs)
    · split
      · exact .modSeq (.seqFault (.modSeq hs))
      · exact .modSeq hs

theorem CanonicalOut.runBundle {ex c} (hx : ∀ i s, s.Canonical → CanonicalOut (ex i s)) (hs : s.Canonical) : CanonicalOut (runBundle ex c s) := by
  have h1 : (s.reach c 2).1.Canonical := .reach hs
  unfold Machine.runBundle
  split
  · exact hs
  · split
    · rename_i e
      rw [e] at h1
      exact h1
    · rename_i e
      rw [e] at h1
      exact .runReady hx h1 (.landDue h1)

-- Machine/SeqC.lean --------------------------------------------------------------------------------------------------

theorem CanonicalOut.yWord {yd f} (hs : s.Canonical) : CanonicalOut (yWord yd f s) :=
  .plainWord hs fun _ _ hs => .modSeq hs

theorem CanonicalOut.cnop (hs : s.Canonical) : CanonicalOut (execCnop s) := .plainWord hs fun _ _ hs => hs

theorem CanonicalOut.yadd {yd ya x} (hs : s.Canonical) : CanonicalOut (execYadd yd ya x s) := .yWord hs

theorem CanonicalOut.ysub {yd ya x} (hs : s.Canonical) : CanonicalOut (execYsub yd ya x s) := .yWord hs

theorem CanonicalOut.ymov {yd x} (hs : s.Canonical) : CanonicalOut (execYmov yd x s) := .yWord hs

theorem CanonicalOut.yshl {yd ya x} (hs : s.Canonical) : CanonicalOut (execYshl yd ya x s) := .yWord hs

theorem CanonicalOut.ycmp {cc bd ya x} (hs : s.Canonical) : CanonicalOut (execYcmp cc bd ya x s) := .plainWord hs fun _ _ => .modSeq

theorem CanonicalOut.sbr {seg idx} (hs : s.Canonical) : CanonicalOut (execSbr seg idx s) := .plainWord hs fun _ _ => .modBun

theorem CanonicalOut.sbrc {neg bp seg idx} (hs : s.Canonical) : CanonicalOut (execSbrc neg bp seg idx s) := .plainWord hs fun _ _ => .modBun

theorem CanonicalOut.stake {tn tb} (hs : s.Canonical) : CanonicalOut (execStake tn tb s) := by
  unfold execStake
  dsimp only
  refine .slotWord ?_ (fun _ _ hs => .modSeq (.setOwners hs))
  split
  · exact .modBun hs
  · exact hs

theorem CanonicalOut.sgive {tn tb rc} (hs : s.Canonical) : CanonicalOut (execSgive tn tb rc s) := .plainWord hs fun _ _ hs => .modSeq (.giveTiles hs)

theorem CanonicalOut.sarrive {ya} (hs : s.Canonical) : CanonicalOut (execSarrive ya s) := .plainWord hs fun _ _ => .modSeq

theorem CanonicalOut.swait {yd ya yb iv} (hs : s.Canonical) : CanonicalOut (execSwait yd ya yb iv s) := .slotWord hs fun _ _ => .modSeq

theorem CanonicalOut.sfence (hs : s.Canonical) : CanonicalOut (execSfence s) := .plainWord hs fun _ _ => .modSeq

theorem CanonicalOut.retireWord {act} (hs : s.Canonical) : CanonicalOut (retireWord act s) := by
  unfold Machine.retireWord
  refine .plainWord ?_ (fun _ _ hs => .modBun hs)
  split
  · split
    · exact .modBun hs
    · exact hs
  · exact hs

theorem CanonicalOut.retirept (hs : s.Canonical) : CanonicalOut (execRetirept s) := .retireWord hs

theorem CanonicalOut.shalt (hs : s.Canonical) : CanonicalOut (execShalt s) := .retireWord hs

theorem CanonicalOut.unassignedSlotOpcode {slot _opc} (hs : s.Canonical) : CanonicalOut (execUnassignedSlotOpcode slot _opc s) :=
  .plainWord hs fun _ _ hs => hs

-- Machine/SeqM.lean --------------------------------------------------------------------------------------------------

theorem CanonicalOut.mnop (hs : s.Canonical) : CanonicalOut (execMnop s) := .plainWord hs fun _ _ hs => hs

theorem CanonicalOut.mbeat {push feed acc drain swap} (hs : s.Canonical) : CanonicalOut (execMbeat push feed acc drain swap s) :=
  .slotWord hs fun _ _ hs => .modBun (.modSeq hs)

theorem CanonicalOut.mswap (hs : s.Canonical) : CanonicalOut (execMswap s) := .plainWord hs fun _ _ => .modBun

theorem CanonicalOut.mzero (hs : s.Canonical) : CanonicalOut (execMzero s) := .plainWord hs fun _ _ => .modBun

theorem CanonicalOut.mcfg {md af wf nk} (hs : s.Canonical) : CanonicalOut (execMcfg md af wf nk s) := .plainWord hs fun _ _ => .modBun

theorem CanonicalOut.xnop (hs : s.Canonical) : CanonicalOut (execXnop s) := .plainWord hs fun _ _ hs => hs

theorem CanonicalOut.xWordExec {e bias clamp} (hs : s.Canonical) : CanonicalOut (xWordExec e bias clamp s) := .plainWord hs fun _ _ => .modSeq

theorem CanonicalOut.xscale {e bias clamp} (hs : s.Canonical) : CanonicalOut (execXscale e bias clamp s) := .xWordExec hs

theorem CanonicalOut.xbias {bias clamp} (hs : s.Canonical) : CanonicalOut (execXbias bias clamp s) := .xWordExec hs

theorem CanonicalOut.xsat {clamp} (hs : s.Canonical) : CanonicalOut (execXsat clamp s) := .xWordExec hs

-- Machine/SeqK.lean --------------------------------------------------------------------------------------------------

theorem CanonicalOut.knop (hs : s.Canonical) : CanonicalOut (execKnop s) := .plainWord hs fun _ _ hs => hs

theorem CanonicalOut.kclaim {n} (hs : s.Canonical) : CanonicalOut (execKclaim n s) := .plainWord hs fun _ _ => .modSeq

theorem CanonicalOut.krel {n} (hs : s.Canonical) : CanonicalOut (execKrel n s) := .plainWord hs fun _ _ => .modSeq

theorem CanonicalOut.kfill {n row nr src} (hs : s.Canonical) : CanonicalOut (execKfill n row nr src s) := by
  unfold execKfill
  exact .slotWord hs fun _ _ => .modSeq

theorem CanonicalOut.kstore {n row nr dst} (hs : s.Canonical) : CanonicalOut (execKstore n row nr dst s) := .plainWord hs fun _ _ => .modSeq

theorem State.Canonical.landKRow {c t k i row} (hs : s.Canonical) : (s.landKRow c t k i row).Canonical := by
  unfold State.landKRow
  split
  · exact .ite hs (.setSlotRow hs)
  · exact .ite hs (.setSlotRow hs)
  · exact .ite hs (.setSlotRow hs)
  · exact .scrWrite hs
  · exact .ite hs (.setTileRow hs)
  · exact hs

theorem CanonicalOut.kTransferLanded {core kid} (hs : s.Canonical) : CanonicalOut (execKTransferLanded core kid s) := by
  unfold execKTransferLanded
  dsimp only
  split
  · split
    · exact hs
    · split
      · exact .ite hs (.ite (.rollback (.modSeq hs)) (.teamEnd (.setBar (.modSeq hs))))
      · split
        · split
          · exact .rollback (.modSeq hs)
          · exact .teamEnd (.readStores (.modSeq (.foldl (.modSeq hs) fun _ _ => .landKRow)))
        · split
          · exact .rollback (.modSeq hs)
          · exact .teamEnd (.readStores (.modSeq (.foldl (.modSeq hs) fun _ _ => .landKRow)))
  · exact hs

theorem CanonicalOut.seqInterlockRelease {core} (hs : s.Canonical) : CanonicalOut (execSeqInterlockRelease core s) := .ite (.modSeq hs) hs

theorem CanonicalOut.swaitTimeout {core} (hs : s.Canonical) : CanonicalOut (execSwaitTimeout core s) := .ite (.modSeq hs) hs

theorem CanonicalOut.wsRefreshWindow (hs : s.Canonical) : CanonicalOut (execWsRefreshWindow s) := .foldl hs fun _ _ hs => .ite (.modSeq hs) hs

theorem State.Canonical.askSeq {c va} (hs : s.Canonical) : (s.askSeq c va).Canonical := .modSeq hs

theorem CanonicalOut.segmentExpansion {core} (hs : s.Canonical) : CanonicalOut (execSegmentExpansion core s) := by
  unfold execSegmentExpansion
  dsimp only
  split
  · split
    · exact hs
    · split
      · exact .modSeq hs
      · split
        · exact .modSeq hs
        · exact .askSeq hs
  · exact hs

theorem CanonicalOut.seqStop {core} (hs : s.Canonical) : CanonicalOut (execSeqStop core s) := .ite (.reach hs) hs

-- Machine/MemEvents.lean ---------------------------------------------------------------------------------------------

theorem CanonicalOut.leaseGrant {id len} (hs : s.Canonical) : CanonicalOut (execLeaseGrant id len s) := by
  unfold execLeaseGrant
  split
  · exact hs
  · split
    · split
      · exact hs
      · split
        · exact .dropReq hs
        · split
          · exact hs
          · exact .setReq (.recordLease hs)
    · exact hs

theorem CanonicalOut.leaseExpiry {core idx} (hs : s.Canonical) : CanonicalOut (execLeaseExpiry core idx s) := by
  unfold execLeaseExpiry
  split
  · split
    · exact hs
    · exact .modCore hs
  · exact hs

theorem CanonicalOut.leaseWritePerform {id} (hs : s.Canonical) : CanonicalOut (execLeaseWritePerform id s) := by
  unfold execLeaseWritePerform
  split
  · exact hs
  · split
    · split
      · exact hs
      · split
        · exact .dropReq hs
        · split
          · exact hs
          · exact .dropReq (.writeHome hs)
    · exact hs

theorem State.Canonical.softFill {r} (hs : s.Canonical) : (s.softFill r).2.2.Canonical := by
  have h1 : (s.softFetch (dieOf r.core) r.ctx r.inc r.attr r.va r.pa).2.2.Canonical := .softFetch hs
  unfold State.softFill
  generalize s.softFetch (dieOf r.core) r.ctx r.inc r.attr r.va r.pa = q at h1 ⊢
  obtain ⟨d, p, s1⟩ := q
  exact .ite (.ite (.otherKey hs) h1) (.putL1 (.ite (.otherKey hs) h1))

theorem CanonicalOut.fillArrival {id} (hs : s.Canonical) : CanonicalOut (execFillArrival id s) := by
  unfold execFillArrival
  split
  · exact hs
  · split
    · exact .ite (.dropReq hs) (.setReq (.ite hs (.putL1 hs)))
    · split
      · exact hs
      · split
        · exact .dropReq hs
        · exact .ite (.lose hs) (.ite (.dropReq hs) (.ite (.dropReq (.softFill hs)) (.setReq (.softFill hs))))
    · exact hs

theorem State.Canonical.sendEviction {x} (hs : s.Canonical) : (s.sendEviction x).Canonical := hs

theorem State.Canonical.evictL2 {idx x} (hs : s.Canonical) : (s.evictL2 idx x).Canonical := by
  unfold State.evictL2
  dsimp only
  split
  · exact hs
  · split
    · exact .machineCheck hs
    · split
      · exact .homeL2 hs
      · exact .sendEviction hs

theorem CanonicalOut.evictionWriteback {core idx} (hs : s.Canonical) : CanonicalOut (execEvictionWriteback core idx s) := by
  unfold execEvictionWriteback
  split
  · split
    · split
      · exact .evictL2 hs
      · exact hs
    · exact hs
  · split
    · exact hs
    · dsimp only
      split
      · exact .modCore hs
      · split
        · exact .machineCheck (.modCore hs)
        · exact .softToDie (.modCore hs)

theorem CanonicalOut.translationWalk {die tag va} (hs : s.Canonical) : CanonicalOut (execTranslationWalk die tag va s) := by
  unfold execTranslationWalk
  dsimp only
  split
  · exact hs
  · split <;> exact hs

theorem State.Canonical.answerThreads {p ok c w lanes} (hs : s.Canonical) : (s.answerThreads p ok c w lanes).Canonical :=
  .ite (.foldl hs fun _ _ => .modThread) (.takeTraps (.ite (.foldl hs fun _ _ => .modThread) hs))

theorem State.Canonical.answerPage {p ok} (hs : s.Canonical) : (s.answerPage p ok).Canonical := by
  unfold State.answerPage
  dsimp only
  split
  · exact .answerThreads hs
  · exact .ite (.modSeq hs) hs
  · exact hs
  · exact .ite (.setQueue hs) hs
  · exact .ite (.modCore hs) hs

theorem CanonicalOut.pageRequestResponse {id success} (hs : s.Canonical) : CanonicalOut (execPageRequestResponse id success s) := by
  unfold execPageRequestResponse
  split
  · exact hs
  · split
    · exact .answerPage hs
    · exact hs

theorem State.Canonical.timeoutReq {r} (hs : s.Canonical) : (s.timeoutReq r).Canonical := by
  refine .ite hs ?_
  split
  · split
    · exact .dropReq hs
    · exact .hintAt (.deferAt (.deliverAll (.dropReq hs)))
  · exact .ite (.dropReq hs) (.deferAt (.deliverAll (.dropReq hs)))
  · exact .finishCell hs
  · exact .machineCheck (.settleAcks (.dropReq hs))
  · exact .machineCheck (.settleAcks (.dropReq hs))
  · exact hs
  · exact hs

theorem State.Canonical.timeoutCopy {k hit} (hs : s.Canonical) : (s.timeoutCopy k hit).Canonical := by
  unfold State.timeoutCopy
  dsimp only
  split <;> exact hs

theorem State.Canonical.timeoutAll {hit} (hs : s.Canonical) : (s.timeoutAll hit).Canonical :=
  .foldl (.foldl hs fun _ _ hs => .ite (.timeoutReq hs) hs) fun _ _ => .timeoutCopy

theorem CanonicalOut.portTimeout {id} (hs : s.Canonical) : CanonicalOut (execPortTimeout id s) := by
  unfold execPortTimeout
  split
  · split
    · exact hs
    · exact .timeoutReq hs
    · exact .ite hs (.timeoutReq hs)
  · exact .timeoutCopy hs
  · exact .answerPage hs
  · exact hs

-- Machine/Queues.lean ------------------------------------------------------------------------------------------------

theorem State.Canonical.askQueue {q va} (hs : s.Canonical) : (s.askQueue q va).Canonical := .setQueue hs

theorem State.Canonical.consume {q slot ridx} (hs : s.Canonical) : (s.consume q slot ridx).Canonical := .setQueue (.writeVirt (.writeVirt hs))

theorem State.Canonical.finishPacket {q slot ridx pk status detail done} (hs : s.Canonical) :
    (s.finishPacket q slot ridx pk status detail done).Canonical :=
  .consume (.writeRecord hs)

theorem State.Canonical.takeLaunch {q slot ridx pk} (hs : s.Canonical) : (s.takeLaunch q slot ridx pk).Canonical := by
  unfold State.takeLaunch
  split
  · exact hs
  · split
    · exact .finishPacket hs
    · exact .askQueue hs
    · exact .askQueue hs
    · exact .finishPacket hs
    · exact .consume (.setLaunch (.fresh hs))

theorem State.Canonical.takeCopy {q slot ridx pk} (hs : s.Canonical) : (s.takeCopy q slot ridx pk).Canonical := .consume hs

theorem State.Canonical.takeFence {q slot ridx pk} (hs : s.Canonical) : (s.takeFence q slot ridx pk).Canonical := .ite (.finishPacket hs) hs

theorem State.Canonical.beginWeights {q slot ridx pk} (hs : s.Canonical) : (s.beginWeights q slot ridx pk).Canonical := .ite hs (.setQueue hs)

theorem State.Canonical.putWeights {core ofs rows} (hs : s.Canonical) : (s.putWeights core ofs rows).Canonical :=
  .foldl hs fun _ _ hs => .writeWstore hs _ _

theorem State.Canonical.endWeights {q slot ridx pk} (hs : s.Canonical) : (s.endWeights q slot ridx pk).Canonical := by
  unfold State.endWeights
  dsimp only
  split
  · exact .askQueue hs
  · exact .finishPacket (.foldl hs fun _ _ => .putWeights)

theorem State.Canonical.atHead {q act} (hs : s.Canonical) (ha : ∀ s slot ridx pk, s.Canonical → (act s slot ridx pk).Canonical) :
    (s.atHead q act).Canonical := by
  unfold State.atHead
  split
  · exact hs
  · split
    · exact hs
    · exact .setQueue hs
    · exact .askQueue hs
    · exact .ite hs (ha s _ _ _ hs)

theorem State.Canonical.onType {q ty act} (hs : s.Canonical) (ha : ∀ s slot ridx pk, s.Canonical → (act s slot ridx pk).Canonical) :
    (s.onType q ty act).Canonical :=
  .atHead hs fun s _ _ _ hs => .ite (ha s _ _ _ hs) hs

theorem CanonicalOut.queuePacketConsume {q} (hs : s.Canonical) : CanonicalOut (execQueuePacketConsume q s) := by
  unfold execQueuePacketConsume
  refine .atHead hs fun s slot ridx pk hs => ?_
  split
  · exact .finishPacket hs
  · split
    · exact .takeLaunch hs
    · exact .takeCopy hs
    · exact .takeFence hs
    · exact .ite (.endWeights hs) (.beginWeights hs)

theorem CanonicalOut.launchPacket {q} (hs : s.Canonical) : CanonicalOut (execLaunchPacket q s) := .onType hs fun _ _ _ _ => .takeLaunch

theorem CanonicalOut.copyPacket {q} (hs : s.Canonical) : CanonicalOut (execCopyPacket q s) := .onType hs fun _ _ _ _ => .takeCopy

theorem CanonicalOut.reclaimFence {q} (hs : s.Canonical) : CanonicalOut (execReclaimFence q s) := .onType hs fun _ _ _ _ => .takeFence

theorem CanonicalOut.weightStoreWrite {q} (hs : s.Canonical) : CanonicalOut (execWeightStoreWrite q s) := .onType hs fun _ _ _ _ => .beginWeights

theorem CanonicalOut.weightStoreWriteDone {q} (hs : s.Canonical) : CanonicalOut (execWeightStoreWriteDone q s) :=
  .onType hs fun _ _ _ _ hs => .ite (.endWeights hs) hs

theorem CanonicalOut.copyPacketComplete {id} (hs : s.Canonical) : CanonicalOut (execCopyPacketComplete id s) := by
  unfold execCopyPacketComplete
  split
  · exact hs
  · split
    · exact hs
    · split
      · exact hs
      · dsimp only
        split
        · exact .runUnits hs
        · exact .ite (.runUnits hs) (.writeRecord (.runUnits hs))
        · exact .runUnits hs

theorem CanonicalOut.queueSwitch {die} (hs : s.Canonical) : CanonicalOut (execQueueSwitch die s) := by
  unfold execQueueSwitch
  dsimp only
  split
  · exact hs
  · split
    · exact .setQueue hs
    · split
      · exact .setQueue (.setQueue hs)
      · exact hs

-- Machine/Launches.lean ----------------------------------------------------------------------------------------------

theorem State.Canonical.startWarp {l c slot w tbase} (hs : s.Canonical) : (s.startWarp l c slot w tbase).Canonical :=
  .foldl (.setWarp (.setOwners hs)) fun _ _ hs => .startRegs (.setThread hs)

theorem State.Canonical.startTeam {launch l index p} (hs : s.Canonical) : (s.startTeam launch l index p).Canonical := by
  unfold State.startTeam
  dsimp only
  split
  · exact .checkpoint (.ite (.foldl hs fun _ _ => .startWarp) (.foldl hs fun _ _ => .startWarp))
  · split <;> exact .foldl hs fun _ _ => .startWarp

theorem State.Canonical.startCluster {launch l places} (hs : s.Canonical) : (s.startCluster launch l places).Canonical :=
  .ite (.modLaunch (.foldl hs fun _ _ => .startTeam)) hs

theorem State.Canonical.wakeWarps {c ws} (hs : s.Canonical) : (s.wakeWarps c ws).Canonical :=
  .foldl hs fun _ _ hs => .foldl (.modWarp hs) fun _ _ => .modThread

theorem State.Canonical.resumeTeam {i} (hs : s.Canonical) : (s.resumeTeam i).Canonical := by
  unfold State.resumeTeam
  dsimp only
  split
  · exact .installTeam hs
  · exact .settleRollback (.settleGbars (.settleAcks (.ite (.modSeq (.modTeam (.wakeWarps (.installTeam hs))))
      (.modTeam (.wakeWarps (.installTeam hs))))))

theorem State.Canonical.resumeCluster {launch l} (hs : s.Canonical) : (s.resumeCluster launch l).Canonical := by
  unfold State.resumeCluster
  split
  · exact hs
  · exact .foldl hs fun _ _ => .resumeTeam

theorem CanonicalOut.teamStart {launch places} (hs : s.Canonical) : CanonicalOut (execTeamStart launch places s) := by
  unfold execTeamStart
  split
  · exact hs
  · split
    · exact hs
    · split
      · exact .resumeCluster hs
      · exact .startCluster hs

theorem State.Canonical.swapCluster {launch l index} (hs : s.Canonical) : (s.swapCluster launch l index).Canonical := by
  unfold State.swapCluster
  dsimp only
  split
  · refine .foldl (.foldl hs (fun _ _ hs => .ite (.modSeq hs) hs)) fun s a hs => ?_
    split
    · exact .removeTeam hs
    · exact hs
  · exact .foldl hs fun _ _ hs => .ite (.modSeq hs) hs

theorem State.Canonical.keepCluster {launch l index} (hs : s.Canonical) : (s.keepCluster launch l index).Canonical :=
  .foldl hs fun _ _ hs => .ite (.modSeq hs) hs

theorem CanonicalOut.teamSliceExpiry {core team} (hs : s.Canonical) : CanonicalOut (execTeamSliceExpiry core team s) := by
  unfold execTeamSliceExpiry
  split
  · exact hs
  · split
    · exact hs
    · dsimp only
      exact .ite (.swapCluster hs) (.ite hs (.keepCluster hs))

theorem State.Canonical.drainSoft {launch} (hs : s.Canonical) : (s.drainSoft launch).Canonical := by
  unfold State.drainSoft
  dsimp only
  refine .foldl (.foldl hs (fun _ _ hs => .foldl hs (fun _ _ hs => .ite hs (.ite (.softToDie (.dropL1 hs)) (.machineCheck (.dropL1 hs))))))
    fun s a hs => ?_
  split
  · split
    · split
      · exact .evictL2 hs
      · exact hs
    · exact hs
  · exact hs

theorem State.Canonical.writeFailures {l} (hs : s.Canonical) : (s.writeFailures l).Canonical := .ite (.writeVirt hs) hs

theorem State.Canonical.dropLaunch {launch} (hs : s.Canonical) : (s.dropLaunch launch).Canonical := hs

theorem State.Canonical.launchRecord {l} (hs : s.Canonical) : (s.launchRecord l).Canonical := .writeRecord (.writeFailures hs)

theorem CanonicalOut.launchComplete {launch} (hs : s.Canonical) : CanonicalOut (execLaunchComplete launch s) := by
  unfold execLaunchComplete
  split
  · exact hs
  · split
    · exact hs
    · split
      · exact hs
      · split
        · exact .drainSoft hs
        · split
          · exact hs
          · exact .dropLaunch (.launchRecord hs)

-- Machine/Contexts.lean ----------------------------------------------------------------------------------------------

theorem State.Canonical.setRes {ctx r} (hs : s.Canonical) : (s.setRes ctx r).Canonical := .modCtx hs

theorem State.Canonical.command {fn ctx go} (hs : s.Canonical) (hg : ∀ c, (go c).Canonical) : (s.command fn ctx go).Canonical := .ite hs (hg _)

theorem State.Canonical.doCreate {fn ctx inc} (hs : s.Canonical) : (s.doCreate fn ctx inc).Canonical :=
  .command hs fun _ => .ite (.setRes hs) (.ite (.setRes hs) (.ite (.setRes hs) (.setCtx hs)))

theorem CanonicalOut.create {fn ctx inc} (hs : s.Canonical) : CanonicalOut (execCreate fn ctx inc s) := .doCreate hs

theorem State.Canonical.advanceLive {ctx} (hs : s.Canonical) : (s.advanceLive ctx).Canonical := .modCtx hs

theorem State.Canonical.haltContext {ctx} (hs : s.Canonical) : (s.haltContext ctx).Canonical := by
  unfold State.haltContext
  dsimp only
  split <;> exact .foldl hs fun _ _ hs => .discardTeams (.modLaunch hs)

theorem State.Canonical.stopCopies {ctx} (hs : s.Canonical) : (s.stopCopies ctx).Canonical := hs

theorem State.Canonical.doKill {fn ctx} (hs : s.Canonical) : (s.doKill fn ctx).Canonical :=
  .command hs fun _ => .ite (.setRes hs) (.ite (.setRes hs) (.modCtx (.haltContext (.advanceLive hs))))

theorem CanonicalOut.kill {fn ctx} (hs : s.Canonical) : CanonicalOut (execKill fn ctx s) := .doKill hs

theorem State.Canonical.learnAt {ctx cp} (hs : s.Canonical) : (s.learnAt ctx cp).Canonical := by
  unfold State.learnAt
  dsimp only
  split
  · exact hs
  · split
    · exact hs
    · split <;> exact hs

theorem State.Canonical.learn {ctx cp} (hs : s.Canonical) : (s.learn ctx cp).Canonical := .ite (.learnAt (.modCtx hs)) hs

theorem State.Canonical.killRecord {ctx launch l} (hs : s.Canonical) : (s.killRecord ctx launch l).Canonical := by
  unfold State.killRecord
  split
  · exact hs
  · split
    · exact .drainSoft hs
    · split
      · split
        · exact .dropLaunch (.launchRecord hs)
        · exact hs
      · split
        · exact .dropLaunch (.writeRecord hs)
        · exact hs

theorem State.Canonical.killWeights {q} (hs : s.Canonical) : (s.killWeights q).Canonical := by
  unfold State.killWeights
  split
  · split
    · exact .finishPacket hs
    · exact hs
  · exact .setQueue hs

theorem State.Canonical.killRecords {ctx} (hs : s.Canonical) : (s.killRecords ctx).Canonical := by
  unfold State.killRecords
  extract_lets s1 s2 s3
  have h1 : s1.Canonical := .foldl hs fun _ _ => .killRecord
  have h3 : s3.Canonical := by
    refine .foldl (.foldl h1 fun s a hs => ?_) fun _ _ => .killWeights
    split
    · exact .ite (.writeRecord hs) hs
    · exact hs
  exact .ite h3 (.modCtx h3)

theorem State.Canonical.detachKey {ctx} (hs : s.Canonical) : (s.detachKey ctx).Canonical := .ite hs (.ite (.modCtx hs) hs)

theorem State.Canonical.settleDestroy {ctx} (hs : s.Canonical) : (s.settleDestroy ctx).Canonical := by
  unfold State.settleDestroy
  dsimp only
  split
  · exact hs
  · split <;> exact .detachKey hs

theorem State.Canonical.doDestroy {fn ctx} (hs : s.Canonical) : (s.doDestroy fn ctx).Canonical :=
  .command hs fun _ => .ite (.setRes hs) (.modCtx (.ite (.modCtx (.stopCopies (.haltContext hs))) (.haltContext (.advanceLive hs))))

theorem CanonicalOut.destroy {fn ctx} (hs : s.Canonical) : CanonicalOut (execDestroy fn ctx s) := .doDestroy hs

theorem CanonicalOut.killSequenceEnd {ctx} (hs : s.Canonical) : CanonicalOut (execKillSequenceEnd ctx s) :=
  .ite hs (.ite (.killRecords hs) (.ite (.modCtx (.killRecords hs)) (.settleDestroy (.killRecords hs))))

theorem State.Canonical.doResume {fn ctx} (hs : s.Canonical) : (s.doResume fn ctx).Canonical := .command hs fun _ => .ite (.setRes hs) (.setCtx hs)

theorem CanonicalOut.resume {fn ctx} (hs : s.Canonical) : CanonicalOut (execResume fn ctx s) := .doResume hs

theorem CanonicalOut.reclaimComplete {ctx inc} (hs : s.Canonical) : CanonicalOut (execReclaimComplete ctx inc s) :=
  .ite hs (.settleDestroy (.ite (.advanceLive (.modCtx hs)) (.modCtx hs)))

theorem CanonicalOut.keySlotLoad {fn slot ct wrap} (hs : s.Canonical) : CanonicalOut (execKeySlotLoad fn slot ct wrap s) := by
  unfold execKeySlotLoad
  split
  · exact hs
  · split <;> exact hs

theorem State.Canonical.sealed {ctx inc payload} (hs : s.Canonical) : (s.sealed ctx inc payload).2.Canonical := by
  unfold State.sealed
  dsimp only
  split
  · exact hs
  · exact hs

-- Machine/Partitions.lean --------------------------------------------------------------------------------------------

theorem State.Canonical.zeroCycles {c} (hs : s.Canonical) : (s.zeroCycles c).Canonical := .modCore hs

theorem CanonicalOut.enable {p} (hs : s.Canonical) : CanonicalOut (execEnable p s) :=
  .ite hs (.ite (.setPart hs) (.ite (.setPart hs) (.foldl (.setPart hs) fun _ _ => .zeroCycles)))

theorem State.Canonical.cleanCore {c} (hs : s.Canonical) : (s.cleanCore c).Canonical :=
  .modCore (.foldl hs fun _ _ hs => .ite hs (.ite (.softToDie hs) (.machineCheck hs)))

theorem State.Canonical.wakeCore {c} (hs : s.Canonical) : (s.wakeCore c).Canonical :=
  .foldl (.settleAcks (.wakeWarps (.modCore hs))) fun _ _ => .settleGbars

theorem State.Canonical.evacuate {c} (hs : s.Canonical) : (s.evacuate c).Canonical := by
  unfold State.evacuate
  split
  · refine .foldl hs fun s a hs => ?_
    split
    · exact .removeTeam hs
    · exact hs
  · exact hs

theorem State.Canonical.swapCores {cs} (hs : s.Canonical) : (s.swapCores cs).Canonical :=
  .foldl (.foldl (.foldl hs fun _ _ hs => .exchangeCore (.cleanCore hs)) fun _ _ => .evacuate) fun _ _ => .wakeCore

theorem CanonicalOut.pswap {p} (hs : s.Canonical) : CanonicalOut (execPswap p s) := by
  unfold execPswap
  dsimp only
  split
  · split
    · exact .setPart hs
    · exact .foldl (.setPart (.setPart hs)) fun _ _ => .modSeq
  · split
    · exact hs
    · exact .setPart hs

theorem CanonicalOut.pswapComplete {p} (hs : s.Canonical) : CanonicalOut (execPswapComplete p s) := by
  unfold execPswapComplete
  split
  · dsimp only
    exact .ite hs (.setPart (.setPart (.swapCores hs)))
  · exact hs

theorem CanonicalOut.disable {p} (hs : s.Canonical) : CanonicalOut (execDisable p s) := by
  unfold execDisable
  dsimp only
  split
  · exact hs
  · split
    · exact .setPart hs
    · split
      · exact .ite (.ite (.setPart (.swapCores (.setPart hs))) (.setPart (.setPart hs))) (.setPart hs)
      · exact .setPart hs

theorem State.Canonical.doRegister {fn q} (hs : s.Canonical) : (s.doRegister fn q).Canonical := by
  unfold State.doRegister
  dsimp only
  split
  · exact hs
  · split
    · exact .setQueue hs
    · split
      · exact .setQueue hs
      · split <;> exact .setQueue hs

theorem CanonicalOut.register {fn q} (hs : s.Canonical) : CanonicalOut (execRegister fn q s) := .doRegister hs

theorem State.Canonical.doUnregister {fn q} (hs : s.Canonical) : (s.doUnregister fn q).Canonical := by
  unfold State.doUnregister
  dsimp only
  split
  · exact hs
  · split
    · exact .setQueue hs
    · split <;> exact .setQueue hs

theorem CanonicalOut.unregister {fn q} (hs : s.Canonical) : CanonicalOut (execUnregister fn q s) := .doUnregister hs

theorem State.Canonical.invalidateRange {t} (hs : s.Canonical) : (s.invalidateRange t).Canonical := hs

theorem State.Canonical.doInvalidate {fn} (hs : s.Canonical) : (s.doInvalidate fn).Canonical :=
  .ite hs (.ite (.setTinv hs) (.ite (.setTinv hs) (.setTinv (.invalidateRange hs))))

theorem CanonicalOut.translationInvalidation {fn} (hs : s.Canonical) : CanonicalOut (execTranslationInvalidation fn s) := .ite hs (.doInvalidate hs)

theorem CanonicalOut.invalidationComplete {fn} (hs : s.Canonical) : CanonicalOut (execInvalidationComplete fn s) := .ite hs (.setTinv hs)

theorem CanonicalOut.atsInvalidation {fn addr len} (hs : s.Canonical) : CanonicalOut (execAtsInvalidation fn addr len s) := hs

theorem State.Canonical.doPower {target} (hs : s.Canonical) : (s.doPower target).Canonical := by
  unfold State.doPower
  dsimp only
  split
  · exact hs
  · split <;> exact hs

theorem CanonicalOut.powerStateChange {target} (hs : s.Canonical) : CanonicalOut (execPowerStateChange target s) := .doPower hs

theorem State.Canonical.removeTeams {which} (hs : s.Canonical) : (s.removeTeams which).Canonical := by
  unfold State.removeTeams
  dsimp only
  refine .foldl hs fun s a hs => ?_
  split
  · split
    · exact .swapCluster hs
    · exact hs
  · exact hs

theorem State.Canonical.drainCaches (hs : s.Canonical) : s.drainCaches.Canonical := by
  unfold State.drainCaches
  dsimp only
  refine .foldl (.foldl hs (fun _ _ hs => .cleanCore hs)) fun s a hs => ?_
  split
  · exact .evictL2 hs
  · exact hs

theorem State.Canonical.powerOff (hs : s.Canonical) : s.powerOff.Canonical := by
  obtain ⟨-, ho, hp, hm, -⟩ := hs
  exact ⟨Memory.wf_nil, ho, hp, hm, Memory.wf_nil⟩

theorem CanonicalOut.powerTransitionDone (hs : s.Canonical) : CanonicalOut (execPowerTransitionDone s) := by
  have hoff : s.powerOff.Canonical := .powerOff hs
  have hteams : (s.removeTeams fun _ => true).Canonical := .removeTeams hs
  have hdrain : (s.removeTeams fun _ => true).drainCaches.Canonical := .drainCaches hteams
  unfold execPowerTransitionDone
  refine .ite hs (.ite ?_ (.ite ?_ (.ite hs (.ite hteams ?_))))
  · exact .next (.irq hoff)
  · exact .next (.irq hs)
  · exact .next (.irq hdrain)

theorem State.Canonical.doTripclr (hs : s.Canonical) : s.doTripclr.Canonical := by
  unfold State.doTripclr
  dsimp only
  split
  · exact hs
  · split <;> exact hs

theorem CanonicalOut.tripclr (hs : s.Canonical) : CanonicalOut (execTripclr s) := .doTripclr hs

theorem CanonicalOut.thermalTrip (hs : s.Canonical) : CanonicalOut (execThermalTrip s) := .ite hs (.irq hs)

theorem State.Canonical.doClkcap {v} (hs : s.Canonical) : (s.doClkcap v).Canonical := by
  unfold State.doClkcap
  dsimp only
  split <;> exact hs

theorem CanonicalOut.clkcap {v} (hs : s.Canonical) : CanonicalOut (execClkcap v s) := .doClkcap hs

theorem State.Canonical.gateCycles {c} (hs : s.Canonical) : (s.gateCycles c).Canonical := .ite (.ite hs (.modCore hs)) (.ite (.modCore hs) hs)

theorem State.Canonical.gateClocks (hs : s.Canonical) : s.gateClocks.Canonical := .foldl hs fun _ _ => .gateCycles

theorem State.Canonical.doGate {mask} (hs : s.Canonical) : (s.doGate mask).Canonical := .gateClocks (.ite hs (.removeTeams hs))

theorem CanonicalOut.gate {mask} (hs : s.Canonical) : CanonicalOut (execGate mask s) := .doGate hs

-- Machine/HostOps.lean -----------------------------------------------------------------------------------------------

theorem State.Canonical.cmdWrite {fn ctx v} (hs : s.Canonical) : (s.cmdWrite fn ctx v).Canonical := by
  unfold State.cmdWrite
  dsimp only
  split
  · exact hs
  · split
    · exact .setRes hs
    · split
      · exact .doCreate hs
      · exact .doKill hs
      · exact .doResume hs
      · exact .doDestroy hs
      · exact hs

theorem State.Canonical.ctxWrite {fn ctx ofs v} (hs : s.Canonical) : (s.ctxWrite fn ctx ofs v).Canonical :=
  .ite hs (.ite (.cmdWrite hs) (.ite hs (.ite (.setRes hs) (.modCtx hs))))

theorem CanonicalOut.partWrite {p ofs v} (hs : s.Canonical) : CanonicalOut (s.partWrite p ofs v) := by
  unfold State.partWrite
  dsimp only
  split
  · split
    · exact .enable hs
    · exact .disable hs
    · exact .pswap hs
    · exact hs
  · split
    · exact hs
    · split
      · exact .setPart hs
      · exact .setPart hs
      · exact .setPart hs
      · exact .setPart hs
      · exact .setPart hs
      · exact .setPart hs
      · exact hs

theorem State.Canonical.tinvWrite {fn ofs v} (hs : s.Canonical) : (s.tinvWrite fn ofs v).Canonical := by
  unfold State.tinvWrite
  dsimp only
  split
  · exact .setTinv hs
  · exact .setTinv hs
  · exact .setTinv hs
  · exact .setTinv hs
  · exact .ite (.doInvalidate hs) hs
  · exact hs

theorem State.Canonical.queueWrite {fn q ofs v} (hs : s.Canonical) : (s.queueWrite fn q ofs v).Canonical := by
  refine .ite hs ?_
  split
  · exact .ite hs (.setQueue hs)
  · exact .ite hs (.setQueue hs)
  · exact .ite hs (.setQueue hs)
  · exact .ite (.doRegister hs) (.ite (.doUnregister hs) hs)
  · exact hs

theorem State.Canonical.peerWrite {n v} (hs : s.Canonical) : (s.peerWrite n v).Canonical := .ite hs (.timeoutAll hs)

theorem State.Canonical.deviceWrite {ofs v} (hs : s.Canonical) : (s.deviceWrite ofs v).Canonical := by
  unfold State.deviceWrite
  dsimp only
  split
  · split <;> exact hs
  · split <;> exact hs
  · exact hs
  · exact .ite (.doPower (.ite (.doTripclr hs) hs)) (.ite (.doTripclr hs) hs)
  · exact .doClkcap hs
  · exact .doGate hs
  · exact hs

theorem State.Canonical.mailboxWrite {fn ofs v} (hs : s.Canonical) : (s.mailboxWrite fn ofs v).Canonical :=
  .ite hs (.ite hs (.writeMailbox hs _ _))

theorem CanonicalOut.registerWrite {fn ofs v} (hs : s.Canonical) : CanonicalOut (execRegisterWrite fn ofs v s) := by
  unfold execRegisterWrite
  dsimp only
  split
  · exact hs
  · split
    · exact .mailboxWrite hs
    · split
      · split
        · exact .queueWrite hs
        · exact hs
      · split
        · exact .ctxWrite hs
        · split
          · split
            · exact .tinvWrite hs
            · exact hs
          · split
            · exact hs
            · split
              · split
                · exact .partWrite hs
                · exact hs
              · split
                · exact .peerWrite hs
                · split
                  · exact .deviceWrite hs
                  · exact hs

theorem CanonicalOut.peerTableWrite {n v} (hs : s.Canonical) : CanonicalOut (execPeerTableWrite n v s) := .ite (.peerWrite hs) hs

theorem State.Canonical.answer {who bs} (hs : s.Canonical) : (s.answer who bs).Canonical := hs

theorem State.Canonical.outerWrite {pa data} (hs : s.Canonical) : (s.outerWrite pa data).Canonical := .foldl hs fun _ _ => .writeHome

theorem CanonicalOut.hostMemoryRequest {fn addr write data} (hs : s.Canonical) : CanonicalOut (execHostMemoryRequest fn addr write data s) := by
  unfold execHostMemoryRequest
  dsimp only
  split
  · exact hs
  · split
    · split
      · exact hs
      · exact .answer hs
    · split
      · split
        · exact hs
        · exact .answer hs
      · split
        · split
          · exact .outerWrite hs
          · exact hs
        · exact .answer hs

theorem State.Canonical.outerAtomic {who pa op w64 u v cmp} (hs : s.Canonical) : (s.outerAtomic who pa op w64 u v cmp).Canonical :=
  .ite hs (.ite (.answer hs) (.ite hs (.ite (.answer hs) (.answer (.writeHome hs)))))

theorem CanonicalOut.hostAtomicop {fn addr op w64 v cmp} (hs : s.Canonical) : CanonicalOut (execHostAtomicop fn addr op w64 v cmp s) := by
  unfold execHostAtomicop
  split
  · exact hs
  · split
    · exact .outerAtomic hs
    · exact .answer hs

theorem State.Canonical.peerCell {who pa op g value ident} (hs : s.Canonical) : (s.peerCell who pa op g value ident).Canonical := by
  unfold State.peerCell
  dsimp only
  split
  · split
    · exact hs
    · refine .answer ?_
      refine .ite ?_ (.ite hs (.writeHome hs))
      exact .ite hs (.writeHome hs)
  · split
    · exact hs
    · refine .answer ?_
      refine .ite ?_ (.ite hs (.writeHome hs))
      exact .ite hs (.writeHome hs)

theorem CanonicalOut.fabricRequest {src epoch addr act} (hs : s.Canonical) : CanonicalOut (execFabricRequest src epoch addr act s) := by
  unfold execFabricRequest
  dsimp only
  split
  · split
    · exact hs
    · split <;> exact .answer hs
  · split
    · exact hs
    · exact .outerWrite hs
  · split
    · split
      · exact hs
      · exact .outerAtomic hs
    · split
      · exact hs
      · exact .outerAtomic hs
  · split
    · exact hs
    · split
      · exact .answer hs
      · exact .peerCell hs

theorem CanonicalOut.firmwareBoot {image} (hs : s.Canonical) : CanonicalOut (execFirmwareBoot image s) := by
  unfold execFirmwareBoot
  split
  · exact hs
  · split <;> exact hs

theorem CanonicalOut.attestationReport {fn nonce} (hs : s.Canonical) : CanonicalOut (execAttestationReport fn nonce s) := by
  unfold execAttestationReport
  split
  · split <;> exact hs
  · exact hs

-- Machine/System.lean ------------------------------------------------------------------------------------------------

theorem CanonicalOut.csrr {h d csr} (hs : s.Canonical) : CanonicalOut (execCsrr h d csr s) := by
  unfold execCsrr
  refine .issue hs fun s c ls hs => ?_
  dsimp only
  refine .advance ?_
  split
  · exact .setJreg (.ite (.foldl hs fun _ _ => .modThread) hs)
  · exact .writeDst (.ite (.foldl hs fun _ _ => .modThread) hs)

theorem CanonicalOut.csrw {h csr a} (hs : s.Canonical) : CanonicalOut (execCsrw h csr a s) :=
  .issue hs fun _ _ _ hs => .advance (.ite (.foldl hs fun _ _ => .modThread) (.ite (.modSeq hs) hs))

theorem State.Canonical.endHandlerLane {c l} (hs : s.Canonical) : (s.endHandlerLane c l).Canonical := hs

theorem State.Canonical.rteLane {c l} (hs : s.Canonical) : (s.rteLane c l).Canonical := by
  unfold State.rteLane
  split
  · exact hs
  · dsimp only
    split
    · split
      · exact .resumeSeq (.endHandlerLane hs)
      · exact .endHandlerLane hs
    · split
      · exact .resumeLane (.endHandlerLane hs)
      · exact .endHandlerLane hs

theorem CanonicalOut.rte {h} (hs : s.Canonical) : CanonicalOut (execRte h s) := by
  unfold execRte
  refine .issue hs fun s c ls hs => ?_
  refine .ite hs ?_
  dsimp only
  split
  · split
    · exact .thaw (.freeHandlerTiles (.handlerFree (.foldl hs fun _ _ => .rteLane)))
    · exact .foldl hs fun _ _ => .rteLane
  · exact .foldl hs fun _ _ => .rteLane

theorem State.Canonical.setRegAt {c w l ix v} (hs : s.Canonical) : (s.setRegAt c w l ix v).Canonical :=
  .ite (.setVreg hs) (.ite (.setSreg hs) (.ite (.modThread hs) (.ite hs (.setJreg hs))))

theorem State.Canonical.selWrite {c l e x v} (hs : s.Canonical) : (s.selWrite c l e x v).Canonical := by
  unfold State.selWrite
  split
  · exact .setRegAt hs
  · exact .ite (.modSeq hs) (.modThread hs)
  · exact .modThread hs
  · exact .modSeq hs

theorem CanonicalOut.hread {h d x} (hs : s.Canonical) : CanonicalOut (execHread h d x s) := by
  unfold execHread
  refine .issue hs fun s c ls hs => ?_
  split
  · exact .advance (.writeDst hs)
  · exact hs

theorem CanonicalOut.hwrite {h x a} (hs : s.Canonical) : CanonicalOut (execHwrite h x a s) := by
  unfold execHwrite
  refine .issue hs fun s c ls hs => ?_
  split
  · exact .advance (.foldl hs fun _ _ => .selWrite)
  · exact hs

theorem CanonicalOut.mboxRd {h d o} (hs : s.Canonical) : CanonicalOut (execMboxRd h d o s) := .issue hs fun _ _ _ hs => .advance (.writeDst hs)

theorem CanonicalOut.mboxWr {h o a} (hs : s.Canonical) : CanonicalOut (execMboxWr h o a s) :=
  .issue hs fun _ _ _ hs => .advance (.foldl hs fun _ _ hs => .writeMailbox hs _ _)

theorem CanonicalOut.mboxSig {h} (hs : s.Canonical) : CanonicalOut (execMboxSig h s) := .issue hs fun _ _ _ hs => .ite hs (.advance (.irq hs))

theorem State.Canonical.entryRead {c ctx inc n} (hs : s.Canonical) : (s.entryRead c ctx inc n).2.Canonical := by
  obtain ⟨R, hR, hr⟩ := State.Canonical.exists_returned
  unfold State.entryRead
  rw [← hR]
  dsimp only
  split
  · split
    · exact hr _ _ _ _ _ hs
    · exact hs
  · split
    · exact hs
    · exact hs
    · split
      · exact hs
      · split
        · exact hs
        · split
          · split
            · split
              · exact .softLine hs
              · exact hr _ _ _ _ _ (.softLine hs)
            · exact .softLine hs
          · split
            · split
              · exact .ite (.putL1 (.recordLease hs)) (.recordLease hs)
              · exact hr _ _ _ _ _ (.ite (.putL1 (.recordLease hs)) (.recordLease hs))
            · split
              · exact hs
              · exact hr _ _ _ _ _ hs

theorem State.Canonical.vector {c e} (hs : s.Canonical) : (s.vector c e).2.Canonical := by
  have h5 : (s.entryRead c e.ctx e.inc 5).2.Canonical := .entryRead hs
  unfold State.vector
  split
  · split
    · rename_i e
      rw [e] at h5
      exact .entryRead h5
    · exact h5
  · exact .entryRead hs

theorem State.Canonical.askHandler {c e va} (hs : s.Canonical) : (s.askHandler c e va).Canonical := .modCore hs

theorem State.Canonical.enterHandler {c e vec} (hs : s.Canonical) : (s.enterHandler c e vec).Canonical := by
  have h1 : ((s.handlerFree c).freeHandlerTiles c).Canonical := .freeHandlerTiles (.handlerFree hs)
  unfold State.enterHandler
  generalize (s.handlerFree c).freeHandlerTiles c = a at h1 ⊢
  exact .foldl (.modCore (.setWarp h1)) fun _ _ hs => .setVreg (.setVreg (.setThread hs))

theorem CanonicalOut.handlerDispatch {core} (hs : s.Canonical) : CanonicalOut (execHandlerDispatch core s) := by
  unfold execHandlerDispatch
  dsimp only
  split
  · split
    · exact hs
    · split
      · exact hs
      · exact .askHandler (.vector hs)
      · exact .endEvent (.modCore (.vector hs))
      · exact .ite (.endEvent (.modCore (.vector hs))) (.enterHandler (.modCore (.vector hs)))
  · exact hs

theorem CanonicalOut.handlerBudgetExpiry {core} (hs : s.Canonical) : CanonicalOut (execHandlerBudgetExpiry core s) := by
  unfold execHandlerBudgetExpiry
  dsimp only
  split
  · split
    · exact .machineCheck (.freeHandlerTiles (.handlerFree hs))
    · exact hs
  · exact hs

theorem CanonicalOut.warpUrgent {core warp} (hs : s.Canonical) : CanonicalOut (execWarpUrgent core warp s) := .ite (.modWarp hs) hs

-- Machine/Quince.lean ------------------------------------------------------------------------------------------------

theorem State.Canonical.setArea {core ofs bs} (hs : s.Canonical) : (s.setArea core ofs bs).Canonical := .writeMailbox hs _ _

theorem State.Canonical.writeReply {core r} (hs : s.Canonical) : (s.writeReply core r).Canonical := by
  unfold State.writeReply
  dsimp only
  split
  · split
    · exact .setArea (.setArea (.sealed hs))
    · exact .setArea (.setArea hs)
  · exact .setArea (.setArea hs)

theorem CanonicalOut.quinceOp {core op} (hs : s.Canonical) (ho : ∀ s, s.Canonical → (op s).2.Canonical) : CanonicalOut (quinceOp core op s) :=
  .ite (.writeReply (ho s hs)) hs

theorem State.Canonical.dropHeld {core e} (hs : s.Canonical) : (s.dropHeld core e).Canonical := .modCore hs

theorem State.Canonical.onHeld {core target go} (hs : s.Canonical) (hg : ∀ e, (go e).2.Canonical) : (s.onHeld core target go).2.Canonical := by
  unfold State.onHeld
  split
  · exact hs
  · split
    · exact hs
    · exact hg _

theorem State.Canonical.joinHalt {c w ls} (hs : s.Canonical) : (s.joinHalt c w ls).Canonical := by
  unfold State.joinHalt
  split
  · exact .modCore (.foldl hs fun _ _ => .modThread)
  · exact hs

theorem State.Canonical.doHalt {core warp} (hs : s.Canonical) : (s.doHalt core warp).2.Canonical := by
  unfold State.doHalt
  dsimp only
  split
  · exact hs
  · split
    · exact hs
    · exact .joinHalt (.modCore (.modWarp hs))

theorem CanonicalOut.quinceHalt {core warp} (hs : s.Canonical) : CanonicalOut (execQuinceHalt core warp s) := .quinceOp hs fun _ => .doHalt

theorem State.Canonical.doRelease {core target act} (hs : s.Canonical) : (s.doRelease core target act).2.Canonical := by
  unfold State.doRelease
  split
  · exact hs
  · exact .endEvent (.ite (.dropHeld hs) (.modWarp (.dropHeld hs)))

theorem CanonicalOut.quinceResume {core target act} (hs : s.Canonical) : CanonicalOut (execQuinceResume core target act s) :=
  .quinceOp hs fun _ => .doRelease

theorem State.Canonical.doRdreg {core target lane sel} (hs : s.Canonical) : (s.doRdreg core target lane sel).2.Canonical := by
  unfold State.doRdreg
  refine .onHeld hs fun e => ?_
  dsimp only
  split
  · exact hs
  · split <;> exact hs

theorem CanonicalOut.rdreg {core target lane sel} (hs : s.Canonical) : CanonicalOut (execRdreg core target lane sel s) :=
  .quinceOp hs fun _ => .doRdreg

theorem State.Canonical.doWrreg {core target lane sel v} (hs : s.Canonical) : (s.doWrreg core target lane sel v).2.Canonical := by
  unfold State.doWrreg
  refine .onHeld hs fun e => ?_
  dsimp only
  split
  · exact hs
  · split
    · exact hs
    · split
      · exact hs
      · exact .selWrite hs

theorem CanonicalOut.wrreg {core target lane sel v} (hs : s.Canonical) : CanonicalOut (execWrreg core target lane sel v s) :=
  .quinceOp hs fun _ => .doWrreg

theorem State.Canonical.doRdmem {core target va n} (hs : s.Canonical) : (s.doRdmem core target va n).2.Canonical := by
  unfold State.doRdmem
  split
  · exact hs
  · split
    · exact hs
    · refine .onHeld hs fun e => ?_
      dsimp only
      split
      · dsimp only
        split <;> exact hs
      · exact hs

theorem CanonicalOut.rdmem {core target va n} (hs : s.Canonical) : CanonicalOut (execRdmem core target va n s) := .quinceOp hs fun _ => .doRdmem

theorem State.Canonical.doWrmem {core target va data} (hs : s.Canonical) : (s.doWrmem core target va data).2.Canonical := by
  unfold State.doWrmem
  split
  · exact hs
  · split
    · exact hs
    · refine .onHeld hs fun e => ?_
      dsimp only
      split
      · exact hs
      · exact .foldl hs fun _ _ => .storeLane

theorem CanonicalOut.wrmem {core target va data} (hs : s.Canonical) : CanonicalOut (execWrmem core target va data s) := .quinceOp hs fun _ => .doWrmem

theorem State.Canonical.doDebug {core mask step frz catch_} (hs : s.Canonical) : (s.doDebug core mask step frz catch_).2.Canonical := by
  unfold State.doDebug
  dsimp only
  exact .foldl hs fun _ _ hs => .ite (.modWarp hs) hs

theorem CanonicalOut.debug {core mask step frz catch_} (hs : s.Canonical) : CanonicalOut (execDebug core mask step frz catch_ s) :=
  .quinceOp hs fun _ => .doDebug

theorem State.Canonical.doSeqstop {core n} (hs : s.Canonical) : (s.doSeqstop core n).2.Canonical := by
  unfold State.doSeqstop
  split
  · exact hs
  · exact .modSeq hs

theorem CanonicalOut.seqstop {core n} (hs : s.Canonical) : CanonicalOut (execSeqstop core n s) := .quinceOp hs fun _ => .doSeqstop

theorem State.Canonical.doSeqdump {core first} (hs : s.Canonical) : (s.doSeqdump core first).2.Canonical := by
  unfold State.doSeqdump
  split
  · exact hs
  · dsimp only
    split <;> exact hs

theorem CanonicalOut.seqdump {core first} (hs : s.Canonical) : CanonicalOut (execSeqdump core first s) := .quinceOp hs fun _ => .doSeqdump

theorem State.Canonical.doCycles {core} (hs : s.Canonical) : (s.doCycles core).2.Canonical := hs

theorem CanonicalOut.cycles {core} (hs : s.Canonical) : CanonicalOut (execCycles core s) := .quinceOp hs fun _ => .doCycles

theorem State.Canonical.doProf {core ring period entries} (hs : s.Canonical) : (s.doProf core ring period entries).2.Canonical := by
  unfold State.doProf
  dsimp only
  split
  · exact hs
  · split
    · exact .modCore hs
    · split
      · exact hs
      · exact .modCore hs

theorem CanonicalOut.prof {core ring period entries} (hs : s.Canonical) : CanonicalOut (execProf core ring period entries s) :=
  .quinceOp hs fun _ => .doProf

theorem CanonicalOut.profSample {core} (hs : s.Canonical) : CanonicalOut (execProfSample core s) := by
  unfold execProfSample
  dsimp only
  split
  · exact hs
  · split
    · exact hs
    · split
      · exact .sealed (.setCore hs)
      · split
        · refine .foldl (.setCore hs) fun s a hs => ?_
          split
          · exact .sendStore hs
          · exact hs
        · exact .setCore hs

theorem State.Canonical.quinceRun {core} (hs : s.Canonical) : (s.quinceRun core).2.Canonical := by
  unfold State.quinceRun
  dsimp only
  split
  · exact .doHalt hs
  · exact .doRelease hs
  · exact .doRdreg hs
  · split
    · exact .doWrreg hs
    · exact hs
  · exact .doRdmem hs
  · split
    · exact hs
    · exact .doWrmem hs
  · exact .doDebug hs
  · exact .doSeqstop hs
  · exact .doSeqdump hs
  · exact .doCycles hs
  · exact .doProf hs
  · exact hs

theorem State.Canonical.markAlive {core} (hs : s.Canonical) : (s.markAlive core).Canonical := .writeMailbox hs _ _

theorem CanonicalOut.quinceRequest {core} (hs : s.Canonical) : CanonicalOut (execQuinceRequest core s) := by
  unfold execQuinceRequest
  split
  · exact hs
  · dsimp only
    exact .ite (.markAlive hs) (.irq (.setArea (.writeReply (.quinceRun (.markAlive hs)))))

theorem CanonicalOut.unassignedOpcode {h opc} (hs : s.Canonical) : CanonicalOut (execUnassignedOpcode h opc s) := .issue hs fun _ _ _ => .advance

-- Machine/Schedule.lean ----------------------------------------------------------------------------------------------

theorem State.Canonical.noteIssue {c w} (hs : s.Canonical) : (s.noteIssue c w).Canonical := .ite (.modWarp (.modCore hs)) (.modCore hs)

theorem CanonicalOut.issueTrap {k ls t} (hs : s.Canonical) : CanonicalOut (s.issueTrap k ls t) := by
  unfold State.issueTrap
  split
  · exact hs
  · dsimp only
    exact .ite (.mismatch (.countIssue hs)) (.takeTraps (.spendUpsets (.countIssue hs)))

theorem CanonicalOut.thenNext {o f} (ho : CanonicalOut o) (hf : ∀ s, s.Canonical → (f s).Canonical) : CanonicalOut (thenNext o f) := by
  cases o with
  | next s => exact hf s ho
  | fault r => trivial
  | refused r => trivial

theorem State.Canonical.markSeen {r c i} (hs : s.Canonical) : (s.markSeen r c i).Canonical := .ite hs hs

theorem CanonicalOut.issueAt {ex c w pc} (hx : ∀ i s, s.Canonical → CanonicalOut (ex i s)) (hs : s.Canonical) :
    CanonicalOut (issueAt ex c w pc s) := by
  unfold Machine.issueAt
  split
  · exact .next (.ite (.joinHalt hs) hs)
  · split
    · exact hs
    · dsimp only
      split
      · exact hs
      · split
        · exact .thenNext (.issueTrap hs) fun _ => .noteIssue
        · exact .thenNext (.issueTrap hs) fun _ hs => .noteIssue (.awaitPages hs)
        · exact .thenNext (.issueTrap hs) fun _ => .noteIssue
        · split
          · exact hs
          · split
            · rename_i s1 e
              have h1 : s1.Canonical := by
                refine CanonicalOut.of_eq ?_ e
                exact hx _ _ (.takeCode hs)
              exact .ite (.endRetry hs) (.noteIssue (.markSeen h1))
            · exact hx _ _ (.takeCode hs)

theorem CanonicalOut.bundleAt {ex c} (hx : ∀ i s, s.Canonical → CanonicalOut (ex i s)) (hs : s.Canonical) : CanonicalOut (bundleAt ex c s) :=
  .ite (.runBundle hx hs) hs

theorem CanonicalOut.ownMove {ex c unit} (hx : ∀ i s, s.Canonical → CanonicalOut (ex i s)) (hs : s.Canonical) :
    CanonicalOut (ownMove ex c unit s) := by
  unfold Machine.ownMove
  split
  · split
    · exact .issueAt hx hs
    · exact hs
  · dsimp only
    split
    · exact hs
    · exact .bundleAt hx hs

theorem State.Canonical.waitWarps {c} (hs : s.Canonical) : (s.waitWarps c).Canonical := .foldl hs fun _ _ hs => .ite (.modWarp hs) hs

theorem State.Canonical.coreTick (hs : s.Canonical) : s.coreTick.Canonical := .foldl hs fun _ _ hs => .ite (.waitWarps (.modCore hs)) hs

theorem State.Canonical.tick (hs : s.Canonical) : s.tick.Canonical := by
  have h0 : (if s.device.gate = 0 then s else s.gateClocks).Canonical := .ite hs (.gateClocks hs)
  have h1 (a : State) (ha : a.Canonical) : (if a.device.pstate = 4 then a else { a with time := a.time + 1 }).Canonical := .ite ha ha
  refine h1 _ ?_
  generalize (if s.device.gate = 0 then s else s.gateClocks) = a at h0 ⊢
  have h2 : a.coreTick.Canonical := .coreTick h0
  split
  · exact h0
  · dsimp only
    split
    · exact h0
    · simpa only [State.Canonical] using h2

theorem State.Canonical.strike {c slot} (hs : s.Canonical) : (s.strike c slot).Canonical := by
  unfold State.strike
  split
  · exact .rollback hs
  · exact hs

theorem State.Canonical.mark {space key} (hs : s.Canonical) : (s.mark space key).Canonical := by
  unfold State.mark
  split
  · split <;> exact hs
  · exact hs
  · exact hs
  · exact hs
  · exact hs
  · exact hs

theorem State.Canonical.setSlice {launch cycles} (hs : s.Canonical) : (s.setSlice launch cycles).Canonical := .ite (.modLaunch hs) hs

theorem State.Canonical.setBinTimer {c cycles} (hs : s.Canonical) : (s.setBinTimer c cycles).Canonical := .ite (.modCore hs) hs

theorem State.Canonical.passNext {id} (hs : s.Canonical) : (s.passNext id).Canonical := by
  unfold State.passNext
  split
  · exact hs
  · split
    · exact hs
    · split
      · exact .setReq hs
      · exact .dropReq hs

theorem CanonicalOut.perform {ex d} (hx : ∀ i s, s.Canonical → CanonicalOut (ex i s)) (hs : s.Canonical) : CanonicalOut (perform ex d s) := by
  cases d with
  | event e => exact .ite (hx e s hs) hs
  | issue c w pc => exact .issueAt hx hs
  | bundle c => exact .bundleAt hx hs
  | own c unit => exact .ownMove hx hs
  | tick => exact .next (.tick hs)
  | learn ctx cp => exact .next (.ite (.learn hs) hs)
  | pass id => exact .next (.passNext hs)
  | codeFill c w va len => exact .next (.ite (.codeFill hs) hs)
  | copyUnit id u => exact .next (.ite (.copyUnit hs) hs)
  | ats fn page res => exact .next hs
  | remoteStore id => exact .next (.ite (.remoteStore hs) hs)
  | upset c w => exact .next (.modWarp hs)
  | ecc c team => exact .next (.ite (.strike hs) hs)
  | eccCommit c team => exact .next (.ite (.strikeCommit hs) hs)
  | mark space key => exact .next (.mark hs)
  | temp t => exact .next hs
  | slice launch cycles => exact .next (.setSlice hs)
  | binTimer c cycles => exact .next (.setBinTimer hs)
  | readReg fn ofs =>
    unfold Machine.perform
    dsimp only
    split
    · exact .next (.answer hs)
    · exact .next hs
  | peerBoot chip epoch => exact .next hs
  | peerError id => exact .next (.ite (.peerError hs) hs)

theorem CanonicalOut.firstMove {ex ds o} (hx : ∀ d s, s.Canonical → CanonicalOut (ex d s)) (hs : s.Canonical) (e : firstMove ex ds s = some o) :
    CanonicalOut o := by
  induction ds with
  | nil => cases e
  | cons d ds ih =>
    unfold Machine.firstMove at e
    split at e
    · rename_i e1
      split at e
      · exact ih e
      · cases e
        exact (hx d s hs).of_eq e1
    · cases e
      exact hx d s hs

theorem CanonicalOut.deviceMove {ex} (hx : ∀ i s, s.Canonical → CanonicalOut (ex i s)) (hs : s.Canonical) : CanonicalOut (deviceMove ex s) := by
  unfold Machine.deviceMove
  dsimp only
  split
  · rename_i e
    exact .firstMove (fun _ _ => .perform hx) hs e
  · exact .tick hs

theorem CanonicalOut.nextMove {ex} (hx : ∀ i s, s.Canonical → CanonicalOut (ex i s)) (hs : s.Canonical) : CanonicalOut (nextMove ex s) :=
  .ite (.ownMove hx hs) (.deviceMove hx hs)

-- Machine/Tiles.lean -------------------------------------------------------------------------------------------------

theorem CanonicalOut.give {h cnt a owner} (hs : s.Canonical) : CanonicalOut (execGive h cnt a owner s) :=
  .issue hs fun _ _ _ hs => .ite hs (.advance (.modSeq (.giveTiles hs)))

theorem CanonicalOut.take {h cnt a} (hs : s.Canonical) : CanonicalOut (execTake h cnt a s) :=
  .issue hs fun _ _ _ hs => .foldl hs fun _ _ => .modThread

theorem CanonicalOut.takeComplete {core warp} (hs : s.Canonical) : CanonicalOut (execTakeComplete core warp s) := by
  unfold execTakeComplete
  dsimp only
  split
  · exact hs
  · refine .foldl hs fun s a hs => ?_
    split
    · exact hs
    · split
      · exact hs
      · split
        · exact hs
        · exact .synchronise (.advance (.modSeq (.setOwners hs)))

theorem CanonicalOut.town {h d a} (hs : s.Canonical) : CanonicalOut (execTown h d a s) := .issue hs fun _ _ _ hs => .advance (.writeDst hs)

-- One step -----------------------------------------------------------------------------------------------------------

/-- One case per instruction and event, in the order of `exec`: each cites its own lemma. -/
theorem CanonicalOut.exec {i} (hs : s.Canonical) : CanonicalOut (exec i s) := by
  unfold Machine.exec
  split
  · exact .nop hs
  · exact .bra hs
  · exact .brx hs
  · exact .call hs
  · exact .callx hs
  · exact .ret hs
  · exact .exit hs
  · exact .arj hs
  · exact .jset hs
  · exact .waitj hs
  · exact .waitjComplete hs
  · exact .spawn hs
  · exact .spawnPlace hs
  · exact .spawnBinLaunch hs
  · exact .spawnBinTimer hs
  · exact .yield hs
  · exact .yieldExpiry hs
  · exact .trap hs
  · exact .chk hs
  · exact .bkpt hs
  · exact .iadd hs
  · exact .isub hs
  · exact .imul hs
  · exact .imulh hs
  · exact .imad hs
  · exact .imin hs
  · exact .imax hs
  · exact .iabs hs
  · exact .ineg hs
  · exact .isetp hs
  · exact .sel hs
  · exact .lea hs
  · exact .addw hs
  · exact .mulw hs
  · exact .isat hs
  · exact .and hs
  · exact .or hs
  · exact .xor hs
  · exact .not hs
  · exact .shl hs
  · exact .shr hs
  · exact .sar hs
  · exact .rotl hs
  · exact .popc hs
  · exact .clz hs
  · exact .brev hs
  · exact .bfx hs
  · exact .bfi hs
  · exact .prmt hs
  · exact .mov hs
  · exact .movi hs
  · exact .fadd hs
  · exact .fsub hs
  · exact .fmul hs
  · exact .ffma hs
  · exact .fmin hs
  · exact .fmax hs
  · exact .fsetp hs
  · exact .frnd hs
  · exact .fclass hs
  · exact .fscalb hs
  · exact .hadd2 hs
  · exact .hmul2 hs
  · exact .hfma2 hs
  · exact .hmin2 hs
  · exact .hmax2 hs
  · exact .hsetp2 hs
  · exact .dot2 hs
  · exact .dot4 hs
  · exact .cvt hs
  · exact .pack2 hs
  · exact .pack4 hs
  · exact .unpk hs
  · exact .plnget hs
  · exact .plnput hs
  · exact .tagset hs
  · exact .tagget hs
  · exact .rcp hs
  · exact .rsq hs
  · exact .sqrt hs
  · exact .exp2 hs
  · exact .log2 hs
  · exact .sinpi hs
  · exact .cospi hs
  · exact .tanh hs
  · exact .erf hs
  · exact .shfl hs
  · exact .vote hs
  · exact .matchLanes hs
  · exact .wred hs
  · exact .ldg hs
  · exact .stg hs
  · exact .lds hs
  · exact .sts hs
  · exact .ldp hs
  · exact .stp hs
  · exact .ldw hs
  · exact .ldsr hs
  · exact .stsr hs
  · exact .loadDataReturn hs
  · exact .atom hs
  · exact .atoms hs
  · exact .sem hs
  · exact .fence hs
  · exact .wbr hs
  · exact .invr hs
  · exact .pref hs
  · exact .cpy hs
  · exact .cpyt hs
  · exact .copyComplete hs
  · exact .binit hs
  · exact .expect hs
  · exact .arrive hs
  · exact .bwait hs
  · exact .bwaitComplete hs
  · exact .bwaitTimeout hs
  · exact .btest hs
  · exact .gbar hs
  · exact .gbarComplete hs
  · exact .dinit hs
  · exact .dprop hs
  · exact .dread hs
  · exact .drecyc hs
  · exact .decideOnceHomeAction hs
  · exact .genHoldExpiry hs
  · exact .decideOnceResult hs
  · exact .decidedCopyExpiry hs
  · exact .give hs
  · exact .take hs
  · exact .takeComplete hs
  · exact .town hs
  · exact .csrr hs
  · exact .csrw hs
  · exact .rte hs
  · exact .hread hs
  · exact .hwrite hs
  · exact .mboxRd hs
  · exact .mboxWr hs
  · exact .mboxSig hs
  · exact .handlerDispatch hs
  · exact .handlerBudgetExpiry hs
  · exact .warpUrgent hs
  · exact .cnop hs
  · exact .sbr hs
  · exact .sbrc hs
  · exact .yadd hs
  · exact .ysub hs
  · exact .ymov hs
  · exact .ycmp hs
  · exact .yshl hs
  · exact .stake hs
  · exact .sgive hs
  · exact .sarrive hs
  · exact .swait hs
  · exact .swaitTimeout hs
  · exact .retirept hs
  · exact .shalt hs
  · exact .sfence hs
  · exact .mnop hs
  · exact .mbeat hs
  · exact .mswap hs
  · exact .mcfg hs
  · exact .mzero hs
  · exact .xnop hs
  · exact .xscale hs
  · exact .xbias hs
  · exact .xsat hs
  · exact .knop hs
  · exact .kclaim hs
  · exact .krel hs
  · exact .kfill hs
  · exact .kstore hs
  · exact .kTransferLanded hs
  · exact .seqInterlockRelease hs
  · exact .segmentExpansion hs
  · exact .wsRefreshWindow hs
  · exact .seqStop hs
  · exact .leaseGrant hs
  · exact .leaseExpiry hs
  · exact .leaseWritePerform hs
  · exact .atomicPerform hs
  · exact .fillArrival hs
  · exact .evictionWriteback hs
  · exact .translationWalk hs
  · exact .pageRequestResponse hs
  · exact .portTimeout hs
  · exact .queuePacketConsume hs
  · exact .launchPacket hs
  · exact .copyPacket hs
  · exact .copyPacketComplete hs
  · exact .reclaimFence hs
  · exact .weightStoreWrite hs
  · exact .weightStoreWriteDone hs
  · exact .queueSwitch hs
  · exact .teamStart hs
  · exact .teamSliceExpiry hs
  · exact .launchComplete hs
  · exact .commit hs
  · exact .create hs
  · exact .kill hs
  · exact .killSequenceEnd hs
  · exact .resume hs
  · exact .destroy hs
  · exact .reclaimComplete hs
  · exact .translationInvalidation hs
  · exact .invalidationComplete hs
  · exact .enable hs
  · exact .disable hs
  · exact .pswap hs
  · exact .pswapComplete hs
  · exact .register hs
  · exact .unregister hs
  · exact .powerStateChange hs
  · exact .powerTransitionDone hs
  · exact .tripclr hs
  · exact .thermalTrip hs
  · exact .clkcap hs
  · exact .gate hs
  · exact .peerTableWrite hs
  · exact .registerWrite hs
  · exact .keySlotLoad hs
  · exact .attestationReport hs
  · exact .firmwareBoot hs
  · exact .hostMemoryRequest hs
  · exact .hostAtomicop hs
  · exact .fabricRequest hs
  · exact .quinceRequest hs
  · exact .quinceHalt hs
  · exact .quinceResume hs
  · exact .rdreg hs
  · exact .wrreg hs
  · exact .rdmem hs
  · exact .wrmem hs
  · exact .debug hs
  · exact .seqstop hs
  · exact .seqdump hs
  · exact .cycles hs
  · exact .prof hs
  · exact .profSample hs
  · exact .unassignedOpcode hs
  · exact .unassignedSlotOpcode hs
  · exact .atsInvalidation hs
  · exact .remoteBarrierAction hs
  · exact .targetAcknowledgement hs

theorem CanonicalOut.step (hs : s.Canonical) : CanonicalOut (step s) := by
  unfold Machine.step
  split
  · exact .perform (fun _ _ => .exec) hs
  · exact .nextMove (fun _ _ => .exec) hs

end

theorem State.reset_canonical : State.reset.Canonical := ⟨rfl, rfl, rfl, rfl, rfl⟩

/-- Settles O60: the form holds at reset (every one of these memories is empty), and a step keeps it, by cases over what a step does: each
function of the model that answers a state keeps it, and the few that write one of these memories do so by Memory.write. -/
theorem memoriesStayCanonical : Obligations.MemoriesStayCanonical :=
  ⟨State.reset_canonical, fun _ _ hs e => (CanonicalOut.step hs).of_eq e⟩

end Sys2Proof.Machine

/-!
O58: what a step of the script does, and what an issue, a bundle and a tick come to in the cases that the statement names: an equation per
case of each function of the schedule and of the sequencer, from which the obligation is put together.
-/
namespace Sys2Proof.Machine

theorem step_of_script {s : State} {d : Directive} {rest : List Directive} (h : s.script = d :: rest) :
    step s = perform exec d { s with script := rest } := by
  unfold step
  rw [h]

-- An issue (R62, R277) -----------------------------------------------------------------------------------------------

theorem State.lanesAt_eq (s : State) (c w : Nat) (pc : DWord) :
    s.lanesAt c w pc = (List.range 32).filter fun l => decide ((s.thread c w l).st = .ready ∧ (s.thread c w l).pc = pc) := by
  unfold State.lanesAt State.readyLanes
  rw [List.filter_filter]
  refine List.filter_congr fun l _ => ?_
  rw [Bool.decide_and, Bool.and_comm, Bool.beq_eq_decide_eq]

/-- Of twelve bytes the two decoders say the same. -/
theorem decodeSimt_of_decodeBytes {bs : List Byte} {i : Instr} (hl : bs.length = 12) (hd : decodeBytes bs = some i) :
    ∃ tail, decodeSimt bs = .ok (i, tail) := by
  unfold decodeBytes at hd
  rw [if_pos hl] at hd
  split at hd
  · next j tail e =>
    cases hd
    exact ⟨tail, e⟩
  · cases hd

theorem State.fetchInstr_of_decodeBytes {s : State} {c w : Nat} {pc : DWord} {bs : List Byte} {i : Instr}
    (hf : s.fetchCode c (s.tagOf c w).1 (s.tagOf c w).2 3 pc.toNat 12 = .bytes bs) (hl : bs.length = 12) (hd : decodeBytes bs = some i) :
    s.fetchInstr c w pc = .instr i := by
  obtain ⟨tail, hs⟩ := decodeSimt_of_decodeBytes hl hd
  unfold State.fetchInstr
  dsimp only
  rw [hf]
  dsimp only
  rw [hs]

/-- The lanes of an ARRIVE.WARP go once the lowest of those that arrive may (R385). -/
theorem State.ordered_arrivesAsOne {i : Instr} {h : Head} (e : Instr.arrivesAsOne i = some h) (s : State) (c : Cur) (ls : List Nat) :
    s.ordered c ls i =
      if ((ls.filter fun l => guardOn h ((s.countIssue c).thread c.core c.warp l)).take 1).all fun l => (s.countIssue c).orderAllows c l i
      then ls else [] := by
  simp [State.ordered, State.releasers, e]

/-- Every other lane goes where its own order allows it, those of a GIVE all together or not at all (R173). -/
theorem State.ordered_each {i : Instr} (e : Instr.arrivesAsOne i = none) (s : State) (c : Cur) (ls : List Nat) :
    s.ordered c ls i =
      if Instr.together i = true ∧ (ls.filter fun l => (s.countIssue c).orderAllows c l i) ≠ ls then []
      else ls.filter fun l => (s.countIssue c).orderAllows c l i := by
  cases ht : Instr.together i with
  | false => simp [State.ordered, ht, e]
  | true =>
    by_cases ha : (ls.filter fun l => (s.countIssue c).orderAllows c l i) = ls
    · have := List.filter_eq_self.1 ha
      simp [State.ordered, State.releasers, ht, e, ha, List.all_eq_true.2 this]
    · have : ¬ (ls.all fun l => (s.countIssue c).orderAllows c l i) = true := fun h => ha (List.filter_eq_self.2 (List.all_eq_true.1 h))
      simp [State.ordered, State.releasers, ht, e, ha, this]

theorem State.halted_of_warpRuns {s : State} {c w : Nat} (h : s.warpRuns c w = true) : (s.warp c w).halted = false := by
  simp only [State.warpRuns, State.warpMay, Bool.and_eq_true] at h
  obtain ⟨⟨⟨⟨-, hh⟩, -⟩, -⟩, -⟩ := h
  simpa using hh

theorem issueAt_idle {s : State} {c w : Nat} {pc : DWord} (ex : Instr → State → Out) (hh : (s.warp c w).halted = false)
    (h : s.warpRuns c w = false ∨ s.lanesAt c w pc = []) : issueAt ex c w pc s = .next s := by
  unfold issueAt
  rcases h with h | h
  · simp [hh, h]
  · simp [hh, h]

/-- An issue of a warp that may issue, at the address of lanes ready there: the lanes whose operands and order allow it perform the
instruction fetched; where that ends a retryable interval with stores held, these leave and nothing else happens (R355). -/
theorem issueAt_of_fetch {s : State} {c w : Nat} {pc : DWord} {i : Instr} (ex : Instr → State → Out) (hr : s.warpRuns c w = true)
    (hl : s.lanesAt c w pc ≠ []) (hf : s.fetchInstr c w pc = .instr i) :
    issueAt ex c w pc s =
      let k : Cur := { core := c, warp := w, pc := pc, mask := maskOf (s.convergent c w pc i) }
      if s.convergent c w pc i = [] then .next s
      else thenNext (ex i { s.takeCode c (s.tagOf c w).1 (s.tagOf c w).2 pc.toNat 12 with cur := some k }) fun v =>
        if s.endsInterval c w v = true then s.endRetry c (s.warpTeam c w)
        else (({ v with cur := none } : State).markSeen s k i).noteIssue c w := by
  unfold issueAt thenNext
  simp only [State.halted_of_warpRuns hr, hr, hf, List.isEmpty_iff, hl]
  simp only [Bool.false_eq_true, Bool.not_true, if_false]
  split
  · rfl
  · split
    · exact (apply_ite _ _ _ _).symm
    · rfl

-- A bundle of one word (R66, R127) -----------------------------------------------------------------------------------

theorem runWords_singleton (ex : Instr → State → Out) (i : Instr) (s : State) : runWords ex [i] s = ex i s := by
  unfold runWords
  split
  · next t e => rw [e, runWords]
  · rfl

/-- A bundle that stands ready is reached at once, unless a SEQ_STOP stands before it (R365). -/
theorem State.reach_ready {s : State} {c : Nat} {h : Half} (hs : (s.core c).seq.supply = .ready h) (hn : (s.core c).seq.stop = none) (n : Nat) :
    s.reach c (n + 1) = (s.modSeq c fun q => q.settleHalf h, true) := by
  unfold State.reach
  simp [hs, hn]

theorem bundleAt_ready {s : State} {c : Nat} {h : Half} (ex : Instr → State → Out) (hc : s.coreRuns c = true) (hk : (s.core c).cls = none)
    (hr : s.seqRuns c = true) (hs : (s.core c).seq.supply = .ready h) (hn : (s.core c).seq.stop = none) :
    bundleAt ex c s = runReady ex c (s.modSeq c fun q => q.settleHalf h) ((s.modSeq c fun q => q.settleHalf h).landDue c) := by
  unfold bundleAt runBundle
  simp [hc, hk, hr, State.reach_ready hs hn]

section
variable {ex : Instr → State → Out} {c : Nat} {s0 s s1 : State} {b : BundleCtx} {i : Instr}

theorem runReady_stalls (hi : (s.core c).seq.instrs = [i]) (hx : ex i (s.setBun ((s.core c).seq.context c)) = .next s1) (hb : s1.bun = some b)
    (hw : b.stall = true) :
    runReady ex c s0 s = .next (s0.modSeq c fun q => { q with stalled := some (q.stalled.getD s.time), released := false }) := by
  unfold runReady
  simp only [hi, runWords_singleton, hx, hb, hw, if_true]

theorem runReady_performs {s2 : State} (hi : (s.core c).seq.instrs = [i]) (hx : ex i (s.setBun ((s.core c).seq.context c)) = .next s1)
    (hb : s1.bun = some b) (hw : b.stall = false) (hf : b.faults = [])
    (hp : ex i ((s1.modSeq c Seq.advance).setBun { b with phase := .perform }) = .next s2) :
    runReady ex c s0 s = .next s2.closeBundle := by
  have hm : (b.faults.map fun f => faultCause f.1).min? = none := by simp [hf]
  unfold runReady
  simp only [hi, runWords_singleton, hx, hb, hm, hp]
  exact if_neg (by simp [hw])

end

-- A tick (R375 to R377) ----------------------------------------------------------------------------------------------

/-- TIME, the device's registers and the script stand. -/
structure SameTime (s t : State) : Prop where
  time : t.time = s.time
  device : t.device = s.device
  script : t.script = s.script

theorem SameTime.refl (s : State) : SameTime s s := ⟨rfl, rfl, rfl⟩
theorem SameTime.trans {a b c : State} (h : SameTime a b) (k : SameTime b c) : SameTime a c :=
  ⟨k.time.trans h.time, k.device.trans h.device, k.script.trans h.script⟩
theorem SameTime.ite {p : Prop} [Decidable p] {s a b : State} (h : SameTime s a) (k : SameTime s b) : SameTime s (if p then a else b) := by
  split
  · exact h
  · exact k
theorem SameTime.foldl {α : Type} {f : State → α → State} (h : ∀ s a, SameTime s (f s a)) (l : List α) (s : State) : SameTime s (l.foldl f s) :=
  List.foldlRecOn l f (.refl s) fun b hb a _ => hb.trans (h b a)

theorem SameTime.modCore (s : State) (c : Nat) (f : Core → Core) : SameTime s (s.modCore c f) := ⟨rfl, rfl, rfl⟩
theorem SameTime.modWarp (s : State) (c w : Nat) (f : Warp → Warp) : SameTime s (s.modWarp c w f) := ⟨rfl, rfl, rfl⟩

theorem SameTime.gateCycles (s : State) (c : Nat) : SameTime s (s.gateCycles c) :=
  .ite (.ite (.refl s) (.modCore s c _)) (.ite (.modCore s c _) (.refl s))
theorem SameTime.gateClocks (s : State) : SameTime s s.gateClocks := .foldl SameTime.gateCycles _ s
theorem SameTime.waitWarps (s : State) (c : Nat) : SameTime s (s.waitWarps c) := .foldl (fun s w => .ite (.modWarp s c w _) (.refl s)) _ s

/-- The count of the cores' clock and its phase are none of the three. -/
theorem SameTime.clock {s t : State} (h : SameTime s t) (n : Nat) : SameTime s { t with clock := n } := ⟨h.time, h.device, h.script⟩
theorem SameTime.phase {s t : State} (h : SameTime s t) (n : Nat) : SameTime s { t with phase := n } := ⟨h.time, h.device, h.script⟩

theorem SameTime.coreEdge (s : State) (c : Nat) : SameTime s (if s.coreRuns c then (s.modCore c Core.tick).waitWarps c else s) :=
  .ite ((SameTime.modCore s c _).trans (.waitWarps _ c)) (.refl s)
theorem SameTime.coreTick (s : State) : SameTime s s.coreTick :=
  have h := SameTime.foldl (fun s (p : Nat × Core) => SameTime.coreEdge s p.1) s.cores s
  h.clock _

/-- A tick turns the clocks of the cores, and then TIME moves on in every power state but PS4. -/
theorem State.tick_eq (s : State) :
    ∃ t, SameTime s t ∧ s.tick = if t.device.pstate = 4 then t else { t with time := t.time + 1 } := by
  have h0 : SameTime s (if s.device.gate = 0 then s else s.gateClocks) := .ite (.refl s) (.gateClocks s)
  unfold State.tick
  refine ⟨_, ?_, rfl⟩
  exact .ite h0 (.ite (h0.phase _) ((h0.trans (.coreTick _)).phase _))

theorem State.tick_time (s : State) : s.tick.time = s.time + if s.device.pstate = 4 then 0 else 1 := by
  obtain ⟨t, h, e⟩ := s.tick_eq
  rw [e, h.device]
  split
  · exact h.time
  · exact congrArg (· + 1) h.time

theorem State.tick_script (s : State) : s.tick.script = s.script := by
  obtain ⟨t, h, e⟩ := s.tick_eq
  rw [e]
  split
  · exact h.script
  · exact h.script

-- The obligation -----------------------------------------------------------------------------------------------------

/-- Settles O58: the step performs the directive that the script names, so each clause is an equation of that directive: an event is its own
meaning; an issue and a bundle are issueAt_of_fetch and runReady in the cases named; a tick is tick_time. -/
theorem stepRunsDecodedInstruction : Obligations.StepRunsDecodedInstruction := by
  intro s rest u
  refine ⟨?_, ?_, ?_, ?_⟩
  · intro i hs
    rw [step_of_script hs]
    exact ⟨fun hc => if_pos hc, fun hc => if_neg (by simp [u, hc])⟩
  · intro core w pc hs here cur
    have hh : u.lanesAt core w pc = here := u.lanesAt_eq core w pc
    rw [step_of_script hs]
    refine ⟨fun hw h => issueAt_idle exec hw (by rw [hh]; exact h), ?_⟩
    intro bs i hr hne hf hl hd ready counted may go
    have hgo : u.convergent core w pc i = go := by
      unfold State.convergent
      rw [hh]
      cases e : Instr.arrivesAsOne i with
      | some lead => simp [go, e, State.ordered_arrivesAsOne e, ready, counted, cur]
      | none => simp [go, e, State.ordered_each e, ready, counted, cur, may]
    have he := issueAt_of_fetch exec hr (hh ▸ hne) (State.fetchInstr_of_decodeBytes hf hl hd)
    rw [hgo] at he
    refine ⟨fun h => he.trans (if_pos h), fun h v hv => ?_⟩
    have ht := he.trans (if_neg h)
    rw [hv] at ht
    exact ⟨fun hend => ht.trans (congrArg _ (if_neg (by simp [hend]))), fun hend => ht.trans (congrArg _ (if_pos hend))⟩
  · intro core h i hs hc hk hr hq hn u1 v b hi v1 b1 hx hb
    have hb' : step s = runReady exec core u1 v := (step_of_script hs).trans (bundleAt_ready exec hc hk hr hq hn)
    exact ⟨fun hw => hb'.trans (runReady_stalls hi hx hb hw), fun hw hf v2 hp => hb'.trans (runReady_performs hi hx hb hw hf hp)⟩
  · intro hs
    exact ⟨u.tick, step_of_script hs, u.tick_time, u.tick_script⟩

end Sys2Proof.Machine

/-!
O7: the rounding of R85 and R86 on the values that need none, and the invalid operations of R74 and R106. First what a code is (its sign and its
magnitude) and what it decodes to, by the five cases zero, subnormal, normal, infinite and NaN; then what the exact sums and products of the
special values are; then that the rounding leaves the value of a code at its own exponent.
-/
namespace Sys2Proof

-- Codes --------------------------------------------------------------------------------------------------------------

/-- A code is the sum of its sign bit and its magnitude. -/
theorem Fmt.signBit_neg_add_mag {f : Fmt} {c : Nat} (hc : c < 2 ^ f.bits) : f.signBit (f.neg c) + f.mag c = c := by
  have hpow : 2 ^ f.bits = 2 * 2 ^ (f.bits - 1) := by cases f <;> rfl
  unfold Fmt.signBit Fmt.neg Fmt.mag
  rw [Nat.mod_eq_of_lt hc]
  by_cases h : 2 ^ (f.bits - 1) ≤ c
  · rw [if_pos (decide_eq_true h), Nat.mod_eq_sub_mod h, Nat.mod_eq_of_lt (by omega)]
    omega
  · rw [if_neg (by simpa using h), Nat.mod_eq_of_lt (by omega), Nat.zero_add]

/-- R74: only E4M3 has no infinities, and an infinity stands next above the largest finite value. -/
theorem Fmt.isInf_iff {f : Fmt} {c : Nat} : f.isInf c = true ↔ f ≠ .e4m3 ∧ f.mag c = f.maxCode + 1 := by
  cases f <;> simp [Fmt.isInf]

theorem Fmt.isNaN_eq_false_of_mag_le {f : Fmt} {c : Nat} (h : f.mag c ≤ f.maxCode) : f.isNaN c = false := by
  cases f <;> simp [Fmt.isNaN, Fmt.maxCode] at h ⊢ <;> omega

theorem Fmt.isInf_eq_false_of_mag_le {f : Fmt} {c : Nat} (h : f.mag c ≤ f.maxCode) : f.isInf c = false := by
  rw [Bool.eq_false_iff, Ne, Fmt.isInf_iff]
  omega

theorem Fmt.isNaN_eq_false_of_isInf {f : Fmt} {c : Nat} (h : f.isInf c = true) : f.isNaN c = false := by
  obtain ⟨hf, hm⟩ := Fmt.isInf_iff.mp h
  cases f <;> simp_all [Fmt.isNaN]

/-- Every magnitude up to the largest finite one is a finite value's, and no other is. -/
theorem Fmt.mag_le_maxCode {f : Fmt} {c : Nat} (hn : f.isNaN c = false) (hi : f.isInf c = false) : f.mag c ≤ f.maxCode := by
  have hlt : f.mag c < 2 ^ (f.bits - 1) := Nat.mod_lt _ (Nat.two_pow_pos _)
  cases f <;> simp [Fmt.isNaN, Fmt.isInf, Fmt.maxCode, Fmt.bits] at hn hi hlt ⊢ <;> omega

theorem Fmt.decode_of_isNaN {f : Fmt} {c : Nat} (h : f.isNaN c = true) : f.decode c = .nan := if_pos h

theorem Fmt.decode_of_isInf {f : Fmt} {c : Nat} (h : f.isInf c = true) : f.decode c = .inf (f.neg c) := by
  simp [Fmt.decode, h, Fmt.isNaN_eq_false_of_isInf h]

theorem Fmt.decode_of_subnormal {f : Fmt} {c : Nat} (hle : f.mag c ≤ f.maxCode) (h : f.mag c < 2 ^ f.mbits) :
    f.decode c = .fin (f.neg c) (f.mag c) f.minExp := by
  simp [Fmt.decode, Fmt.isNaN_eq_false_of_mag_le hle, Fmt.isInf_eq_false_of_mag_le hle, Nat.div_eq_of_lt h, Nat.mod_eq_of_lt h]

theorem Fmt.decode_of_mag_zero {f : Fmt} {c : Nat} (h : f.mag c = 0) : f.decode c = .fin (f.neg c) 0 f.minExp := by
  rw [Fmt.decode_of_subnormal (by omega) (by rw [h]; exact Nat.two_pow_pos _), h]

theorem Fmt.decode_of_normal {f : Fmt} {c : Nat} (hle : f.mag c ≤ f.maxCode) (h : 2 ^ f.mbits ≤ f.mag c) :
    f.decode c = .fin (f.neg c) (2 ^ f.mbits + f.mag c % 2 ^ f.mbits) (f.minExp + (f.mag c / 2 ^ f.mbits : Nat) - 1) := by
  have hex : f.mag c / 2 ^ f.mbits ≠ 0 := Nat.ne_of_gt (Nat.div_pos h (Nat.two_pow_pos _))
  simp only [Fmt.decode, Fmt.isNaN_eq_false_of_mag_le hle, Fmt.isInf_eq_false_of_mag_le hle, Bool.false_eq_true, if_false, if_neg hex]

-- Exact sums and products of special values --------------------------------------------------------------------------

@[simp] theorem FV.add_nan_left (rm : RM) (v : FV) : FV.add rm .nan v = .nan := by cases v <;> rfl

@[simp] theorem FV.add_nan_right (rm : RM) (v : FV) : FV.add rm v .nan = .nan := by cases v <;> rfl

@[simp] theorem FV.mul_nan_left (v : FV) : FV.mul .nan v = .nan := by cases v <;> rfl

@[simp] theorem FV.mul_nan_right (v : FV) : FV.mul v .nan = .nan := by cases v <;> rfl

@[simp] theorem FV.neg_nan : FV.neg .nan = .nan := rfl

theorem FV.add_inf_inf_of_ne {rm : RM} {s t : Bool} (h : s ≠ t) : FV.add rm (.inf s) (.inf t) = .nan := if_neg h

@[simp] theorem FV.mul_inf_zero (s t : Bool) (e : Int) : FV.mul (.inf s) (.fin t 0 e) = .nan := rfl

@[simp] theorem FV.mul_zero_inf (s t : Bool) (e : Int) : FV.mul (.fin t 0 e) (.inf s) = .nan := rfl

/-- R85: opposite values of one magnitude cancel to +0, or to -0 under RD. -/
theorem FV.add_opposite (rm : RM) (m : Nat) (e : Int) : FV.add rm (.fin false m e) (.fin true m e) = .fin (rm == .rd) 0 0 := by
  have hsum : scaled false m e (min e e) + scaled true m e (min e e) = 0 := Int.add_right_neg _
  simp only [FV.add, hsum, if_true, Bool.false_eq_true, if_false]

-- Rounding -----------------------------------------------------------------------------------------------------------

theorem roundAt_self (rm : RM) (neg : Bool) (m : Nat) (e : Int) : roundAt rm neg m e e = m := by
  simp [roundAt]

/-- A magnitude whose rounding position is its own exponent, and whose code is in range, is not rounded. -/
theorem Fmt.round_of_exact {f : Fmt} {rm : RM} {sat neg : Bool} {m : Nat} {e : Int} (hm : m ≠ 0)
    (hq : max ((Nat.log2 m : Int) + e - f.mbits) f.minExp = e) (htop : (Nat.log2 m : Int) + e ≤ f.bias + 2)
    (hc : (e - f.minExp).toNat * 2 ^ f.mbits + m ≤ f.maxCode) :
    f.round rm sat neg m e = f.signBit neg + ((e - f.minExp).toNat * 2 ^ f.mbits + m) := by
  simp only [Fmt.round, if_neg hm, if_neg (Int.not_lt.mpr htop), hq, roundAt_self, if_neg (Nat.not_lt.mpr hc)]

theorem Fmt.round_subnormal {f : Fmt} {rm : RM} {sat neg : Bool} {m : Nat} (h : m < 2 ^ f.mbits) :
    f.round rm sat neg m f.minExp = f.signBit neg + m := by
  by_cases hm : m = 0
  · simp [Fmt.round, hm]
  · have hlog : Nat.log2 m < f.mbits := (Nat.log2_lt hm).mpr h
    have hmax : 2 ^ f.mbits ≤ f.maxCode := by cases f <;> decide
    have hcode : (f.minExp - f.minExp).toNat * 2 ^ f.mbits + m = m := by simp
    rw [Fmt.round_of_exact hm, hcode]
    · omega
    · unfold Fmt.minExp; omega
    · omega

/-- A significand with its leading bit, at the exponent field ex: its code is the field and the fraction side by side. -/
theorem Fmt.round_normal {f : Fmt} {rm : RM} {sat neg : Bool} {ex fr : Nat} (hfr : fr < 2 ^ f.mbits) (hex : 0 < ex)
    (hle : ex * 2 ^ f.mbits + fr ≤ f.maxCode) :
    f.round rm sat neg (2 ^ f.mbits + fr) (f.minExp + ex - 1) = f.signBit neg + (ex * 2 ^ f.mbits + fr) := by
  have hpow : 0 < 2 ^ f.mbits := Nat.two_pow_pos _
  have hm : 2 ^ f.mbits + fr ≠ 0 := by omega
  have hlog : Nat.log2 (2 ^ f.mbits + fr) = f.mbits := (Nat.log2_eq_iff hm).mpr ⟨by omega, by rw [Nat.pow_succ]; omega⟩
  have hbound : ex < 2 * f.bias + 2 := by
    have hmax : f.maxCode < (2 * f.bias + 2) * 2 ^ f.mbits := by cases f <;> decide
    exact Nat.lt_of_mul_lt_mul_right (a := 2 ^ f.mbits) (by omega)
  have hcode : (f.minExp + ex - 1 - f.minExp).toNat * 2 ^ f.mbits + (2 ^ f.mbits + fr) = ex * 2 ^ f.mbits + fr := by
    rw [show (f.minExp + ex - 1 - f.minExp).toNat = ex - 1 by omega, ← Nat.add_assoc, ← Nat.succ_mul, Nat.succ_eq_add_one,
      Nat.sub_add_cancel hex]
  rw [Fmt.round_of_exact hm, hcode]
  · omega
  · unfold Fmt.minExp; omega
  · rwa [hcode]

/-- Rounding gives the code of a finite value back, in every mode: its exponent is the one the rounding chooses. -/
theorem Fmt.ofFV_decode_of_finite {f : Fmt} {rm : RM} {sat : Bool} {c : Nat} (hc : c < 2 ^ f.bits) (hn : f.isNaN c = false)
    (hi : f.isInf c = false) : f.ofFV rm sat (f.decode c) = c := by
  have hle := Fmt.mag_le_maxCode hn hi
  suffices h : f.ofFV rm sat (f.decode c) = f.signBit (f.neg c) + f.mag c from h.trans (Fmt.signBit_neg_add_mag hc)
  by_cases hsub : f.mag c < 2 ^ f.mbits
  · rw [Fmt.decode_of_subnormal hle hsub]
    exact Fmt.round_subnormal hsub
  · have hnorm : 2 ^ f.mbits ≤ f.mag c := Nat.not_lt.mp hsub
    have hmag : f.mag c / 2 ^ f.mbits * 2 ^ f.mbits + f.mag c % 2 ^ f.mbits = f.mag c := Nat.div_add_mod' _ _
    rw [Fmt.decode_of_normal hle hnorm]
    exact (Fmt.round_normal (Nat.mod_lt _ (Nat.two_pow_pos _)) (Nat.div_pos hnorm (Nat.two_pow_pos _)) (Nat.le_trans (Nat.le_of_eq hmag) hle)).trans
      (congrArg _ hmag)

theorem Fmt.infCode_of_ne_e4m3 {f : Fmt} (h : f ≠ .e4m3) (neg : Bool) : f.infCode false neg = f.signBit neg + f.maxCode + 1 := by
  cases f
  case e4m3 => exact absurd rfl h
  all_goals rfl

theorem Fmt.ofFV_decode_of_isInf {f : Fmt} {rm : RM} {c : Nat} (hc : c < 2 ^ f.bits) (h : f.isInf c = true) :
    f.ofFV rm false (f.decode c) = c := by
  obtain ⟨hf, hmag⟩ := Fmt.isInf_iff.mp h
  rw [Fmt.decode_of_isInf h]
  calc f.infCode false (f.neg c) = f.signBit (f.neg c) + f.mag c := by rw [Fmt.infCode_of_ne_e4m3 hf, hmag, Nat.add_assoc]
    _ = c := Fmt.signBit_neg_add_mag hc

/-- Table 4.6 without SAT. -/
theorem Fmt.overflow_unsaturated (f : Fmt) (rm : RM) (neg : Bool) : f.overflow rm false neg =
    if rm = .rz ∨ (rm = .ru ∧ neg = true) ∨ (rm = .rd ∧ neg = false) then f.signBit neg + f.maxCode
    else if f = .e4m3 then f.nanCode else f.signBit neg + f.maxCode + 1 := by
  have hinf : f.infCode false neg = if f = .e4m3 then f.nanCode else f.signBit neg + f.maxCode + 1 := by
    split
    · next h => subst h; rfl
    · next h => exact Fmt.infCode_of_ne_e4m3 h neg
  rw [← hinf]
  cases rm <;> cases neg <;> rfl

/-- The last row of Table 4.6. -/
theorem Fmt.overflow_saturated (f : Fmt) (rm : RM) (neg : Bool) : f.overflow rm true neg = f.signBit neg + f.maxCode := by
  cases rm <;> cases neg <;> rfl

-- Invalid operations on codes (R74, R106) ----------------------------------------------------------------------------

section
variable {f : Fmt} {rm : RM} {sat : Bool} {a b c : Nat}

theorem Fmt.addC_of_isNaN (h : f.isNaN a = true ∨ f.isNaN b = true) : f.addC rm sat a b = f.nanCode := by
  unfold Fmt.addC
  rcases h with h | h <;> rw [Fmt.decode_of_isNaN h]
  · rw [FV.add_nan_left, Fmt.ofFV]
  · rw [FV.add_nan_right, Fmt.ofFV]

theorem Fmt.subC_of_isNaN (h : f.isNaN a = true ∨ f.isNaN b = true) : f.subC rm sat a b = f.nanCode := by
  unfold Fmt.subC
  rcases h with h | h <;> rw [Fmt.decode_of_isNaN h]
  · rw [FV.add_nan_left, Fmt.ofFV]
  · rw [FV.neg_nan, FV.add_nan_right, Fmt.ofFV]

theorem Fmt.mul_decode_of_isNaN (h : f.isNaN a = true ∨ f.isNaN b = true) : FV.mul (f.decode a) (f.decode b) = .nan := by
  rcases h with h | h <;> rw [Fmt.decode_of_isNaN h]
  · exact FV.mul_nan_left _
  · exact FV.mul_nan_right _

theorem Fmt.mul_decode_inf_zero (ha : f.isInf a = true) (hb : f.mag b = 0) :
    FV.mul (f.decode a) (f.decode b) = .nan ∧ FV.mul (f.decode b) (f.decode a) = .nan := by
  rw [Fmt.decode_of_isInf ha, Fmt.decode_of_mag_zero hb]
  exact ⟨FV.mul_inf_zero _ _ _, FV.mul_zero_inf _ _ _⟩

theorem Fmt.mulC_of_mul_nan (h : FV.mul (f.decode a) (f.decode b) = .nan) : f.mulC rm sat a b = f.nanCode := by
  rw [Fmt.mulC, h, Fmt.ofFV]

/-- R106: an invalid product decides a fused sum, even where C is NaN. -/
theorem Fmt.fmaC_of_mul_nan (h : FV.mul (f.decode a) (f.decode b) = .nan) : f.fmaC rm sat a b c = f.nanCode := by
  rw [Fmt.fmaC, h, FV.add_nan_left, Fmt.ofFV]

theorem Fmt.fmaC_of_isNaN_addend (h : f.isNaN c = true) : f.fmaC rm sat a b c = f.nanCode := by
  rw [Fmt.fmaC, Fmt.decode_of_isNaN h, FV.add_nan_right, Fmt.ofFV]

theorem Fmt.addC_of_isInf (ha : f.isInf a = true) (hb : f.isInf b = true) (h : f.neg a ≠ f.neg b) : f.addC rm sat a b = f.nanCode := by
  rw [Fmt.addC, Fmt.decode_of_isInf ha, Fmt.decode_of_isInf hb, FV.add_inf_inf_of_ne h, Fmt.ofFV]

theorem Fmt.subC_of_isInf (ha : f.isInf a = true) (hb : f.isInf b = true) (h : f.neg a = f.neg b) : f.subC rm sat a b = f.nanCode := by
  rw [Fmt.subC, Fmt.decode_of_isInf ha, Fmt.decode_of_isInf hb, h, FV.neg, FV.add_inf_inf_of_ne (by simp), Fmt.ofFV]

end

-- The obligation -----------------------------------------------------------------------------------------------------

/-- Settles O7: each clause is one of the lemmas above; the first two rest on the value of a code being exact at its own exponent. -/
theorem floatRules : Obligations.FloatRules := by
  refine ⟨fun f rm sat c => Fmt.ofFV_decode_of_finite, fun f rm c => Fmt.ofFV_decode_of_isInf, ?nan, ?fusedNaN, ?infinities, ?infTimesZero,
    FV.add_opposite, Fmt.overflow_unsaturated, Fmt.overflow_saturated⟩
  case nan =>
    intro f rm sat a b h
    exact ⟨Fmt.addC_of_isNaN h, Fmt.subC_of_isNaN h, Fmt.mulC_of_mul_nan (Fmt.mul_decode_of_isNaN h)⟩
  case fusedNaN =>
    intro f rm sat a b c h
    rcases or_assoc.mpr h with hab | hc
    · exact Fmt.fmaC_of_mul_nan (Fmt.mul_decode_of_isNaN hab)
    · exact Fmt.fmaC_of_isNaN_addend hc
  case infinities =>
    intro f rm sat a b ha hb
    exact ⟨Fmt.addC_of_isInf ha hb, Fmt.subC_of_isInf ha hb⟩
  case infTimesZero =>
    intro f rm sat a b ha hb
    obtain ⟨hab, hba⟩ := Fmt.mul_decode_inf_zero ha hb
    exact ⟨Fmt.mulC_of_mul_nan hab, Fmt.mulC_of_mul_nan hba, fun _ => Fmt.fmaC_of_mul_nan hab⟩

end Sys2Proof

/-!
O47: what the eviction of a dirty line of a die's L2 sends outside the package (R192, R309). The new request takes the state's next number, and the
mark that no thread asked for it is set by that number. So the requests before it stand only where none of them has the number already, which the
obligation does not ask of its state; it fails where one has.
-/
namespace Sys2Proof.Machine

theorem exec_evictionWriteback (core idx : Nat) (s : State) : exec (.evictionWriteback core idx) s = execEvictionWriteback core idx s := by
  rfl

theorem replaceIf_eq_self {α : Type} {p : α → Bool} {f : α → α} {l : List α} (h : ∀ x ∈ l, p x = false) : replaceIf p f l = l :=
  (List.map_congr_left fun x hx => if_neg (by simp [h x hx])).trans (List.map_id' l)

/-- The request that carries the dirty bytes of an L2 line to a target outside the package. -/
def State.evictionReq (s : State) (x : L2Line) : Req :=
  { id := s.nextId, core := 96 * x.die, warp := 64, lane := 0, launch := noLaunch, team := 0, ctx := x.ctx, inc := x.inc, attr := x.attr, va := x.va,
    pa := x.pa, act := .writeback x.data x.dirty x.by_, stage := .sent, passed := 0, acq := false, noInstall := false, noL2 := false, orphan := true,
    seen := false, freed := false, window := none, sentAt := s.time, from_ := 64, laid := [], turn := none }

/-- The mark falls on every request with the number of the new one, earlier ones too. -/
theorem State.sendEviction_eq (s : State) (x : L2Line) :
    s.sendEviction x =
      { s with reqs := replaceIf (fun r => r.id == s.nextId) (fun r => { r with orphan := true }) s.reqs ++ [s.evictionReq x],
               nextId := s.nextId + 1 } := by
  simp [State.sendEviction, State.sendAs, State.fresh, State.laidFor, State.evictionReq, replaceIf]

section
variable {s : State} {die idx : Nat} {x : L2Line}

/-- R192: a dirty line whose page may be written leaves a die's L2 for a host or peer target as a request. -/
theorem evictionWriteback_outside (hx : s.l2[idx]? = some x) (hdie : x.die = die) (hdirty : x.dirty.contains true = true)
    (hw : s.l2Writable x = true) (htgt : x.attr.tgt ≠ .hbm) :
    exec (.evictionWriteback (192 + die) idx) s = .next (({ s with l2 := s.l2.eraseIdx idx } : State).sendEviction x) := by
  have hgo : exec (.evictionWriteback (192 + die) idx) s = .next (s.evictL2 idx x) := by
    rw [exec_evictionWriteback, execEvictionWriteback, if_pos (Nat.le_add_right 192 die), hx]
    exact if_pos (hdie.trans (Nat.add_sub_cancel_left 192 die).symm)
  rw [hgo, State.evictL2, hdirty, hw]
  cases ht : x.attr.tgt with
  | hbm => exact absurd ht htgt
  | host => rfl
  | peer c => rfl

/-- The last clause of O47 holds where no request in flight has the next number. -/
theorem evictionWriteback_outside_of_fresh (hx : s.l2[idx]? = some x) (hdie : x.die = die) (hdirty : x.dirty.contains true = true)
    (hw : s.l2Writable x = true) (htgt : x.attr.tgt ≠ .hbm) (hfresh : ∀ r ∈ s.reqs, r.id ≠ s.nextId) :
    exec (.evictionWriteback (192 + die) idx) s =
      .next { s with l2 := s.l2.eraseIdx idx, reqs := s.reqs ++ [s.evictionReq x], nextId := s.nextId + 1 } := by
  have hkeep : replaceIf (fun r => r.id == s.nextId) (fun r => { r with orphan := true }) s.reqs = s.reqs :=
    replaceIf_eq_self fun r hr => beq_false_of_ne (hfresh r hr)
  rw [evictionWriteback_outside hx hdie hdirty hw htgt, State.sendEviction_eq]
  dsimp only
  rw [hkeep]
  rfl

end

-- The counterexample -------------------------------------------------------------------------------------------------

/-- A writable SOFT page of host memory, and a dirty line of it. -/
def hostPage : Attr :=
  { tgt := .host, ord := .rc, soft := true, cmp := false, doc := false, enc := false, r := true, w := true, x := false, base := 0x5000, size := 4096 }
def hostLine : L2Line :=
  { die := 0, ctx := 0, inc := 0, va := 0x5000, pa := 0x5000, attr := hostPage, data := List.replicate 128 7, psn := noSectors, valid := allSectors,
    dirty := List.replicate 128 true, by_ := [], key := 0 }

/-- A load of the page by lane 0, which wants its data. -/
def hostLoad (id : Nat) : Req :=
  { id, core := 0, warp := 0, lane := 0, launch := 0, team := 0, ctx := 0, inc := 0, attr := hostPage, va := 0x5080, pa := 0x5080,
    act := .load .b32 .z false, stage := .sent, passed := 0, acq := false, noInstall := false, noL2 := false, orphan := false, seen := false,
    freed := false, window := none, sentAt := 0, from_ := 0, laid := [], turn := none }

/-- The line in the L2 of die 0, and the load in flight under the number that the state gives next. -/
def numberInUse : State :=
  { State.reset with
    l2 := [hostLine], tlb := [{ die := 0, ctx := 0, va := 0x5000, oa := 0x5000, attr := hostPage, fn := 1 }], reqs := [hostLoad State.reset.nextId] }

/-- The eviction orphans the load. -/
theorem evictionWriteback_numberInUse :
    exec (.evictionWriteback 192 0) numberInUse =
      .next { numberInUse with l2 := [], reqs := [{ hostLoad 0 with orphan := true }, numberInUse.evictionReq hostLine], nextId := 1 } := by
  have hrun := evictionWriteback_outside (s := numberInUse) (die := 0) (idx := 0) (x := hostLine) rfl rfl (by decide) (by decide) (by decide)
  rw [State.sendEviction_eq] at hrun
  exact hrun

/-- Refutes O47: the last clause has an eviction from a die's L2 leave the requests in flight as they are, but one that has the next number already
is orphaned. The obligation asks nothing of its state's numbers; where no request in flight has the next one, the clause holds by
evictionWriteback_outside_of_fresh. -/
theorem not_leases : ¬ Obligations.Leases := by
  intro h
  obtain ⟨-, -, -, hl2⟩ := h numberInUse
  obtain ⟨-, -, -, houtside⟩ := hl2 0 0 hostLine rfl rfl
  obtain ⟨r, hrun, -⟩ := houtside (by decide) (by decide) (by decide)
  have hreqs : [{ hostLoad 0 with orphan := true }, numberInUse.evictionReq hostLine] = [hostLoad 0, r] :=
    congrArg State.reqs (Host.Outcome.next.inj (evictionWriteback_numberInUse.symm.trans hrun))
  have horphan : true = false := congrArg Req.orphan (List.cons.inj hreqs).1
  exact absurd horphan (by decide)

end Sys2Proof.Machine
